-- ==== Sys2Proof/Word.lean ====
section
/-! DEFINITION. The plain values the motion core's operations carry: bytes and frames (R6, R52), action rows
and action sets (R28, R29). -/

namespace Sys2Proof

/-- One byte of a frame or of the receive buffer: an unsigned integer 0 to 255 (R6, R10). -/
abbrev Byte := BitVec 8

/-- A frame, or any byte sequence of the line, first byte on the wire first (R10, R52). -/
abbrev Frame := List Byte

/-- An action-table path: an opaque string (R38). -/
abbrev Path := String

/-- An ActionRow `(dur, pos[1..m])` (R28): a natural number of milliseconds and one position per column. -/
structure ActionRow where
  dur : Nat
  pos : List Int
  deriving DecidableEq, Repr

/-- An ActionSet `(path, repeat, locks, rows)` (R29). `locks` is the finite map from column number to
position: the first entry of a column counts. -/
structure ActionSet where
  path  : Path
  reps  : Nat
  locks : List (Int × Int)
  rows  : List ActionRow
  deriving DecidableEq, Repr

end Sys2Proof
end

