-- ==== Sys2Proof/Config.lean ====
section
/-! DEFINITION. The parameters of R5, each a field of `Config`, which State carries so that every statement about a
state holds for every configuration (log 1); their defaults; the constraints on them stand in WellFormed. At the end,
the free values of the environment: opaque, so that nothing can be proved of them (log 5, 6, 17). -/

namespace Sys2Proof

/-! ## Types of the parameters -/

/-- An electrical level of a pin (EN_ACTIVE). -/
inductive Level | low | high
  deriving DecidableEq, Repr

/-- Parity of UART_FRAMING. -/
inductive Parity | none | even | odd
  deriving DecidableEq, Repr

/-- UART_FRAMING: the character framing on the line (R41, D42). -/
structure UartFraming where
  dataBits : Nat
  parity   : Parity
  stopBits : Nat
  lsbFirst : Bool
  deriving DecidableEq, Repr

/-- TICK_ROUND: what the rounding of `durationMs / TICK_MS` does with a tie (R101, D18, log 19). -/
inductive TickRound
  /-- Round half to even: the spec's default. -/
  | halfToEven
  /-- Round half away from zero. -/
  | halfAwayFromZero
  /-- Round half toward zero. -/
  | halfTowardZero
  deriving DecidableEq, Repr

/-- CHANNEL_KIND(k): what column k of an action set drives (R39). -/
inductive ChannelKind | serial | pwm
  deriving DecidableEq, Repr

/-- CMD_CODE of the 18 commands whose number the source does not give; MOVE_TIME_WRITE is 0x01 for every
configuration (R58). -/
structure CmdCodes where
  moveTimeRead      : Byte
  moveStop          : Byte
  idWrite           : Byte
  idRead            : Byte
  angleOffsetAdjust : Byte
  angleOffsetWrite  : Byte
  angleOffsetRead   : Byte
  angleLimitWrite   : Byte
  angleLimitRead    : Byte
  vinLimitWrite     : Byte
  vinLimitRead      : Byte
  tempMaxLimitWrite : Byte
  tempMaxLimitRead  : Byte
  tempRead          : Byte
  vinRead           : Byte
  posRead           : Byte
  loadOrUnloadWrite : Byte
  loadOrUnloadRead  : Byte
  deriving DecidableEq, Repr

/-- The parameters of R5. -/
structure Config where
  /-- HEADER, first byte. -/
  header1 : Byte
  /-- HEADER, second byte. -/
  header2 : Byte
  /-- ID_MAX_UNICAST (log 32). -/
  idMaxUnicast : Int
  /-- ID_BROADCAST (log 32). -/
  idBroadcast : Int
  /-- CMD_CODE (OPEN, D2). -/
  codes : CmdCodes
  /-- RX_CHECKSUM_CHECK (D3). -/
  rxChecksumCheck : Bool
  /-- BAUD, bit/s. -/
  baud : Nat
  /-- UART_FRAMING (D42). -/
  framing : UartFraming
  /-- READ_RETRY_DEFAULT (I3). -/
  readRetryDefault : Nat
  /-- T_REQ, ms (I5). -/
  tReq : Rat
  /-- T_SETTLE, ms (I5). -/
  tSettle : Rat
  /-- MIN_RX_BYTES: fewest available bytes an attempt will decode. -/
  minRxBytes : Nat
  /-- T_LINE_RESET, ms (OPEN). -/
  tLineReset : Nat
  /-- T_CLIENT_RESET, ms (OPEN). -/
  tClientReset : Nat
  /-- EN_ACTIVE (D9). -/
  enActive : Level
  /-- POS_MIN. -/
  posMin : Int
  /-- POS_MAX. -/
  posMax : Int
  /-- SDUR_MIN, ms. -/
  sdurMin : Int
  /-- SDUR_MAX, ms. -/
  sdurMax : Int
  /-- N_PWM (OPEN, at least 1, D27). -/
  nPwm : Nat
  /-- PW_MIN, µs. -/
  pwMin : Int
  /-- PW_MAX, µs. -/
  pwMax : Int
  /-- Bounds `(c, lo, hi)` the integrator configures for single channels instead of PW_MIN and PW_MAX
  (R27, log 21). -/
  pwBounds : List (Nat × Int × Int)
  /-- PW_INIT, µs (OPEN, a rational). -/
  pwInit : Rat
  /-- DEV_INIT, µs (D26). -/
  devInit : Int
  /-- DEV_LIMIT, µs. -/
  devLimit : Int
  /-- DEV_RANGE_INCLUSIVE (C1, D23). -/
  devRangeInclusive : Bool
  /-- TICK_MS, ms. -/
  tickMs : Nat
  /-- PDUR_MIN, ms. -/
  pdurMin : Int
  /-- PDUR_MAX, ms. -/
  pdurMax : Int
  /-- TICK_ROUND (D18). -/
  tickRound : TickRound
  /-- IDLE: the remainingTicks sentinel of an idle channel (R24, D22). -/
  idleTicks : Int
  /-- SETPOS_SPLIT_READ (D25). -/
  setposSplitRead : Bool
  /-- CHANNEL_KIND: the columns that drive a PWM channel; every other column is Serial (D28, log 20). -/
  pwmColumns : List Nat
  /-- BLOCKING_CALLBACK (D34). -/
  blockingCallback : Bool
  /-- TIMED (D40, log 17). -/
  timed : Bool
  deriving DecidableEq, Repr

/-- The default CMD_CODE values (R58, G1): PRESUMED by the spec itself from the LewanSoul / Hiwonder
bus-servo family (log 3). -/
def CmdCodes.default : CmdCodes where
  moveTimeRead      := 0x02
  moveStop          := 0x0C
  idWrite           := 0x0D
  idRead            := 0x0E
  angleOffsetAdjust := 0x11
  angleOffsetWrite  := 0x12
  angleOffsetRead   := 0x13
  angleLimitWrite   := 0x14
  angleLimitRead    := 0x15
  vinLimitWrite     := 0x16
  vinLimitRead      := 0x17
  tempMaxLimitWrite := 0x18
  tempMaxLimitRead  := 0x19
  tempRead          := 0x1A
  vinRead           := 0x1B
  posRead           := 0x1C
  loadOrUnloadWrite := 0x1F
  loadOrUnloadRead  := 0x20

/-- The defaults of R5. N_PWM = 1 and PW_INIT = 1500 are those of programs 3 and 5 of 95_test_vectors.md,
T_LINE_RESET and T_CLIENT_RESET are 0: DESIGN CHOICE for the OPEN parameters (log 2). -/
def Config.default : Config where
  header1           := 0x55
  header2           := 0x55
  idMaxUnicast      := 253
  idBroadcast       := 254
  codes             := CmdCodes.default
  rxChecksumCheck   := false
  baud              := 115200
  framing           := { dataBits := 8, parity := .none, stopBits := 1, lsbFirst := true }
  readRetryDefault  := 50
  tReq              := 34 / 100
  tSettle           := 5
  minRxBytes        := 5
  tLineReset        := 0
  tClientReset      := 0
  enActive          := .high
  posMin            := 0
  posMax            := 1000
  sdurMin           := 0
  sdurMax           := 30000
  nPwm              := 1
  pwMin             := 50
  pwMax             := 2500
  pwBounds          := []
  pwInit            := 1500
  devInit           := 0
  devLimit          := 300
  devRangeInclusive := false
  tickMs            := 20
  pdurMin           := 20
  pdurMax           := 30000
  tickRound         := .halfToEven
  idleTicks         := -1
  setposSplitRead   := false
  pwmColumns        := []
  blockingCallback  := false
  timed             := false

/-! ## Free values of the environment -/

/-- A BUS draw (R45, I8) beyond the draws that State lists: any byte sequence (log 5). -/
opaque Config.freeBusBytes : Nat → Frame

/-- A STORE draw (R109, I9) beyond those that State lists: any rows, or none (log 6). -/
opaque Config.freeStoreAnswer : Nat → Option (List ActionRow)

/-- By how many µs a delay of the timed refinement exceeds its lower bound (D40, log 17). -/
opaque Config.freeDelay : Nat → Nat

end Sys2Proof
end

