-- ==== Sys2Proof/Syntax.lean ====
section
/-! DEFINITION. The instructions: one constructor per row of spec/opcode_table.json (R61 for the host
operations, R58 for the wire commands), with the errors (R123) and results (R62) they name. -/

namespace Sys2Proof

/-- The 19 servo commands of R58. -/
inductive Command
  | moveTimeWrite | moveTimeRead | moveStop | idWrite | idRead
  | angleOffsetAdjust | angleOffsetWrite | angleOffsetRead
  | angleLimitWrite | angleLimitRead | vinLimitWrite | vinLimitRead
  | tempMaxLimitWrite | tempMaxLimitRead | tempRead | vinRead | posRead
  | loadOrUnloadWrite | loadOrUnloadRead
  deriving DecidableEq, Repr

/-- The operations a caller may issue and whose end appends RESULT (R33, R61). -/
inductive HostOp
  | encode | decode | twrite | tread | lineReset
  | busSetId | busGetId | busSetPosition | busStop | busSetDeviation | busSaveDeviation | busGetDeviation
  | busSetAngleLimit | busGetAngleLimit | busSetVinLimit | busGetVinLimit | busSetTempLimit | busGetTempLimit
  | busGetPosition | busGetTemp | busGetVin | busUnload | busGetLoadState | busReset
  | pwmSetPosition | pwmSetDeviation | pwmGetDeviation
  | seqLoad | seqPlay
  deriving DecidableEq, Repr

/-- Which operand an ENCODE_RANGE error records (R65, R123). -/
inductive EncodeOperand
  | deviceId | commandCode | parameterCount | parameterValue
  deriving DecidableEq, Repr

/-- The errors of R123, each with the value it records. -/
inductive Err
  | encodeRange (which : EncodeOperand)
  | budgetRange (budget : Int)
  | pwRange (w : Int)
  | durationRange (d : Int)
  | deviationRange (dv : Int)
  | channelRange (c : Int)
  | repeatRange (r : Int)
  | communicationTimeout
  | malformedFrame
  | resourceNotFound (path : Path)
  deriving DecidableEq, Repr

/-- How a playback ends (R30, R32, R117). -/
inductive JobOutcome
  | ok
  | fail (e : Err)
  deriving DecidableEq, Repr

/-- The results of R62: what an operation returns, or the error it raises. -/
inductive Result
  /-- `Done`. -/
  | done
  /-- The frame ENCODE returns. -/
  | frame (f : Frame)
  | ack
  | value (v : Int)
  | valuePair (a b : Int)
  /-- DECODE's `Error`: a MalformedFrame (R67). -/
  | error
  /-- `Timeout`: the CommunicationTimeout value (R125). -/
  | timeout
  /-- The ActionSet SEQ_LOAD returns. -/
  | actionSet (s : ActionSet)
  /-- The `Handle(j)` of a non-blocking SEQ_PLAY. -/
  | handle (j : Nat)
  /-- `raise E` (R11). -/
  | raised (e : Err)
  deriving DecidableEq, Repr

/-- The instructions of the motion core. Numeric operands are mathematical integers (R6, D48); an optional
operand is an `Option` (R62, R63). -/
inductive Instr
  -- wire commands (R58): the operands are the fields the frame carries
  | moveTimeWrite (id pos dur : Int)
  | moveTimeRead (id : Int)
  | moveStop (id : Int)
  | idWrite (id newId : Int)
  | idRead (id : Int)
  | angleOffsetAdjust (id dev : Int)
  | angleOffsetWrite (id : Int)
  | angleOffsetRead (id : Int)
  | angleLimitWrite (id lo hi : Int)
  | angleLimitRead (id : Int)
  | vinLimitWrite (id lo hi : Int)
  | vinLimitRead (id : Int)
  | tempMaxLimitWrite (id t : Int)
  | tempMaxLimitRead (id : Int)
  | tempRead (id : Int)
  | vinRead (id : Int)
  | posRead (id : Int)
  | loadOrUnloadWrite (id v : Int)
  | loadOrUnloadRead (id : Int)
  -- codec (R65, R67)
  | encode (id cmd : Int) (ps : List Int)
  | decode (bytes : Frame) (expectedCmd : Int)
  -- transport (R72, R73, R76)
  | twrite (id cmd : Int) (ps : List Int)
  | tread (id cmd : Int) (ps : List Int) (budget : Int)
  | lineReset
  -- serial servo client (R79 to R97)
  | busSetId (id newId : Int)
  | busGetId (id : Option Int) (budget : Option Int)
  | busSetPosition (id pos dur : Int)
  | busStop (id : Int)
  | busSetDeviation (id dev : Int)
  | busSaveDeviation (id : Int)
  | busGetDeviation (id : Int) (budget : Option Int)
  | busSetAngleLimit (id lo hi : Int)
  | busGetAngleLimit (id : Int) (budget : Option Int)
  | busSetVinLimit (id lo hi : Int)
  | busGetVinLimit (id : Int) (budget : Option Int)
  | busSetTempLimit (id t : Int)
  | busGetTempLimit (id : Int) (budget : Option Int)
  | busGetPosition (id : Int) (budget : Option Int)
  | busGetTemp (id : Int) (budget : Option Int)
  | busGetVin (id : Int) (budget : Option Int)
  | busUnload (id : Int)
  | busGetLoadState (id : Int) (budget : Option Int)
  | busReset (id : Int)
  -- PWM interpolator (R99, R104, R107, R108)
  | pwmSetPosition (c w d : Int)
  | pwmTick (c : Nat)
  | pwmSetDeviation (c dv : Int)
  | pwmGetDeviation (c : Int)
  -- action sequencer (R109, R113); `cb` names the callback, whose body is outside the core
  | seqLoad (path : Path) (reps : Int) (locks : List (Int × Int))
  | seqPlay (sets : List ActionSet) (blocking : Bool) (cb : Option Nat)
  -- internal steps of a job's agent (R114 to R117); a job is named by its id
  | seqIssue (j : Nat)
  | seqSleep (j : Nat)
  | seqWake (j : Nat)
  | seqFinish (j : Nat) (o : JobOutcome)
  deriving DecidableEq, Repr

end Sys2Proof
end

