-- ==== Sys2Proof/WellFormed.lean ====
section
/-! DEFINITION. The checks on an instruction's operands (the ranges its rule gives) and on a configuration
(the constraints of R5, R58, R143). They guard nothing at run time: an operation whose operands fail them ends
with the error its rule names. -/

namespace Sys2Proof

/-- A device id ENCODE accepts: 0..254 (R60, R65, log 32). -/
def idOk (id : Int) : Bool := decide (0 ≤ id) && decide (id ≤ 254)

/-- A value a one-byte field holds (R55). -/
def byteOk (v : Int) : Bool := decide (0 ≤ v) && decide (v ≤ 255)

/-- A value a 16-bit parameter holds (R65). -/
def wordOk (v : Int) : Bool := decide (-32768 ≤ v) && decide (v ≤ 32767)

/-- A parameter list ENCODE accepts (R65). -/
def paramsOk (ps : List Int) : Bool :=
  match ps with
  | [v] => byteOk v || wordOk v
  | _   => decide (ps.length ≤ 126) && ps.all wordOk

/-- A retry budget: a natural number, or left to its default (R73, R78). -/
def budgetOk (b : Option Int) : Bool :=
  match b with
  | some n => decide (0 ≤ n)
  | none   => true

/-- A finite map names each column once (R29). -/
def locksOk (locks : List (Int × Int)) : Bool := decide (locks.map Prod.fst).Nodup

/-- The locked columns of an ActionSet hold their override in every row (R29, R110). -/
def ActionSet.lockedOk (s : ActionSet) : Bool :=
  locksOk s.locks && s.rows.all fun r => (r.pos.zipIdx 1).all fun (p, k) =>
    match s.locks.lookup (k : Int) with
    | some v => decide (p = v)
    | none   => true

/-- The 19 command codes in the order of `Command`, MOVE_TIME_WRITE = 0x01 first (R58). -/
def CmdCodes.toList (t : CmdCodes) : List Byte :=
  [0x01, t.moveTimeRead, t.moveStop, t.idWrite, t.idRead, t.angleOffsetAdjust, t.angleOffsetWrite,
    t.angleOffsetRead, t.angleLimitWrite, t.angleLimitRead, t.vinLimitWrite, t.vinLimitRead,
    t.tempMaxLimitWrite, t.tempMaxLimitRead, t.tempRead, t.vinRead, t.posRead, t.loadOrUnloadWrite,
    t.loadOrUnloadRead]

/-- A deviation PWM_SET_DEVIATION accepts (R107): open interval unless DEV_RANGE_INCLUSIVE. -/
def Config.devOk (cfg : Config) (dv : Int) : Bool :=
  if cfg.devRangeInclusive then decide (-cfg.devLimit ≤ dv ∧ dv ≤ cfg.devLimit)
  else decide (-cfg.devLimit < dv ∧ dv < cfg.devLimit)

/-- A channel number of 1..N_PWM (R98). -/
def Config.channelOk (cfg : Config) (c : Int) : Bool := decide (1 ≤ c) && decide (c ≤ cfg.nPwm)

/-- The operands lie in the ranges the instruction's rule gives them. -/
def Instr.wellFormed (cfg : Config) : Instr → Bool
  | .moveTimeWrite id pos dur => idOk id && wordOk pos && wordOk dur
  | .moveTimeRead id => idOk id
  | .moveStop id => idOk id
  | .idWrite id newId => idOk id && byteOk newId
  | .idRead id => idOk id
  | .angleOffsetAdjust id dev => idOk id && wordOk dev
  | .angleOffsetWrite id => idOk id
  | .angleOffsetRead id => idOk id
  | .angleLimitWrite id lo hi => idOk id && wordOk lo && wordOk hi
  | .angleLimitRead id => idOk id
  | .vinLimitWrite id lo hi => idOk id && wordOk lo && wordOk hi
  | .vinLimitRead id => idOk id
  | .tempMaxLimitWrite id t => idOk id && wordOk t
  | .tempMaxLimitRead id => idOk id
  | .tempRead id => idOk id
  | .vinRead id => idOk id
  | .posRead id => idOk id
  | .loadOrUnloadWrite id v => idOk id && byteOk v
  | .loadOrUnloadRead id => idOk id
  | .encode id cmd ps => idOk id && byteOk cmd && paramsOk ps
  | .decode _ expectedCmd => byteOk expectedCmd
  | .twrite id cmd ps => idOk id && byteOk cmd && paramsOk ps
  | .tread id cmd ps budget => idOk id && byteOk cmd && paramsOk ps && decide (0 ≤ budget)
  | .lineReset => true
  | .busSetId id newId => idOk id && wordOk newId
  | .busGetId id budget => idOk (id.getD cfg.idBroadcast) && budgetOk budget
  | .busSetPosition id _ _ => idOk id
  | .busStop id => idOk id
  | .busSetDeviation id dev => idOk id && wordOk dev
  | .busSaveDeviation id => idOk id
  | .busGetDeviation id budget => idOk id && budgetOk budget
  | .busSetAngleLimit id lo hi => idOk id && wordOk lo && wordOk hi
  | .busGetAngleLimit id budget => idOk id && budgetOk budget
  | .busSetVinLimit id lo hi => idOk id && wordOk lo && wordOk hi
  | .busGetVinLimit id budget => idOk id && budgetOk budget
  | .busSetTempLimit id t => idOk id && wordOk t
  | .busGetTempLimit id budget => idOk id && budgetOk budget
  | .busGetPosition id budget => idOk id && budgetOk budget
  | .busGetTemp id budget => idOk id && budgetOk budget
  | .busGetVin id budget => idOk id && budgetOk budget
  | .busUnload id => idOk id
  | .busGetLoadState id budget => idOk id && budgetOk budget
  | .busReset id => idOk id
  | .pwmSetPosition c _ d => cfg.channelOk c && decide (0 ≤ d)
  | .pwmTick c => cfg.channelOk c
  | .pwmSetDeviation c dv => cfg.channelOk c && cfg.devOk dv
  | .pwmGetDeviation c => cfg.channelOk c
  | .seqLoad _ reps locks => decide (0 ≤ reps) && locksOk locks
  | .seqPlay sets _ _ => sets.all ActionSet.lockedOk
  | .seqIssue _ => true
  | .seqSleep _ => true
  | .seqWake _ => true
  | .seqFinish _ _ => true

/-- The clamps of BUS_SET_POSITION are ranges of 16-bit values: "p and d always lie in ENCODE's domain" (R81). -/
def Config.clampsOk (cfg : Config) : Bool :=
  decide (-32768 ≤ cfg.posMin ∧ cfg.posMin ≤ cfg.posMax ∧ cfg.posMax ≤ 32767)
    && decide (-32768 ≤ cfg.sdurMin ∧ cfg.sdurMin ≤ cfg.sdurMax ∧ cfg.sdurMax ≤ 32767)

/-- A tick takes time, and the shortest timed motion has one (R101: "so 1 ≤ N"). -/
def Config.ticksOk (cfg : Config) : Bool :=
  decide (0 < cfg.tickMs ∧ (cfg.tickMs : Int) ≤ cfg.pdurMin ∧ cfg.pdurMin ≤ cfg.pdurMax)

/-- The constraints on a configuration: at least one channel (R5), 19 distinct command codes (R58), bounds in
order (R27, R143), a deviation of DEV_INIT inside the range (R25), a negative sentinel (R24), ids in order that ENCODE
accepts (R38), clamps whose results ENCODE accepts (R81), a timed motion of at least one tick (R101), a line that has
a rate, and delays that are no negative time. -/
def Config.wf (cfg : Config) : Bool :=
  decide (1 ≤ cfg.nPwm) && decide cfg.codes.toList.Nodup && decide (cfg.pwMin ≤ cfg.pwMax)
    && (cfg.pwBounds.all fun b => decide (b.2.1 ≤ b.2.2)) && cfg.devOk cfg.devInit && decide (cfg.idleTicks < 0)
    && decide (0 ≤ cfg.idMaxUnicast ∧ cfg.idMaxUnicast < cfg.idBroadcast ∧ cfg.idBroadcast ≤ 254)
    && cfg.clampsOk && cfg.ticksOk
    && decide (0 < cfg.baud) && decide (0 ≤ cfg.tReq) && decide (0 ≤ cfg.tSettle)

end Sys2Proof
end

