-- ==== Sys2Proof/Decode.lean ====
section
/-! DEFINITION. The frame codec (R52 to R69) as pure functions, the instruction decoder for the wire commands
built on it (total on any bytes, rejecting by name), and the encoder written from the same tables. The host
operations have no binary form (R61): the decoder never yields one. -/

namespace Sys2Proof

/-! ## Bytes and parameters (R10, R40, R55, R56) -/

/-- `lo8(v) = v mod 256` (R10). -/
def lo8 (v : Int) : Byte := BitVec.ofInt 8 v

/-- `hi8(v) = floor(v / 256) mod 256` (R10). -/
def hi8 (v : Int) : Byte := BitVec.ofInt 8 (v / 256)

/-- `sext_16(u)` (R10). -/
def sext16 (u : Nat) : Int := if u < 32768 then (u : Int) else (u : Int) - 65536

/-- The value of a 16-bit field received as `b0, b1` in wire order (R40). -/
def wordValue (b0 b1 : Byte) : Int := sext16 (b0.toNat + 256 * b1.toNat)

/-- A 16-bit parameter on the wire: low byte first (R40). -/
def wordBytes (v : Int) : List Byte := [lo8 v, hi8 v]

/-- Is the parameter list a single value 0..255, which takes one byte (R55)? -/
def isOneByte (ps : List Int) : Bool :=
  match ps with
  | [v] => byteOk v
  | _   => false

/-- `P(ps)`: the parameter bytes of a parameter list (R55). -/
def paramBytes (ps : List Int) : List Byte :=
  if isOneByte ps then ps.map lo8 else ps.flatMap wordBytes

/-- `Unparse(pb)`: the parameter list that parameter bytes carry (R68); an odd count above one carries
nothing. -/
def unparse (pb : List Byte) : Option (List Int) :=
  match pb with
  | [b] => some [(b.toNat : Int)]
  | _   => pairs pb
where
  /-- The 16-bit values of an even count of bytes. -/
  pairs : List Byte → Option (List Int)
    | []             => some []
    | [_]            => none
    | b0 :: b1 :: pb => (pairs pb).map (wordValue b0 b1 :: ·)

/-! ## The frame (R52, R54) -/

/-- `sum(b)`: the integer sum of the bytes (R10). -/
def byteSum (b : List Byte) : Nat := (b.map BitVec.toNat).sum

/-- The checksum of the bytes from deviceId through the last parameter byte: 255 minus the low byte of their
sum (R54). -/
def checksum (body : List Byte) : Byte := BitVec.ofNat 8 (255 - byteSum body % 256)

/-- The frame around a device id, a command code and parameter bytes (R52). -/
def frameOf (cfg : Config) (id cmd : Byte) (pb : List Byte) : Frame :=
  let body := id :: BitVec.ofNat 8 (pb.length + 3) :: cmd :: pb
  cfg.header1 :: cfg.header2 :: body ++ [checksum body]

/-- ENCODE (R65): the checks in the order of R128, then the frame. The only parameter it reads is HEADER (R64). -/
def encodeFrame (cfg : Config) (id cmd : Int) (ps : List Int) : Except Err Frame :=
  if ¬ idOk id then .error (.encodeRange .deviceId)
  else if ¬ byteOk cmd then .error (.encodeRange .commandCode)
  else if ¬ isOneByte ps ∧ 126 < ps.length then .error (.encodeRange .parameterCount)
  else if ¬ isOneByte ps ∧ ¬ ps.all wordOk then .error (.encodeRange .parameterValue)
  else .ok (frameOf cfg (lo8 id) (lo8 cmd) (paramBytes ps))

/-! ## Parsing (R66, R67) -/

/-- Why bytes are no frame, or no instruction of the table. -/
inductive DecodeError
  /-- Fewer than five bytes: header, id, length and command are not all present (R66). -/
  | tooShort
  /-- The header bytes differ from HEADER (R60). -/
  | badHeader
  /-- A length byte below 3 (D4). -/
  | badLength
  /-- Fewer bytes than the length implies (R66). -/
  | truncated
  /-- The checksum byte is wrong and RX_CHECKSUM_CHECK is true (R60). -/
  | badChecksum
  /-- A command code that is none of CMD_CODE (R60). -/
  | unknownCommand
  /-- The length byte is none the command's row has (R58). -/
  | badShape
  /-- Two parameter bytes for a value that ENCODE sends in one (R55, log 24). -/
  | notCanonical
  deriving DecidableEq, Repr

/-- ParseFrame (R66) with the reason of a failure. -/
def parseFrameWhy (cfg : Config) (b : Frame) : Except DecodeError (Byte × Byte × List Byte) :=
  match b with
  | h1 :: h2 :: id :: len :: cmd :: rest =>
    let L := len.toNat
    if h1 ≠ cfg.header1 ∨ h2 ≠ cfg.header2 then .error .badHeader
    else if L < 3 then .error .badLength
    else if b.length < L + 3 then .error .truncated
    else if cfg.rxChecksumCheck ∧ b[L + 2]? ≠ some (checksum ((b.drop 2).take L)) then .error .badChecksum
    else .ok (id, cmd, rest.take (L - 3))
  | _ => .error .tooShort

/-- ParseFrame (R66): `(id, cmd, pb)` or `none`. -/
def parseFrame (cfg : Config) (b : Frame) : Option (Byte × Byte × List Byte) :=
  (parseFrameWhy cfg b).toOption

/-- DECODE (R67), whose `expectedCmd` is an integer 0..255. A number outside is compared like one inside, and as no command
byte equals it the answer is Error: DESIGN CHOICE, for no rule says whether such an operand is refused (log 33). -/
def decodeFrame (cfg : Config) (b : Frame) (expectedCmd : Int) : Result :=
  match parseFrame cfg b with
  | none => .error
  | some (_, cmd, pb) =>
    if (cmd.toNat : Int) ≠ expectedCmd then .error
    else match pb with
      | []               => .ack
      | [b0]             => .value (b0.toNat : Int)
      | [b0, b1]         => .value (wordValue b0 b1)
      | [b0, b1, b2, b3] => .valuePair (wordValue b0 b1) (wordValue b2 b3)
      | _                => .error

/-! ## Command codes (R58) -/

/-- CMD_CODE. -/
def Config.cmdCode (cfg : Config) : Command → Byte
  | .moveTimeWrite     => 0x01
  | .moveTimeRead      => cfg.codes.moveTimeRead
  | .moveStop          => cfg.codes.moveStop
  | .idWrite           => cfg.codes.idWrite
  | .idRead            => cfg.codes.idRead
  | .angleOffsetAdjust => cfg.codes.angleOffsetAdjust
  | .angleOffsetWrite  => cfg.codes.angleOffsetWrite
  | .angleOffsetRead   => cfg.codes.angleOffsetRead
  | .angleLimitWrite   => cfg.codes.angleLimitWrite
  | .angleLimitRead    => cfg.codes.angleLimitRead
  | .vinLimitWrite     => cfg.codes.vinLimitWrite
  | .vinLimitRead      => cfg.codes.vinLimitRead
  | .tempMaxLimitWrite => cfg.codes.tempMaxLimitWrite
  | .tempMaxLimitRead  => cfg.codes.tempMaxLimitRead
  | .tempRead          => cfg.codes.tempRead
  | .vinRead           => cfg.codes.vinRead
  | .posRead           => cfg.codes.posRead
  | .loadOrUnloadWrite => cfg.codes.loadOrUnloadWrite
  | .loadOrUnloadRead  => cfg.codes.loadOrUnloadRead

/-- CMD_CODE as an operand of ENCODE. -/
def Config.cmdInt (cfg : Config) (c : Command) : Int := ((cfg.cmdCode c).toNat : Int)

/-- Every command, in the order of R58. -/
def Command.all : List Command :=
  [.moveTimeWrite, .moveTimeRead, .moveStop, .idWrite, .idRead, .angleOffsetAdjust, .angleOffsetWrite,
    .angleOffsetRead, .angleLimitWrite, .angleLimitRead, .vinLimitWrite, .vinLimitRead, .tempMaxLimitWrite,
    .tempMaxLimitRead, .tempRead, .vinRead, .posRead, .loadOrUnloadWrite, .loadOrUnloadRead]

/-- The command a code selects. -/
def Config.command? (cfg : Config) (code : Byte) : Option Command :=
  Command.all.find? fun c => cfg.cmdCode c == code

/-! ## Instructions of the wire (R58) -/

/-- A one-parameter command of shape `F1 if 0..255, else F2`. -/
def oneParam (mk : Int → Instr) (pb : List Byte) : Except DecodeError Instr :=
  match pb with
  | [b0]     => .ok (mk (b0.toNat : Int))
  | [b0, b1] => if byteOk (wordValue b0 b1) then .error .notCanonical else .ok (mk (wordValue b0 b1))
  | _        => .error .badShape

/-- A command of shape F0. -/
def noParam (i : Instr) (pb : List Byte) : Except DecodeError Instr :=
  match pb with
  | [] => .ok i
  | _  => .error .badShape

/-- A command of shape F1. -/
def byteParam (mk : Int → Instr) (pb : List Byte) : Except DecodeError Instr :=
  match pb with
  | [b0] => .ok (mk (b0.toNat : Int))
  | _    => .error .badShape

/-- A command of shape F4. -/
def twoParams (mk : Int → Int → Instr) (pb : List Byte) : Except DecodeError Instr :=
  match pb with
  | [b0, b1, b2, b3] => .ok (mk (wordValue b0 b1) (wordValue b2 b3))
  | _                => .error .badShape

/-- The instruction a command with a device id and parameter bytes is (the request shapes of R58). -/
def decodeCommand (c : Command) (id : Int) (pb : List Byte) : Except DecodeError Instr :=
  match c with
  | .moveTimeWrite     => twoParams (.moveTimeWrite id) pb
  | .moveTimeRead      => noParam (.moveTimeRead id) pb
  | .moveStop          => noParam (.moveStop id) pb
  | .idWrite           => byteParam (.idWrite id) pb
  | .idRead            => noParam (.idRead id) pb
  | .angleOffsetAdjust => oneParam (.angleOffsetAdjust id) pb
  | .angleOffsetWrite  => noParam (.angleOffsetWrite id) pb
  | .angleOffsetRead   => noParam (.angleOffsetRead id) pb
  | .angleLimitWrite   => twoParams (.angleLimitWrite id) pb
  | .angleLimitRead    => noParam (.angleLimitRead id) pb
  | .vinLimitWrite     => twoParams (.vinLimitWrite id) pb
  | .vinLimitRead      => noParam (.vinLimitRead id) pb
  | .tempMaxLimitWrite => oneParam (.tempMaxLimitWrite id) pb
  | .tempMaxLimitRead  => noParam (.tempMaxLimitRead id) pb
  | .tempRead          => noParam (.tempRead id) pb
  | .vinRead           => noParam (.vinRead id) pb
  | .posRead           => noParam (.posRead id) pb
  | .loadOrUnloadWrite => byteParam (.loadOrUnloadWrite id) pb
  | .loadOrUnloadRead  => noParam (.loadOrUnloadRead id) pb

/-- The instruction decoder: the wire command that bytes are, or why they are none. -/
def decode (cfg : Config) (b : Frame) : Except DecodeError Instr :=
  match parseFrameWhy cfg b with
  | .error e => .error e
  | .ok (id, code, pb) =>
    match cfg.command? code with
    | none   => .error .unknownCommand
    | some c => decodeCommand c (id.toNat : Int) pb

/-! ## The encoder -/

/-- The command, device id and parameter list of a wire command; a host operation has none (R58, R61). -/
def Instr.wire? : Instr → Option (Command × Int × List Int)
  | .moveTimeWrite id pos dur => some (.moveTimeWrite, id, [pos, dur])
  | .moveTimeRead id => some (.moveTimeRead, id, [])
  | .moveStop id => some (.moveStop, id, [])
  | .idWrite id newId => some (.idWrite, id, [newId])
  | .idRead id => some (.idRead, id, [])
  | .angleOffsetAdjust id dev => some (.angleOffsetAdjust, id, [dev])
  | .angleOffsetWrite id => some (.angleOffsetWrite, id, [])
  | .angleOffsetRead id => some (.angleOffsetRead, id, [])
  | .angleLimitWrite id lo hi => some (.angleLimitWrite, id, [lo, hi])
  | .angleLimitRead id => some (.angleLimitRead, id, [])
  | .vinLimitWrite id lo hi => some (.vinLimitWrite, id, [lo, hi])
  | .vinLimitRead id => some (.vinLimitRead, id, [])
  | .tempMaxLimitWrite id t => some (.tempMaxLimitWrite, id, [t])
  | .tempMaxLimitRead id => some (.tempMaxLimitRead, id, [])
  | .tempRead id => some (.tempRead, id, [])
  | .vinRead id => some (.vinRead, id, [])
  | .posRead id => some (.posRead, id, [])
  | .loadOrUnloadWrite id v => some (.loadOrUnloadWrite, id, [v])
  | .loadOrUnloadRead id => some (.loadOrUnloadRead, id, [])
  | .encode _ _ _ | .decode _ _ | .twrite _ _ _ | .tread _ _ _ _ | .lineReset => none
  | .busSetId _ _ | .busGetId _ _ | .busSetPosition _ _ _ | .busStop _ | .busSetDeviation _ _ => none
  | .busSaveDeviation _ | .busGetDeviation _ _ | .busSetAngleLimit _ _ _ | .busGetAngleLimit _ _ => none
  | .busSetVinLimit _ _ _ | .busGetVinLimit _ _ | .busSetTempLimit _ _ | .busGetTempLimit _ _ => none
  | .busGetPosition _ _ | .busGetTemp _ _ | .busGetVin _ _ | .busUnload _ | .busGetLoadState _ _ => none
  | .busReset _ | .pwmSetPosition _ _ _ | .pwmTick _ | .pwmSetDeviation _ _ | .pwmGetDeviation _ => none
  | .seqLoad _ _ _ | .seqPlay _ _ _ | .seqIssue _ | .seqSleep _ | .seqWake _ | .seqFinish _ _ => none

/-- The frame of a wire command; none for a host operation or for operands ENCODE refuses. -/
def encode (cfg : Config) (i : Instr) : Option Frame :=
  match i.wire? with
  | none => none
  | some (c, id, ps) => (encodeFrame cfg id (cfg.cmdInt c) ps).toOption

/-! ## Words of the opcode table -/

/-- The bytes of a number, `n` of them, least significant first. -/
def leBytes : Nat → Nat → Frame
  | 0,     _ => []
  | n + 1, w => BitVec.ofNat 8 w :: leBytes n (w / 256)

/-- How many bytes the longest wire command of the table takes (shape F4). -/
def longestWire : Nat := 10

/-- The bytes a number of the opcode table stands for, in wire order, zeros after them. Bit 0 is the least
significant bit of the first byte; a number whose two low bytes are not the header is read as the table's own
`match` values are, first byte most significant (log 7). -/
def tableBytes (nbits w : Nat) : Frame :=
  let n := nbits / 8
  let le := leBytes n (w % 2 ^ (8 * n))
  let bytes := if le.take 2 = [Config.default.header1, Config.default.header2] then le else le.reverse
  bytes ++ List.replicate (longestWire - n) 0

/-- The instruction that the decoder reads, under the default parameters, from a number of the opcode
table. -/
def decodeTableWord (nbits w : Nat) : Option Instr :=
  (decode Config.default (tableBytes nbits w)).toOption

end Sys2Proof
end

