-- ==== Sys2Proof/Machine/State.lean ====
section
/-! DEFINITION. The state of the motion core (R16 to R36) as plain data, the moves of its agents, the reasons a
step can stop, and the state after controller init (R141, R142). -/

namespace Sys2Proof
namespace Machine

/-! ## Agents and locks -/

/-- The agents of R7. -/
inductive Agent
  /-- CALLER(i): issues host operations. -/
  | caller (i : Nat)
  /-- TICK(c): the periodic timer of PWM channel c. -/
  | tick (c : Nat)
  /-- SCHED: the cooperative scheduler. -/
  | sched
  deriving DecidableEq, Repr, Inhabited

/-- A mutual-exclusion lock (R48). -/
inductive Lock
  | free
  | held (a : Agent)
  deriving DecidableEq, Repr

/-! ## Serial Transport (R19 to R23) -/

/-- The direction of the half-duplex line (R19). -/
inductive Dir | tx | rx
  deriving DecidableEq, Repr

/-- The two direction pins (R20). -/
inductive Pin | txEn | rxEn
  deriving DecidableEq, Repr

/-- The level the core drives on a direction pin (R20). -/
inductive PinLevel | asserted | deasserted
  deriving DecidableEq, Repr

/-- `T`: the state of the Serial Transport. -/
structure Transport where
  /-- `T.dir` (R19). -/
  dir : Dir
  /-- `T.pin[TX_EN]` (R20). -/
  txEn : PinLevel
  /-- `T.pin[RX_EN]` (R20). -/
  rxEn : PinLevel
  /-- `T.TL` (R21). -/
  tl : Lock
  /-- `T.open` (R22). -/
  isOpen : Bool
  /-- `T.rx` (R23). -/
  rx : Frame
  deriving DecidableEq, Repr

/-! ## PWM channels (R24 to R27) -/

/-- `CH[c]` with its mutex `CL[c]`. -/
structure Channel where
  /-- pulseWidthCurrent, µs. -/
  cur : Rat
  /-- pulseWidthTarget, µs: an integer once a PWM_SET_POSITION has succeeded, PW_INIT before (log 18). -/
  tgt : Rat
  /-- remainingTicks, IDLE when idle. -/
  rem : Int
  /-- perTickDelta, µs per tick. -/
  delta : Rat
  /-- deviationOffset, µs. -/
  dev : Int
  /-- Lower pulse-width bound, µs. -/
  lo : Int
  /-- Upper pulse-width bound, µs. -/
  hi : Int
  /-- `CL[c]` (R26). -/
  mutex : Lock
  /-- When the channel's timer was last armed, ms of the timed refinement (R103, log 17). -/
  armedAt : Rat
  deriving DecidableEq, Repr

/-! ## Action sequencer (R28 to R32) -/

/-- The phase of a job (R30). -/
inductive JobPhase
  /-- ISSUE(p): `p` is the index of the next command of the round. -/
  | issue (p : Nat)
  /-- SLEEP(d): suspended for `d` ms. -/
  | sleep (d : Nat)
  /-- DONE: completed, its onComplete body still running (log 14). -/
  | done
  deriving DecidableEq, Repr

/-- The agent that executes a job (R30). -/
inductive Ctx
  /-- A blocking playback, on the agent that issued SEQ_PLAY. -/
  | onCaller (a : Agent)
  /-- A non-blocking playback, on SCHED. -/
  | onSched
  deriving DecidableEq, Repr

/-- A playback job (R30). -/
structure Job where
  id : Nat
  sets : List ActionSet
  /-- The round index. -/
  k : Nat
  phase : JobPhase
  ctx : Ctx
  /-- The onComplete callback, by name, or none. -/
  cb : Option Nat
  /-- When its last sleep began, ms of the timed refinement (log 17). -/
  sleptAt : Rat
  /-- With SETPOS_SPLIT_READ: the width read for the command in progress (R102, log 29). -/
  split : Option Rat
  deriving DecidableEq, Repr

/-- `SQ` (R30, R31). -/
structure Sequencer where
  jobs : List Job
  /-- `SQ.running`: the id of the job SCHED is executing. -/
  running : Option Nat
  started : Bool
  /-- The next fresh job id (R113, log 16). -/
  nextId : Nat
  deriving DecidableEq, Repr

/-- The state of a playback handle (R32). -/
inductive HandleState
  | pending
  | resolved (o : JobOutcome)
  deriving DecidableEq, Repr

/-! ## Event history (R33) -/

/-- The kinds of fixed delay (R33). -/
inductive WaitKind | req | settle | lineReset | clientReset
  deriving DecidableEq, Repr

/-- The events of R33. -/
inductive Event
  | pin (p : Pin) (l : PinLevel)
  | tx (bytes : Frame)
  | rxflush (bytes : Frame)
  | rxavail (n : Nat)
  | rxread (bytes : Frame)
  | uclose
  | uopen
  /-- `WAIT(kind, ms)`, nominal length. -/
  | wait (k : WaitKind) (ms : Rat)
  | tickfire (c : Nat)
  /-- `PWM(c, w)`, w in µs. -/
  | pwm (c : Nat) (w : Rat)
  | store (path : Path) (r : Option (List ActionRow))
  | sleep (j : Nat) (d : Nat)
  | wake (j : Nat)
  | complete (h : Nat) (o : JobOutcome)
  | result (a : Agent) (op : HostOp) (v : Result)
  deriving DecidableEq, Repr

/-! ## Operations in progress -/

/-- A read exchange in progress (R73): the operation it ends as, the expected command code, the request frame
and how many attempts are left after the current one. -/
structure Exchange where
  op : HostOp
  cmd : Int
  req : Frame
  left : Nat
  deriving DecidableEq, Repr

/-- Where an operation in progress stands (R132: at a lock, a wait, a sleep, or inside a callback body). -/
inductive FlightPhase
  /-- Waiting to acquire the lock its first effect needs (R48); nothing has happened yet. -/
  | waiting (i : Instr)
  /-- TREAD, holding TL, in Wait(REQ). -/
  | readReq (x : Exchange)
  /-- TREAD, holding TL, in Wait(SETTLE). -/
  | readSettle (x : Exchange)
  /-- LINE_RESET, holding TL, in the wait on the closed side. -/
  | lineClosed
  /-- LINE_RESET, holding TL, in the wait on the open side. -/
  | lineOpened
  /-- BUS_RESET after its first write, before the delay. -/
  | resetWrote (id : Int)
  /-- BUS_RESET in its delay, or waiting for TL after it. -/
  | resetWaited (id : Int)
  /-- A timed PWM_SET_POSITION under SETPOS_SPLIT_READ, between reading `c0` and the update (R102). -/
  | pwmSplit (c w d : Int) (c0 : Rat)
  /-- A blocking SEQ_PLAY running job `j` (R118). -/
  | playing (j : Nat)
  /-- Inside the onComplete body of job `j` (R117). -/
  | callback (j : Nat) (o : JobOutcome)
  deriving DecidableEq, Repr

/-- An agent's operation in progress. An agent inside a callback body may have a further one, which stands
before it in the list. -/
structure Flight where
  agent : Agent
  phase : FlightPhase
  /-- The earliest time it may go on, ms of the timed refinement (log 17). -/
  readyAt : Rat
  deriving DecidableEq, Repr

/-! ## Moves -/

/-- Requests that are no operation of the motion core (R35, R61, R120). -/
inductive NonOperation
  /-- Abort, pause or remove a job. -/
  | cancel (j : Nat)
  /-- Stop the scheduler. -/
  | stopScheduler
  /-- Stop, pause or re-program the timer of a channel. -/
  | stopTimer (c : Nat)
  /-- Write a configuration parameter. -/
  | writeParameter
  /-- Anything else outside the table of R61. -/
  | other
  deriving DecidableEq, Repr

/-- One move of one agent, or of the world around the core. -/
inductive Move
  /-- Agent `a` issues an operation, which then runs without interruption. -/
  | call (a : Agent) (i : Instr)
  /-- Agent `a` issues an operation, which stops at its first interruption point (R132). -/
  | begin (a : Agent) (i : Instr)
  /-- Agent `a` hands the core a wire frame as bytes; the operation it is runs as with `call`. -/
  | frame (a : Agent) (bytes : Frame)
  /-- Agent `a` goes on with its operation in progress. -/
  | resume (a : Agent)
  /-- The timer of channel `c` fires (R103). -/
  | tick (c : Nat)
  /-- SCHED takes a step; with no job running it chooses job `j` (R119). -/
  | sched (j : Nat)
  /-- `us` microseconds pass (TIMED). -/
  | pass (us : Nat)
  /-- Agent `a` asks for something that is no operation. -/
  | request (a : Agent) (r : NonOperation)
  /-- Agent `a` issues SEQ_PLAY_PATHS, the pseudo-operation of R63. -/
  | playPaths (a : Agent) (reqs : List (Path × Int × List (Int × Int))) (blocking : Bool) (cb : Option Nat)
  deriving DecidableEq, Repr, Inhabited

/-! ## The state -/

/-- The state of the motion core (R16), then what the model adds (INVENTORY.md). -/
structure State where
  /-- The parameters of R5: no step changes them (log 1). -/
  cfg : Config
  /-- `T`. -/
  T : Transport
  /-- `CH[1..N_PWM]` with `CL[1..N_PWM]`, channel 1 first. -/
  channels : List Channel
  /-- `SQ`. -/
  sq : Sequencer
  /-- `H`, in the order of creation. -/
  handles : List (Nat × HandleState)
  /-- `trace`, first event first. -/
  trace : List Event
  /-- Operations in progress, an agent's latest first. -/
  flights : List Flight
  /-- The agent whose step this is (log 25). -/
  cur : Agent
  /-- The clock of the timed refinement, ms (log 17). -/
  now : Rat
  /-- The moves to come; after them the moves are free (log 4). -/
  script : List Move
  /-- The BUS draws to come; after them the draws are free (log 5). -/
  busIn : List Frame
  /-- The STORE draws to come; after them the draws are free (log 6). -/
  storeIn : List (Option (List ActionRow))
  /-- The counter the free values are read at. -/
  draws : Nat
  deriving DecidableEq, Repr

/-- Which agent moves, and how, beyond the moves that State lists: free (R7, D39, log 4). -/
opaque freeMove : Nat → Move

/-! ## Reasons a step stops -/

/-- Faults: none. "There is no fault class: no operation of the core has an outcome the source calls
undefined" (R139). -/
inductive Fault
  deriving DecidableEq, Repr

/-- Refusals (R139): nothing happens to the motion core. Each is safe. -/
inductive Refusal
  /-- Raised by an arm of exec whose instruction has no meaning yet. Safe. -/
  | notModelled (mnemonic : String)
  /-- An internal step or PWM_TICK issued by an agent it does not belong to (R133): raised by the meanings of
  those instructions and by a call of them. Safe: the spec refuses it. -/
  | internalStep (i : Instr)
  /-- An internal step named for a job or a channel that has no such step now: raised by the meanings of the
  internal steps. Safe: the machine has no such step (log 22). -/
  | noSuchStep (i : Instr)
  /-- A request outside the operation map (R61, R120): raised by `Move.request`. Safe: the spec refuses it. -/
  | notAnOperation (r : NonOperation)
  /-- Bytes that are no wire command of the table: raised by `Move.frame`. Safe: the spec has no operation
  for them. -/
  | notAFrame (e : DecodeError)
  /-- A step of an agent that is inside an operation, other than going on with it, or an operation issued by a timer, or
  by SCHED outside a callback body: raised by `Move.call`, `Move.begin`, `Move.frame`, `Move.playPaths`, `Move.tick`,
  `Move.sched`. Safe: the agent has no such step (log 23). -/
  | agentBusy (a : Agent)
  /-- A resume of an agent with no operation in progress, or a timer or job that does not exist: raised by
  `Move.resume`, `Move.tick`, `Move.sched`. Safe: the agent has no such step (log 23). -/
  | noSuchAgent (a : Agent)
  /-- A non-blocking SEQ_PLAY where `SQ.started` is false: raised by the meaning of SEQ_PLAY. Safe: no run reaches such a
  state (R34, R113, log 27). -/
  | schedulerStopped
  deriving DecidableEq, Repr

/-! ## Controller init (R141, R142) -/

/-- The transport after controller init. -/
def Transport.init : Transport where
  dir    := .tx
  txEn   := .asserted
  rxEn   := .deasserted
  tl     := .free
  isOpen := true
  rx     := []

/-- The bounds configured for channel `c` (R27). -/
def Channel.boundsOf (cfg : Config) (c : Nat) : Int × Int :=
  (cfg.pwBounds.lookup c).getD (cfg.pwMin, cfg.pwMax)

/-- Channel `c` after controller init. -/
def Channel.init (cfg : Config) (c : Nat) : Channel where
  cur     := cfg.pwInit
  tgt     := cfg.pwInit
  rem     := cfg.idleTicks
  delta   := 0
  dev     := cfg.devInit
  lo      := (Channel.boundsOf cfg c).1
  hi      := (Channel.boundsOf cfg c).2
  mutex   := .free
  armedAt := 0

/-- The sequencer after controller init; job ids count from 1 (log 16). -/
def Sequencer.init : Sequencer where
  jobs    := []
  running := none
  started := true
  nextId  := 1

/-- The state controller init leaves for a configuration (R142). -/
def State.init (cfg : Config) : State where
  cfg      := cfg
  T        := Transport.init
  channels := (List.range cfg.nPwm).map fun i => Channel.init cfg (i + 1)
  sq       := Sequencer.init
  handles  := []
  trace    := []
  flights  := []
  cur      := .caller 0
  now      := 0
  script   := []
  busIn    := []
  storeIn  := []
  draws    := 0

/-- The machine right after reset, under the default parameters. -/
def State.reset : State := State.init Config.default

end Machine
end Sys2Proof
end

