-- ==== Sys2Proof/Machine/Operands.lean ====
section
/-! DEFINITION. The operand forms: clamps (R10, R81), default operands (R63), the tick count of a timed motion
(R101), the rows and commands of a playback (R109, R111), and the time a transmission takes (R154). -/

namespace Sys2Proof
namespace Machine

/-! ## Clamps and defaults -/

/-- `clamp(v, lo, hi)` (R10). -/
def clamp (v lo hi : Int) : Int := min (max v lo) hi

/-- The position BUS_SET_POSITION sends (R81). -/
def servoPosition (cfg : Config) (pos : Int) : Int := clamp pos cfg.posMin cfg.posMax

/-- The duration BUS_SET_POSITION sends (R81). -/
def servoDuration (cfg : Config) (dur : Int) : Int := clamp dur cfg.sdurMin cfg.sdurMax

/-- The retry budget of a get: READ_RETRY_DEFAULT where none is given (R63, R78). -/
def budgetOf (cfg : Config) (budget : Option Int) : Int := budget.getD (cfg.readRetryDefault : Int)

/-- The id BUS_GET_ID is addressed to: the broadcast id where none is given (R63, R80). -/
def idOrBroadcast (cfg : Config) (id : Option Int) : Int := id.getD cfg.idBroadcast

/-! ## Tick count of a timed motion (R101) -/

/-- The duration a timed motion is planned with: `clamp(d, PDUR_MIN, PDUR_MAX)`. -/
def pwmDuration (cfg : Config) (d : Int) : Int := clamp d cfg.pdurMin cfg.pdurMax

/-- `round_TR(x / y)` for naturals: the nearest integer, a tie as TICK_ROUND says (R101). -/
def roundDiv (tr : TickRound) (x y : Nat) : Nat :=
  let q := x / y
  if 2 * (x % y) < y then q
  else if y < 2 * (x % y) then q + 1
  else match tr with
    | .halfToEven       => if q % 2 = 0 then q else q + 1
    | .halfAwayFromZero => q + 1
    | .halfTowardZero   => q

/-- The tick count `N` of a timed motion of `d` ms. -/
def tickCount (cfg : Config) (d : Int) : Nat := roundDiv cfg.tickRound (pwmDuration cfg d).toNat cfg.tickMs

/-! ## Action sets (R109, R111) -/

/-- A stored row with the channel locks applied: each locked column takes its fixed value (R109). -/
def lockRow (locks : List (Int × Int)) (r : ActionRow) : ActionRow where
  dur := r.dur
  pos := (r.pos.zipIdx 1).map fun (p, k) => (locks.lookup (k : Int)).getD p

/-- The ActionSet SEQ_LOAD builds from the store's rows (R109). -/
def loadedSet (path : Path) (reps : Nat) (locks : List (Int × Int)) (rows : List ActionRow) : ActionSet where
  path  := path
  reps  := reps
  locks := locks
  rows  := rows.map (lockRow locks)

/-- `|F(s)|`: how many steps a set has (R111). -/
def stepCount (a : ActionSet) : Nat := a.reps * a.rows.length

/-- `F(s)[t]`: the row of step `t`, if the set has that many (R111). -/
def rowAt (a : ActionSet) (t : Nat) : Option ActionRow :=
  if t < stepCount a then a.rows[t % a.rows.length]? else none

/-- `K`: how many rounds a batch has (R111). -/
def rounds (sets : List ActionSet) : Nat := (sets.map stepCount).foldr max 0

/-- The rows of the active sets of round `k`, in batch order (R111). -/
def activeRows (sets : List ActionSet) (k : Nat) : List ActionRow := sets.filterMap (rowAt · k)

/-- One command of a row: column, position, duration (R111). -/
structure Cmd where
  col : Nat
  pos : Int
  dur : Nat
  deriving DecidableEq, Repr

/-- The commands of a row, columns ascending from 1 (R111, D30). -/
def rowCmds (r : ActionRow) : List Cmd := (r.pos.zipIdx 1).map fun (p, j) => { col := j, pos := p, dur := r.dur }

/-- `Cmds(S, k)`: the command list of round `k` (R111). -/
def cmds (sets : List ActionSet) (k : Nat) : List Cmd := (activeRows sets k).flatMap rowCmds

/-- `SleepLen(S, k)`: the longest duration of the round's active rows (R111). -/
def sleepLen (sets : List ActionSet) (k : Nat) : Nat := ((activeRows sets k).map ActionRow.dur).foldr max 0

/-- CHANNEL_KIND(j): what column `j` drives (R39, R111). -/
def channelKind (cfg : Config) (j : Nat) : ChannelKind := if j ∈ cfg.pwmColumns then .pwm else .serial

/-- How many steps a job takes at most: every command in two (SETPOS_SPLIT_READ), a sleep and a wake for each
round, and its completion. -/
def jobSteps (sets : List ActionSet) : Nat :=
  ((List.range (rounds sets)).map fun k => 2 * (cmds sets k).length + 2).sum + 1

/-! ## Time on the line (R154) -/

/-- Bit times of one character under UART_FRAMING: start bit, data bits, parity bit if any, stop bits. -/
def charBits (fr : UartFraming) : Nat := 1 + fr.dataBits + (if fr.parity = .none then 0 else 1) + fr.stopBits

/-- The time, in ms, that transmitting bytes takes at BAUD (R154). -/
def txTime (cfg : Config) (f : Frame) : Rat := ((f.length * charBits cfg.framing * 1000 : Nat) : Rat) / (cfg.baud : Rat)

end Machine
end Sys2Proof
end

