-- ==== Sys2Proof/Machine/Ops.lean ====
section
/-! DEFINITION. The shared operations: the interface primitives of R12, the locks of R48, the draws of the
environment (R45, R109), the delivery of an error and of a result (R122, R129: what this hardware has in place
of taking an exception; there is no return from one, R130), channels, operations in progress, jobs and
handles. -/

namespace Sys2Proof
namespace Machine

/-! ## Event history, errors and results -/

/-- Appends an event to the trace (R33). -/
def State.emit (e : Event) (s : State) : State := { s with trace := s.trace ++ [e] }

/-- The end of an operation that agent `s.cur` issued, with what it returns (R33). -/
def State.answer (op : HostOp) (v : Result) (s : State) : State := s.emit (.result s.cur op v)

/-- `raise E` (R11, R122, R129): the operation ends with the error as its result. Nothing is saved, no mode
changes, nothing is masked, and control goes back to the agent that issued the operation. -/
def State.raise (op : HostOp) (e : Err) (s : State) : State := s.answer op (.raised e)

/-! ## Time (TIMED, log 17) -/

/-- At least `ms` pass, by a free amount more (D40); nothing without TIMED. -/
def State.elapse (ms : Rat) (s : State) : State :=
  if s.cfg.timed then
    { s with now := s.now + ms + (Config.freeDelay s.draws : Rat) / 1000, draws := s.draws + 1 }
  else s

/-- `Wait(kind, ms)`: the event (R12). Where the operation runs on, `elapse` follows. -/
def State.wait (k : WaitKind) (ms : Rat) (s : State) : State := s.emit (.wait k ms)

/-! ## The line (R12, R71) -/

/-- `PinWrite(p, ·)`. -/
def State.pinWrite (p : Pin) (l : PinLevel) (s : State) : State :=
  match p with
  | .txEn => { s with T := { s.T with txEn := l } }.emit (.pin .txEn l)
  | .rxEn => { s with T := { s.T with rxEn := l } }.emit (.pin .rxEn l)

/-- SetDirection (R71): drop one enable before asserting the other, both pins every time. -/
def State.setDirection (d : Dir) (s : State) : State :=
  match d with
  | .rx =>
    let s1 := (s.pinWrite .txEn .deasserted).pinWrite .rxEn .asserted
    { s1 with T := { s1.T with dir := .rx } }
  | .tx =>
    let s1 := (s.pinWrite .rxEn .deasserted).pinWrite .txEn .asserted
    { s1 with T := { s1.T with dir := .tx } }

/-- `UartWrite(bytes)`: returns when every byte has left (D8). -/
def State.uartWrite (f : Frame) (s : State) : State := (s.emit (.tx f)).elapse (txTime s.cfg f)

/-- `RxFlush()`. -/
def State.rxFlush (s : State) : State := { s with T := { s.T with rx := [] } }.emit (.rxflush s.T.rx)

/-- The BUS draw (R45, log 5): the next listed one, or a free one. -/
def State.drawBus (s : State) : Frame × State :=
  match s.busIn with
  | b :: rest => (b, { s with busIn := rest })
  | []        => (Config.freeBusBytes s.draws, { s with draws := s.draws + 1 })

/-- `RxAvailable()`: the BUS draw is appended to the receive buffer, and the count returned (R12, R45). -/
def State.rxAvailable (s : State) : Nat × State :=
  let (b, s1) := s.drawBus
  let rx := s1.T.rx ++ b
  (rx.length, { s1 with T := { s1.T with rx := rx } }.emit (.rxavail rx.length))

/-- `RxRead(n)`: removes and returns the first `n` bytes of the receive buffer. -/
def State.rxRead (n : Nat) (s : State) : Frame × State :=
  (s.T.rx.take n, { s with T := { s.T with rx := s.T.rx.drop n } }.emit (.rxread (s.T.rx.take n)))

/-- `UartClose()`: the channel closes and the receive buffer empties (R76, D43). -/
def State.uartClose (s : State) : State := { s with T := { s.T with isOpen := false, rx := [] } }.emit .uclose

/-- `UartOpen()`: the channel reopens at BAUD (R76). -/
def State.uartOpen (s : State) : State := { s with T := { s.T with isOpen := true } }.emit .uopen

/-- `Acquire(TL)` by the current agent; enabled only when TL is FREE (R48). -/
def State.acquireTL (s : State) : State := { s with T := { s.T with tl := .held s.cur } }

/-- `Release(TL)`. -/
def State.releaseTL (s : State) : State := { s with T := { s.T with tl := .free } }

/-! ## PWM channels (R26, R98) -/

/-- `CH[c]`, if `c` is in 1..N_PWM (R98). -/
def State.channel? (c : Int) (s : State) : Option Channel :=
  if 1 ≤ c then s.channels[c.toNat - 1]? else none

/-- Changes `CH[c]`. -/
def State.modifyChannel (c : Int) (f : Channel → Channel) (s : State) : State :=
  { s with channels := s.channels.modify (c.toNat - 1) f }

/-- `Acquire(CL[c])` by the current agent (R48). -/
def State.acquireCL (c : Int) (s : State) : State := s.modifyChannel c fun ch => { ch with mutex := .held s.cur }

/-- `Release(CL[c])`. -/
def State.releaseCL (c : Int) (s : State) : State := s.modifyChannel c fun ch => { ch with mutex := .free }

/-- `PwmWrite(c, w)`: the pulse-width output of channel `c` (R12). -/
def State.pwmWrite (c : Int) (w : Rat) (s : State) : State := s.emit (.pwm c.toNat w)

/-! ## The store (R109) -/

/-- `StoreRead(path)`: the STORE draw (log 6), the next listed one or a free one. -/
def State.storeRead (path : Path) (s : State) : Option (List ActionRow) × State :=
  match s.storeIn with
  | r :: rest => (r, { s with storeIn := rest }.emit (.store path r))
  | []        =>
    let r := Config.freeStoreAnswer s.draws
    (r, { s with draws := s.draws + 1 }.emit (.store path r))

/-! ## Operations in progress -/

/-- Records that the current agent stands inside an operation, ready to go on at `readyAt`. -/
def State.pushFlight (ph : FlightPhase) (readyAt : Rat) (s : State) : State :=
  { s with flights := { agent := s.cur, phase := ph, readyAt := readyAt } :: s.flights }

/-- The operation agent `a` stands in. -/
def State.topFlight (a : Agent) (s : State) : Option Flight := s.flights.find? fun f => f.agent == a

/-- Agent `a` leaves the operation it stands in. -/
def State.popFlight (a : Agent) (s : State) : State :=
  { s with flights := s.flights.eraseP fun f => f.agent == a }

/-- The current agent waits for the lock that operation `i` needs first (R48). -/
def State.block (i : Instr) (s : State) : State := s.pushFlight (.waiting i) s.now

/-! ## Jobs and handles (R30 to R32) -/

/-- The job with an id. -/
def State.job? (j : Nat) (s : State) : Option Job := s.sq.jobs.find? fun J => J.id == j

/-- Writes back a job under its id. -/
def State.setJob (J : Job) (s : State) : State :=
  { s with sq := { s.sq with jobs := s.sq.jobs.map fun K => if K.id = J.id then J else K } }

/-- `SQ.jobs \ {J}`. -/
def State.removeJob (j : Nat) (s : State) : State :=
  { s with sq := { s.sq with jobs := s.sq.jobs.filter fun K => K.id ≠ j } }

/-- `SQ.jobs ∪ {J}` for a fresh job (R113). -/
def State.addJob (sets : List ActionSet) (ctx : Ctx) (cb : Option Nat) (s : State) : State :=
  let J : Job := { id := s.sq.nextId, sets := sets, k := 0, phase := .issue 0, ctx := ctx, cb := cb,
                   sleptAt := s.now, split := none }
  { s with sq := { s.sq with jobs := s.sq.jobs ++ [J], nextId := s.sq.nextId + 1 } }

/-- `SQ.running <- r`. -/
def State.setRunning (r : Option Nat) (s : State) : State := { s with sq := { s.sq with running := r } }

/-- `H[j] <- PENDING` for a new handle. -/
def State.addHandle (j : Nat) (s : State) : State := { s with handles := s.handles ++ [(j, .pending)] }

/-- `H[j] <- o`: a pending handle resolves; a resolved one never changes again (R32). -/
def State.resolveHandle (j : Nat) (o : JobOutcome) (s : State) : State :=
  { s with handles := s.handles.map fun h => if h.1 = j ∧ h.2 = .pending then (j, .resolved o) else h }

/-- The agent that executes a job (R30). -/
def Ctx.agent : Ctx → Agent
  | .onCaller a => a
  | .onSched    => .sched

/-! ## How an operation ends -/

/-- What performing an operation comes to: it ends with a result, it raises an error, or it must wait for a
lock before its first effect. -/
inductive Perform
  | done (s : State) (v : Result)
  | raised (s : State) (e : Err)
  | blocked

/-- The operation `i`, named `op` in RESULT, that the current agent issued in state `s`: it ends with RESULT, or
the agent waits (R33, R48). -/
def Perform.conclude (op : HostOp) (i : Instr) (s : State) (p : Perform) : Host.Outcome State Fault Refusal :=
  .next (match p with
    | .done t v   => t.answer op v
    | .raised t e => t.raise op e
    | .blocked    => s.block i)

end Machine
end Sys2Proof
end

