-- ==== Sys2Proof/Machine/Flags.lean ====
section
/-! DEFINITION. The motion core has no condition codes and no status register (R34). Here are the status-like
fields of R34, the electrical level of a direction pin (R20), whether the agents' steps are enabled in the timed
refinement (R103, R115), and the numeric codes of the errors (R123). -/

namespace Sys2Proof
namespace Machine

/-- "channel c idle": `CH[c].rem < 0` (R34). -/
def Channel.idle (ch : Channel) : Bool := decide (ch.rem < 0)

/-- `CL[c]` is FREE. -/
def Channel.unlocked (ch : Channel) : Bool := decide (ch.mutex = .free)

/-- `T.TL` is FREE. -/
def State.tlFree (s : State) : Bool := decide (s.T.tl = .free)

/-- `H[h]` resolved (R34). -/
def State.handleResolved (h : Nat) (s : State) : Bool :=
  match s.handles.lookup h with
  | some (.resolved _) => true
  | _                  => false

/-- The electrical level of a direction pin: EN_ACTIVE where it is asserted (R20, D9). -/
def State.electrical (p : Pin) (s : State) : Level :=
  let l := match p with
    | .txEn => s.T.txEn
    | .rxEn => s.T.rxEn
  match l, s.cfg.enActive with
  | .asserted, a       => a
  | .deasserted, .high => .low
  | .deasserted, .low  => .high

/-- A wait that ends at `t` may end now (D40): always without TIMED. -/
def State.reached (t : Rat) (s : State) : Bool := !s.cfg.timed || decide (t ≤ s.now)

/-- The timer of a channel may fire (R103): with TIMED, not before TICK_MS after the last firing ended. -/
def State.tickDue (ch : Channel) (s : State) : Bool := s.reached (ch.armedAt + (s.cfg.tickMs : Rat))

/-- The sleep of a job in SLEEP(d) may end (R115): with TIMED, not before `d` ms after it began. -/
def State.sleepOver (J : Job) (d : Nat) (s : State) : Bool := s.reached (J.sleptAt + (d : Rat))

/-- Is an onComplete body invoked when the job finishes (R117)? -/
def callbackDue (cfg : Config) (J : Job) : Bool :=
  J.cb.isSome && (decide (J.ctx = .onSched) || cfg.blockingCallback)

/-- The numeric code of an error (R123). -/
def Err.code : Err → Nat
  | .encodeRange _       => 1
  | .budgetRange _       => 2
  | .pwRange _           => 3
  | .durationRange _     => 4
  | .deviationRange _    => 5
  | .channelRange _      => 6
  | .repeatRange _       => 7
  | .communicationTimeout => 16
  | .malformedFrame      => 17
  | .resourceNotFound _  => 32

/-- The errors of kind ValidationError: codes 1 to 7 (R123). -/
def Err.isValidation (e : Err) : Bool := decide (Err.code e ≤ 7)

end Machine
end Sys2Proof
end

