-- ==== Sys2Proof/Machine/Codec.lean ====
section
/-! DEFINITION. The codec operations (R64 to R69): pure functions, whose call ends with RESULT (log 9). -/

namespace Sys2Proof
namespace Machine

/-- ENCODE (R65). -/
def execEncode (id cmd : Int) (ps : List Int) (s : State) : Host.Outcome State Fault Refusal :=
  .next (match encodeFrame s.cfg id cmd ps with
    | .ok f    => s.answer .encode (.frame f)
    | .error e => s.raise .encode e)

/-- DECODE (R67); an `expectedCmd` outside 0..255 is compared too: DESIGN CHOICE (log 33). -/
def execDecode (bytes : Frame) (expectedCmd : Int) (s : State) : Host.Outcome State Fault Refusal :=
  .next (s.answer .decode (decodeFrame s.cfg bytes expectedCmd))

end Machine
end Sys2Proof
end

