-- ==== Sys2Proof/Machine/Transport.lean ====
section
/-! DEFINITION. The Serial Transport (R70 to R76): one write, one exchange with bounded retry, the line reset,
each cut at the waits where another agent may step (R132), and the three operations run without interruption. -/

namespace Sys2Proof
namespace Machine

/-! ## TWRITE (R72) -/

/-- What TWRITE does with a frame once it may acquire TL. -/
def sendFrame (f : Frame) (s : State) : State := ((s.acquireTL.setDirection .tx).uartWrite f).releaseTL

/-- TWRITE (R72). -/
def performWrite (id cmd : Int) (ps : List Int) (s : State) : Perform :=
  match encodeFrame s.cfg id cmd ps with
  | .error e => .raised s e
  | .ok f    => if s.tlFree then .done (sendFrame f s) .done else .blocked

/-! ## TREAD (R73) -/

/-- An attempt up to Wait(REQ): flush, transmit direction, the request. -/
def attemptSend (req : Frame) (s : State) : State :=
  ((s.rxFlush.setDirection .tx).uartWrite req).wait .req s.cfg.tReq

/-- An attempt from the end of Wait(REQ) up to Wait(SETTLE): receive direction. -/
def attemptTurn (s : State) : State := (s.setDirection .rx).wait .settle s.cfg.tSettle

/-- An attempt from the end of Wait(SETTLE): the input is inspected; a result if it decodes (R126). -/
def attemptInspect (cmd : Int) (s : State) : State × Option Result :=
  let a := s.rxAvailable
  if a.1 < s.cfg.minRxBytes then (a.2, none)
  else
    let b := a.2.rxRead a.1
    match decodeFrame s.cfg b.1 cmd with
    | .error => (b.2, none)
    | v      => (b.2, some v)

/-- One attempt run without interruption. -/
def attempt (cmd : Int) (req : Frame) (s : State) : State × Option Result :=
  attemptInspect cmd ((attemptTurn ((attemptSend req s).elapse s.cfg.tReq)).elapse s.cfg.tSettle)

/-- The attempts of a read, at most as many as the budget (R73, R74). -/
def readLoop (cmd : Int) (req : Frame) : Nat → State → State × Result
  | 0,     s => (s, .timeout)
  | n + 1, s =>
    match attempt cmd req s with
    | (t, some v) => (t, v)
    | (t, none)   => readLoop cmd req n t

/-- TREAD (R73). -/
def performRead (id cmd : Int) (ps : List Int) (budget : Int) (s : State) : Perform :=
  match encodeFrame s.cfg id cmd ps with
  | .error e => .raised s e
  | .ok req  =>
    if budget < 0 then .raised s (.budgetRange budget)
    else if s.tlFree then
      let r := readLoop cmd req budget.toNat s.acquireTL
      .done r.1.releaseTL r.2
    else .blocked

/-! ## LINE_RESET (R76) -/

/-- LINE_RESET up to its first wait. -/
def lineClose (s : State) : State := s.acquireTL.uartClose.wait .lineReset s.cfg.tLineReset

/-- LINE_RESET between its two waits. -/
def lineReopen (s : State) : State := (s.uartOpen.setDirection .tx).wait .lineReset s.cfg.tLineReset

/-- LINE_RESET (R76). -/
def performLineReset (s : State) : Perform :=
  if s.tlFree then
    .done ((lineReopen ((lineClose s).elapse s.cfg.tLineReset)).elapse s.cfg.tLineReset).releaseTL .done
  else .blocked

/-! ## The operations -/

/-- TWRITE. -/
def execTwrite (id cmd : Int) (ps : List Int) (s : State) : Host.Outcome State Fault Refusal :=
  (performWrite id cmd ps s).conclude .twrite (.twrite id cmd ps) s

/-- TREAD. -/
def execTread (id cmd : Int) (ps : List Int) (budget : Int) (s : State) : Host.Outcome State Fault Refusal :=
  (performRead id cmd ps budget s).conclude .tread (.tread id cmd ps budget) s

/-- LINE_RESET. -/
def execLineReset (s : State) : Host.Outcome State Fault Refusal :=
  (performLineReset s).conclude .lineReset .lineReset s

/-! ## The operations cut at their waits (R132) -/

/-- TREAD up to its first wait, as the operation `i` named `op`. -/
def beginRead (op : HostOp) (i : Instr) (id cmd : Int) (ps : List Int) (budget : Int) (s : State) :
    Host.Outcome State Fault Refusal :=
  match encodeFrame s.cfg id cmd ps with
  | .error e => (Perform.raised s e).conclude op i s
  | .ok req  =>
    if budget < 0 then (Perform.raised s (.budgetRange budget)).conclude op i s
    else if s.tlFree then
      match budget.toNat with
      | 0     => (Perform.done s.acquireTL.releaseTL .timeout).conclude op i s
      | n + 1 =>
        let t := attemptSend req s.acquireTL
        .next (t.pushFlight (.readReq { op := op, cmd := cmd, req := req, left := n }) (t.now + t.cfg.tReq))
    else Perform.blocked.conclude op i s

/-- TREAD goes on after Wait(REQ). -/
def resumeTurn (x : Exchange) (s : State) : State :=
  let t := attemptTurn s
  t.pushFlight (.readSettle x) (t.now + t.cfg.tSettle)

/-- TREAD goes on after Wait(SETTLE): it ends, or sends the request again. -/
def resumeInspect (x : Exchange) (s : State) : State :=
  match attemptInspect x.cmd s with
  | (t, some v) => t.releaseTL.answer x.op v
  | (t, none)   =>
    match x.left with
    | 0     => t.releaseTL.answer x.op .timeout
    | n + 1 =>
      let u := attemptSend x.req t
      u.pushFlight (.readReq { x with left := n }) (u.now + u.cfg.tReq)

/-- LINE_RESET up to its first wait. -/
def beginLineReset (s : State) : Host.Outcome State Fault Refusal :=
  if s.tlFree then
    .next ((lineClose s).pushFlight .lineClosed ((lineClose s).now + s.cfg.tLineReset))
  else Perform.blocked.conclude .lineReset .lineReset s

/-- LINE_RESET goes on after its first wait. -/
def resumeLineClosed (s : State) : State :=
  (lineReopen s).pushFlight .lineOpened ((lineReopen s).now + s.cfg.tLineReset)

/-- LINE_RESET goes on after its second wait. -/
def resumeLineOpened (s : State) : State := s.releaseTL.answer .lineReset .done

end Machine
end Sys2Proof
end

