-- ==== Sys2Proof/Machine/Wire.lean ====
section
/-! DEFINITION. The wire commands (R52 to R60) as instructions: the agent puts the command's frame on the line by
the transport operation of the command's kind (R58, R59, R70): TWRITE for a write, TREAD with the default budget
for a read, and that is the operation its RESULT names (log 8). -/

namespace Sys2Proof
namespace Machine

/-- A wire command of kind write: the TWRITE of its frame. -/
def wireWrite (c : Command) (id : Int) (ps : List Int) (i : Instr) (s : State) : Host.Outcome State Fault Refusal :=
  (performWrite id (s.cfg.cmdInt c) ps s).conclude .twrite i s

/-- A wire command of kind read: the TREAD of its frame with the default budget. -/
def wireRead (c : Command) (id : Int) (i : Instr) (s : State) : Host.Outcome State Fault Refusal :=
  (performRead id (s.cfg.cmdInt c) [] s.cfg.readRetryDefault s).conclude .tread i s

/-- MOVE_TIME_WRITE (R58, emitted as R81 says). -/
def execMoveTimeWrite (id pos dur : Int) (s : State) : Host.Outcome State Fault Refusal :=
  wireWrite .moveTimeWrite id [pos, dur] (.moveTimeWrite id pos dur) s

/-- MOVE_STOP (R58, emitted as R82 says). -/
def execMoveStop (id : Int) (s : State) : Host.Outcome State Fault Refusal :=
  wireWrite .moveStop id [] (.moveStop id) s

/-- ID_WRITE (R58, emitted as R79 says). -/
def execIdWrite (id newId : Int) (s : State) : Host.Outcome State Fault Refusal :=
  wireWrite .idWrite id [newId] (.idWrite id newId) s

/-- ANGLE_OFFSET_ADJUST (R58, emitted as R83 says). -/
def execAngleOffsetAdjust (id dev : Int) (s : State) : Host.Outcome State Fault Refusal :=
  wireWrite .angleOffsetAdjust id [dev] (.angleOffsetAdjust id dev) s

/-- ANGLE_OFFSET_WRITE (R58, emitted as R84 says). -/
def execAngleOffsetWrite (id : Int) (s : State) : Host.Outcome State Fault Refusal :=
  wireWrite .angleOffsetWrite id [] (.angleOffsetWrite id) s

/-- ANGLE_LIMIT_WRITE (R58, emitted as R86 says). -/
def execAngleLimitWrite (id lo hi : Int) (s : State) : Host.Outcome State Fault Refusal :=
  wireWrite .angleLimitWrite id [lo, hi] (.angleLimitWrite id lo hi) s

/-- VIN_LIMIT_WRITE (R58, emitted as R88 says). -/
def execVinLimitWrite (id lo hi : Int) (s : State) : Host.Outcome State Fault Refusal :=
  wireWrite .vinLimitWrite id [lo, hi] (.vinLimitWrite id lo hi) s

/-- TEMP_MAX_LIMIT_WRITE (R58, emitted as R90 says). -/
def execTempMaxLimitWrite (id t : Int) (s : State) : Host.Outcome State Fault Refusal :=
  wireWrite .tempMaxLimitWrite id [t] (.tempMaxLimitWrite id t) s

/-- LOAD_OR_UNLOAD_WRITE (R58, emitted as R95 says). -/
def execLoadOrUnloadWrite (id v : Int) (s : State) : Host.Outcome State Fault Refusal :=
  wireWrite .loadOrUnloadWrite id [v] (.loadOrUnloadWrite id v) s

/-- MOVE_TIME_READ (R58, no client operation). -/
def execMoveTimeRead (id : Int) (s : State) : Host.Outcome State Fault Refusal :=
  wireRead .moveTimeRead id (.moveTimeRead id) s

/-- ID_READ (R58, emitted as R80 says). -/
def execIdRead (id : Int) (s : State) : Host.Outcome State Fault Refusal :=
  wireRead .idRead id (.idRead id) s

/-- ANGLE_OFFSET_READ (R58, emitted as R85 says). -/
def execAngleOffsetRead (id : Int) (s : State) : Host.Outcome State Fault Refusal :=
  wireRead .angleOffsetRead id (.angleOffsetRead id) s

/-- ANGLE_LIMIT_READ (R58, emitted as R87 says). -/
def execAngleLimitRead (id : Int) (s : State) : Host.Outcome State Fault Refusal :=
  wireRead .angleLimitRead id (.angleLimitRead id) s

/-- VIN_LIMIT_READ (R58, emitted as R89 says). -/
def execVinLimitRead (id : Int) (s : State) : Host.Outcome State Fault Refusal :=
  wireRead .vinLimitRead id (.vinLimitRead id) s

/-- TEMP_MAX_LIMIT_READ (R58, emitted as R91 says). -/
def execTempMaxLimitRead (id : Int) (s : State) : Host.Outcome State Fault Refusal :=
  wireRead .tempMaxLimitRead id (.tempMaxLimitRead id) s

/-- TEMP_READ (R58, emitted as R93 says). -/
def execTempRead (id : Int) (s : State) : Host.Outcome State Fault Refusal :=
  wireRead .tempRead id (.tempRead id) s

/-- VIN_READ (R58, emitted as R94 says). -/
def execVinRead (id : Int) (s : State) : Host.Outcome State Fault Refusal :=
  wireRead .vinRead id (.vinRead id) s

/-- POS_READ (R58, emitted as R92 says). -/
def execPosRead (id : Int) (s : State) : Host.Outcome State Fault Refusal :=
  wireRead .posRead id (.posRead id) s

/-- LOAD_OR_UNLOAD_READ (R58, emitted as R96 says). -/
def execLoadOrUnloadRead (id : Int) (s : State) : Host.Outcome State Fault Refusal :=
  wireRead .loadOrUnloadRead id (.loadOrUnloadRead id) s

end Machine
end Sys2Proof
end

