-- ==== Sys2Proof/Machine/Client.lean ====
section
/-! DEFINITION. The Serial Servo Client (R77 to R97): every set is one TWRITE, every get one TREAD of a request
without parameters whose result it returns unchanged, and BUS_RESET is two writes with a delay between them. -/

namespace Sys2Proof
namespace Machine

/-- A client set: the TWRITE of one frame (R77). -/
def clientSet (op : HostOp) (c : Command) (id : Int) (ps : List Int) (i : Instr) (s : State) :
    Host.Outcome State Fault Refusal :=
  (performWrite id (s.cfg.cmdInt c) ps s).conclude op i s

/-- A client get: the TREAD of a request without parameters (R78). -/
def clientGet (op : HostOp) (c : Command) (id : Int) (budget : Option Int) (i : Instr) (s : State) :
    Host.Outcome State Fault Refusal :=
  (performRead id (s.cfg.cmdInt c) [] (budgetOf s.cfg budget) s).conclude op i s

/-- BUS_SET_POSITION as a caller or a playback performs it: position and duration clamped, one write (R81). -/
def performSetPosition (id pos dur : Int) (s : State) : Perform :=
  performWrite id (s.cfg.cmdInt .moveTimeWrite) [servoPosition s.cfg pos, servoDuration s.cfg dur] s

/-- BUS_SET_POSITION (R81). -/
def execBusSetPosition (id pos dur : Int) (s : State) : Host.Outcome State Fault Refusal :=
  (performSetPosition id pos dur s).conclude .busSetPosition (.busSetPosition id pos dur) s

/-- BUS_SET_ID (R79). -/
def execBusSetId (id newId : Int) (s : State) : Host.Outcome State Fault Refusal :=
  clientSet .busSetId .idWrite id [newId] (.busSetId id newId) s

/-- BUS_STOP (R82). -/
def execBusStop (id : Int) (s : State) : Host.Outcome State Fault Refusal :=
  clientSet .busStop .moveStop id [] (.busStop id) s

/-- BUS_SET_DEVIATION (R83). -/
def execBusSetDeviation (id dev : Int) (s : State) : Host.Outcome State Fault Refusal :=
  clientSet .busSetDeviation .angleOffsetAdjust id [dev] (.busSetDeviation id dev) s

/-- BUS_SAVE_DEVIATION (R84). -/
def execBusSaveDeviation (id : Int) (s : State) : Host.Outcome State Fault Refusal :=
  clientSet .busSaveDeviation .angleOffsetWrite id [] (.busSaveDeviation id) s

/-- BUS_SET_ANGLE_LIMIT (R86). -/
def execBusSetAngleLimit (id lo hi : Int) (s : State) : Host.Outcome State Fault Refusal :=
  clientSet .busSetAngleLimit .angleLimitWrite id [lo, hi] (.busSetAngleLimit id lo hi) s

/-- BUS_SET_VIN_LIMIT (R88). -/
def execBusSetVinLimit (id lo hi : Int) (s : State) : Host.Outcome State Fault Refusal :=
  clientSet .busSetVinLimit .vinLimitWrite id [lo, hi] (.busSetVinLimit id lo hi) s

/-- BUS_SET_TEMP_LIMIT (R90). -/
def execBusSetTempLimit (id t : Int) (s : State) : Host.Outcome State Fault Refusal :=
  clientSet .busSetTempLimit .tempMaxLimitWrite id [t] (.busSetTempLimit id t) s

/-- BUS_UNLOAD (R95). -/
def execBusUnload (id : Int) (s : State) : Host.Outcome State Fault Refusal :=
  clientSet .busUnload .loadOrUnloadWrite id [0] (.busUnload id) s

/-- BUS_GET_ID (R80): addressed to the broadcast id where no id is given. -/
def execBusGetId (id budget : Option Int) (s : State) : Host.Outcome State Fault Refusal :=
  clientGet .busGetId .idRead (idOrBroadcast s.cfg id) budget (.busGetId id budget) s

/-- BUS_GET_DEVIATION (R85). -/
def execBusGetDeviation (id : Int) (budget : Option Int) (s : State) : Host.Outcome State Fault Refusal :=
  clientGet .busGetDeviation .angleOffsetRead id budget (.busGetDeviation id budget) s

/-- BUS_GET_ANGLE_LIMIT (R87). -/
def execBusGetAngleLimit (id : Int) (budget : Option Int) (s : State) : Host.Outcome State Fault Refusal :=
  clientGet .busGetAngleLimit .angleLimitRead id budget (.busGetAngleLimit id budget) s

/-- BUS_GET_VIN_LIMIT (R89). -/
def execBusGetVinLimit (id : Int) (budget : Option Int) (s : State) : Host.Outcome State Fault Refusal :=
  clientGet .busGetVinLimit .vinLimitRead id budget (.busGetVinLimit id budget) s

/-- BUS_GET_TEMP_LIMIT (R91). -/
def execBusGetTempLimit (id : Int) (budget : Option Int) (s : State) : Host.Outcome State Fault Refusal :=
  clientGet .busGetTempLimit .tempMaxLimitRead id budget (.busGetTempLimit id budget) s

/-- BUS_GET_POSITION (R92). -/
def execBusGetPosition (id : Int) (budget : Option Int) (s : State) : Host.Outcome State Fault Refusal :=
  clientGet .busGetPosition .posRead id budget (.busGetPosition id budget) s

/-- BUS_GET_TEMP (R93). -/
def execBusGetTemp (id : Int) (budget : Option Int) (s : State) : Host.Outcome State Fault Refusal :=
  clientGet .busGetTemp .tempRead id budget (.busGetTemp id budget) s

/-- BUS_GET_VIN (R94). -/
def execBusGetVin (id : Int) (budget : Option Int) (s : State) : Host.Outcome State Fault Refusal :=
  clientGet .busGetVin .vinRead id budget (.busGetVin id budget) s

/-- BUS_GET_LOAD_STATE (R96). -/
def execBusGetLoadState (id : Int) (budget : Option Int) (s : State) : Host.Outcome State Fault Refusal :=
  clientGet .busGetLoadState .loadOrUnloadRead id budget (.busGetLoadState id budget) s

/-! ## BUS_RESET (R97) -/

/-- The first write of BUS_RESET: the deviation is adjusted to 0 (D15). -/
def resetFirst (id : Int) (s : State) : Perform := performWrite id (s.cfg.cmdInt .angleOffsetAdjust) [0] s

/-- The second write of BUS_RESET: mid-travel over 1000 ms. -/
def resetSecond (id : Int) (s : State) : Perform := performWrite id (s.cfg.cmdInt .moveTimeWrite) [500, 1000] s

/-- The delay of BUS_RESET, TL not held. -/
def resetDelay (s : State) : State := s.wait .clientReset s.cfg.tClientReset

/-- BUS_RESET (R97). -/
def execBusReset (id : Int) (s : State) : Host.Outcome State Fault Refusal :=
  (match resetFirst id s with
    | .done t _   => resetSecond id ((resetDelay t).elapse t.cfg.tClientReset)
    | .raised t e => .raised t e
    | .blocked    => .blocked).conclude .busReset (.busReset id) s

/-- BUS_RESET up to the end of its first write. -/
def beginBusReset (id : Int) (s : State) : Host.Outcome State Fault Refusal :=
  match resetFirst id s with
  | .done t _ => .next (t.pushFlight (.resetWrote id) t.now)
  | p         => p.conclude .busReset (.busReset id) s

/-- BUS_RESET goes on after its first write: the delay begins. -/
def resumeResetWrote (id : Int) (s : State) : State :=
  (resetDelay s).pushFlight (.resetWaited id) (s.now + s.cfg.tClientReset)

/-- BUS_RESET goes on after its delay: the second write, when TL is free. -/
def resumeResetWaited (id : Int) (s : State) : State :=
  match resetSecond id s with
  | .done t v   => t.answer .busReset v
  | .raised t e => t.raise .busReset e
  | .blocked    => s.pushFlight (.resetWaited id) s.now

end Machine
end Sys2Proof
end

