-- ==== Sys2Proof/Machine/Pwm.lean ====
section
/-! DEFINITION. The PWM interpolator (R98 to R108). Every operation on a channel runs under its mutex; widths are
exact rationals (D17). -/

namespace Sys2Proof
namespace Machine

/-! ## PWM_SET_POSITION (R99, R100, R102) -/

/-- The checks of PWM_SET_POSITION, in the order of R128. -/
def pwmCheck (c w d : Int) (s : State) : Except Err Channel :=
  match s.channel? c with
  | none    => .error (.channelRange c)
  | some ch =>
    if ¬ (ch.lo ≤ w ∧ w ≤ ch.hi) then .error (.pwRange w)
    else if d < 0 then .error (.durationRange d)
    else .ok ch

/-- SetPosImmediate (R100): current and target become `w`, the motion ends, one hardware write. `dev` is the
channel's deviation. -/
def setPosImmediate (c w dev : Int) (s : State) : State :=
  let t := (s.acquireCL c).modifyChannel c fun ch => { ch with cur := (w : Rat), tgt := (w : Rat), rem := s.cfg.idleTicks }
  (t.pwmWrite c ((w : Rat) + (dev : Rat))).releaseCL c

/-- SetPosTimed (R102) from the width `c0`: delta, target and tick count, no hardware write. -/
def setPosTimed (c w d : Int) (c0 : Rat) (s : State) : State :=
  let n := tickCount s.cfg d
  ((s.acquireCL c).modifyChannel c fun ch =>
    { ch with delta := (c0 - (w : Rat)) / (n : Rat), tgt := (w : Rat), rem := (n : Int) }).releaseCL c

/-- PWM_SET_POSITION (R99). With SETPOS_SPLIT_READ the timed form reads the width in a step of its own and goes on
from there (R102). -/
def execPwmSetPosition (c w d : Int) (s : State) : Host.Outcome State Fault Refusal :=
  match pwmCheck c w d s with
  | .error e => .next (s.raise .pwmSetPosition e)
  | .ok ch   =>
    if ¬ ch.unlocked then .next (s.block (.pwmSetPosition c w d))
    else if d = 0 then .next ((setPosImmediate c w ch.dev s).answer .pwmSetPosition .done)
    else if s.cfg.setposSplitRead then .next (s.pushFlight (.pwmSplit c w d ch.cur) s.now)
    else .next ((setPosTimed c w d ch.cur s).answer .pwmSetPosition .done)

/-- PWM_SET_POSITION goes on after its split read, when the mutex is free. -/
def resumePwmSplit (c w d : Int) (c0 : Rat) (s : State) : State :=
  match s.channel? c with
  | some ch =>
    if ch.unlocked then (setPosTimed c w d c0 s).answer .pwmSetPosition .done
    else s.pushFlight (.pwmSplit c w d c0) s.now
  | none => s.raise .pwmSetPosition (.channelRange c)

/-! ## PWM_TICK (R104) -/

/-- The timer of channel `c` is armed again (R103). -/
def rearm (c : Int) (s : State) : State :=
  if s.cfg.timed then s.modifyChannel c fun ch => { ch with armedAt := s.now } else s

/-- One interpolation step of channel `c`, whose state is `ch` (R104). -/
def tickChannel (c : Nat) (ch : Channel) (s : State) : State :=
  let t := (s.acquireCL c).emit (.tickfire c)
  let r := ch.rem - 1
  let u :=
    if ch.rem < 0 then t
    else if 0 < r then
      let x := ch.tgt + ch.delta * (r : Rat)
      (t.pwmWrite c (x + (ch.dev : Rat))).modifyChannel c fun ch => { ch with rem := r, cur := x }
    else if r = 0 then
      (t.pwmWrite c (ch.tgt + (ch.dev : Rat))).modifyChannel c fun ch => { ch with rem := s.cfg.idleTicks, cur := ch.tgt }
    else t.modifyChannel c fun ch => { ch with rem := r }
  rearm c (u.releaseCL c)

/-- PWM_TICK (R103, R104): issued by TICK(c) only; the timer waits for the mutex, and with TIMED for its period. -/
def execPwmTick (c : Nat) (s : State) : Host.Outcome State Fault Refusal :=
  if s.cur ≠ .tick c then .refused (.internalStep (.pwmTick c))
  else match s.channel? c with
    | none    => .refused (.noSuchStep (.pwmTick c))
    | some ch => .next (if ch.unlocked && s.tickDue ch then tickChannel c ch s else s)

/-! ## The deviation (R107, R108) -/

/-- PWM_SET_DEVIATION (R107): no hardware write. -/
def execPwmSetDeviation (c dv : Int) (s : State) : Host.Outcome State Fault Refusal :=
  match s.channel? c with
  | none    => .next (s.raise .pwmSetDeviation (.channelRange c))
  | some ch =>
    if ¬ s.cfg.devOk dv then .next (s.raise .pwmSetDeviation (.deviationRange dv))
    else if ¬ ch.unlocked then .next (s.block (.pwmSetDeviation c dv))
    else
      let t := ((s.acquireCL c).modifyChannel c fun ch => { ch with dev := dv }).releaseCL c
      .next (t.answer .pwmSetDeviation .done)

/-- PWM_GET_DEVIATION (R108). -/
def execPwmGetDeviation (c : Int) (s : State) : Host.Outcome State Fault Refusal :=
  match s.channel? c with
  | none    => .next (s.raise .pwmGetDeviation (.channelRange c))
  | some ch =>
    if ¬ ch.unlocked then .next (s.block (.pwmGetDeviation c))
    else .next (((s.acquireCL c).releaseCL c).answer .pwmGetDeviation (.value ch.dev))

end Machine
end Sys2Proof
end

