-- ==== Sys2Proof/Machine/Sequencer.lean ====
section
/-! DEFINITION. The action sequencer (R109 to R121): loading, starting a playback, the steps of a job, and a
blocking playback run without interruption. -/

namespace Sys2Proof
namespace Machine

/-! ## SEQ_LOAD (R109) -/

/-- SEQ_LOAD: the repeat check, the store's answer, the locks applied. -/
def performLoad (path : Path) (reps : Int) (locks : List (Int × Int)) (s : State) : Perform :=
  if reps < 0 then .raised s (.repeatRange reps)
  else
    let r := s.storeRead path
    match r.1 with
    | none      => .raised r.2 (.resourceNotFound path)
    | some rows => .done r.2 (.actionSet (loadedSet path reps.toNat locks rows))

/-- SEQ_LOAD (R109). -/
def execSeqLoad (path : Path) (reps : Int) (locks : List (Int × Int)) (s : State) :
    Host.Outcome State Fault Refusal :=
  (performLoad path reps locks s).conclude .seqLoad (.seqLoad path reps locks) s

/-! ## The steps of a job (R114 to R117) -/

/-- What a step of a job comes to: it goes on, it has completed, its onComplete body runs, or it must wait for a
lock. -/
inductive JobMove
  | moved (s : State)
  | finished (s : State) (o : JobOutcome)
  | inBody (s : State)
  | blocked

/-- The state a step of a job leaves, `s` where it had to wait. -/
def JobMove.after (s : State) : JobMove → State
  | .moved t      => t
  | .finished t _ => t
  | .inBody t     => t
  | .blocked      => s

/-- The last part of SEQ_FINISH: SCHED runs no job, and the job is gone (R117). -/
def endJob (J : Job) (s : State) : State :=
  match J.ctx with
  | .onSched    => (s.setRunning none).removeJob J.id
  | .onCaller _ => s.removeJob J.id

/-- SEQ_FINISH (R117): COMPLETE, the handle resolves, and the callback is invoked; where its body runs, the job
stays in phase DONE until the body returns (log 14). -/
def finishJob (J : Job) (o : JobOutcome) (s : State) : JobMove :=
  let t := s.emit (.complete J.id o)
  let u := match J.ctx with
    | .onSched    => t.resolveHandle J.id o
    | .onCaller _ => t
  if callbackDue s.cfg J then
    .inBody ((u.setJob { J with phase := .done }).pushFlight (.callback J.id o) s.now)
  else .finished (endJob J u) o

/-- One command of a round, a host operation of the job's agent (R111, R114). -/
def issueCmd (J : Job) (p : Nat) (c : Cmd) (s : State) : JobMove :=
  match channelKind s.cfg c.col with
  | .serial =>
    match performSetPosition c.col c.pos c.dur s with
    | .done t _   => .moved (t.setJob { J with phase := .issue (p + 1) })
    | .raised t e => finishJob J (.fail e) t
    | .blocked    => .blocked
  | .pwm =>
    match pwmCheck c.col c.pos c.dur s with
    | .error e => finishJob J (.fail e) s
    | .ok ch   =>
      if ¬ ch.unlocked then .blocked
      else if c.dur = 0 then
        .moved ((setPosImmediate c.col c.pos ch.dev s).setJob { J with phase := .issue (p + 1) })
      else if s.cfg.setposSplitRead ∧ J.split = none then .moved (s.setJob { J with split := some ch.cur })
      else
        .moved ((setPosTimed c.col c.pos c.dur (J.split.getD ch.cur) s).setJob
          { J with phase := .issue (p + 1), split := none })

/-- SEQ_ISSUE of a job in phase ISSUE(p) (R114). -/
def issueJob (J : Job) (p : Nat) (s : State) : JobMove :=
  if rounds J.sets ≤ J.k then finishJob J .ok s
  else match (cmds J.sets J.k)[p]? with
    | some c => issueCmd J p c s
    | none   =>
      let d := sleepLen J.sets J.k
      .moved ((s.emit (.sleep J.id d)).setJob { J with phase := .sleep d, sleptAt := s.now })

/-- SEQ_SLEEP of a job in phase SLEEP (R115): a suspended job of SCHED is not run any more; a blocking job keeps its
caller. -/
def suspendJob (J : Job) (s : State) : State :=
  match J.ctx with
  | .onSched    => s.setRunning none
  | .onCaller _ => s

/-- SEQ_WAKE of a job in phase SLEEP (R116): the next round. -/
def wakeJob (J : Job) (s : State) : State := (s.emit (.wake J.id)).setJob { J with k := J.k + 1, phase := .issue 0 }

/-- The current agent may make the steps of a job: it is the job's agent, and SCHED only of the job it runs
(R30, R31, R119). -/
def ownsJob (J : Job) (s : State) : Bool :=
  decide (J.ctx.agent = s.cur) && (decide (J.ctx ≠ .onSched) || decide (s.sq.running = some J.id))

/-- An internal step `i` on job `j`: refused from an agent it does not belong to (R133), and where the job has no
such step now (log 22). -/
def internalStep (i : Instr) (j : Nat) (s : State) (step : Job → Option State) : Host.Outcome State Fault Refusal :=
  match s.job? j with
  | none   => .refused (.noSuchStep i)
  | some J =>
    if ¬ ownsJob J s then .refused (.internalStep i)
    else match step J with
      | some t => .next t
      | none   => .refused (.noSuchStep i)

/-- SEQ_ISSUE (R114). -/
def execSeqIssue (j : Nat) (s : State) : Host.Outcome State Fault Refusal :=
  internalStep (.seqIssue j) j s fun J =>
    match J.phase with
    | .issue p => some ((issueJob J p s).after s)
    | .sleep _ => none
    | .done    => none

/-- SEQ_SLEEP (R115). -/
def execSeqSleep (j : Nat) (s : State) : Host.Outcome State Fault Refusal :=
  internalStep (.seqSleep j) j s fun J =>
    match J.phase with
    | .sleep _ => some (suspendJob J s)
    | .issue _ => none
    | .done    => none

/-- SEQ_WAKE (R116); with TIMED the sleep lasts at least its length (R115). -/
def execSeqWake (j : Nat) (s : State) : Host.Outcome State Fault Refusal :=
  internalStep (.seqWake j) j s fun J =>
    match J.phase with
    | .sleep d => some (if s.sleepOver J d then wakeJob J s else s)
    | .issue _ => none
    | .done    => none

/-- SEQ_FINISH (R117). -/
def execSeqFinish (j : Nat) (o : JobOutcome) (s : State) : Host.Outcome State Fault Refusal :=
  internalStep (.seqFinish j o) j s fun J =>
    match J.phase with
    | .issue _ => some ((finishJob J o s).after s)
    | .sleep _ => none
    | .done    => none

/-! ## SEQ_PLAY (R113, R118) -/

/-- What a blocking SEQ_PLAY returns for its job's outcome (R113). -/
def outcomeResult : JobOutcome → Result
  | .ok     => .done
  | .fail e => .raised e

/-- What a step of a blocking playback comes to: the caller goes on, SEQ_PLAY has returned, or the caller stands
(at a lock, or inside the onComplete body). -/
inductive PlayMove
  | on (s : State)
  | over (s : State)
  | stand (s : State)

/-- One step of RunBlocking (R118), made by the caller that plays job `j`. -/
def playStep (j : Nat) (s : State) : PlayMove :=
  match s.job? j with
  | none   => .stand s
  | some J =>
    match J.phase with
    | .issue p =>
      match issueJob J p s with
      | .moved t      => .on t
      | .finished t o => .over ((t.popFlight t.cur).answer .seqPlay (outcomeResult o))
      | .inBody t     => .stand t
      | .blocked      => .stand s
    | .sleep _ => .on (wakeJob J s)
    | .done    => .stand s

/-- The time a sleeping job `j` sleeps, where its playback runs without interruption. -/
def sleepThrough (j : Nat) (s : State) : State :=
  match s.job? j with
  | none   => s
  | some J =>
    match J.phase with
    | .sleep d => s.elapse (d : Rat)
    | .issue _ => s
    | .done    => s

/-- RunBlocking (R118): at most `n` steps. -/
def runBlocking (j : Nat) : Nat → State → State
  | 0,     s => s
  | n + 1, s =>
    match playStep j (sleepThrough j s) with
    | .on t    => runBlocking j n t
    | .over t  => t
    | .stand t => t

/-- The job of a blocking SEQ_PLAY, and its caller inside it. -/
def startBlocking (sets : List ActionSet) (cb : Option Nat) (s : State) : State :=
  (s.addJob sets (.onCaller s.cur) cb).pushFlight (.playing s.sq.nextId) s.now

/-- The job and the handle of a non-blocking SEQ_PLAY, which returns at once. -/
def startScheduled (sets : List ActionSet) (cb : Option Nat) (s : State) : State :=
  ((s.addJob sets .onSched cb).addHandle s.sq.nextId).answer .seqPlay (.handle s.sq.nextId)

/-- SEQ_PLAY (R113). A non-blocking one reads `SQ.started` (R34): "SQ.started is always true, so non-blocking SEQ_PLAY
is always accepted", and is refused in a state, which no run reaches, where SCHED does not run (log 27). A set that no
SEQ_LOAD returned is played as it stands: DESIGN CHOICE (log 31). -/
def execSeqPlay (sets : List ActionSet) (blocking : Bool) (cb : Option Nat) (s : State) :
    Host.Outcome State Fault Refusal :=
  if blocking then .next (runBlocking s.sq.nextId (jobSteps sets) (startBlocking sets cb s))
  else if s.sq.started then .next (startScheduled sets cb s)
  else .refused .schedulerStopped

/-! ## SEQ_PLAY_PATHS (R63) -/

/-- The loads of SEQ_PLAY_PATHS, in order, stopping with the first error (R127). -/
def loadAll : List (Path × Int × List (Int × Int)) → State → State × Option (List ActionSet)
  | [], s => (s, some [])
  | (path, reps, locks) :: rest, s =>
    match performLoad path reps locks s with
    | .done t (.actionSet a) =>
      let r := loadAll rest (t.answer .seqLoad (.actionSet a))
      (r.1, r.2.map (a :: ·))
    | .done t v   => (t.answer .seqLoad v, none)
    | .raised t e => (t.raise .seqLoad e, none)
    | .blocked    => (s, none)

/-- SEQ_PLAY_PATHS: every set is loaded, then all are played; nothing is played where a load fails. -/
def seqPlayPaths (reqs : List (Path × Int × List (Int × Int))) (blocking : Bool) (cb : Option Nat) (s : State) :
    Host.Outcome State Fault Refusal :=
  let r := loadAll reqs s
  match r.2 with
  | some sets => execSeqPlay sets blocking cb r.1
  | none      => .next r.1

end Machine
end Sys2Proof
end

