-- ==== Sys2Proof/Machine/Dispatch.lean ====
section
/-! DEFINITION. The dispatch: one arm per instruction of spec/opcode_table.json. -/

namespace Sys2Proof
namespace Machine

def exec (i : Instr) (s : State) : Host.Outcome State Fault Refusal :=
  match i with
  | .moveTimeWrite id pos dur => Sys2Proof.Machine.execMoveTimeWrite id pos dur s
  | .moveTimeRead id => Sys2Proof.Machine.execMoveTimeRead id s
  | .moveStop id => Sys2Proof.Machine.execMoveStop id s
  | .idWrite id newId => Sys2Proof.Machine.execIdWrite id newId s
  | .idRead id => Sys2Proof.Machine.execIdRead id s
  | .angleOffsetAdjust id dev => Sys2Proof.Machine.execAngleOffsetAdjust id dev s
  | .angleOffsetWrite id => Sys2Proof.Machine.execAngleOffsetWrite id s
  | .angleOffsetRead id => Sys2Proof.Machine.execAngleOffsetRead id s
  | .angleLimitWrite id lo hi => Sys2Proof.Machine.execAngleLimitWrite id lo hi s
  | .angleLimitRead id => Sys2Proof.Machine.execAngleLimitRead id s
  | .vinLimitWrite id lo hi => Sys2Proof.Machine.execVinLimitWrite id lo hi s
  | .vinLimitRead id => Sys2Proof.Machine.execVinLimitRead id s
  | .tempMaxLimitWrite id t => Sys2Proof.Machine.execTempMaxLimitWrite id t s
  | .tempMaxLimitRead id => Sys2Proof.Machine.execTempMaxLimitRead id s
  | .tempRead id => Sys2Proof.Machine.execTempRead id s
  | .vinRead id => Sys2Proof.Machine.execVinRead id s
  | .posRead id => Sys2Proof.Machine.execPosRead id s
  | .loadOrUnloadWrite id v => Sys2Proof.Machine.execLoadOrUnloadWrite id v s
  | .loadOrUnloadRead id => Sys2Proof.Machine.execLoadOrUnloadRead id s
  | .encode id cmd ps => Sys2Proof.Machine.execEncode id cmd ps s
  | .decode bytes expectedCmd => Sys2Proof.Machine.execDecode bytes expectedCmd s
  | .twrite id cmd ps => Sys2Proof.Machine.execTwrite id cmd ps s
  | .tread id cmd ps budget => Sys2Proof.Machine.execTread id cmd ps budget s
  | .lineReset => Sys2Proof.Machine.execLineReset s
  | .busSetId id newId => Sys2Proof.Machine.execBusSetId id newId s
  | .busGetId id budget => Sys2Proof.Machine.execBusGetId id budget s
  | .busSetPosition id pos dur => Sys2Proof.Machine.execBusSetPosition id pos dur s
  | .busStop id => Sys2Proof.Machine.execBusStop id s
  | .busSetDeviation id dev => Sys2Proof.Machine.execBusSetDeviation id dev s
  | .busSaveDeviation id => Sys2Proof.Machine.execBusSaveDeviation id s
  | .busGetDeviation id budget => Sys2Proof.Machine.execBusGetDeviation id budget s
  | .busSetAngleLimit id lo hi => Sys2Proof.Machine.execBusSetAngleLimit id lo hi s
  | .busGetAngleLimit id budget => Sys2Proof.Machine.execBusGetAngleLimit id budget s
  | .busSetVinLimit id lo hi => Sys2Proof.Machine.execBusSetVinLimit id lo hi s
  | .busGetVinLimit id budget => Sys2Proof.Machine.execBusGetVinLimit id budget s
  | .busSetTempLimit id t => Sys2Proof.Machine.execBusSetTempLimit id t s
  | .busGetTempLimit id budget => Sys2Proof.Machine.execBusGetTempLimit id budget s
  | .busGetPosition id budget => Sys2Proof.Machine.execBusGetPosition id budget s
  | .busGetTemp id budget => Sys2Proof.Machine.execBusGetTemp id budget s
  | .busGetVin id budget => Sys2Proof.Machine.execBusGetVin id budget s
  | .busUnload id => Sys2Proof.Machine.execBusUnload id s
  | .busGetLoadState id budget => Sys2Proof.Machine.execBusGetLoadState id budget s
  | .busReset id => Sys2Proof.Machine.execBusReset id s
  | .pwmSetPosition c w d => Sys2Proof.Machine.execPwmSetPosition c w d s
  | .pwmTick c => Sys2Proof.Machine.execPwmTick c s
  | .pwmSetDeviation c dv => Sys2Proof.Machine.execPwmSetDeviation c dv s
  | .pwmGetDeviation c => Sys2Proof.Machine.execPwmGetDeviation c s
  | .seqLoad path reps locks => Sys2Proof.Machine.execSeqLoad path reps locks s
  | .seqPlay sets blocking cb => Sys2Proof.Machine.execSeqPlay sets blocking cb s
  | .seqIssue j => Sys2Proof.Machine.execSeqIssue j s
  | .seqSleep j => Sys2Proof.Machine.execSeqSleep j s
  | .seqWake j => Sys2Proof.Machine.execSeqWake j s
  | .seqFinish j o => Sys2Proof.Machine.execSeqFinish j o s

end Machine
end Sys2Proof
end

