-- ==== Sys2Proof/Machine/Agents.lean ====
section
/-! DEFINITION. What one move of one agent does (R7, R9, R132): an operation issued and run without interruption, or
cut at its waits; an operation in progress going on; a timer firing; a step of SCHED (R119); passing time. -/

namespace Sys2Proof
namespace Machine

/-! ## Issuing an operation -/

/-- The steps that are never a caller's (R133). -/
def isInternal : Instr → Bool
  | .pwmTick _ | .seqIssue _ | .seqSleep _ | .seqWake _ | .seqFinish _ _ => true
  | _ => false

/-- An operation that is inside an onComplete body. -/
def FlightPhase.isCallback : FlightPhase → Bool
  | .callback _ _ => true
  | _             => false

/-- Agent `a` may issue an operation: a caller that is in none, and any agent whose onComplete body runs
(R117, D52). -/
def mayIssue (a : Agent) (s : State) : Bool :=
  match a, s.topFlight a with
  | .tick _,   _      => false
  | _,         some f => f.phase.isCallback
  | .caller _, none   => true
  | .sched,    none   => false

/-- Agent `a` issues operation `i`, performed by `run`. -/
def issueBy (a : Agent) (i : Instr) (run : Instr → State → Host.Outcome State Fault Refusal) (s : State) :
    Host.Outcome State Fault Refusal :=
  if isInternal i then .refused (.internalStep i)
  else if mayIssue a s then run i { s with cur := a }
  else .refused (.agentBusy a)

/-! ## Operations cut at their waits (R132) -/

/-- The exchange a reading operation performs: its name in RESULT, id, command code, parameters and budget. -/
structure ReadCall where
  op : HostOp
  id : Int
  cmd : Int
  ps : List Int
  budget : Int
  deriving DecidableEq, Repr

/-- The exchange of a wire command of kind read. -/
def wireCall (cfg : Config) (c : Command) (id : Int) : ReadCall where
  op     := .tread
  id     := id
  cmd    := cfg.cmdInt c
  ps     := []
  budget := cfg.readRetryDefault

/-- The exchange of a client get. -/
def getCall (cfg : Config) (op : HostOp) (c : Command) (id : Int) (budget : Option Int) : ReadCall where
  op     := op
  id     := id
  cmd    := cfg.cmdInt c
  ps     := []
  budget := budgetOf cfg budget

/-- The exchange an operation performs, if it is a reading one. -/
def readCall? (cfg : Config) : Instr → Option ReadCall
  | .tread id cmd ps budget => some { op := .tread, id := id, cmd := cmd, ps := ps, budget := budget }
  | .moveTimeRead id => some (wireCall cfg .moveTimeRead id)
  | .idRead id => some (wireCall cfg .idRead id)
  | .angleOffsetRead id => some (wireCall cfg .angleOffsetRead id)
  | .angleLimitRead id => some (wireCall cfg .angleLimitRead id)
  | .vinLimitRead id => some (wireCall cfg .vinLimitRead id)
  | .tempMaxLimitRead id => some (wireCall cfg .tempMaxLimitRead id)
  | .tempRead id => some (wireCall cfg .tempRead id)
  | .vinRead id => some (wireCall cfg .vinRead id)
  | .posRead id => some (wireCall cfg .posRead id)
  | .loadOrUnloadRead id => some (wireCall cfg .loadOrUnloadRead id)
  | .busGetId id budget => some (getCall cfg .busGetId .idRead (idOrBroadcast cfg id) budget)
  | .busGetDeviation id budget => some (getCall cfg .busGetDeviation .angleOffsetRead id budget)
  | .busGetAngleLimit id budget => some (getCall cfg .busGetAngleLimit .angleLimitRead id budget)
  | .busGetVinLimit id budget => some (getCall cfg .busGetVinLimit .vinLimitRead id budget)
  | .busGetTempLimit id budget => some (getCall cfg .busGetTempLimit .tempMaxLimitRead id budget)
  | .busGetPosition id budget => some (getCall cfg .busGetPosition .posRead id budget)
  | .busGetTemp id budget => some (getCall cfg .busGetTemp .tempRead id budget)
  | .busGetVin id budget => some (getCall cfg .busGetVin .vinRead id budget)
  | .busGetLoadState id budget => some (getCall cfg .busGetLoadState .loadOrUnloadRead id budget)
  | _ => none

/-- The current agent issues operation `i`, which stops at its first interruption point (R132); an operation without
one runs to its end. -/
def begin (i : Instr) (s : State) : Host.Outcome State Fault Refusal :=
  match readCall? s.cfg i with
  | some r => beginRead r.op i r.id r.cmd r.ps r.budget s
  | none   =>
    match i with
    | .lineReset            => beginLineReset s
    | .busReset id          => beginBusReset id s
    | .seqPlay sets true cb => .next (startBlocking sets cb s)
    | _                     => exec i s

/-! ## Going on -/

/-- A blocking playback goes on by one step, a sleep that may end being over (R115, R118). -/
def resumePlaying (j : Nat) (s : State) : State :=
  match s.job? j with
  | none   => s
  | some J =>
    match J.phase with
    | .sleep d => if s.sleepOver J d then wakeJob J s else s
    | .done    => s
    | .issue _ =>
      match playStep j s with
      | .on t    => t
      | .over t  => t
      | .stand t => t

/-- The onComplete body of job `j` returns (R117): the job is removed, and a blocking SEQ_PLAY returns. -/
def resumeCallback (j : Nat) (o : JobOutcome) (s : State) : State :=
  match s.job? j with
  | none   => s
  | some J =>
    match J.ctx with
    | .onSched    => endJob J s
    | .onCaller _ => ((endJob J s).popFlight s.cur).answer .seqPlay (outcomeResult o)

/-- The current agent goes on with the operation it stands in, which is in phase `ph`; `s` is the state before it
leaves that phase. -/
def resumePhase (ph : FlightPhase) (s : State) : Host.Outcome State Fault Refusal :=
  let t := s.popFlight s.cur
  match ph with
  | .waiting i       => begin i t
  | .readReq x       => .next (resumeTurn x t)
  | .readSettle x    => .next (resumeInspect x t)
  | .lineClosed      => .next (resumeLineClosed t)
  | .lineOpened      => .next (resumeLineOpened t)
  | .resetWrote id   => .next (resumeResetWrote id t)
  | .resetWaited id  => .next (resumeResetWaited id t)
  | .pwmSplit c w d c0 => .next (resumePwmSplit c w d c0 t)
  | .playing j       => .next (resumePlaying j s)
  | .callback j o    => .next (resumeCallback j o t)

/-- Agent `a` goes on, if its wait is over (D40). -/
def resumeAgent (a : Agent) (s : State) : Host.Outcome State Fault Refusal :=
  match s.topFlight a with
  | none   => .refused (.noSuchAgent a)
  | some f => if s.reached f.readyAt then resumePhase f.phase { s with cur := a } else .next s

/-! ## SCHED (R119) -/

/-- Once the job SCHED runs has gone to sleep, SCHED runs none. -/
def settle (j : Nat) (s : State) : State :=
  match s.job? j with
  | none   => s
  | some J =>
    match J.phase with
    | .sleep _ => suspendJob J s
    | .issue _ => s
    | .done    => s

/-- SCHED makes the next step of the job it runs. -/
def schedStep (j : Nat) (s : State) : Host.Outcome State Fault Refusal :=
  match s.job? j with
  | none   => .refused (.noSuchStep (.seqIssue j))
  | some J =>
    match J.phase with
    | .issue p => .next (settle j ((issueJob J p s).after s))
    | .sleep d => .next (if s.sleepOver J d then wakeJob J s else s)
    | .done    => .refused (.noSuchStep (.seqIssue j))

/-- `ready(J)` (R119): the job is issuing, or its sleep may end. -/
def jobReady (J : Job) (s : State) : Bool :=
  match J.phase with
  | .issue _ => true
  | .sleep d => s.sleepOver J d
  | .done    => false

/-- A step of SCHED: it goes on with the job it runs, or chooses the ready job `j`; it waits where `j` is not ready
(R119). While an operation of an onComplete body is in progress SCHED makes no step of a job (D52). -/
def schedMove (j : Nat) (s : State) : Host.Outcome State Fault Refusal :=
  if ¬ s.sq.started then .next s
  else match s.topFlight .sched with
    | some _ => .refused (.agentBusy .sched)
    | none   =>
      match s.sq.running with
      | some r => schedStep r { s with cur := .sched }
      | none   =>
        match s.job? j with
        | none   => .refused (.noSuchStep (.seqIssue j))
        | some J =>
          if J.ctx ≠ .onSched then .refused (.noSuchStep (.seqIssue j))
          else if jobReady J s then schedStep j ({ s with cur := .sched }.setRunning (some j))
          else .next s

/-! ## A timer (R103) -/

/-- The timer of channel `c` fires; like every agent it makes no other step while it stands in an operation (log 23),
which a timer, that issues none, never does. -/
def timerMove (c : Nat) (s : State) : Host.Outcome State Fault Refusal :=
  match s.topFlight (.tick c) with
  | some _ => .refused (.agentBusy (.tick c))
  | none   => exec (.pwmTick c) { s with cur := .tick c }

/-! ## A move -/

/-- `us` microseconds pass, with TIMED. -/
def passTime (us : Nat) (s : State) : State := if s.cfg.timed then { s with now := s.now + (us : Rat) / 1000 } else s

/-- What a move does. -/
def runMove (m : Move) (s : State) : Host.Outcome State Fault Refusal :=
  match m with
  | .call a i        => issueBy a i exec s
  | .begin a i       => issueBy a i begin s
  | .frame a bytes   =>
    match decode s.cfg bytes with
    | .ok i    => issueBy a i exec s
    | .error e => .refused (.notAFrame e)
  | .resume a        => resumeAgent a s
  | .tick c          => timerMove c s
  | .sched j         => schedMove j s
  | .pass us         => .next (passTime us s)
  | .request _ r     => .refused (.notAnOperation r)
  | .playPaths a reqs blocking cb =>
    if mayIssue a s then seqPlayPaths reqs blocking cb { s with cur := a } else .refused (.agentBusy a)

/-- The next move: the first one listed, or a free one (R7, D39, log 4). -/
def nextMove (s : State) : Move × State :=
  match s.script with
  | m :: rest => (m, { s with script := rest })
  | []        => (freeMove s.draws, { s with draws := s.draws + 1 })

/-! ## A frame from outside -/

/-- The number of a caller that is in no operation: 0 where that one is free, else one above all in use. -/
def idleCaller (s : State) : Nat :=
  if (s.topFlight (.caller 0)).isNone then 0
  else (s.flights.map fun f => match f.agent with
    | .caller i => i + 1
    | .tick _   => 0
    | .sched    => 0).foldr max 0

/-- A caller in no operation hands the core the frame next. -/
def fetchFrame (bytes : Frame) (s : State) : State :=
  { s with script := .frame (.caller (idleCaller s)) bytes :: s.script }

end Machine
end Sys2Proof
end

