-- ==== Sys2Proof/Machine/Step.lean ====
section
/-! DEFINITION. The step: one move of one agent. -/

namespace Sys2Proof
namespace Machine

/-- One step: the next move, run. -/
def step (s : State) : Host.Outcome State Fault Refusal := runMove (nextMove s).1 (nextMove s).2

/-- `s` with the frame that a number of the opcode table stands for handed to the core next, by a caller that is in
no operation (log 7). -/
def State.withFetchWord (s : State) (nbits w : Nat) : State := fetchFrame (tableBytes nbits w) s

end Machine
end Sys2Proof
end

