-- ==== Sys2Proof/Safety.lean ====
section
/-! DEFINITION. What counts as a safe state, in the terms the claims use: the invariants of R20, R21, R22, R25, R26,
R30, R31 and R49, the end of a run (R144), and which runs are weakly fair (R139, D39). -/

namespace Sys2Proof
namespace Machine

/-! ## The line (R20) -/

/-- The direction pins are never both asserted, and agree with `T.dir` (R20). -/
abbrev pinsOk (s : State) : Prop :=
  ¬ (s.T.txEn = .asserted ∧ s.T.rxEn = .asserted)
    ∧ (s.T.dir = .tx ↔ s.T.txEn = .asserted ∧ s.T.rxEn = .deasserted)
    ∧ (s.T.dir = .rx ↔ s.T.rxEn = .asserted ∧ s.T.txEn = .deasserted)

/-! ## Locks (R21, R22, R26, R49) -/

/-- The operation in progress holds TL: a read exchange or a line reset at one of its waits. -/
def FlightPhase.holdsTL : FlightPhase → Bool
  | .readReq _ | .readSettle _ | .lineClosed | .lineOpened => true
  | .waiting _ | .resetWrote _ | .resetWaited _ | .pwmSplit _ _ _ _ | .playing _ | .callback _ _ => false

/-- The line reset in progress has the channel closed. -/
def FlightPhase.lineShut : FlightPhase → Bool
  | .lineClosed => true
  | .readReq _ | .readSettle _ | .lineOpened | .waiting _ | .resetWrote _ | .resetWaited _ | .pwmSplit _ _ _ _
  | .playing _ | .callback _ _ => false

/-- TL is held exactly by the one agent that stands inside an exchange or a line reset, and that is where the agent
stands; the channel is closed exactly inside a line reset (R21, R22, R48). -/
def tlOk (s : State) : Prop :=
  match s.T.tl with
  | .free   => s.flights.filter (fun f => f.phase.holdsTL) = [] ∧ s.T.isOpen = true
  | .held a => ∃ f, s.flights.filter (fun f => f.phase.holdsTL) = [f] ∧ f.agent = a ∧ s.topFlight a = some f
      ∧ (s.T.isOpen = false ↔ f.phase.lineShut = true)

/-- Between two steps every channel mutex is free: no operation stands inside one (R26, R49). -/
def mutexesFree (s : State) : Prop := ∀ ch ∈ s.channels, ch.mutex = .free

/-! ## PWM channels (R25) -/

/-- A width inside a channel's bounds. -/
def Channel.inBounds (ch : Channel) (x : Rat) : Prop := (ch.lo : Rat) ≤ x ∧ x ≤ (ch.hi : Rat)

/-- The invariants (a) to (d) of R25 for one channel; (d) where SETPOS_SPLIT_READ is false. -/
structure channelOk (cfg : Config) (ch : Channel) : Prop where
  /-- (a) The target lies in the bounds, or no PWM_SET_POSITION has succeeded yet. -/
  target : ch.tgt = cfg.pwInit ∨ ch.inBounds ch.tgt
  /-- (b) Idle, or at least one tick left and at most those of PDUR_MAX (1500 by the defaults of R5). -/
  ticks : ch.rem = cfg.idleTicks ∨ (1 ≤ ch.rem ∧ ch.rem ≤ tickCount cfg cfg.pdurMax)
  /-- (c) The deviation lies in the range. -/
  deviation : cfg.devOk ch.dev = true
  /-- (d) The width lies on the line to the target. -/
  line : cfg.setposSplitRead = false → 1 ≤ ch.rem → ch.cur = ch.tgt + ch.delta * (ch.rem : Rat)

/-- An operation in progress that has read a width under SETPOS_SPLIT_READ checked its target before. -/
def splitOk (s : State) (f : Flight) : Prop :=
  match f.phase with
  | .pwmSplit c w d _ =>
    s.cfg.setposSplitRead = true ∧ 0 < d ∧ ∀ ch, s.channel? c = some ch → ch.lo ≤ w ∧ w ≤ ch.hi
  | _ => True

/-- Under a well-formed configuration: every channel keeps R25, every split read is one that R102 allows, and there are
N_PWM channels. -/
structure pwmOk (s : State) : Prop where
  params : s.cfg.wf = true
  count : s.channels.length = s.cfg.nPwm
  channels : ∀ ch ∈ s.channels, channelOk s.cfg ch
  flights : ∀ f ∈ s.flights, splitOk s f
  jobs : ∀ J ∈ s.sq.jobs, J.split.isSome = true → s.cfg.setposSplitRead = true

/-! ## Jobs and handles (R30 to R32) -/

/-- Job ids are fresh and distinct, and SCHED runs a job of its own, if any (R30, R31, R113). -/
structure jobsOk (s : State) : Prop where
  fresh : ∀ J ∈ s.sq.jobs, J.id < s.sq.nextId
  distinct : (s.sq.jobs.map Job.id).Nodup
  handles : ∀ h ∈ s.handles, h.1 < s.sq.nextId
  running : ∀ j, s.sq.running = some j → ∃ J, s.job? j = some J ∧ J.ctx = .onSched

/-! ## The end of a run (R144) -/

/-- R144: no caller is inside an operation, no job exists, every lock is free, every channel is idle. -/
def runEnded (s : State) : Prop :=
  s.flights = [] ∧ s.sq.jobs = [] ∧ s.T.tl = .free
    ∧ ∀ ch ∈ s.channels, ch.mutex = .free ∧ ch.rem = s.cfg.idleTicks

/-! ## Runs and weak fairness (R7, R139, D39, log 4) -/

/-- The agent whose step a move is; the passing of time and a request that is no operation are no agent's step. -/
def Move.agent? : Move → Option Agent
  | .call a _ | .begin a _ | .frame a _ | .resume a | .playPaths a _ _ _ => some a
  | .tick c => some (.tick c)
  | .sched _ => some .sched
  | .pass _ | .request _ _ => none

/-- A move that issues nothing: an agent goes on with what it stands in, a timer fires, SCHED runs a job. -/
def Move.goesOn : Move → Bool
  | .resume _ | .tick _ | .sched _ => true
  | .call _ _ | .begin _ _ | .frame _ _ | .playPaths _ _ _ _ | .pass _ | .request _ _ => false

/-- Where agent `a` stands: the phases of its operations in progress, the latest first. -/
def State.standsIn (a : Agent) (s : State) : List FlightPhase :=
  (s.flights.filter fun f => f.agent == a).map Flight.phase

/-- In `s` move `m` is a step of agent `a`, not a wait: an event happens, a job changes, or `a` stands elsewhere than
before. A wait for a lock or for a time, and a refusal, do none of these (log 12). -/
def takesStep (a : Agent) (m : Move) (s : State) : Prop :=
  m.agent? = some a ∧ ∃ t, runMove m s = .next t
    ∧ (t.trace ≠ s.trace ∨ t.sq ≠ s.sq ∨ t.standsIn a ≠ s.standsIn a)

/-- Agent `a` has an enabled step. An agent in no operation need not begin one. -/
def enabled (a : Agent) (s : State) : Prop := ∃ m : Move, m.goesOn = true ∧ takesStep a m s

/-- Move `m` leads from `s` to `t`; a refused move leaves the state. -/
def leadsTo (m : Move) (s t : State) : Prop := runMove m s = .next t ∨ (∃ q, runMove m s = .refused q) ∧ t = s

/-- A run: move `m n` runs in state `s n`. Each move comes from the agents, in the state that the one before led to, or is
the one that `step` takes there. -/
def isRun (m : Nat → Move) (s : Nat → State) : Prop :=
  ∀ n, ∃ t, leadsTo (m n) (s n) t ∧ (s (n + 1) = t ∨ (m (n + 1), s (n + 1)) = nextMove t)

/-- The fairness of D39, which the spec calls weak; every other run is excluded (R139). -/
structure weaklyFair (m : Nat → Move) (s : Nat → State) : Prop where
  /-- "Every agent with an enabled step eventually takes one" (D39), also where another agent has disabled it in between:
  so one that waits for a lock, which is enabled whenever the lock is free, takes it in the end, and "every wait ends"
  (R139). -/
  steps : ∀ (a : Agent) (n : Nat), enabled a (s n) → ∃ k, n ≤ k ∧ takesStep a (m k) (s k)
  /-- With TIMED the clock never goes back and passes every bound, so that every wait of a given length ends (D40). -/
  time : (s 0).cfg.timed = true → (∀ n, (s n).now ≤ (s (n + 1)).now) ∧ ∀ T : Rat, ∃ n, T ≤ (s n).now

end Machine
end Sys2Proof
end

