-- ==== Sys2Proof/Certificates/Slice0/Obligations.lean ====
section
/-! DEFINITION. The statements for the provers, and before them the terms they are written in: the next states of
the rules as plain records. -/

namespace Sys2Proof
namespace Claims

open Machine

/-! ## Terms -/

/-- An operation of the current agent ends with result `v`: RESULT is appended, nothing else changes (R33). -/
def ended (op : HostOp) (v : Result) (s : State) : State := { s with trace := s.trace ++ [.result s.cur op v] }

/-- The current agent waits to issue operation `i`; nothing else changes (R48). -/
def waits (i : Instr) (s : State) : State :=
  { s with flights := { agent := s.cur, phase := .waiting i, readyAt := s.now } :: s.flights }

/-- The line once a frame was sent: transmit direction, TL free (R71, R72). -/
def sentLine (T : Transport) : Transport :=
  { T with dir := .tx, txEn := .asserted, rxEn := .deasserted, tl := .free }

/-- The events of sending a frame: drop receive-enable, assert transmit-enable, transmit (R71, R72). -/
def sentEvents (f : Frame) : List Event := [.pin .rxEn .deasserted, .pin .txEn .asserted, .tx f]

/-- The next state of a write that sends frame `f` (R72); with TIMED the transmission takes its time (R154). -/
def sent (op : HostOp) (f : Frame) (s : State) : State :=
  ({ s with T := sentLine s.T, trace := s.trace ++ sentEvents f ++ [.result s.cur op .done] } : State).elapse (txTime s.cfg f)

/-- What R72 says of an operation `i` that is one TWRITE and is named `op` in its RESULT. -/
def WriteRule (i : Instr) (op : HostOp) (id cmd : Int) (ps : List Int) (s : State) : Prop :=
  (∀ e, encodeFrame s.cfg id cmd ps = .error e → exec i s = .next (ended op (.raised e) s))
    ∧ ∀ f, encodeFrame s.cfg id cmd ps = .ok f →
      (s.T.tl = .free → exec i s = .next (sent op f s))
        ∧ ∀ a, s.T.tl = .held a → exec i s = .next (waits i s)

/-- An attempt of a read up to the inspection of its input (R73): the flush, the request, the two delays. -/
def asked (req : Frame) (s : State) : State :=
  (((({ s with
      T := { s.T with dir := .rx, txEn := .deasserted, rxEn := .asserted, rx := [] },
      trace := s.trace ++ [.rxflush s.T.rx, .pin .rxEn .deasserted, .pin .txEn .asserted, .tx req,
        .wait .req s.cfg.tReq, .pin .txEn .deasserted, .pin .rxEn .asserted, .wait .settle s.cfg.tSettle] } : State).elapse
    (txTime s.cfg req)).elapse s.cfg.tReq).elapse s.cfg.tSettle)

/-- What a draw is worth to a read of command `cmd`: nothing if it is short or does not decode (R73, R126). -/
def accepted (cfg : Config) (cmd : Int) (b : Frame) : Option Result :=
  if b.length < cfg.minRxBytes then none
  else match decodeFrame cfg b cmd with
    | .error => none
    | r      => some r

/-- The state after an attempt whose draw is `b`, from the state `u` after the draw (R73): a short draw stays in the
receive buffer, any other is read out of it. -/
def inspected (b : Frame) (u : State) : State :=
  if b.length < u.cfg.minRxBytes then { u with T := { u.T with rx := b }, trace := u.trace ++ [.rxavail b.length] }
  else { u with T := { u.T with rx := [] }, trace := u.trace ++ [.rxavail b.length, .rxread b] }

/-- The attempts of a read (R73): at most `n`, up to the first accepted draw. -/
def readRun (cmd : Int) (req : Frame) : Nat → State → State × Result
  | 0,     s => (s, .timeout)
  | n + 1, s =>
    let d := (asked req s).drawBus
    match accepted s.cfg cmd d.1 with
    | some r => (inspected d.1 d.2, r)
    | none   => readRun cmd req n (inspected d.1 d.2)

/-- What R73 says of an operation `i` that is one TREAD and is named `op` in its RESULT. -/
def ReadRule (i : Instr) (op : HostOp) (id cmd : Int) (ps : List Int) (budget : Int) (s : State) : Prop :=
  (∀ e, encodeFrame s.cfg id cmd ps = .error e → exec i s = .next (ended op (.raised e) s))
    ∧ ∀ req, encodeFrame s.cfg id cmd ps = .ok req →
      (budget < 0 → exec i s = .next (ended op (.raised (.budgetRange budget)) s))
        ∧ (0 ≤ budget →
          (∀ a, s.T.tl = .held a → exec i s = .next (waits i s))
            ∧ (s.T.tl = .free →
              let r := readRun cmd req budget.toNat { s with T := { s.T with tl := .held s.cur } }
              exec i s = .next (ended op r.2 { r.1 with T := { r.1.T with tl := .free } })))

/-- TX events. -/
def isTx : Event → Bool
  | .tx _ => true
  | _     => false

/-- Events of the line: pins, transmissions, the receive buffer, close and open. -/
def isLine : Event → Bool
  | .pin _ _ | .tx _ | .rxflush _ | .rxavail _ | .rxread _ | .uclose | .uopen => true
  | _ => false

/-- Channel `c` is replaced by `ch`. -/
def withChannel (c : Int) (ch : Channel) (s : State) : List Channel := s.channels.set (c.toNat - 1) ch

/-- A job of `s` is replaced by `J`, under its id. -/
def withJob (J : Job) (s : State) : List Job := s.sq.jobs.map fun K => if K.id = J.id then J else K

/-- The current agent executes job `J`: its caller, or SCHED running it (R30, R31). -/
def mine (J : Job) (s : State) : Prop :=
  J.ctx = .onCaller s.cur ∨ (J.ctx = .onSched ∧ s.cur = .sched ∧ s.sq.running = some J.id)

/-- `ready(J)` of R119: the job issues, or its sleep may end (R115). -/
def ready (J : Job) (s : State) : Prop :=
  (∃ p, J.phase = .issue p) ∨ ∃ d, J.phase = .sleep d ∧ (s.cfg.timed = true → J.sleptAt + (d : Rat) ≤ s.now)

/-- Handle `j` resolves to `o` where it is pending (R32). -/
def resolved (j : Nat) (o : JobOutcome) (hs : List (Nat × HandleState)) : List (Nat × HandleState) :=
  hs.map fun h => if h.1 = j ∧ h.2 = .pending then (j, .resolved o) else h

/-- What a pending or resolved handle may become in one step (R32). -/
def mayBecome : Nat × HandleState → Nat × HandleState → Prop
  | (j, .pending),    (k, .pending)    => j = k
  | (j, .pending),    (k, .resolved _) => j = k
  | (_, .resolved _), (_, .pending)    => False
  | (j, .resolved o), (k, .resolved p) => j = k ∧ o = p

/-- An agent resumes up to `n` times. -/
def goOn (a : Agent) : Nat → Host.Outcome State Fault Refusal → Host.Outcome State Fault Refusal
  | 0,     r => r
  | n + 1, r =>
    match r with
    | .next s    => goOn a n (resumeAgent a s)
    | .fault f   => .fault f
    | .refused q => .refused q

/-- The operations that have a wait, and so stop there where they are begun (R132). A split PWM_SET_POSITION stops of itself
(R102). -/
def hasWait : Instr → Bool
  | .tread _ _ _ _ | .moveTimeRead _ | .idRead _ | .angleOffsetRead _ | .angleLimitRead _ | .vinLimitRead _
  | .tempMaxLimitRead _ | .tempRead _ | .vinRead _ | .posRead _ | .loadOrUnloadRead _ | .busGetId _ _
  | .busGetDeviation _ _ | .busGetAngleLimit _ _ | .busGetVinLimit _ _ | .busGetTempLimit _ _ | .busGetPosition _ _
  | .busGetTemp _ _ | .busGetVin _ _ | .busGetLoadState _ _ | .lineReset | .busReset _ | .seqPlay _ true _ => true
  | _ => false

/-- The pins after events, from the levels `(TX_EN, RX_EN)`; none once both have been asserted (R20, R145). -/
def pinRun : PinLevel × PinLevel → List Event → Option (PinLevel × PinLevel)
  | l, []              => some l
  | l, .pin p v :: evs =>
    let m := match p with
      | .txEn => (v, l.2)
      | .rxEn => (l.1, v)
    if m = (.asserted, .asserted) then none else pinRun m evs
  | l, _ :: evs        => pinRun l evs

/-- The motion of channel `c`: current width, target, ticks left and delta. -/
def motion (c : Int) (s : State) : Option (Rat × Rat × Int × Rat) :=
  (s.channel? c).map fun ch => (ch.cur, ch.tgt, ch.rem, ch.delta)

/-- The timer of channel `c` fires in `s` and leaves `t`. -/
def fires (c : Nat) (s t : State) : Prop := exec (.pwmTick c) { s with cur := .tick c } = .next t ∧ t.trace ≠ s.trace

/-- `k` firings of the timer of channel `c` lead from one state to the other; between them anything may happen that
leaves the motion of `c` and the parameters alone: no PWM_SET_POSITION on `c` (R105). -/
inductive TickRun (c : Nat) : Nat → State → State → Prop
  | start (s : State) : TickRun c 0 s s
  | tick {k : Nat} {s t u : State} : TickRun c k s t → fires c t u → TickRun c (k + 1) s u
  | other {k : Nat} {s t u : State} : TickRun c k s t → motion c u = motion c t → u.cfg = t.cfg → TickRun c k s u

/-- The width after tick `k` of a motion of `n` ticks from `c0` to `w` (R105). -/
def widthAfter (c0 w : Rat) (n k : Nat) : Rat := c0 + (w - c0) * (k : Rat) / (n : Rat)

/-- A command that a playback can issue in `s` without an error (R81, R99, R114). -/
def playable (s : State) (c : Cmd) : Prop :=
  match channelKind s.cfg c.col with
  | .serial => c.col ≤ 254
  | .pwm    => ∃ ch, s.channel? c.col = some ch ∧ ch.lo ≤ c.pos ∧ c.pos ≤ ch.hi

/-- The MOVE_TIME_WRITE frame of a Serial command: position and duration clamped (R81). -/
def moveFrame (cfg : Config) (id : Int) (pos dur : Int) : Except Err Frame :=
  encodeFrame cfg id (cfg.cmdInt .moveTimeWrite)
    [min (max pos cfg.posMin) cfg.posMax, min (max dur cfg.sdurMin) cfg.sdurMax]

/-- The events of a playback's command (R81, R100, R102, R114). -/
def cmdEvents (s : State) (c : Cmd) : List Event :=
  match channelKind s.cfg c.col with
  | .serial =>
    match moveFrame s.cfg c.col c.pos c.dur with
    | .ok f    => sentEvents f
    | .error _ => []
  | .pwm =>
    match s.channel? c.col with
    | some ch => if c.dur = 0 then [.pwm c.col ((c.pos : Rat) + (ch.dev : Rat))] else []
    | none    => []

/-- The events of round `k` of a playback as job `j` (R111, R114 to R116). -/
def roundEvents (s : State) (j : Nat) (sets : List ActionSet) (k : Nat) : List Event :=
  (cmds sets k).flatMap (cmdEvents s) ++ [.sleep j (sleepLen sets k), .wake j]

/-- The ActionSet of R109: each locked column takes its override, every other column its stored position. -/
def lockedSet (path : Path) (reps : Nat) (locks : List (Int × Int)) (rows : List ActionRow) : ActionSet where
  path  := path
  reps  := reps
  locks := locks
  rows  := rows.map fun r =>
    { dur := r.dur, pos := (r.pos.zipIdx 1).map fun (p, k) => (locks.lookup (k : Int)).getD p }

/-- The value of a 16-bit field (R40). -/
def signed16 (b0 b1 : Byte) : Int :=
  let u : Nat := b0.toNat + 256 * b1.toNat
  if u < 32768 then (u : Int) else (u : Int) - 65536

/-- The frame around an id, a command and parameter bytes: HEADER before them, its checksum 255 minus the sum of the bytes from the id on,
modulo 256 (R52, R54). -/
def framed (cfg : Config) (id cmd : Byte) (pb : List Byte) : Frame :=
  let body : List Byte := [id, BitVec.ofNat 8 (pb.length + 3), cmd] ++ pb
  [cfg.header1, cfg.header2] ++ body ++ [BitVec.ofNat 8 (255 - (body.map BitVec.toNat).sum % 256)]

end Claims
end Sys2Proof

open Sys2Proof Sys2Proof.Machine Sys2Proof.Claims

/-! ## Frame codec -/

/-- R65: ENCODE checks deviceId, commandCode, parameter count and parameter values in this order; a single value 0..255
takes one byte, any other list two bytes a value, low byte first. -/
def Obligations.EncodeBuildsTheFrame : Prop :=
  ∀ (cfg : Config) (id cmd : Int) (ps : List Int),
    (¬ (0 ≤ id ∧ id ≤ 254) → encodeFrame cfg id cmd ps = .error (.encodeRange .deviceId))
    ∧ (0 ≤ id → id ≤ 254 → ¬ (0 ≤ cmd ∧ cmd ≤ 255) → encodeFrame cfg id cmd ps = .error (.encodeRange .commandCode))
    ∧ (0 ≤ id → id ≤ 254 → 0 ≤ cmd → cmd ≤ 255 →
      (∀ v, ps = [v] → 0 ≤ v → v ≤ 255 →
        encodeFrame cfg id cmd ps = .ok (framed cfg (BitVec.ofInt 8 id) (BitVec.ofInt 8 cmd) [BitVec.ofInt 8 v]))
      ∧ ((∀ v, ps = [v] → ¬ (0 ≤ v ∧ v ≤ 255)) →
        (126 < ps.length → encodeFrame cfg id cmd ps = .error (.encodeRange .parameterCount))
        ∧ (ps.length ≤ 126 → (∃ v ∈ ps, ¬ (-32768 ≤ v ∧ v ≤ 32767)) →
          encodeFrame cfg id cmd ps = .error (.encodeRange .parameterValue))
        ∧ (ps.length ≤ 126 → (∀ v ∈ ps, -32768 ≤ v ∧ v ≤ 32767) →
          encodeFrame cfg id cmd ps = .ok (framed cfg (BitVec.ofInt 8 id) (BitVec.ofInt 8 cmd)
            (ps.flatMap fun v => [BitVec.ofInt 8 v, BitVec.ofInt 8 (v / 256)])))))

/-- R66: when ParseFrame accepts bytes, and what it returns; everything else gives none. -/
def Obligations.ParseFrameAcceptsExactly : Prop :=
  ∀ (cfg : Config) (b : Frame) (id cmd : Byte) (pb : List Byte),
    parseFrame cfg b = some (id, cmd, pb) ↔
      ∃ (len : Byte) (rest : List Byte),
        b = cfg.header1 :: cfg.header2 :: id :: len :: cmd :: rest
        ∧ 3 ≤ len.toNat ∧ len.toNat + 3 ≤ b.length ∧ pb = rest.take (len.toNat - 3)
        ∧ (cfg.rxChecksumCheck = true →
          b[len.toNat + 2]? = some (BitVec.ofNat 8 (255 - (((b.drop 2).take len.toNat).map BitVec.toNat).sum % 256)))

/-- R67: DECODE by the number of parameter bytes, for every byte sequence and every expected code 0..255, the operands that
the rule gives it. -/
def Obligations.DecodeByParameterCount : Prop :=
  ∀ (cfg : Config) (b : Frame) (expected : Int), 0 ≤ expected → expected ≤ 255 →
    (parseFrame cfg b = none → decodeFrame cfg b expected = .error)
    ∧ ∀ (id cmd : Byte) (pb : List Byte), parseFrame cfg b = some (id, cmd, pb) →
      ((cmd.toNat : Int) ≠ expected → decodeFrame cfg b expected = .error)
      ∧ ((cmd.toNat : Int) = expected →
        (pb = [] → decodeFrame cfg b expected = .ack)
        ∧ (∀ b0, pb = [b0] → decodeFrame cfg b expected = .value (b0.toNat : Int))
        ∧ (∀ b0 b1, pb = [b0, b1] → decodeFrame cfg b expected = .value (signed16 b0 b1))
        ∧ (∀ b0 b1 b2 b3, pb = [b0, b1, b2, b3] →
          decodeFrame cfg b expected = .valuePair (signed16 b0 b1) (signed16 b2 b3))
        ∧ (pb.length ≠ 0 → pb.length ≠ 1 → pb.length ≠ 2 → pb.length ≠ 4 → decodeFrame cfg b expected = .error))

/-- R68: ParseFrame and DECODE give back what ENCODE was given, whatever RX_CHECKSUM_CHECK is. -/
def Obligations.EncodeParseRoundTrip : Prop :=
  ∀ (cfg : Config) (id cmd : Int) (ps : List Int) (f : Frame), encodeFrame cfg id cmd ps = .ok f →
    (∃ (bid bcmd : Byte), (bid.toNat : Int) = id ∧ (bcmd.toNat : Int) = cmd
      ∧ parseFrame cfg f = some (bid, bcmd, paramBytes ps))
    ∧ unparse (paramBytes ps) = some ps
    ∧ (ps = [] → decodeFrame cfg f cmd = .ack)
    ∧ (∀ v, ps = [v] → decodeFrame cfg f cmd = .value v)
    ∧ (∀ v w, ps = [v, w] → decodeFrame cfg f cmd = .valuePair v w)
    ∧ (3 ≤ ps.length → decodeFrame cfg f cmd = .error)

/-- R69: the bytes from deviceId through the checksum of an encoded frame sum to 255 modulo 256; changing one of them
other than the length byte breaks this, so a receiver that checks the checksum rejects the frame, and one that does
not still parses it. -/
def Obligations.ChecksumCatchesOneByte : Prop :=
  ∀ (cfg : Config) (id cmd : Int) (ps : List Int) (f : Frame), encodeFrame cfg id cmd ps = .ok f →
    ((f.drop 2).map BitVec.toNat).sum % 256 = 255
    ∧ ∀ (k : Nat) (v : Byte), 2 ≤ k → k < f.length → k ≠ 3 → f[k]? ≠ some v →
      (((f.set k v).drop 2).map BitVec.toNat).sum % 256 ≠ 255
      ∧ (cfg.rxChecksumCheck = true → parseFrame cfg (f.set k v) = none)
      ∧ (cfg.rxChecksumCheck = false → parseFrame cfg (f.set k v) ≠ none)

/-- Every well-formed wire command, under distinct command codes, has a frame, and the decoder gives it back. -/
def Obligations.WireDecodeEncode : Prop :=
  ∀ (cfg : Config) (i : Instr), cfg.codes.toList.Nodup → i.wellFormed cfg = true → i.wire? ≠ none →
    ∃ f, encode cfg i = some f ∧ decode cfg f = .ok i

/-- Where the receiver checks checksums, bytes that decode to a wire command with an encodable device id begin with
the command's own frame. It holds because the decoder refuses two parameter bytes for a value that ENCODE sends in one,
and a length that the command's row does not have: the model's reading of R55 and R58 (log 24, DEDUCED). -/
def Obligations.WireEncodeDecode : Prop :=
  ∀ (cfg : Config) (b : Frame) (i : Instr), cfg.rxChecksumCheck = true → decode cfg b = .ok i →
    b[2]? ≠ some 0xFF → i.wellFormed cfg = true ∧ ∃ f rest, encode cfg i = some f ∧ b = f ++ rest

/-- Words written out from R58 and the examples of the client rules, under the default command codes. -/
def Obligations.WireWordsDecode : Prop :=
  decode Config.default [0x55, 0x55, 0x01, 0x07, 0x01, 0xF4, 0x01, 0xE8, 0x03, 0x16] = .ok (.moveTimeWrite 1 500 1000)
  ∧ decode Config.default [0x55, 0x55, 0x03, 0x05, 0x11, 0xF6, 0xFF, 0xF1] = .ok (.angleOffsetAdjust 3 (-10))
  ∧ decode Config.default [0x55, 0x55, 0x03, 0x04, 0x11, 0x00, 0xE7] = .ok (.angleOffsetAdjust 3 0)
  ∧ decode Config.default [0x55, 0x55, 0xFE, 0x03, 0x0E, 0xF0] = .ok (.idRead 254)
  ∧ decode Config.default [0x55, 0x55, 0x01, 0x03, 0x1C, 0xDF] = .ok (.posRead 1)
  ∧ decode Config.default [0x55, 0x55, 0x02, 0x07, 0x16, 0x94, 0x11, 0xE0, 0x2E, 0x2D] = .ok (.vinLimitWrite 2 4500 12000)
  ∧ decode Config.default [0x55, 0x55, 0x01, 0x04, 0x13, 0x05] = .error .truncated
  ∧ decode Config.default [0x54, 0x55, 0x01, 0x03, 0x1C, 0xDF] = .error .badHeader
  ∧ decode Config.default [0x55, 0x55, 0x01, 0x03, 0x77, 0x84] = .error .unknownCommand

/-- A call of ENCODE or DECODE appends its RESULT and changes nothing else: the codec reads and writes no state (R64).
That the call of a codec operation ends with a RESULT event is the model's reading (log 9), and that DECODE answers Error to
an expected code outside 0..255 is its choice (log 33). -/
def Obligations.CodecCallsOnlyAnswer : Prop :=
  ∀ (s : State),
    (∀ (id cmd : Int) (ps : List Int),
      (∀ f, encodeFrame s.cfg id cmd ps = .ok f → exec (.encode id cmd ps) s = .next (ended .encode (.frame f) s))
      ∧ (∀ e, encodeFrame s.cfg id cmd ps = .error e → exec (.encode id cmd ps) s = .next (ended .encode (.raised e) s)))
    ∧ ∀ (b : Frame) (expected : Int),
      exec (.decode b expected) s = .next (ended .decode (decodeFrame s.cfg b expected) s)
      ∧ (¬ (0 ≤ expected ∧ expected ≤ 255) → exec (.decode b expected) s = .next (ended .decode .error s))

/-! ## Serial transport -/

/-- R72: TWRITE. -/
def Obligations.TwriteSendsOneFrame : Prop :=
  ∀ (id cmd : Int) (ps : List Int) (s : State), WriteRule (.twrite id cmd ps) .twrite id cmd ps s

/-- R73: TREAD. -/
def Obligations.TreadExchange : Prop :=
  ∀ (id cmd : Int) (ps : List Int) (budget : Int) (s : State),
    ReadRule (.tread id cmd ps budget) .tread id cmd ps budget s

/-- R74: a TREAD transmits its request exactly as often as it makes attempts: as often as its budget says where it
times out; with the draws listed, exactly up to the first one that decodes. -/
def Obligations.TreadCountsAttempts : Prop :=
  ∀ (id cmd : Int) (ps : List Int) (budget : Nat) (req : Frame) (s : State),
    encodeFrame s.cfg id cmd ps = .ok req → s.T.tl = .free →
    (∃ t k evs v, exec (.tread id cmd ps budget) s = .next t
      ∧ t.trace = s.trace ++ evs ++ [.result s.cur .tread v]
      ∧ evs.filter isTx = List.replicate k (.tx req) ∧ k ≤ budget ∧ (v = .timeout → k = budget))
    ∧ ∀ (bad rest : List Frame), (∀ b ∈ bad, accepted s.cfg cmd b = none) →
      (bad.length = budget → s.busIn = bad ++ rest →
        ∃ t evs, exec (.tread id cmd ps budget) s = .next t
          ∧ t.trace = s.trace ++ evs ++ [.result s.cur .tread .timeout]
          ∧ evs.filter isTx = List.replicate budget (.tx req) ∧ t.busIn = rest)
      ∧ ∀ (good : Frame) (r : Result), accepted s.cfg cmd good = some r → bad.length < budget →
        s.busIn = bad ++ good :: rest →
        ∃ t evs, exec (.tread id cmd ps budget) s = .next t
          ∧ t.trace = s.trace ++ evs ++ [.result s.cur .tread r]
          ∧ evs.filter isTx = List.replicate (bad.length + 1) (.tx req) ∧ t.busIn = rest

/-- LINE_RESET (R76). The form of its wait for TL is the model's (log 12), and so is the clock (log 17). -/
def Obligations.LineResetReopens : Prop :=
  ∀ (s : State),
    (∀ a, s.T.tl = .held a → exec .lineReset s = .next (waits .lineReset s))
    ∧ (s.T.tl = .free → exec .lineReset s = .next
      ((({ s with
          T := { dir := .tx, txEn := .asserted, rxEn := .deasserted, tl := .free, isOpen := true, rx := [] },
          trace := s.trace ++ [.uclose, .wait .lineReset s.cfg.tLineReset, .uopen, .pin .rxEn .deasserted,
            .pin .txEn .asserted, .wait .lineReset s.cfg.tLineReset, .result s.cur .lineReset .done] } : State).elapse
        s.cfg.tLineReset).elapse s.cfg.tLineReset))

/-- Each operation that sends one frame. A wire command of kind write is the TWRITE of its frame (R58, R59; that its
RESULT names TWRITE is the model's reading, log 8), and so is a client set (R77 with R79, R82, R83, R84, R86, R88, R90,
R95). The form of the wait is the model's (log 12), and so is the clock (log 17). -/
def Obligations.WriteOperationsSend : Prop :=
  ∀ (s : State) (id a b : Int),
    WriteRule (.moveTimeWrite id a b) .twrite id 0x01 [a, b] s
    ∧ WriteRule (.moveStop id) .twrite id (s.cfg.codes.moveStop.toNat : Int) [] s
    ∧ WriteRule (.idWrite id a) .twrite id (s.cfg.codes.idWrite.toNat : Int) [a] s
    ∧ WriteRule (.angleOffsetAdjust id a) .twrite id (s.cfg.codes.angleOffsetAdjust.toNat : Int) [a] s
    ∧ WriteRule (.angleOffsetWrite id) .twrite id (s.cfg.codes.angleOffsetWrite.toNat : Int) [] s
    ∧ WriteRule (.angleLimitWrite id a b) .twrite id (s.cfg.codes.angleLimitWrite.toNat : Int) [a, b] s
    ∧ WriteRule (.vinLimitWrite id a b) .twrite id (s.cfg.codes.vinLimitWrite.toNat : Int) [a, b] s
    ∧ WriteRule (.tempMaxLimitWrite id a) .twrite id (s.cfg.codes.tempMaxLimitWrite.toNat : Int) [a] s
    ∧ WriteRule (.loadOrUnloadWrite id a) .twrite id (s.cfg.codes.loadOrUnloadWrite.toNat : Int) [a] s
    ∧ WriteRule (.busSetId id a) .busSetId id (s.cfg.codes.idWrite.toNat : Int) [a] s
    ∧ WriteRule (.busStop id) .busStop id (s.cfg.codes.moveStop.toNat : Int) [] s
    ∧ WriteRule (.busSetDeviation id a) .busSetDeviation id (s.cfg.codes.angleOffsetAdjust.toNat : Int) [a] s
    ∧ WriteRule (.busSaveDeviation id) .busSaveDeviation id (s.cfg.codes.angleOffsetWrite.toNat : Int) [] s
    ∧ WriteRule (.busSetAngleLimit id a b) .busSetAngleLimit id (s.cfg.codes.angleLimitWrite.toNat : Int) [a, b] s
    ∧ WriteRule (.busSetVinLimit id a b) .busSetVinLimit id (s.cfg.codes.vinLimitWrite.toNat : Int) [a, b] s
    ∧ WriteRule (.busSetTempLimit id a) .busSetTempLimit id (s.cfg.codes.tempMaxLimitWrite.toNat : Int) [a] s
    ∧ WriteRule (.busUnload id) .busUnload id (s.cfg.codes.loadOrUnloadWrite.toNat : Int) [0] s

/-- Each operation that is one exchange. A wire command of kind read is the TREAD of its frame with the default budget
(R58, R59; that its RESULT names TREAD and that the budget is READ_RETRY_DEFAULT are the model's reading, log 8), and a
client get (R78 with R80, R85, R87, R89, R91 to R94, R96) is one with the budget it is given, by default
READ_RETRY_DEFAULT, whose result it returns unchanged. The form of the wait is the model's (log 12), and so is the clock
(log 17). -/
def Obligations.ReadOperationsExchange : Prop :=
  ∀ (s : State) (id : Int) (oid budget : Option Int),
    let d : Int := s.cfg.readRetryDefault
    let n := budget.getD d
    ReadRule (.moveTimeRead id) .tread id (s.cfg.codes.moveTimeRead.toNat : Int) [] d s
    ∧ ReadRule (.idRead id) .tread id (s.cfg.codes.idRead.toNat : Int) [] d s
    ∧ ReadRule (.angleOffsetRead id) .tread id (s.cfg.codes.angleOffsetRead.toNat : Int) [] d s
    ∧ ReadRule (.angleLimitRead id) .tread id (s.cfg.codes.angleLimitRead.toNat : Int) [] d s
    ∧ ReadRule (.vinLimitRead id) .tread id (s.cfg.codes.vinLimitRead.toNat : Int) [] d s
    ∧ ReadRule (.tempMaxLimitRead id) .tread id (s.cfg.codes.tempMaxLimitRead.toNat : Int) [] d s
    ∧ ReadRule (.tempRead id) .tread id (s.cfg.codes.tempRead.toNat : Int) [] d s
    ∧ ReadRule (.vinRead id) .tread id (s.cfg.codes.vinRead.toNat : Int) [] d s
    ∧ ReadRule (.posRead id) .tread id (s.cfg.codes.posRead.toNat : Int) [] d s
    ∧ ReadRule (.loadOrUnloadRead id) .tread id (s.cfg.codes.loadOrUnloadRead.toNat : Int) [] d s
    ∧ ReadRule (.busGetId oid budget) .busGetId (oid.getD s.cfg.idBroadcast) (s.cfg.codes.idRead.toNat : Int) [] n s
    ∧ ReadRule (.busGetDeviation id budget) .busGetDeviation id (s.cfg.codes.angleOffsetRead.toNat : Int) [] n s
    ∧ ReadRule (.busGetAngleLimit id budget) .busGetAngleLimit id (s.cfg.codes.angleLimitRead.toNat : Int) [] n s
    ∧ ReadRule (.busGetVinLimit id budget) .busGetVinLimit id (s.cfg.codes.vinLimitRead.toNat : Int) [] n s
    ∧ ReadRule (.busGetTempLimit id budget) .busGetTempLimit id (s.cfg.codes.tempMaxLimitRead.toNat : Int) [] n s
    ∧ ReadRule (.busGetPosition id budget) .busGetPosition id (s.cfg.codes.posRead.toNat : Int) [] n s
    ∧ ReadRule (.busGetTemp id budget) .busGetTemp id (s.cfg.codes.tempRead.toNat : Int) [] n s
    ∧ ReadRule (.busGetVin id budget) .busGetVin id (s.cfg.codes.vinRead.toNat : Int) [] n s
    ∧ ReadRule (.busGetLoadState id budget) .busGetLoadState id (s.cfg.codes.loadOrUnloadRead.toNat : Int) [] n s

/-! ## Serial servo client -/

/-- R81: BUS_SET_POSITION clamps silently, so that only a bad id is an error: the clamps' ranges are 16-bit values
("p and d always lie in ENCODE's domain"). -/
def Obligations.BusSetPositionClamps : Prop :=
  ∀ (s : State) (id pos dur : Int),
    let p := min (max pos s.cfg.posMin) s.cfg.posMax
    let d := min (max dur s.cfg.sdurMin) s.cfg.sdurMax
    WriteRule (.busSetPosition id pos dur) .busSetPosition id 0x01 [p, d] s
    ∧ (s.cfg.clampsOk = true → 0 ≤ id → id ≤ 254 → ∃ f, encodeFrame s.cfg id 0x01 [p, d] = .ok f)
    ∧ (¬ (0 ≤ id ∧ id ≤ 254) →
      exec (.busSetPosition id pos dur) s = .next (ended .busSetPosition (.raised (.encodeRange .deviceId)) s))

/-- R97: BUS_RESET is two writes with a delay between them. -/
def Obligations.BusResetWritesTwice : Prop :=
  ∀ (s : State) (id : Int),
    (¬ (0 ≤ id ∧ id ≤ 254) →
      exec (.busReset id) s = .next (ended .busReset (.raised (.encodeRange .deviceId)) s))
    ∧ (0 ≤ id → id ≤ 254 →
      (∀ a, s.T.tl = .held a → exec (.busReset id) s = .next (waits (.busReset id) s))
      ∧ ∃ f g, encodeFrame s.cfg id (s.cfg.codes.angleOffsetAdjust.toNat : Int) [0] = .ok f
        ∧ encodeFrame s.cfg id 0x01 [500, 1000] = .ok g
        ∧ (s.T.tl = .free → exec (.busReset id) s = .next
          (((({ s with
              T := sentLine s.T,
              trace := s.trace ++ sentEvents f ++ [.wait .clientReset s.cfg.tClientReset] ++ sentEvents g
                ++ [.result s.cur .busReset .done] } : State).elapse
            (txTime s.cfg f)).elapse s.cfg.tClientReset).elapse (txTime s.cfg g))))

/-! ## Locks, cuts and errors -/

/-- R9 and R132 beside R73, R76, R97, R118. An operation that is begun and goes on, no other agent stepping, comes to what
it comes to without a stop. One without a wait does not stop; TREAD stops in its first Wait(REQ), LINE_RESET on its closed
side, BUS_RESET after its first write, a blocking SEQ_PLAY before its first command. A caller inside a blocking playback
makes the next step of its job, SEQ_ISSUE or SEQ_WAKE, and SEQ_PLAY returns once the job is gone. Where an operation stops
is the model's reading (log 11), and so are its flight and its readyAt (log 17). -/
def Obligations.CutOperationsAgree : Prop :=
  (∀ (i : Instr) (s : State), s.cfg.timed = false → ∃ n, goOn s.cur n (begin i s) = exec i s)
  ∧ (∀ (i : Instr) (s : State), hasWait i = false → begin i s = exec i s)
  ∧ (∀ (s : State), s.T.tl = .free →
    (∀ (id cmd : Int) (ps : List Int) (n : Nat) (req : Frame), encodeFrame s.cfg id cmd ps = .ok req →
      let u := ({ s with
        T := { s.T with dir := .tx, txEn := .asserted, rxEn := .deasserted, tl := .held s.cur, rx := [] },
        trace := s.trace ++ [.rxflush s.T.rx] ++ sentEvents req ++ [.wait .req s.cfg.tReq] } : State).elapse (txTime s.cfg req)
      begin (.tread id cmd ps ((n + 1 : Nat) : Int)) s = .next
        { u with
          flights := { agent := s.cur, phase := .readReq { op := .tread, cmd := cmd, req := req, left := n },
                       readyAt := u.now + s.cfg.tReq } :: s.flights })
    ∧ begin .lineReset s = .next
      { s with
        T := { s.T with tl := .held s.cur, isOpen := false, rx := [] },
        trace := s.trace ++ [.uclose, .wait .lineReset s.cfg.tLineReset],
        flights := { agent := s.cur, phase := .lineClosed, readyAt := s.now + (s.cfg.tLineReset : Rat) } :: s.flights }
    ∧ ∀ (id : Int) (f : Frame), encodeFrame s.cfg id (s.cfg.codes.angleOffsetAdjust.toNat : Int) [0] = .ok f →
      let u := ({ s with T := sentLine s.T, trace := s.trace ++ sentEvents f } : State).elapse (txTime s.cfg f)
      begin (.busReset id) s = .next
        { u with flights := { agent := s.cur, phase := .resetWrote id, readyAt := u.now } :: s.flights })
  ∧ (∀ (s : State) (sets : List ActionSet) (cb : Option Nat),
    let J : Job :=
      { id := s.sq.nextId, sets := sets, k := 0, phase := .issue 0, ctx := .onCaller s.cur, cb := cb, sleptAt := s.now,
        split := none }
    begin (.seqPlay sets true cb) s = .next
      { s with
        sq := { s.sq with jobs := s.sq.jobs ++ [J], nextId := s.sq.nextId + 1 },
        flights := { agent := s.cur, phase := .playing s.sq.nextId, readyAt := s.now } :: s.flights })
  ∧ ∀ (s : State) (a : Agent) (j : Nat) (J : Job) (f : Flight), s.topFlight a = some f → f.phase = .playing j →
    s.reached f.readyAt = true → s.job? j = some J → J.ctx = .onCaller a →
    let u : State := { s with cur := a }
    (∀ d, J.phase = .sleep d → resumeAgent a s = exec (.seqWake j) u)
    ∧ ∀ p, J.phase = .issue p → ∃ t, exec (.seqIssue j) u = .next t
      ∧ (t.job? j ≠ none → resumeAgent a s = .next t)
      ∧ (t.job? j = none → ∃ o, t.trace = s.trace ++ [.complete j o] ∧ resumeAgent a s = .next
        { t with
          flights := s.flights.eraseP fun g => g.agent == a,
          trace := t.trace ++ [.result a .seqPlay (match o with
            | .ok     => .done
            | .fail e => .raised e)] })

/-- R48: a wait for a lock ends when the lock is free. The agent that waits to issue `i` begins `i` again, by the rules of
`i`; while TL is still held that is what exec of `i` says, so it waits again or ends with an error that comes before the
lock. BUS_RESET waits for TL after its delay, a timed PWM_SET_POSITION with SETPOS_SPLIT_READ for the mutex after its read,
a blocking playback for the lock of its next command; each goes on when the lock is free, changes nothing but its place
in the model's flights while it is held (log 12), and checks its operands as it did before. -/
def Obligations.LockWaitsEnd : Prop :=
  ∀ (s : State) (a : Agent) (f : Flight), s.topFlight a = some f → s.reached f.readyAt = true →
    let u : State := { s with cur := a, flights := s.flights.eraseP fun g => g.agent == a }
    (∀ i, f.phase = .waiting i →
      resumeAgent a s = begin i u
      ∧ (∀ b, s.T.tl = .held b → (∀ sets cb, i ≠ .seqPlay sets true cb) → resumeAgent a s = exec i u))
    ∧ (∀ id, f.phase = .resetWaited id →
      (¬ (0 ≤ id ∧ id ≤ 254) → resumeAgent a s = .next (ended .busReset (.raised (.encodeRange .deviceId)) u))
      ∧ (0 ≤ id → id ≤ 254 → ∃ g, encodeFrame s.cfg id 0x01 [500, 1000] = .ok g
        ∧ (s.T.tl = .free → resumeAgent a s = .next (sent .busReset g u))
        ∧ ∀ b, s.T.tl = .held b → resumeAgent a s = .next
          { u with flights := { agent := a, phase := .resetWaited id, readyAt := s.now } :: u.flights }))
    ∧ (∀ c w d c0, f.phase = .pwmSplit c w d c0 →
      (s.channel? c = none → resumeAgent a s = .next (ended .pwmSetPosition (.raised (.channelRange c)) u))
      ∧ ∀ ch, s.channel? c = some ch →
        (ch.mutex = .free →
          let n := tickCount s.cfg d
          resumeAgent a s = .next
            { u with
              channels := withChannel c { ch with delta := (c0 - (w : Rat)) / (n : Rat), tgt := (w : Rat), rem := n } s,
              trace := s.trace ++ [.result a .pwmSetPosition .done] })
        ∧ (ch.mutex ≠ .free → resumeAgent a s = .next
          { u with flights := { agent := a, phase := .pwmSplit c w d c0, readyAt := s.now } :: u.flights }))
    ∧ ∀ (j p : Nat) (J : Job) (c : Cmd), f.phase = .playing j → s.job? j = some J → J.phase = .issue p →
      J.k < rounds J.sets → (cmds J.sets J.k)[p]? = some c → playable s c → s.cfg.clampsOk = true →
      ((channelKind s.cfg c.col = .serial ∧ ∃ b, s.T.tl = .held b)
        ∨ (channelKind s.cfg c.col = .pwm ∧ ∃ ch, s.channel? c.col = some ch ∧ ch.mutex ≠ .free)) →
      resumeAgent a s = .next { s with cur := a }

/-- R139, D39: in a fair run every wait ends. From every state of the run on TL is free again at some later one; an agent
that waits for a lock, or stands in any other place of an operation but a playback or an onComplete body, at some later
state stands there no more; and where TL is free, SCHED with a ready job, the one it runs or any where it runs none, and a
caller with the one it plays, if that is ready, take a step at that state or a later one. What fairness demands of a run,
and how an agent stands in an operation, are the model's reading (log 4, log 11). -/
def Obligations.FairRunEndsWaits : Prop :=
  ∀ (m : Nat → Move) (s : Nat → State), isRun m s → weaklyFair m s →
    tlOk (s 0) → mutexesFree (s 0) → (s 0).sq.started = true → ∀ n,
    (∃ k, n ≤ k ∧ (s k).T.tl = .free)
    ∧ (∀ (a : Agent) (f : Flight), (s n).topFlight a = some f → (∀ i, f.phase = .waiting i → isInternal i = false) →
      (∀ j, f.phase ≠ .playing j) → (∀ j o, f.phase ≠ .callback j o) →
      ∃ k, n ≤ k ∧ (s k).standsIn a ≠ (s n).standsIn a)
    ∧ ((s n).T.tl = .free → ∀ (j : Nat) (J : Job), (s n).job? j = some J → ready J (s n) →
      ((s n).sq.running = some j ∨ (s n).sq.running = none → (s n).topFlight .sched = none → J.ctx = .onSched →
        ∃ k, n ≤ k ∧ takesStep .sched (m k) (s k))
      ∧ ∀ (a : Agent) (f : Flight), (s n).topFlight a = some f → f.phase = .playing j →
        (s n).reached f.readyAt = true → J.ctx = .onCaller a → ∃ k, n ≤ k ∧ takesStep a (m k) (s k))

/-- R124: where an operation other than SEQ_PLAY and the steps of a job ends with a ValidationError, RESULT is the only
thing that has happened. -/
def Obligations.ValidationErrorsChangeNothing : Prop :=
  ∀ (i : Instr) (s t : State) (evs : List Event) (op : HostOp) (e : Err),
    (∀ sets bl cb, i ≠ .seqPlay sets bl cb) → exec i s = .next t →
    t.trace = s.trace ++ evs ++ [.result s.cur op (.raised e)] → Err.isValidation e = true →
    t = ended op (.raised e) s

/-- R20, R71, R145: every step keeps the direction pins consistent with `T.dir`, and they are never both asserted, at no
point of the pin writes of any step. -/
def Obligations.PinsBreakBeforeMake : Prop :=
  ∀ (s s' : State), pinsOk s → step s = .next s' →
    pinsOk s' ∧ ∃ evs, s'.trace = s.trace ++ evs ∧ pinRun (s.T.txEn, s.T.rxEn) evs = some (s'.T.txEn, s'.T.rxEn)

/-- R21, R22, R26, R48: every step keeps the lock discipline: TL is held exactly by the one agent that stands inside an
exchange or a line reset, the channel is closed exactly inside a line reset, and no channel mutex is held between two
steps. -/
def Obligations.LockInvariantKept : Prop :=
  ∀ (s s' : State), tlOk s → mutexesFree s → step s = .next s' → tlOk s' ∧ mutexesFree s'

/-- R75, R147: while an agent stands inside an exchange or a line reset, every move but its own going on leaves the line,
the receive buffer and the transmissions alone. -/
def Obligations.ExchangeIsIsolated : Prop :=
  ∀ (m : Move) (s s' : State) (a : Agent), tlOk s → s.T.tl = .held a → m ≠ .resume a → runMove m s = .next s' →
    s'.T = s.T ∧ ∃ evs, s'.trace = s.trace ++ evs ∧ ∀ e ∈ evs, isLine e = false

/-! ## PWM interpolator -/

/-- R98, R99: the checks of PWM_SET_POSITION, in order, and the wait for the mutex. -/
def Obligations.PwmSetPositionChecks : Prop :=
  ∀ (s : State) (c w d : Int),
    (s.channel? c = none ↔ ¬ (1 ≤ c ∧ c ≤ (s.channels.length : Int)))
    ∧ (s.channel? c = none →
      exec (.pwmSetPosition c w d) s = .next (ended .pwmSetPosition (.raised (.channelRange c)) s))
    ∧ ∀ ch, s.channel? c = some ch →
      (¬ (ch.lo ≤ w ∧ w ≤ ch.hi) →
        exec (.pwmSetPosition c w d) s = .next (ended .pwmSetPosition (.raised (.pwRange w)) s))
      ∧ (ch.lo ≤ w → w ≤ ch.hi → d < 0 →
        exec (.pwmSetPosition c w d) s = .next (ended .pwmSetPosition (.raised (.durationRange d)) s))
      ∧ (ch.lo ≤ w → w ≤ ch.hi → 0 ≤ d → ch.mutex ≠ .free →
        exec (.pwmSetPosition c w d) s = .next (waits (.pwmSetPosition c w d) s))

/-- R100: the immediate form. -/
def Obligations.PwmImmediateJumps : Prop :=
  ∀ (s : State) (c w : Int) (ch : Channel), s.channel? c = some ch → ch.lo ≤ w → w ≤ ch.hi → ch.mutex = .free →
    exec (.pwmSetPosition c w 0) s = .next
      { s with
        channels := withChannel c { ch with cur := (w : Rat), tgt := (w : Rat), rem := s.cfg.idleTicks } s,
        trace := s.trace ++ [.pwm c.toNat ((w : Rat) + (ch.dev : Rat)), .result s.cur .pwmSetPosition .done] }

/-- R102: the timed form, at once or, with SETPOS_SPLIT_READ, from the width read in a step of its own. That the read
stands in a flight until its agent goes on is the model's form (log 11, and log 17 for its readyAt). -/
def Obligations.PwmTimedPlansMotion : Prop :=
  ∀ (s : State) (c w d : Int) (ch : Channel), s.channel? c = some ch → ch.lo ≤ w → w ≤ ch.hi → ch.mutex = .free →
    0 < d →
    let n := tickCount s.cfg d
    (s.cfg.setposSplitRead = false → exec (.pwmSetPosition c w d) s = .next
      { s with
        channels := withChannel c { ch with delta := (ch.cur - (w : Rat)) / (n : Rat), tgt := (w : Rat), rem := n } s,
        trace := s.trace ++ [.result s.cur .pwmSetPosition .done] })
    ∧ (s.cfg.setposSplitRead = true → exec (.pwmSetPosition c w d) s = .next
      { s with flights := { agent := s.cur, phase := .pwmSplit c w d ch.cur, readyAt := s.now } :: s.flights })
    ∧ ∀ (c0 : Rat), resumePwmSplit c w d c0 s =
      { s with
        channels := withChannel c { ch with delta := (c0 - (w : Rat)) / (n : Rat), tgt := (w : Rat), rem := n } s,
        trace := s.trace ++ [.result s.cur .pwmSetPosition .done] }

/-- R101: the tick count is the nearest integer to the clamped duration over TICK_MS, a tie as TICK_ROUND says; half
toward zero is a third value of TICK_ROUND that the model adds (log 19). By the default TICK_MS and PDUR_MAX it is at most
1500. -/
def Obligations.TickCountRounds : Prop :=
  ∀ (cfg : Config) (d : Int), cfg.ticksOk = true → 0 < d →
    let y : Int := cfg.tickMs
    let x : Int := min (max d cfg.pdurMin) cfg.pdurMax
    let n : Int := (tickCount cfg d : Int)
    1 ≤ n ∧ 2 * x - y ≤ 2 * (y * n) ∧ 2 * (y * n) ≤ 2 * x + y
    ∧ (2 * (x % y) = y →
      (cfg.tickRound = .halfToEven → n % 2 = 0)
      ∧ (cfg.tickRound = .halfAwayFromZero → 2 * (y * n) = 2 * x + y)
      ∧ (cfg.tickRound = .halfTowardZero → 2 * (y * n) = 2 * x - y))
    ∧ (cfg.tickMs = 20 → cfg.pdurMax = 30000 → n ≤ 1500)

/-- R103, R104: PWM_TICK. With TIMED the firing re-arms the timer, and one that is not due waits. That a waiting timer
leaves the state as it is, and when a timer was armed, are the model's form (log 12, log 17). -/
def Obligations.PwmTickInterpolates : Prop :=
  ∀ (s : State) (c : Nat) (ch : Channel), s.cur = .tick c → s.channel? c = some ch →
    let at' : Rat := if s.cfg.timed then s.now else ch.armedAt
    (ch.mutex ≠ .free → exec (.pwmTick c) s = .next s)
    ∧ (s.cfg.timed = true → s.now < ch.armedAt + (s.cfg.tickMs : Rat) → exec (.pwmTick c) s = .next s)
    ∧ (ch.mutex = .free → (s.cfg.timed = true → ch.armedAt + (s.cfg.tickMs : Rat) ≤ s.now) →
      (ch.rem < 0 → exec (.pwmTick c) s = .next
        { s with
          channels := withChannel c { ch with armedAt := at' } s,
          trace := s.trace ++ [.tickfire c] })
      ∧ (1 < ch.rem → exec (.pwmTick c) s = .next
        { s with
          channels := withChannel c
            { ch with rem := ch.rem - 1, cur := ch.tgt + ch.delta * ((ch.rem - 1 : Int) : Rat), armedAt := at' } s,
          trace := s.trace ++ [.tickfire c, .pwm c (ch.tgt + ch.delta * ((ch.rem - 1 : Int) : Rat) + (ch.dev : Rat))] })
      ∧ (ch.rem = 1 → exec (.pwmTick c) s = .next
        { s with
          channels := withChannel c { ch with rem := s.cfg.idleTicks, cur := ch.tgt, armedAt := at' } s,
          trace := s.trace ++ [.tickfire c, .pwm c (ch.tgt + (ch.dev : Rat))] })
      ∧ (ch.rem = 0 → exec (.pwmTick c) s = .next
        { s with
          channels := withChannel c { ch with rem := -1, armedAt := at' } s,
          trace := s.trace ++ [.tickfire c] }))

/-- R105: after a timed PWM_SET_POSITION of N ticks tick k writes the width k/N of the way to the target, tick N writes
the target exactly, later ticks write nothing, N is at most the duration over TICK_MS rounded up where PDUR_MIN is
TICK_MS, and the widths are strictly monotonic. -/
def Obligations.PwmMotionConverges : Prop :=
  ∀ (s t u v : State) (c k : Nat) (w d : Int) (ch ch' : Channel), s.cfg.ticksOk = true → s.cfg.idleTicks < 0 →
    s.channel? c = some ch → ch.lo ≤ w → w ≤ ch.hi → ch.mutex = .free → 0 < d → s.cfg.setposSplitRead = false →
    exec (.pwmSetPosition c w d) s = .next t → TickRun c k t u → u.channel? c = some ch' → fires c u v →
    let n := tickCount s.cfg d
    (s.cfg.pdurMin = s.cfg.tickMs → (n : Int) ≤ (d + s.cfg.tickMs - 1) / s.cfg.tickMs)
    ∧ (k + 1 < n →
      v.trace = u.trace ++ [.tickfire c, .pwm c (widthAfter ch.cur w n (k + 1) + (ch'.dev : Rat))]
      ∧ (v.channel? c).map Channel.cur = some (widthAfter ch.cur w n (k + 1)))
    ∧ (k + 1 = n →
      v.trace = u.trace ++ [.tickfire c, .pwm c ((w : Rat) + (ch'.dev : Rat))]
      ∧ (v.channel? c).map Channel.cur = some (w : Rat) ∧ (v.channel? c).map Channel.rem = some s.cfg.idleTicks)
    ∧ (n < k + 1 → v.trace = u.trace ++ [.tickfire c] ∧ (v.channel? c).map Channel.cur = some (w : Rat))
    ∧ (ch.cur < w → widthAfter ch.cur w n k < widthAfter ch.cur w n (k + 1))
    ∧ ((w : Rat) < ch.cur → widthAfter ch.cur w n (k + 1) < widthAfter ch.cur w n k)
    ∧ (ch.cur = w → widthAfter ch.cur w n k = w)

/-- R106: a positive duration below PDUR_MIN acts as PDUR_MIN (one tick where that is TICK_MS), one above PDUR_MAX as
PDUR_MAX (`m` ticks where that is `m` times TICK_MS); with SETPOS_SPLIT_READ the same holds of the step that plans the
motion. -/
def Obligations.PwmDurationClampIdempotent : Prop :=
  ∀ (s : State) (c w d : Int), mutexesFree s → s.cfg.ticksOk = true →
    let lo := s.cfg.pdurMin
    let hi := s.cfg.pdurMax
    (1 ≤ d → d < lo →
      tickCount s.cfg d = tickCount s.cfg lo
      ∧ (s.cfg.setposSplitRead = false → exec (.pwmSetPosition c w d) s = exec (.pwmSetPosition c w lo) s)
      ∧ ∀ c0, resumePwmSplit c w d c0 s = resumePwmSplit c w lo c0 s)
    ∧ (hi < d →
      tickCount s.cfg d = tickCount s.cfg hi
      ∧ (s.cfg.setposSplitRead = false → exec (.pwmSetPosition c w d) s = exec (.pwmSetPosition c w hi) s)
      ∧ ∀ c0, resumePwmSplit c w d c0 s = resumePwmSplit c w hi c0 s)
    ∧ (lo = s.cfg.tickMs → tickCount s.cfg lo = 1)
    ∧ ∀ m : Nat, hi = m * s.cfg.tickMs → tickCount s.cfg hi = m

/-- PWM_SET_DEVIATION (R107). The form of its wait for the mutex is the model's (log 12). -/
def Obligations.PwmSetDeviation : Prop :=
  ∀ (s : State) (c dv : Int),
    let l := s.cfg.devLimit
    let ok : Prop := if s.cfg.devRangeInclusive then -l ≤ dv ∧ dv ≤ l else -l < dv ∧ dv < l
    (s.channel? c = none →
      exec (.pwmSetDeviation c dv) s = .next (ended .pwmSetDeviation (.raised (.channelRange c)) s))
    ∧ ∀ ch, s.channel? c = some ch →
      (¬ ok → exec (.pwmSetDeviation c dv) s = .next (ended .pwmSetDeviation (.raised (.deviationRange dv)) s))
      ∧ (ok → ch.mutex ≠ .free → exec (.pwmSetDeviation c dv) s = .next (waits (.pwmSetDeviation c dv) s))
      ∧ (ok → ch.mutex = .free → exec (.pwmSetDeviation c dv) s = .next
        { s with
          channels := withChannel c { ch with dev := dv } s,
          trace := s.trace ++ [.result s.cur .pwmSetDeviation .done] })

/-- PWM_GET_DEVIATION (R108). The form of its wait for the mutex is the model's (log 12). -/
def Obligations.PwmGetDeviation : Prop :=
  ∀ (s : State) (c : Int),
    (s.channel? c = none →
      exec (.pwmGetDeviation c) s = .next (ended .pwmGetDeviation (.raised (.channelRange c)) s))
    ∧ ∀ ch, s.channel? c = some ch →
      (ch.mutex ≠ .free → exec (.pwmGetDeviation c) s = .next (waits (.pwmGetDeviation c) s))
      ∧ (ch.mutex = .free → exec (.pwmGetDeviation c) s = .next (ended .pwmGetDeviation (.value ch.dev) s))

/-- R25: every step keeps the invariants of the PWM channels, from every state that has them and whose configuration is
well-formed. -/
def Obligations.ChannelInvariantKept : Prop :=
  ∀ (s s' : State), pwmOk s → step s = .next s' → pwmOk s'

/-! ## Action sequencer -/

/-- R109, R127: SEQ_LOAD for every repeat count and every answer of the store. That an answer is the next one listed, or
else a free value read at the draw counter, is the model's form (log 6). -/
def Obligations.SeqLoadReadsTheStore : Prop :=
  ∀ (path : Path) (reps : Int) (locks : List (Int × Int)) (s : State),
    (reps < 0 → exec (.seqLoad path reps locks) s = .next (ended .seqLoad (.raised (.repeatRange reps)) s))
    ∧ (0 ≤ reps →
      (∀ rest, s.storeIn = none :: rest → exec (.seqLoad path reps locks) s = .next
        { s with
          storeIn := rest,
          trace := s.trace ++ [.store path none, .result s.cur .seqLoad (.raised (.resourceNotFound path))] })
      ∧ (∀ rows rest, s.storeIn = some rows :: rest →
        exec (.seqLoad path reps locks) s = .next
          { s with
            storeIn := rest,
            trace := s.trace ++ [.store path (some rows),
              .result s.cur .seqLoad (.actionSet (lockedSet path reps.toNat locks rows))] })
      ∧ (s.storeIn = [] → ∃ r v, exec (.seqLoad path reps locks) s = .next
          { s with draws := s.draws + 1, trace := s.trace ++ [.store path r, .result s.cur .seqLoad v] }
        ∧ (r = none → v = .raised (.resourceNotFound path))
        ∧ ∀ rows, r = some rows → v = .actionSet (lockedSet path reps.toNat locks rows)))

/-- R109, R110: the rows of a loaded set are the stored ones in their order, with the duration kept, the locked columns
at their override and every other column at its stored position. -/
def Obligations.LockOverride : Prop :=
  ∀ (path : Path) (reps : Nat) (locks : List (Int × Int)) (rows : List ActionRow), locksOk locks = true →
    let a := loadedSet path reps locks rows
    a.path = path ∧ a.reps = reps ∧ a.locks = locks ∧ a.rows.length = rows.length
    ∧ ∀ (n : Nat) (r q : ActionRow), rows[n]? = some r → a.rows[n]? = some q →
      q.dur = r.dur ∧ q.pos.length = r.pos.length
      ∧ ∀ k, 1 ≤ k → k ≤ r.pos.length →
        (∀ v, ((k : Int), v) ∈ locks → q.pos[k - 1]? = some v)
        ∧ ((∀ v, ((k : Int), v) ∉ locks) → q.pos[k - 1]? = r.pos[k - 1]?)

/-- R111, R112: the rounds of a batch. A set is active in round k while k is below repeat times its row count and then
plays row k modulo that count; a round's commands are those of its active rows, sets in batch order, columns ascending
from 1; its sleep is the longest duration of its active rows; the playback has as many rounds as its longest set. -/
def Obligations.RoundsOfABatch : Prop :=
  (∀ (a : ActionSet) (k : Nat),
    (k < a.reps * a.rows.length → ∃ r, a.rows[k % a.rows.length]? = some r ∧ activeRows [a] k = [r])
    ∧ (a.reps * a.rows.length ≤ k → activeRows [a] k = [] ∧ cmds [a] k = []))
  ∧ (∀ (S T : List ActionSet) (k : Nat),
    activeRows (S ++ T) k = activeRows S k ++ activeRows T k ∧ cmds (S ++ T) k = cmds S k ++ cmds T k)
  ∧ (∀ (a : ActionSet) (k : Nat) (r : ActionRow), activeRows [a] k = [r] →
    (cmds [a] k).length = r.pos.length
    ∧ ∀ n (c : Cmd), (cmds [a] k)[n]? = some c → c.col = n + 1 ∧ some c.pos = r.pos[n]? ∧ c.dur = r.dur)
  ∧ (∀ (S : List ActionSet) (k : Nat),
    (k < rounds S ↔ ∃ a ∈ S, k < a.reps * a.rows.length)
    ∧ (∀ r ∈ activeRows S k, r.dur ≤ sleepLen S k)
    ∧ (k < rounds S → ∃ r ∈ activeRows S k, r.dur = sleepLen S k))

/-- R113, R34: a non-blocking SEQ_PLAY creates a job of SCHED and a pending handle, returns at once, and sends nothing.
Where SQ.started is false, which no run reaches, it is refused by name (the model's reading, log 27). That ids count up (log 16) and that
a job notes a time (log 17) are the model's form. -/
def Obligations.PlayNonBlockingReturnsAtOnce : Prop :=
  ∀ (sets : List ActionSet) (cb : Option Nat) (s : State),
    let J : Job :=
      { id := s.sq.nextId, sets := sets, k := 0, phase := .issue 0, ctx := .onSched, cb := cb, sleptAt := s.now,
        split := none }
    (s.sq.started = true → exec (.seqPlay sets false cb) s = .next
      { s with
        sq := { s.sq with jobs := s.sq.jobs ++ [J], nextId := s.sq.nextId + 1 },
        handles := s.handles ++ [(s.sq.nextId, .pending)],
        trace := s.trace ++ [.result s.cur .seqPlay (.handle s.sq.nextId)] })
    ∧ (s.sq.started = false → exec (.seqPlay sets false cb) s = .refused .schedulerStopped)

/-- R111, R113, R116, R118: a blocking SEQ_PLAY whose commands are all accepted, with every lock free and no onComplete
body to run, issues every round's commands in order, sleeps and wakes after each round, completes OK, and returns Done,
its job gone. That its job's id is the next of a counter is the model's choice (log 16). -/
def Obligations.PlayBlockingCompletes : Prop :=
  ∀ (sets : List ActionSet) (cb : Option Nat) (s : State), jobsOk s → s.T.tl = .free → mutexesFree s →
    s.cfg.clampsOk = true →
    (cb = none ∨ s.cfg.blockingCallback = false) →
    (∀ k < rounds sets, ∀ c ∈ cmds sets k, playable s c) →
    ∃ t, exec (.seqPlay sets true cb) s = .next t
      ∧ t.trace = s.trace ++ (List.range (rounds sets)).flatMap (roundEvents s s.sq.nextId sets)
        ++ [.complete s.sq.nextId .ok, .result s.cur .seqPlay .done]
      ∧ t.sq = { s.sq with nextId := s.sq.nextId + 1 } ∧ t.flights = s.flights ∧ t.handles = s.handles
      ∧ t.T.tl = .free ∧ t.cfg = s.cfg

/-- R114, R113, R130: in a blocking playback the first command that raises an error ends the job with FAIL(e), and
SEQ_PLAY raises e; nothing else happens in that step, whatever other agents stand in. -/
def Obligations.PlayBlockingRaises : Prop :=
  ∀ (s : State) (a : Agent) (j p : Nat) (J : Job) (c : Cmd) (e : Err) (f : Flight),
    s.topFlight a = some f → f.phase = .playing j → s.reached f.readyAt = true →
    s.job? j = some J → J.ctx = .onCaller a → J.phase = .issue p → (cmds J.sets J.k)[p]? = some c →
    J.k < rounds J.sets → (J.cb = none ∨ s.cfg.blockingCallback = false) →
    (channelKind s.cfg c.col = .serial ∧ moveFrame s.cfg c.col c.pos c.dur = .error e
      ∨ channelKind s.cfg c.col = .pwm ∧ pwmCheck c.col c.pos c.dur s = .error e) →
    resumeAgent a s = .next
      { s with
        cur := a,
        flights := s.flights.eraseP fun g => g.agent == a,
        sq := { s.sq with jobs := s.sq.jobs.filter fun K => K.id ≠ j },
        trace := s.trace ++ [.complete j (.fail e), .result a .seqPlay (.raised e)] }

/-- R114: SEQ_ISSUE of a command on a Serial column: one BUS_SET_POSITION without a RESULT of its own; it waits for TL; a
column that is no device id ends the job with the error. That a job that waits for TL (R48) leaves the state as it was is
the model's form (log 12), and so is the clock (log 17). -/
def Obligations.SeqIssueSerialCommand : Prop :=
  ∀ (s : State) (j p : Nat) (J : Job) (c : Cmd), s.job? j = some J → mine J s → J.phase = .issue p →
    J.k < rounds J.sets → (cmds J.sets J.k)[p]? = some c → channelKind s.cfg c.col = .serial →
    s.cfg.clampsOk = true →
    (c.col ≤ 254 → ∃ f, moveFrame s.cfg c.col c.pos c.dur = .ok f
      ∧ (s.T.tl = .free → exec (.seqIssue j) s = .next
        (({ s with
            T := sentLine s.T,
            trace := s.trace ++ sentEvents f,
            sq := { s.sq with jobs := withJob { J with phase := .issue (p + 1) } s } } : State).elapse (txTime s.cfg f)))
      ∧ ∀ a, s.T.tl = .held a → exec (.seqIssue j) s = .next s)
    ∧ (254 < c.col →
      exec (.seqIssue j) s = exec (.seqFinish j (.fail (.encodeRange .deviceId))) s)

/-- R114: SEQ_ISSUE of a command on a Pwm column: one PWM_SET_POSITION without a RESULT of its own, in the form its
duration gives; it waits for the mutex; a channel or a width out of range ends the job with the error. That a job that
waits for the mutex (R48) leaves the state as it was is the model's form (log 12), and so is that a split read is kept in
the job (log 29). -/
def Obligations.SeqIssuePwmCommand : Prop :=
  ∀ (s : State) (j p : Nat) (J : Job) (c : Cmd), s.job? j = some J → mine J s → J.phase = .issue p →
    J.k < rounds J.sets → (cmds J.sets J.k)[p]? = some c → channelKind s.cfg c.col = .pwm →
    (s.channel? c.col = none → exec (.seqIssue j) s = exec (.seqFinish j (.fail (.channelRange c.col))) s)
    ∧ ∀ ch, s.channel? c.col = some ch →
      (¬ (ch.lo ≤ c.pos ∧ c.pos ≤ ch.hi) → exec (.seqIssue j) s = exec (.seqFinish j (.fail (.pwRange c.pos))) s)
      ∧ (ch.lo ≤ c.pos → c.pos ≤ ch.hi → ch.mutex ≠ .free → exec (.seqIssue j) s = .next s)
      ∧ (ch.lo ≤ c.pos → c.pos ≤ ch.hi → ch.mutex = .free →
        (c.dur = 0 → exec (.seqIssue j) s = .next
          { s with
            channels := withChannel c.col { ch with cur := (c.pos : Rat), tgt := (c.pos : Rat), rem := s.cfg.idleTicks } s,
            trace := s.trace ++ [.pwm c.col ((c.pos : Rat) + (ch.dev : Rat))],
            sq := { s.sq with jobs := withJob { J with phase := .issue (p + 1) } s } })
        ∧ (0 < c.dur → (s.cfg.setposSplitRead = false ∧ J.split = none ∨ J.split ≠ none) →
          let n := tickCount s.cfg c.dur
          exec (.seqIssue j) s = .next
            { s with
              channels := withChannel c.col
                { ch with delta := (J.split.getD ch.cur - (c.pos : Rat)) / (n : Rat), tgt := (c.pos : Rat), rem := n } s,
              sq := { s.sq with jobs := withJob { J with phase := .issue (p + 1), split := none } s } })
        ∧ (0 < c.dur → s.cfg.setposSplitRead = true → J.split = none → exec (.seqIssue j) s = .next
          { s with sq := { s.sq with jobs := withJob { J with split := some ch.cur } s } }))

/-- R114: SEQ_ISSUE after the last command of a round begins the sleep; after the last round it finishes the job OK. That
the job notes when its sleep began is the model's form (log 17). -/
def Obligations.SeqIssueEndsRound : Prop :=
  ∀ (s : State) (j p : Nat) (J : Job), s.job? j = some J → mine J s → J.phase = .issue p →
    (rounds J.sets ≤ J.k → exec (.seqIssue j) s = exec (.seqFinish j .ok) s)
    ∧ (J.k < rounds J.sets → (cmds J.sets J.k).length ≤ p →
      let d := sleepLen J.sets J.k
      exec (.seqIssue j) s = .next
        { s with
          trace := s.trace ++ [.sleep j d],
          sq := { s.sq with jobs := withJob { J with phase := .sleep d, sleptAt := s.now } s } })

/-- R115: a sleeping job of SCHED is no longer run, so SCHED may run another; a blocking job keeps its caller. Neither
touches a lock. -/
def Obligations.SeqSleepSuspends : Prop :=
  ∀ (s : State) (j d : Nat) (J : Job), s.job? j = some J → mine J s → J.phase = .sleep d →
    (J.ctx = .onSched → exec (.seqSleep j) s = .next { s with sq := { s.sq with running := none } })
    ∧ (J.ctx ≠ .onSched → exec (.seqSleep j) s = .next s)

/-- R116: SEQ_WAKE begins the next round; with TIMED, not before the sleep has lasted its length (R115, D40). When a sleep
began is a field of the job, and a wake that is not due leaves the state as it is: the model's form (log 17, log 12). -/
def Obligations.SeqWakeStartsNextRound : Prop :=
  ∀ (s : State) (j d : Nat) (J : Job), s.job? j = some J → mine J s → J.phase = .sleep d →
    ((s.cfg.timed = true → J.sleptAt + (d : Rat) ≤ s.now) → exec (.seqWake j) s = .next
      { s with
        trace := s.trace ++ [.wake j],
        sq := { s.sq with jobs := withJob { J with k := J.k + 1, phase := .issue 0 } s } })
    ∧ (s.cfg.timed = true → s.now < J.sleptAt + (d : Rat) → exec (.seqWake j) s = .next s)

/-- R117: SEQ_FINISH. COMPLETE is appended, the handle of a job of SCHED resolves, and the job goes; where an onComplete
body is to run, its agent stands inside it, and the job and SCHED's hold on it last until the body returns (the model's
form of a body that runs, log 14). -/
def Obligations.SeqFinishCompletes : Prop :=
  ∀ (s : State) (j p : Nat) (J : Job) (o : JobOutcome), s.job? j = some J → mine J s → J.phase = .issue p →
    (J.ctx = .onSched → J.cb = none → exec (.seqFinish j o) s = .next
      { s with
        trace := s.trace ++ [.complete j o],
        handles := resolved j o s.handles,
        sq := { s.sq with jobs := s.sq.jobs.filter (fun K => K.id ≠ j), running := none } })
    ∧ (J.ctx = .onSched → J.cb ≠ none → exec (.seqFinish j o) s = .next
      { s with
        trace := s.trace ++ [.complete j o],
        handles := resolved j o s.handles,
        sq := { s.sq with jobs := withJob { J with phase := .done } s },
        flights := { agent := s.cur, phase := .callback j o, readyAt := s.now } :: s.flights })
    ∧ (J.ctx ≠ .onSched → (J.cb = none ∨ s.cfg.blockingCallback = false) → exec (.seqFinish j o) s = .next
      { s with
        trace := s.trace ++ [.complete j o],
        sq := { s.sq with jobs := s.sq.jobs.filter fun K => K.id ≠ j } })
    ∧ (J.ctx ≠ .onSched → J.cb ≠ none → s.cfg.blockingCallback = true → exec (.seqFinish j o) s = .next
      { s with
        trace := s.trace ++ [.complete j o],
        sq := { s.sq with jobs := withJob { J with phase := .done } s },
        flights := { agent := s.cur, phase := .callback j o, readyAt := s.now } :: s.flights })

/-- R117, D52: when the onComplete body of a job returns, the job is gone. Of a job of SCHED, SCHED runs none then; of a
blocking job, whose body runs with BLOCKING_CALLBACK, SEQ_PLAY returns the outcome. The form of a body that runs is the
model's (log 14). -/
def Obligations.CallbackReturnEndsJob : Prop :=
  ∀ (s : State) (a : Agent) (j : Nat) (J : Job) (o : JobOutcome) (f : Flight),
    s.topFlight a = some f → f.phase = .callback j o → s.reached f.readyAt = true → s.job? j = some J →
    (a = .sched → J.ctx = .onSched → resumeAgent .sched s = .next
      { s with
        cur := .sched,
        flights := s.flights.eraseP fun g => g.agent == .sched,
        sq := { s.sq with jobs := s.sq.jobs.filter (fun K => K.id ≠ j), running := none } })
    ∧ (J.ctx = .onCaller a → resumeAgent a s = .next
      { s with
        cur := a,
        flights := (s.flights.eraseP fun g => g.agent == a).eraseP fun g => g.agent == a,
        sq := { s.sq with jobs := s.sq.jobs.filter fun K => K.id ≠ j },
        trace := s.trace ++ [.result a .seqPlay (match o with
          | .ok     => .done
          | .fail e => .raised e)] })

/-- R119: SCHED, running no job and inside no onComplete body, takes any ready job of its own and makes its next step: the
wake of a sleeping one, SEQ_ISSUE of an issuing one, after which a job that has gone to sleep is no longer run. A job
whose sleep may not end yet is not taken: that such a move leaves the state as it was, and the clock it is judged by, are
the model's form (log 12, log 17), and so is that each command of the loop is a move of its own (log 11). -/
def Obligations.SchedStartsReadyJob : Prop :=
  ∀ (s : State) (j : Nat) (J : Job), s.sq.started = true → s.topFlight .sched = none → s.sq.running = none →
    s.job? j = some J → J.ctx = .onSched →
    let s1 : State := { s with cur := .sched, sq := { s.sq with running := some j } }
    (∀ d, J.phase = .sleep d → (s.cfg.timed = true → J.sleptAt + (d : Rat) ≤ s.now) →
      schedMove j s = exec (.seqWake j) s1)
    ∧ (∀ d, J.phase = .sleep d → s.cfg.timed = true → s.now < J.sleptAt + (d : Rat) → schedMove j s = .next s)
    ∧ (∀ p, J.phase = .issue p → ∃ t, exec (.seqIssue j) s1 = .next t
      ∧ ((∀ K d, t.job? j = some K → K.phase ≠ .sleep d) → schedMove j s = .next t)
      ∧ (∀ K d, t.job? j = some K → K.phase = .sleep d → schedMove j s = exec (.seqSleep j) t))

/-- R31, R119: SCHED runs one job at a time: while it runs one, a step of SCHED is a step of that job, whichever was
asked for, and leaves every other job as it was. That step goes on with R119's loop: the SEQ_ISSUE of a job that issues,
after which a job that has gone to sleep is no longer run, and the SEQ_WAKE of one that sleeps. That each command of the
loop is a move of its own is the model's form (log 11). -/
def Obligations.SchedRunsOneJob : Prop :=
  ∀ (s : State) (r : Nat), s.sq.running = some r →
    (∀ (j i : Nat) (t : State), schedMove j s = .next t →
      schedMove i s = .next t ∧ (∀ J ∈ s.sq.jobs, J.id ≠ r → J ∈ t.sq.jobs)
      ∧ ∀ J ∈ t.sq.jobs, J.id ≠ r → J ∈ s.sq.jobs)
    ∧ ∀ (j : Nat) (J : Job), s.sq.started = true → s.topFlight .sched = none → s.job? r = some J → J.ctx = .onSched →
      let u : State := { s with cur := .sched }
      (∀ p, J.phase = .issue p → ∃ t, exec (.seqIssue r) u = .next t
        ∧ ((∀ K d, t.job? r = some K → K.phase ≠ .sleep d) → schedMove j s = .next t)
        ∧ (∀ K d, t.job? r = some K → K.phase = .sleep d →
          schedMove j s = exec (.seqSleep r) t ∧ exec (.seqSleep r) t = .next { t with sq := { t.sq with running := none } }))
      ∧ (∀ d, J.phase = .sleep d → schedMove j s = exec (.seqWake r) u)

/-- R121: every frame a playback transmits, blocking (at once, or by a resumption of its caller) or run by SCHED, is a
MOVE_TIME_WRITE frame with position POS_MIN..POS_MAX and duration SDUR_MIN..SDUR_MAX, and a playback reads nothing from
the line. -/
def Obligations.PlaybackSendsOnlyMoves : Prop :=
  ∀ (s t : State) (j : Nat) (sets : List ActionSet) (cb : Option Nat), s.cfg.clampsOk = true →
    (exec (.seqIssue j) s = .next t ∨ schedMove j s = .next t ∨ exec (.seqPlay sets true cb) s = .next t
      ∨ ∃ a f, s.topFlight a = some f ∧ f.phase = .playing j ∧ resumeAgent a s = .next t) →
    ∃ evs, t.trace = s.trace ++ evs
      ∧ ∀ e ∈ evs, (∀ f, e = .tx f → ∃ id p d : Int, s.cfg.posMin ≤ p ∧ p ≤ s.cfg.posMax ∧ s.cfg.sdurMin ≤ d
          ∧ d ≤ s.cfg.sdurMax ∧ encodeFrame s.cfg id 0x01 [p, d] = .ok f)
        ∧ (∀ b, e ≠ .rxflush b) ∧ (∀ n, e ≠ .rxavail n) ∧ (∀ b, e ≠ .rxread b) ∧ e ≠ .uclose ∧ e ≠ .uopen

/-- R63: SEQ_PLAY_PATHS loads every set in order and then plays them; the first load that fails ends it, and nothing is
played. -/
def Obligations.PlayPathsLoadsThenPlays : Prop :=
  (∀ (blocking : Bool) (cb : Option Nat) (s : State), seqPlayPaths [] blocking cb s = exec (.seqPlay [] blocking cb) s)
  ∧ ∀ (reqs : List (Path × Int × List (Int × Int))) (path : Path) (reps : Int) (locks : List (Int × Int))
      (blocking : Bool) (cb : Option Nat) (s t : State) (evs : List Event),
    exec (.seqLoad path reps locks) s = .next t →
    (∀ e, t.trace = s.trace ++ evs ++ [.result s.cur .seqLoad (.raised e)] →
      seqPlayPaths ((path, reps, locks) :: reqs) blocking cb s = .next t)
    ∧ (∀ a, t.trace = s.trace ++ evs ++ [.result s.cur .seqLoad (.actionSet a)] →
      ∀ u, loadAll reqs t = (u, none) → seqPlayPaths ((path, reps, locks) :: reqs) blocking cb s = .next u)
    ∧ (∀ a, t.trace = s.trace ++ evs ++ [.result s.cur .seqLoad (.actionSet a)] →
      ∀ u as, loadAll reqs t = (u, some as) →
        seqPlayPaths ((path, reps, locks) :: reqs) blocking cb s = exec (.seqPlay (a :: as) blocking cb) u)

/-- R30, R31: every step keeps job ids fresh and distinct, and SCHED's running job one of its own. -/
def Obligations.JobInvariantKept : Prop := ∀ (s s' : State), jobsOk s → step s = .next s' → jobsOk s'

/-- R32: no step removes a handle; a pending one may resolve, a resolved one never changes again. -/
def Obligations.HandlesResolveOnce : Prop :=
  ∀ (s s' : State) (n : Nat) (h : Nat × HandleState), step s = .next s' → s.handles[n]? = some h →
    ∃ h', s'.handles[n]? = some h' ∧ mayBecome h h'

/-! ## The machine -/

/-- R142: every piece of state right after controller init, for every configuration; State.reset is the one of the default
configuration, whose values are those of R5, written out here. The values of the OPEN parameters are the model's (log 2:
N_PWM, PW_INIT, T_LINE_RESET, T_CLIENT_RESET; log 3: CMD_CODE), and so is that no operation is in progress (log 25). -/
def Obligations.ResetValues : Prop :=
  State.reset = State.init Config.default
  ∧ Config.default =
    { header1 := 0x55, header2 := 0x55, idMaxUnicast := 253, idBroadcast := 254,
      codes :=
        { moveTimeRead := 0x02, moveStop := 0x0C, idWrite := 0x0D, idRead := 0x0E, angleOffsetAdjust := 0x11,
          angleOffsetWrite := 0x12, angleOffsetRead := 0x13, angleLimitWrite := 0x14, angleLimitRead := 0x15,
          vinLimitWrite := 0x16, vinLimitRead := 0x17, tempMaxLimitWrite := 0x18, tempMaxLimitRead := 0x19,
          tempRead := 0x1A, vinRead := 0x1B, posRead := 0x1C, loadOrUnloadWrite := 0x1F, loadOrUnloadRead := 0x20 },
      rxChecksumCheck := false, baud := 115200,
      framing := { dataBits := 8, parity := .none, stopBits := 1, lsbFirst := true },
      readRetryDefault := 50, tReq := 34 / 100, tSettle := 5, minRxBytes := 5, tLineReset := 0, tClientReset := 0,
      enActive := .high, posMin := 0, posMax := 1000, sdurMin := 0, sdurMax := 30000, nPwm := 1, pwMin := 50,
      pwMax := 2500, pwBounds := [], pwInit := 1500, devInit := 0, devLimit := 300, devRangeInclusive := false,
      tickMs := 20, pdurMin := 20, pdurMax := 30000, tickRound := .halfToEven, idleTicks := -1,
      setposSplitRead := false, pwmColumns := [], blockingCallback := false, timed := false }
  ∧ ∀ (cfg : Config),
    let s := State.init cfg
    s.cfg = cfg
    ∧ s.T = { dir := .tx, txEn := .asserted, rxEn := .deasserted, tl := .free, isOpen := true, rx := [] }
    ∧ s.channels.length = cfg.nPwm
    ∧ (∀ (c : Int) (ch : Channel), s.channel? c = some ch →
      ch.cur = cfg.pwInit ∧ ch.tgt = cfg.pwInit ∧ ch.rem = cfg.idleTicks ∧ ch.delta = 0 ∧ ch.dev = cfg.devInit
      ∧ ch.mutex = .free
      ∧ (cfg.pwBounds.lookup c.toNat = none → ch.lo = cfg.pwMin ∧ ch.hi = cfg.pwMax)
      ∧ ∀ lo hi, cfg.pwBounds.lookup c.toNat = some (lo, hi) → ch.lo = lo ∧ ch.hi = hi)
    ∧ s.sq.jobs = [] ∧ s.sq.running = none ∧ s.sq.started = true ∧ s.handles = [] ∧ s.trace = [] ∧ s.flights = []

/-- Controller init meets the invariants that every step keeps. -/
def Obligations.ResetMeetsInvariants : Prop :=
  ∀ (cfg : Config), cfg.wf = true →
    pinsOk (State.init cfg) ∧ tlOk (State.init cfg) ∧ mutexesFree (State.init cfg) ∧ pwmOk (State.init cfg)
    ∧ jobsOk (State.init cfg)

/-- A step takes the next move off the script and runs it; beyond the script the move is a free one (log 4). A frame is
exec of the instruction it decodes to, a call exec of the operation, by the agent that issued it; the firing of a timer is
exec of PWM_TICK by that timer (R103). A begun operation stops at its waits, an agent goes on, SCHED steps, time passes with
TIMED (log 17); nothing is added around any of them. A request that is no operation is refused (R61, R120), and so are bytes
that are no wire command (the model's choice, log 7). -/
def Obligations.StepRunsIssuedInstr : Prop :=
  ∀ (s : State) (rest : List Move),
    let u : State := { s with script := rest }
    (∀ a, mayIssue a s = true →
      (∀ bytes i, s.script = .frame a bytes :: rest → decode s.cfg bytes = .ok i → step s = exec i { u with cur := a })
      ∧ (∀ i, s.script = .call a i :: rest → isInternal i = false → step s = exec i { u with cur := a })
      ∧ (∀ i, s.script = .begin a i :: rest → isInternal i = false → step s = begin i { u with cur := a })
      ∧ (∀ reqs blocking cb, s.script = .playPaths a reqs blocking cb :: rest →
        step s = seqPlayPaths reqs blocking cb { u with cur := a }))
    ∧ (∀ a bytes e, s.script = .frame a bytes :: rest → decode s.cfg bytes = .error e → step s = .refused (.notAFrame e))
    ∧ (∀ c, s.script = .tick c :: rest → s.topFlight (.tick c) = none →
      step s = exec (.pwmTick c) { u with cur := .tick c })
    ∧ (∀ a, s.script = .resume a :: rest → step s = resumeAgent a u)
    ∧ (∀ j, s.script = .sched j :: rest → step s = schedMove j u)
    ∧ (∀ us, s.script = .pass us :: rest →
      step s = .next (if s.cfg.timed then { u with now := s.now + (us : Rat) / 1000 } else u))
    ∧ (∀ a r, s.script = .request a r :: rest → step s = .refused (.notAnOperation r))
    ∧ (s.script = [] → step s = runMove (freeMove s.draws) { s with draws := s.draws + 1 })

/-- R61, R120, R133: a request that is no operation, and an internal step issued by a caller or by any agent, whether it
would run through or stop at its waits, are refused, so nothing happens. -/
def Obligations.NonOperationsRefused : Prop :=
  ∀ (s : State) (a : Agent),
    (∀ r, runMove (.request a r) s = .refused (.notAnOperation r))
    ∧ (∀ c, runMove (.call a (.pwmTick c)) s = .refused (.internalStep (.pwmTick c))
      ∧ runMove (.begin a (.pwmTick c)) s = .refused (.internalStep (.pwmTick c)))
    ∧ (∀ j, runMove (.call a (.seqIssue j)) s = .refused (.internalStep (.seqIssue j))
      ∧ runMove (.call a (.seqSleep j)) s = .refused (.internalStep (.seqSleep j))
      ∧ runMove (.call a (.seqWake j)) s = .refused (.internalStep (.seqWake j))
      ∧ runMove (.begin a (.seqIssue j)) s = .refused (.internalStep (.seqIssue j))
      ∧ runMove (.begin a (.seqSleep j)) s = .refused (.internalStep (.seqSleep j))
      ∧ runMove (.begin a (.seqWake j)) s = .refused (.internalStep (.seqWake j)))
    ∧ (∀ j o, runMove (.call a (.seqFinish j o)) s = .refused (.internalStep (.seqFinish j o))
      ∧ runMove (.begin a (.seqFinish j o)) s = .refused (.internalStep (.seqFinish j o)))
    ∧ (∀ c, s.cur ≠ .tick c → exec (.pwmTick c) s = .refused (.internalStep (.pwmTick c)))
    ∧ (∀ j J, s.job? j = some J → ¬ mine J s →
      exec (.seqIssue j) s = .refused (.internalStep (.seqIssue j))
      ∧ exec (.seqSleep j) s = .refused (.internalStep (.seqSleep j))
      ∧ exec (.seqWake j) s = .refused (.internalStep (.seqWake j))
      ∧ ∀ o, exec (.seqFinish j o) s = .refused (.internalStep (.seqFinish j o)))

/-- R27, R31, R33, R35: no step changes a configuration parameter, a channel's bounds or SQ.started, and every step only
appends to the trace. -/
def Obligations.ConfigFixedTraceGrows : Prop :=
  ∀ (s s' : State), step s = .next s' →
    s'.cfg = s.cfg ∧ s.trace <+: s'.trace ∧ s'.sq.started = s.sq.started
    ∧ s'.channels.map (fun ch => (ch.lo, ch.hi)) = s.channels.map fun ch => (ch.lo, ch.hi)

/-- R144: in a state in which a run has ended no agent goes on, SCHED has no step, and a firing of a timer appends
TICKFIRE and changes nothing else; with TIMED a firing that is not due waits, and one that is due arms the timer again
(log 17). That a firing that waits changes nothing is the model's form (log 12). The names of the refusals are the model's (log 22, log 23), and so is that SCHED does nothing where SQ.started is
false, which no run reaches (log 27). -/
def Obligations.EndedRunOnlyTicks : Prop :=
  ∀ (s : State), runEnded s → s.cfg.idleTicks < 0 →
    (∀ a, resumeAgent a s = .refused (.noSuchAgent a))
    ∧ (∀ j, (s.sq.started = true → ∃ k, schedMove j s = .refused (.noSuchStep (.seqIssue k)))
      ∧ (s.sq.started = false → schedMove j s = .next s))
    ∧ ∀ (c : Nat) (ch : Channel), s.channel? c = some ch →
      (s.cfg.timed = false →
        runMove (.tick c) s = .next { s with cur := .tick c, trace := s.trace ++ [.tickfire c] })
      ∧ (s.cfg.timed = true → s.now < ch.armedAt + (s.cfg.tickMs : Rat) →
        runMove (.tick c) s = .next { s with cur := .tick c })
      ∧ (s.cfg.timed = true → ch.armedAt + (s.cfg.tickMs : Rat) ≤ s.now →
        runMove (.tick c) s = .next
          { s with
            cur := .tick c,
            channels := withChannel c { ch with armedAt := s.now } s,
            trace := s.trace ++ [.tickfire c] })

/-- R103, R115, R154, D40: with TIMED, waiting takes at least its nominal length; without TIMED no time passes. An
operation that stops at its waits does not go on before its time, and that time is the clock at the wait's begin and the
wait's length: T_REQ and T_SETTLE in a read, T_LINE_RESET twice in LINE_RESET, T_CLIENT_RESET in BUS_RESET. The clock is
the model's form (log 17), and so is the flight that waits (log 11) and that a resumption before its time changes nothing
(log 12). -/
def Obligations.WaitsTakeTheirLength : Prop :=
  ∀ (s : State),
    (∀ ms : Rat, (s.cfg.timed = true → s.now + ms ≤ (s.elapse ms).now)
      ∧ (s.cfg.timed = false → s.elapse ms = s)
      ∧ { s.elapse ms with now := s.now, draws := s.draws } = s)
    ∧ (∀ i t f, begin i s = .next t → t.flights = f :: s.flights →
      (∀ x, f.phase = .readReq x → f.readyAt = t.now + s.cfg.tReq)
      ∧ (f.phase = .lineClosed → f.readyAt = t.now + (s.cfg.tLineReset : Rat)))
    ∧ ∀ (a : Agent) (f : Flight), s.topFlight a = some f →
      (s.cfg.timed = true → s.now < f.readyAt → resumeAgent a s = .next s)
      ∧ (s.reached f.readyAt = true →
        let left := s.flights.eraseP fun g => g.agent == a
        (∀ x, f.phase = .readReq x → ∃ t, resumeAgent a s = .next t
          ∧ t.flights = { agent := a, phase := .readSettle x, readyAt := t.now + s.cfg.tSettle } :: left)
        ∧ (∀ x, f.phase = .readSettle x → ∃ t, resumeAgent a s = .next t
          ∧ (t.flights = left
            ∨ ∃ y, t.flights = { agent := a, phase := .readReq y, readyAt := t.now + s.cfg.tReq } :: left))
        ∧ (f.phase = .lineClosed → ∃ t, resumeAgent a s = .next t
          ∧ t.flights = { agent := a, phase := .lineOpened, readyAt := t.now + (s.cfg.tLineReset : Rat) } :: left)
        ∧ ∀ id, f.phase = .resetWrote id → ∃ t, resumeAgent a s = .next t
          ∧ t.flights = { agent := a, phase := .resetWaited id, readyAt := t.now + (s.cfg.tClientReset : Rat) } :: left)
end

