-- ==== Sys2Proof/Laws/State.lean ====
section
/-! SUPPORT. One lemma per field of State and per update: what the named operations leave in every field. -/

namespace Sys2Proof
namespace Machine

variable (s : State)

/-! ### `s.emit e` -/

@[simp] theorem State.emit_cfg (e : Event) : (s.emit e).cfg = s.cfg := rfl
@[simp] theorem State.emit_line (e : Event) : (s.emit e).T = s.T := rfl
@[simp] theorem State.emit_channels (e : Event) : (s.emit e).channels = s.channels := rfl
@[simp] theorem State.emit_sq (e : Event) : (s.emit e).sq = s.sq := rfl
@[simp] theorem State.emit_handles (e : Event) : (s.emit e).handles = s.handles := rfl
@[simp] theorem State.emit_trace (e : Event) : (s.emit e).trace = s.trace ++ [e] := rfl
@[simp] theorem State.emit_flights (e : Event) : (s.emit e).flights = s.flights := rfl
@[simp] theorem State.emit_cur (e : Event) : (s.emit e).cur = s.cur := rfl
@[simp] theorem State.emit_now (e : Event) : (s.emit e).now = s.now := rfl
@[simp] theorem State.emit_script (e : Event) : (s.emit e).script = s.script := rfl
@[simp] theorem State.emit_busIn (e : Event) : (s.emit e).busIn = s.busIn := rfl
@[simp] theorem State.emit_storeIn (e : Event) : (s.emit e).storeIn = s.storeIn := rfl
@[simp] theorem State.emit_draws (e : Event) : (s.emit e).draws = s.draws := rfl

/-! ### `s.answer op v` -/

@[simp] theorem State.answer_cfg (op : HostOp) (v : Result) : (s.answer op v).cfg = s.cfg := rfl
@[simp] theorem State.answer_line (op : HostOp) (v : Result) : (s.answer op v).T = s.T := rfl
@[simp] theorem State.answer_channels (op : HostOp) (v : Result) : (s.answer op v).channels = s.channels := rfl
@[simp] theorem State.answer_sq (op : HostOp) (v : Result) : (s.answer op v).sq = s.sq := rfl
@[simp] theorem State.answer_handles (op : HostOp) (v : Result) : (s.answer op v).handles = s.handles := rfl
@[simp] theorem State.answer_trace (op : HostOp) (v : Result) : (s.answer op v).trace = s.trace ++ [.result s.cur op v] := rfl
@[simp] theorem State.answer_flights (op : HostOp) (v : Result) : (s.answer op v).flights = s.flights := rfl
@[simp] theorem State.answer_cur (op : HostOp) (v : Result) : (s.answer op v).cur = s.cur := rfl
@[simp] theorem State.answer_now (op : HostOp) (v : Result) : (s.answer op v).now = s.now := rfl
@[simp] theorem State.answer_script (op : HostOp) (v : Result) : (s.answer op v).script = s.script := rfl
@[simp] theorem State.answer_busIn (op : HostOp) (v : Result) : (s.answer op v).busIn = s.busIn := rfl
@[simp] theorem State.answer_storeIn (op : HostOp) (v : Result) : (s.answer op v).storeIn = s.storeIn := rfl
@[simp] theorem State.answer_draws (op : HostOp) (v : Result) : (s.answer op v).draws = s.draws := rfl

/-! ### `s.raise op e` -/

@[simp] theorem State.raise_cfg (op : HostOp) (e : Err) : (s.raise op e).cfg = s.cfg := rfl
@[simp] theorem State.raise_line (op : HostOp) (e : Err) : (s.raise op e).T = s.T := rfl
@[simp] theorem State.raise_channels (op : HostOp) (e : Err) : (s.raise op e).channels = s.channels := rfl
@[simp] theorem State.raise_sq (op : HostOp) (e : Err) : (s.raise op e).sq = s.sq := rfl
@[simp] theorem State.raise_handles (op : HostOp) (e : Err) : (s.raise op e).handles = s.handles := rfl
@[simp] theorem State.raise_trace (op : HostOp) (e : Err) : (s.raise op e).trace = s.trace ++ [.result s.cur op (.raised e)] := rfl
@[simp] theorem State.raise_flights (op : HostOp) (e : Err) : (s.raise op e).flights = s.flights := rfl
@[simp] theorem State.raise_cur (op : HostOp) (e : Err) : (s.raise op e).cur = s.cur := rfl
@[simp] theorem State.raise_now (op : HostOp) (e : Err) : (s.raise op e).now = s.now := rfl
@[simp] theorem State.raise_script (op : HostOp) (e : Err) : (s.raise op e).script = s.script := rfl
@[simp] theorem State.raise_busIn (op : HostOp) (e : Err) : (s.raise op e).busIn = s.busIn := rfl
@[simp] theorem State.raise_storeIn (op : HostOp) (e : Err) : (s.raise op e).storeIn = s.storeIn := rfl
@[simp] theorem State.raise_draws (op : HostOp) (e : Err) : (s.raise op e).draws = s.draws := rfl

/-! ### `s.wait k ms` -/

@[simp] theorem State.wait_cfg (k : WaitKind) (ms : Rat) : (s.wait k ms).cfg = s.cfg := rfl
@[simp] theorem State.wait_line (k : WaitKind) (ms : Rat) : (s.wait k ms).T = s.T := rfl
@[simp] theorem State.wait_channels (k : WaitKind) (ms : Rat) : (s.wait k ms).channels = s.channels := rfl
@[simp] theorem State.wait_sq (k : WaitKind) (ms : Rat) : (s.wait k ms).sq = s.sq := rfl
@[simp] theorem State.wait_handles (k : WaitKind) (ms : Rat) : (s.wait k ms).handles = s.handles := rfl
@[simp] theorem State.wait_trace (k : WaitKind) (ms : Rat) : (s.wait k ms).trace = s.trace ++ [.wait k ms] := rfl
@[simp] theorem State.wait_flights (k : WaitKind) (ms : Rat) : (s.wait k ms).flights = s.flights := rfl
@[simp] theorem State.wait_cur (k : WaitKind) (ms : Rat) : (s.wait k ms).cur = s.cur := rfl
@[simp] theorem State.wait_now (k : WaitKind) (ms : Rat) : (s.wait k ms).now = s.now := rfl
@[simp] theorem State.wait_script (k : WaitKind) (ms : Rat) : (s.wait k ms).script = s.script := rfl
@[simp] theorem State.wait_busIn (k : WaitKind) (ms : Rat) : (s.wait k ms).busIn = s.busIn := rfl
@[simp] theorem State.wait_storeIn (k : WaitKind) (ms : Rat) : (s.wait k ms).storeIn = s.storeIn := rfl
@[simp] theorem State.wait_draws (k : WaitKind) (ms : Rat) : (s.wait k ms).draws = s.draws := rfl

/-! ### `s.setDirection .tx` -/

@[simp] theorem State.setDirection_tx_cfg : (s.setDirection .tx).cfg = s.cfg := rfl
@[simp] theorem State.setDirection_tx_line : (s.setDirection .tx).T = { s.T with dir := .tx, txEn := .asserted, rxEn := .deasserted } := rfl
@[simp] theorem State.setDirection_tx_channels : (s.setDirection .tx).channels = s.channels := rfl
@[simp] theorem State.setDirection_tx_sq : (s.setDirection .tx).sq = s.sq := rfl
@[simp] theorem State.setDirection_tx_handles : (s.setDirection .tx).handles = s.handles := rfl
@[simp] theorem State.setDirection_tx_trace : (s.setDirection .tx).trace = s.trace ++ [.pin .rxEn .deasserted, .pin .txEn .asserted] := by simp [State.setDirection, State.pinWrite, State.emit]
@[simp] theorem State.setDirection_tx_flights : (s.setDirection .tx).flights = s.flights := rfl
@[simp] theorem State.setDirection_tx_cur : (s.setDirection .tx).cur = s.cur := rfl
@[simp] theorem State.setDirection_tx_now : (s.setDirection .tx).now = s.now := rfl
@[simp] theorem State.setDirection_tx_script : (s.setDirection .tx).script = s.script := rfl
@[simp] theorem State.setDirection_tx_busIn : (s.setDirection .tx).busIn = s.busIn := rfl
@[simp] theorem State.setDirection_tx_storeIn : (s.setDirection .tx).storeIn = s.storeIn := rfl
@[simp] theorem State.setDirection_tx_draws : (s.setDirection .tx).draws = s.draws := rfl

/-! ### `s.setDirection .rx` -/

@[simp] theorem State.setDirection_rx_cfg : (s.setDirection .rx).cfg = s.cfg := rfl
@[simp] theorem State.setDirection_rx_line : (s.setDirection .rx).T = { s.T with dir := .rx, txEn := .deasserted, rxEn := .asserted } := rfl
@[simp] theorem State.setDirection_rx_channels : (s.setDirection .rx).channels = s.channels := rfl
@[simp] theorem State.setDirection_rx_sq : (s.setDirection .rx).sq = s.sq := rfl
@[simp] theorem State.setDirection_rx_handles : (s.setDirection .rx).handles = s.handles := rfl
@[simp] theorem State.setDirection_rx_trace : (s.setDirection .rx).trace = s.trace ++ [.pin .txEn .deasserted, .pin .rxEn .asserted] := by simp [State.setDirection, State.pinWrite, State.emit]
@[simp] theorem State.setDirection_rx_flights : (s.setDirection .rx).flights = s.flights := rfl
@[simp] theorem State.setDirection_rx_cur : (s.setDirection .rx).cur = s.cur := rfl
@[simp] theorem State.setDirection_rx_now : (s.setDirection .rx).now = s.now := rfl
@[simp] theorem State.setDirection_rx_script : (s.setDirection .rx).script = s.script := rfl
@[simp] theorem State.setDirection_rx_busIn : (s.setDirection .rx).busIn = s.busIn := rfl
@[simp] theorem State.setDirection_rx_storeIn : (s.setDirection .rx).storeIn = s.storeIn := rfl
@[simp] theorem State.setDirection_rx_draws : (s.setDirection .rx).draws = s.draws := rfl

/-! ### `s.rxFlush` -/

@[simp] theorem State.rxFlush_cfg : (s.rxFlush).cfg = s.cfg := rfl
@[simp] theorem State.rxFlush_line : (s.rxFlush).T = { s.T with rx := [] } := rfl
@[simp] theorem State.rxFlush_channels : (s.rxFlush).channels = s.channels := rfl
@[simp] theorem State.rxFlush_sq : (s.rxFlush).sq = s.sq := rfl
@[simp] theorem State.rxFlush_handles : (s.rxFlush).handles = s.handles := rfl
@[simp] theorem State.rxFlush_trace : (s.rxFlush).trace = s.trace ++ [.rxflush s.T.rx] := rfl
@[simp] theorem State.rxFlush_flights : (s.rxFlush).flights = s.flights := rfl
@[simp] theorem State.rxFlush_cur : (s.rxFlush).cur = s.cur := rfl
@[simp] theorem State.rxFlush_now : (s.rxFlush).now = s.now := rfl
@[simp] theorem State.rxFlush_script : (s.rxFlush).script = s.script := rfl
@[simp] theorem State.rxFlush_busIn : (s.rxFlush).busIn = s.busIn := rfl
@[simp] theorem State.rxFlush_storeIn : (s.rxFlush).storeIn = s.storeIn := rfl
@[simp] theorem State.rxFlush_draws : (s.rxFlush).draws = s.draws := rfl

/-! ### `s.uartClose` -/

@[simp] theorem State.uartClose_cfg : (s.uartClose).cfg = s.cfg := rfl
@[simp] theorem State.uartClose_line : (s.uartClose).T = { s.T with isOpen := false, rx := [] } := rfl
@[simp] theorem State.uartClose_channels : (s.uartClose).channels = s.channels := rfl
@[simp] theorem State.uartClose_sq : (s.uartClose).sq = s.sq := rfl
@[simp] theorem State.uartClose_handles : (s.uartClose).handles = s.handles := rfl
@[simp] theorem State.uartClose_trace : (s.uartClose).trace = s.trace ++ [.uclose] := rfl
@[simp] theorem State.uartClose_flights : (s.uartClose).flights = s.flights := rfl
@[simp] theorem State.uartClose_cur : (s.uartClose).cur = s.cur := rfl
@[simp] theorem State.uartClose_now : (s.uartClose).now = s.now := rfl
@[simp] theorem State.uartClose_script : (s.uartClose).script = s.script := rfl
@[simp] theorem State.uartClose_busIn : (s.uartClose).busIn = s.busIn := rfl
@[simp] theorem State.uartClose_storeIn : (s.uartClose).storeIn = s.storeIn := rfl
@[simp] theorem State.uartClose_draws : (s.uartClose).draws = s.draws := rfl

/-! ### `s.uartOpen` -/

@[simp] theorem State.uartOpen_cfg : (s.uartOpen).cfg = s.cfg := rfl
@[simp] theorem State.uartOpen_line : (s.uartOpen).T = { s.T with isOpen := true } := rfl
@[simp] theorem State.uartOpen_channels : (s.uartOpen).channels = s.channels := rfl
@[simp] theorem State.uartOpen_sq : (s.uartOpen).sq = s.sq := rfl
@[simp] theorem State.uartOpen_handles : (s.uartOpen).handles = s.handles := rfl
@[simp] theorem State.uartOpen_trace : (s.uartOpen).trace = s.trace ++ [.uopen] := rfl
@[simp] theorem State.uartOpen_flights : (s.uartOpen).flights = s.flights := rfl
@[simp] theorem State.uartOpen_cur : (s.uartOpen).cur = s.cur := rfl
@[simp] theorem State.uartOpen_now : (s.uartOpen).now = s.now := rfl
@[simp] theorem State.uartOpen_script : (s.uartOpen).script = s.script := rfl
@[simp] theorem State.uartOpen_busIn : (s.uartOpen).busIn = s.busIn := rfl
@[simp] theorem State.uartOpen_storeIn : (s.uartOpen).storeIn = s.storeIn := rfl
@[simp] theorem State.uartOpen_draws : (s.uartOpen).draws = s.draws := rfl

/-! ### `s.acquireTL` -/

@[simp] theorem State.acquireTL_cfg : (s.acquireTL).cfg = s.cfg := rfl
@[simp] theorem State.acquireTL_line : (s.acquireTL).T = { s.T with tl := .held s.cur } := rfl
@[simp] theorem State.acquireTL_channels : (s.acquireTL).channels = s.channels := rfl
@[simp] theorem State.acquireTL_sq : (s.acquireTL).sq = s.sq := rfl
@[simp] theorem State.acquireTL_handles : (s.acquireTL).handles = s.handles := rfl
@[simp] theorem State.acquireTL_trace : (s.acquireTL).trace = s.trace := rfl
@[simp] theorem State.acquireTL_flights : (s.acquireTL).flights = s.flights := rfl
@[simp] theorem State.acquireTL_cur : (s.acquireTL).cur = s.cur := rfl
@[simp] theorem State.acquireTL_now : (s.acquireTL).now = s.now := rfl
@[simp] theorem State.acquireTL_script : (s.acquireTL).script = s.script := rfl
@[simp] theorem State.acquireTL_busIn : (s.acquireTL).busIn = s.busIn := rfl
@[simp] theorem State.acquireTL_storeIn : (s.acquireTL).storeIn = s.storeIn := rfl
@[simp] theorem State.acquireTL_draws : (s.acquireTL).draws = s.draws := rfl

/-! ### `s.releaseTL` -/

@[simp] theorem State.releaseTL_cfg : (s.releaseTL).cfg = s.cfg := rfl
@[simp] theorem State.releaseTL_line : (s.releaseTL).T = { s.T with tl := .free } := rfl
@[simp] theorem State.releaseTL_channels : (s.releaseTL).channels = s.channels := rfl
@[simp] theorem State.releaseTL_sq : (s.releaseTL).sq = s.sq := rfl
@[simp] theorem State.releaseTL_handles : (s.releaseTL).handles = s.handles := rfl
@[simp] theorem State.releaseTL_trace : (s.releaseTL).trace = s.trace := rfl
@[simp] theorem State.releaseTL_flights : (s.releaseTL).flights = s.flights := rfl
@[simp] theorem State.releaseTL_cur : (s.releaseTL).cur = s.cur := rfl
@[simp] theorem State.releaseTL_now : (s.releaseTL).now = s.now := rfl
@[simp] theorem State.releaseTL_script : (s.releaseTL).script = s.script := rfl
@[simp] theorem State.releaseTL_busIn : (s.releaseTL).busIn = s.busIn := rfl
@[simp] theorem State.releaseTL_storeIn : (s.releaseTL).storeIn = s.storeIn := rfl
@[simp] theorem State.releaseTL_draws : (s.releaseTL).draws = s.draws := rfl

/-! ### `s.modifyChannel c f` -/

@[simp] theorem State.modifyChannel_cfg (c : Int) (f : Channel → Channel) : (s.modifyChannel c f).cfg = s.cfg := rfl
@[simp] theorem State.modifyChannel_line (c : Int) (f : Channel → Channel) : (s.modifyChannel c f).T = s.T := rfl
@[simp] theorem State.modifyChannel_channels (c : Int) (f : Channel → Channel) : (s.modifyChannel c f).channels = s.channels.modify (c.toNat - 1) f := rfl
@[simp] theorem State.modifyChannel_sq (c : Int) (f : Channel → Channel) : (s.modifyChannel c f).sq = s.sq := rfl
@[simp] theorem State.modifyChannel_handles (c : Int) (f : Channel → Channel) : (s.modifyChannel c f).handles = s.handles := rfl
@[simp] theorem State.modifyChannel_trace (c : Int) (f : Channel → Channel) : (s.modifyChannel c f).trace = s.trace := rfl
@[simp] theorem State.modifyChannel_flights (c : Int) (f : Channel → Channel) : (s.modifyChannel c f).flights = s.flights := rfl
@[simp] theorem State.modifyChannel_cur (c : Int) (f : Channel → Channel) : (s.modifyChannel c f).cur = s.cur := rfl
@[simp] theorem State.modifyChannel_now (c : Int) (f : Channel → Channel) : (s.modifyChannel c f).now = s.now := rfl
@[simp] theorem State.modifyChannel_script (c : Int) (f : Channel → Channel) : (s.modifyChannel c f).script = s.script := rfl
@[simp] theorem State.modifyChannel_busIn (c : Int) (f : Channel → Channel) : (s.modifyChannel c f).busIn = s.busIn := rfl
@[simp] theorem State.modifyChannel_storeIn (c : Int) (f : Channel → Channel) : (s.modifyChannel c f).storeIn = s.storeIn := rfl
@[simp] theorem State.modifyChannel_draws (c : Int) (f : Channel → Channel) : (s.modifyChannel c f).draws = s.draws := rfl

/-! ### `s.acquireCL c` -/

@[simp] theorem State.acquireCL_cfg (c : Int) : (s.acquireCL c).cfg = s.cfg := rfl
@[simp] theorem State.acquireCL_line (c : Int) : (s.acquireCL c).T = s.T := rfl
@[simp] theorem State.acquireCL_channels (c : Int) : (s.acquireCL c).channels = s.channels.modify (c.toNat - 1) fun ch => { ch with mutex := .held s.cur } := rfl
@[simp] theorem State.acquireCL_sq (c : Int) : (s.acquireCL c).sq = s.sq := rfl
@[simp] theorem State.acquireCL_handles (c : Int) : (s.acquireCL c).handles = s.handles := rfl
@[simp] theorem State.acquireCL_trace (c : Int) : (s.acquireCL c).trace = s.trace := rfl
@[simp] theorem State.acquireCL_flights (c : Int) : (s.acquireCL c).flights = s.flights := rfl
@[simp] theorem State.acquireCL_cur (c : Int) : (s.acquireCL c).cur = s.cur := rfl
@[simp] theorem State.acquireCL_now (c : Int) : (s.acquireCL c).now = s.now := rfl
@[simp] theorem State.acquireCL_script (c : Int) : (s.acquireCL c).script = s.script := rfl
@[simp] theorem State.acquireCL_busIn (c : Int) : (s.acquireCL c).busIn = s.busIn := rfl
@[simp] theorem State.acquireCL_storeIn (c : Int) : (s.acquireCL c).storeIn = s.storeIn := rfl
@[simp] theorem State.acquireCL_draws (c : Int) : (s.acquireCL c).draws = s.draws := rfl

/-! ### `s.releaseCL c` -/

@[simp] theorem State.releaseCL_cfg (c : Int) : (s.releaseCL c).cfg = s.cfg := rfl
@[simp] theorem State.releaseCL_line (c : Int) : (s.releaseCL c).T = s.T := rfl
@[simp] theorem State.releaseCL_channels (c : Int) : (s.releaseCL c).channels = s.channels.modify (c.toNat - 1) fun ch => { ch with mutex := .free } := rfl
@[simp] theorem State.releaseCL_sq (c : Int) : (s.releaseCL c).sq = s.sq := rfl
@[simp] theorem State.releaseCL_handles (c : Int) : (s.releaseCL c).handles = s.handles := rfl
@[simp] theorem State.releaseCL_trace (c : Int) : (s.releaseCL c).trace = s.trace := rfl
@[simp] theorem State.releaseCL_flights (c : Int) : (s.releaseCL c).flights = s.flights := rfl
@[simp] theorem State.releaseCL_cur (c : Int) : (s.releaseCL c).cur = s.cur := rfl
@[simp] theorem State.releaseCL_now (c : Int) : (s.releaseCL c).now = s.now := rfl
@[simp] theorem State.releaseCL_script (c : Int) : (s.releaseCL c).script = s.script := rfl
@[simp] theorem State.releaseCL_busIn (c : Int) : (s.releaseCL c).busIn = s.busIn := rfl
@[simp] theorem State.releaseCL_storeIn (c : Int) : (s.releaseCL c).storeIn = s.storeIn := rfl
@[simp] theorem State.releaseCL_draws (c : Int) : (s.releaseCL c).draws = s.draws := rfl

/-! ### `s.pwmWrite c w` -/

@[simp] theorem State.pwmWrite_cfg (c : Int) (w : Rat) : (s.pwmWrite c w).cfg = s.cfg := rfl
@[simp] theorem State.pwmWrite_line (c : Int) (w : Rat) : (s.pwmWrite c w).T = s.T := rfl
@[simp] theorem State.pwmWrite_channels (c : Int) (w : Rat) : (s.pwmWrite c w).channels = s.channels := rfl
@[simp] theorem State.pwmWrite_sq (c : Int) (w : Rat) : (s.pwmWrite c w).sq = s.sq := rfl
@[simp] theorem State.pwmWrite_handles (c : Int) (w : Rat) : (s.pwmWrite c w).handles = s.handles := rfl
@[simp] theorem State.pwmWrite_trace (c : Int) (w : Rat) : (s.pwmWrite c w).trace = s.trace ++ [.pwm c.toNat w] := rfl
@[simp] theorem State.pwmWrite_flights (c : Int) (w : Rat) : (s.pwmWrite c w).flights = s.flights := rfl
@[simp] theorem State.pwmWrite_cur (c : Int) (w : Rat) : (s.pwmWrite c w).cur = s.cur := rfl
@[simp] theorem State.pwmWrite_now (c : Int) (w : Rat) : (s.pwmWrite c w).now = s.now := rfl
@[simp] theorem State.pwmWrite_script (c : Int) (w : Rat) : (s.pwmWrite c w).script = s.script := rfl
@[simp] theorem State.pwmWrite_busIn (c : Int) (w : Rat) : (s.pwmWrite c w).busIn = s.busIn := rfl
@[simp] theorem State.pwmWrite_storeIn (c : Int) (w : Rat) : (s.pwmWrite c w).storeIn = s.storeIn := rfl
@[simp] theorem State.pwmWrite_draws (c : Int) (w : Rat) : (s.pwmWrite c w).draws = s.draws := rfl

/-! ### `s.pushFlight ph r` -/

@[simp] theorem State.pushFlight_cfg (ph : FlightPhase) (r : Rat) : (s.pushFlight ph r).cfg = s.cfg := rfl
@[simp] theorem State.pushFlight_line (ph : FlightPhase) (r : Rat) : (s.pushFlight ph r).T = s.T := rfl
@[simp] theorem State.pushFlight_channels (ph : FlightPhase) (r : Rat) : (s.pushFlight ph r).channels = s.channels := rfl
@[simp] theorem State.pushFlight_sq (ph : FlightPhase) (r : Rat) : (s.pushFlight ph r).sq = s.sq := rfl
@[simp] theorem State.pushFlight_handles (ph : FlightPhase) (r : Rat) : (s.pushFlight ph r).handles = s.handles := rfl
@[simp] theorem State.pushFlight_trace (ph : FlightPhase) (r : Rat) : (s.pushFlight ph r).trace = s.trace := rfl
@[simp] theorem State.pushFlight_flights (ph : FlightPhase) (r : Rat) : (s.pushFlight ph r).flights = { agent := s.cur, phase := ph, readyAt := r } :: s.flights := rfl
@[simp] theorem State.pushFlight_cur (ph : FlightPhase) (r : Rat) : (s.pushFlight ph r).cur = s.cur := rfl
@[simp] theorem State.pushFlight_now (ph : FlightPhase) (r : Rat) : (s.pushFlight ph r).now = s.now := rfl
@[simp] theorem State.pushFlight_script (ph : FlightPhase) (r : Rat) : (s.pushFlight ph r).script = s.script := rfl
@[simp] theorem State.pushFlight_busIn (ph : FlightPhase) (r : Rat) : (s.pushFlight ph r).busIn = s.busIn := rfl
@[simp] theorem State.pushFlight_storeIn (ph : FlightPhase) (r : Rat) : (s.pushFlight ph r).storeIn = s.storeIn := rfl
@[simp] theorem State.pushFlight_draws (ph : FlightPhase) (r : Rat) : (s.pushFlight ph r).draws = s.draws := rfl

/-! ### `s.popFlight a` -/

@[simp] theorem State.popFlight_cfg (a : Agent) : (s.popFlight a).cfg = s.cfg := rfl
@[simp] theorem State.popFlight_line (a : Agent) : (s.popFlight a).T = s.T := rfl
@[simp] theorem State.popFlight_channels (a : Agent) : (s.popFlight a).channels = s.channels := rfl
@[simp] theorem State.popFlight_sq (a : Agent) : (s.popFlight a).sq = s.sq := rfl
@[simp] theorem State.popFlight_handles (a : Agent) : (s.popFlight a).handles = s.handles := rfl
@[simp] theorem State.popFlight_trace (a : Agent) : (s.popFlight a).trace = s.trace := rfl
@[simp] theorem State.popFlight_flights (a : Agent) : (s.popFlight a).flights = s.flights.eraseP fun f => f.agent == a := rfl
@[simp] theorem State.popFlight_cur (a : Agent) : (s.popFlight a).cur = s.cur := rfl
@[simp] theorem State.popFlight_now (a : Agent) : (s.popFlight a).now = s.now := rfl
@[simp] theorem State.popFlight_script (a : Agent) : (s.popFlight a).script = s.script := rfl
@[simp] theorem State.popFlight_busIn (a : Agent) : (s.popFlight a).busIn = s.busIn := rfl
@[simp] theorem State.popFlight_storeIn (a : Agent) : (s.popFlight a).storeIn = s.storeIn := rfl
@[simp] theorem State.popFlight_draws (a : Agent) : (s.popFlight a).draws = s.draws := rfl

/-! ### `s.block i` -/

@[simp] theorem State.block_cfg (i : Instr) : (s.block i).cfg = s.cfg := rfl
@[simp] theorem State.block_line (i : Instr) : (s.block i).T = s.T := rfl
@[simp] theorem State.block_channels (i : Instr) : (s.block i).channels = s.channels := rfl
@[simp] theorem State.block_sq (i : Instr) : (s.block i).sq = s.sq := rfl
@[simp] theorem State.block_handles (i : Instr) : (s.block i).handles = s.handles := rfl
@[simp] theorem State.block_trace (i : Instr) : (s.block i).trace = s.trace := rfl
@[simp] theorem State.block_flights (i : Instr) : (s.block i).flights = { agent := s.cur, phase := .waiting i, readyAt := s.now } :: s.flights := rfl
@[simp] theorem State.block_cur (i : Instr) : (s.block i).cur = s.cur := rfl
@[simp] theorem State.block_now (i : Instr) : (s.block i).now = s.now := rfl
@[simp] theorem State.block_script (i : Instr) : (s.block i).script = s.script := rfl
@[simp] theorem State.block_busIn (i : Instr) : (s.block i).busIn = s.busIn := rfl
@[simp] theorem State.block_storeIn (i : Instr) : (s.block i).storeIn = s.storeIn := rfl
@[simp] theorem State.block_draws (i : Instr) : (s.block i).draws = s.draws := rfl

/-! ### `s.setJob J` -/

@[simp] theorem State.setJob_cfg (J : Job) : (s.setJob J).cfg = s.cfg := rfl
@[simp] theorem State.setJob_line (J : Job) : (s.setJob J).T = s.T := rfl
@[simp] theorem State.setJob_channels (J : Job) : (s.setJob J).channels = s.channels := rfl
@[simp] theorem State.setJob_sq (J : Job) : (s.setJob J).sq = { s.sq with jobs := s.sq.jobs.map fun K => if K.id = J.id then J else K } := rfl
@[simp] theorem State.setJob_handles (J : Job) : (s.setJob J).handles = s.handles := rfl
@[simp] theorem State.setJob_trace (J : Job) : (s.setJob J).trace = s.trace := rfl
@[simp] theorem State.setJob_flights (J : Job) : (s.setJob J).flights = s.flights := rfl
@[simp] theorem State.setJob_cur (J : Job) : (s.setJob J).cur = s.cur := rfl
@[simp] theorem State.setJob_now (J : Job) : (s.setJob J).now = s.now := rfl
@[simp] theorem State.setJob_script (J : Job) : (s.setJob J).script = s.script := rfl
@[simp] theorem State.setJob_busIn (J : Job) : (s.setJob J).busIn = s.busIn := rfl
@[simp] theorem State.setJob_storeIn (J : Job) : (s.setJob J).storeIn = s.storeIn := rfl
@[simp] theorem State.setJob_draws (J : Job) : (s.setJob J).draws = s.draws := rfl

/-! ### `s.removeJob j` -/

@[simp] theorem State.removeJob_cfg (j : Nat) : (s.removeJob j).cfg = s.cfg := rfl
@[simp] theorem State.removeJob_line (j : Nat) : (s.removeJob j).T = s.T := rfl
@[simp] theorem State.removeJob_channels (j : Nat) : (s.removeJob j).channels = s.channels := rfl
@[simp] theorem State.removeJob_sq (j : Nat) : (s.removeJob j).sq = { s.sq with jobs := s.sq.jobs.filter fun K => K.id ≠ j } := rfl
@[simp] theorem State.removeJob_handles (j : Nat) : (s.removeJob j).handles = s.handles := rfl
@[simp] theorem State.removeJob_trace (j : Nat) : (s.removeJob j).trace = s.trace := rfl
@[simp] theorem State.removeJob_flights (j : Nat) : (s.removeJob j).flights = s.flights := rfl
@[simp] theorem State.removeJob_cur (j : Nat) : (s.removeJob j).cur = s.cur := rfl
@[simp] theorem State.removeJob_now (j : Nat) : (s.removeJob j).now = s.now := rfl
@[simp] theorem State.removeJob_script (j : Nat) : (s.removeJob j).script = s.script := rfl
@[simp] theorem State.removeJob_busIn (j : Nat) : (s.removeJob j).busIn = s.busIn := rfl
@[simp] theorem State.removeJob_storeIn (j : Nat) : (s.removeJob j).storeIn = s.storeIn := rfl
@[simp] theorem State.removeJob_draws (j : Nat) : (s.removeJob j).draws = s.draws := rfl

/-! ### `s.addJob sets ctx cb` -/

@[simp] theorem State.addJob_cfg (sets : List ActionSet) (ctx : Ctx) (cb : Option Nat) : (s.addJob sets ctx cb).cfg = s.cfg := rfl
@[simp] theorem State.addJob_line (sets : List ActionSet) (ctx : Ctx) (cb : Option Nat) : (s.addJob sets ctx cb).T = s.T := rfl
@[simp] theorem State.addJob_channels (sets : List ActionSet) (ctx : Ctx) (cb : Option Nat) : (s.addJob sets ctx cb).channels = s.channels := rfl
@[simp] theorem State.addJob_sq (sets : List ActionSet) (ctx : Ctx) (cb : Option Nat) : (s.addJob sets ctx cb).sq = { s.sq with jobs := s.sq.jobs ++ [{ id := s.sq.nextId, sets := sets, k := 0, phase := .issue 0, ctx := ctx, cb := cb, sleptAt := s.now, split := none }], nextId := s.sq.nextId + 1 } := rfl
@[simp] theorem State.addJob_handles (sets : List ActionSet) (ctx : Ctx) (cb : Option Nat) : (s.addJob sets ctx cb).handles = s.handles := rfl
@[simp] theorem State.addJob_trace (sets : List ActionSet) (ctx : Ctx) (cb : Option Nat) : (s.addJob sets ctx cb).trace = s.trace := rfl
@[simp] theorem State.addJob_flights (sets : List ActionSet) (ctx : Ctx) (cb : Option Nat) : (s.addJob sets ctx cb).flights = s.flights := rfl
@[simp] theorem State.addJob_cur (sets : List ActionSet) (ctx : Ctx) (cb : Option Nat) : (s.addJob sets ctx cb).cur = s.cur := rfl
@[simp] theorem State.addJob_now (sets : List ActionSet) (ctx : Ctx) (cb : Option Nat) : (s.addJob sets ctx cb).now = s.now := rfl
@[simp] theorem State.addJob_script (sets : List ActionSet) (ctx : Ctx) (cb : Option Nat) : (s.addJob sets ctx cb).script = s.script := rfl
@[simp] theorem State.addJob_busIn (sets : List ActionSet) (ctx : Ctx) (cb : Option Nat) : (s.addJob sets ctx cb).busIn = s.busIn := rfl
@[simp] theorem State.addJob_storeIn (sets : List ActionSet) (ctx : Ctx) (cb : Option Nat) : (s.addJob sets ctx cb).storeIn = s.storeIn := rfl
@[simp] theorem State.addJob_draws (sets : List ActionSet) (ctx : Ctx) (cb : Option Nat) : (s.addJob sets ctx cb).draws = s.draws := rfl

/-! ### `s.setRunning r` -/

@[simp] theorem State.setRunning_cfg (r : Option Nat) : (s.setRunning r).cfg = s.cfg := rfl
@[simp] theorem State.setRunning_line (r : Option Nat) : (s.setRunning r).T = s.T := rfl
@[simp] theorem State.setRunning_channels (r : Option Nat) : (s.setRunning r).channels = s.channels := rfl
@[simp] theorem State.setRunning_sq (r : Option Nat) : (s.setRunning r).sq = { s.sq with running := r } := rfl
@[simp] theorem State.setRunning_handles (r : Option Nat) : (s.setRunning r).handles = s.handles := rfl
@[simp] theorem State.setRunning_trace (r : Option Nat) : (s.setRunning r).trace = s.trace := rfl
@[simp] theorem State.setRunning_flights (r : Option Nat) : (s.setRunning r).flights = s.flights := rfl
@[simp] theorem State.setRunning_cur (r : Option Nat) : (s.setRunning r).cur = s.cur := rfl
@[simp] theorem State.setRunning_now (r : Option Nat) : (s.setRunning r).now = s.now := rfl
@[simp] theorem State.setRunning_script (r : Option Nat) : (s.setRunning r).script = s.script := rfl
@[simp] theorem State.setRunning_busIn (r : Option Nat) : (s.setRunning r).busIn = s.busIn := rfl
@[simp] theorem State.setRunning_storeIn (r : Option Nat) : (s.setRunning r).storeIn = s.storeIn := rfl
@[simp] theorem State.setRunning_draws (r : Option Nat) : (s.setRunning r).draws = s.draws := rfl

/-! ### `s.addHandle j` -/

@[simp] theorem State.addHandle_cfg (j : Nat) : (s.addHandle j).cfg = s.cfg := rfl
@[simp] theorem State.addHandle_line (j : Nat) : (s.addHandle j).T = s.T := rfl
@[simp] theorem State.addHandle_channels (j : Nat) : (s.addHandle j).channels = s.channels := rfl
@[simp] theorem State.addHandle_sq (j : Nat) : (s.addHandle j).sq = s.sq := rfl
@[simp] theorem State.addHandle_handles (j : Nat) : (s.addHandle j).handles = s.handles ++ [(j, .pending)] := rfl
@[simp] theorem State.addHandle_trace (j : Nat) : (s.addHandle j).trace = s.trace := rfl
@[simp] theorem State.addHandle_flights (j : Nat) : (s.addHandle j).flights = s.flights := rfl
@[simp] theorem State.addHandle_cur (j : Nat) : (s.addHandle j).cur = s.cur := rfl
@[simp] theorem State.addHandle_now (j : Nat) : (s.addHandle j).now = s.now := rfl
@[simp] theorem State.addHandle_script (j : Nat) : (s.addHandle j).script = s.script := rfl
@[simp] theorem State.addHandle_busIn (j : Nat) : (s.addHandle j).busIn = s.busIn := rfl
@[simp] theorem State.addHandle_storeIn (j : Nat) : (s.addHandle j).storeIn = s.storeIn := rfl
@[simp] theorem State.addHandle_draws (j : Nat) : (s.addHandle j).draws = s.draws := rfl

/-! ### `s.resolveHandle j o` -/

@[simp] theorem State.resolveHandle_cfg (j : Nat) (o : JobOutcome) : (s.resolveHandle j o).cfg = s.cfg := rfl
@[simp] theorem State.resolveHandle_line (j : Nat) (o : JobOutcome) : (s.resolveHandle j o).T = s.T := rfl
@[simp] theorem State.resolveHandle_channels (j : Nat) (o : JobOutcome) : (s.resolveHandle j o).channels = s.channels := rfl
@[simp] theorem State.resolveHandle_sq (j : Nat) (o : JobOutcome) : (s.resolveHandle j o).sq = s.sq := rfl
@[simp] theorem State.resolveHandle_handles (j : Nat) (o : JobOutcome) : (s.resolveHandle j o).handles = s.handles.map fun h => if h.1 = j ∧ h.2 = .pending then (j, .resolved o) else h := rfl
@[simp] theorem State.resolveHandle_trace (j : Nat) (o : JobOutcome) : (s.resolveHandle j o).trace = s.trace := rfl
@[simp] theorem State.resolveHandle_flights (j : Nat) (o : JobOutcome) : (s.resolveHandle j o).flights = s.flights := rfl
@[simp] theorem State.resolveHandle_cur (j : Nat) (o : JobOutcome) : (s.resolveHandle j o).cur = s.cur := rfl
@[simp] theorem State.resolveHandle_now (j : Nat) (o : JobOutcome) : (s.resolveHandle j o).now = s.now := rfl
@[simp] theorem State.resolveHandle_script (j : Nat) (o : JobOutcome) : (s.resolveHandle j o).script = s.script := rfl
@[simp] theorem State.resolveHandle_busIn (j : Nat) (o : JobOutcome) : (s.resolveHandle j o).busIn = s.busIn := rfl
@[simp] theorem State.resolveHandle_storeIn (j : Nat) (o : JobOutcome) : (s.resolveHandle j o).storeIn = s.storeIn := rfl
@[simp] theorem State.resolveHandle_draws (j : Nat) (o : JobOutcome) : (s.resolveHandle j o).draws = s.draws := rfl

/-! ### `s.elapse ms` and `s.uartWrite f`: only the clock and the draw counter move, and only with TIMED -/

@[simp] theorem State.elapse_cfg (ms : Rat) : (s.elapse ms).cfg = s.cfg := by unfold State.elapse; split <;> rfl
@[simp] theorem State.elapse_line (ms : Rat) : (s.elapse ms).T = s.T := by unfold State.elapse; split <;> rfl
@[simp] theorem State.elapse_channels (ms : Rat) : (s.elapse ms).channels = s.channels := by unfold State.elapse; split <;> rfl
@[simp] theorem State.elapse_sq (ms : Rat) : (s.elapse ms).sq = s.sq := by unfold State.elapse; split <;> rfl
@[simp] theorem State.elapse_handles (ms : Rat) : (s.elapse ms).handles = s.handles := by unfold State.elapse; split <;> rfl
@[simp] theorem State.elapse_trace (ms : Rat) : (s.elapse ms).trace = s.trace := by unfold State.elapse; split <;> rfl
@[simp] theorem State.elapse_flights (ms : Rat) : (s.elapse ms).flights = s.flights := by unfold State.elapse; split <;> rfl
@[simp] theorem State.elapse_cur (ms : Rat) : (s.elapse ms).cur = s.cur := by unfold State.elapse; split <;> rfl
@[simp] theorem State.elapse_script (ms : Rat) : (s.elapse ms).script = s.script := by unfold State.elapse; split <;> rfl
@[simp] theorem State.elapse_busIn (ms : Rat) : (s.elapse ms).busIn = s.busIn := by unfold State.elapse; split <;> rfl
@[simp] theorem State.elapse_storeIn (ms : Rat) : (s.elapse ms).storeIn = s.storeIn := by unfold State.elapse; split <;> rfl

/-- Without TIMED no time passes. -/
theorem State.elapse_untimed (ms : Rat) (h : s.cfg.timed = false) : s.elapse ms = s := by simp [State.elapse, h]

@[simp] theorem State.uartWrite_cfg (f : Frame) : (s.uartWrite f).cfg = s.cfg := by simp [State.uartWrite]
@[simp] theorem State.uartWrite_line (f : Frame) : (s.uartWrite f).T = s.T := by simp [State.uartWrite]
@[simp] theorem State.uartWrite_channels (f : Frame) : (s.uartWrite f).channels = s.channels := by simp [State.uartWrite]
@[simp] theorem State.uartWrite_sq (f : Frame) : (s.uartWrite f).sq = s.sq := by simp [State.uartWrite]
@[simp] theorem State.uartWrite_handles (f : Frame) : (s.uartWrite f).handles = s.handles := by simp [State.uartWrite]
@[simp] theorem State.uartWrite_trace (f : Frame) : (s.uartWrite f).trace = s.trace ++ [.tx f] := by simp [State.uartWrite]
@[simp] theorem State.uartWrite_flights (f : Frame) : (s.uartWrite f).flights = s.flights := by simp [State.uartWrite]
@[simp] theorem State.uartWrite_cur (f : Frame) : (s.uartWrite f).cur = s.cur := by simp [State.uartWrite]
@[simp] theorem State.uartWrite_script (f : Frame) : (s.uartWrite f).script = s.script := by simp [State.uartWrite]
@[simp] theorem State.uartWrite_busIn (f : Frame) : (s.uartWrite f).busIn = s.busIn := by simp [State.uartWrite]
@[simp] theorem State.uartWrite_storeIn (f : Frame) : (s.uartWrite f).storeIn = s.storeIn := by simp [State.uartWrite]

/-! ### Elapsing commutes with the updates that follow it -/

theorem State.elapse_emit (ms : Rat) (e : Event) : (s.elapse ms).emit e = (s.emit e).elapse ms := by
  by_cases h : s.cfg.timed <;> simp [State.elapse, State.emit, h]

theorem State.elapse_answer (ms : Rat) (op : HostOp) (v : Result) :
    (s.elapse ms).answer op v = (s.answer op v).elapse ms := by
  by_cases h : s.cfg.timed <;> simp [State.elapse, State.answer, State.emit, h]

theorem State.elapse_releaseTL (ms : Rat) : (s.elapse ms).releaseTL = s.releaseTL.elapse ms := by
  by_cases h : s.cfg.timed <;> simp [State.elapse, State.releaseTL, h]

end Machine
end Sys2Proof
end

