-- ==== Sys2Proof/Laws/Channels.lean ====
section
/-! SUPPORT. PWM channels (R98 to R108): reading and changing one, and the two forms of PWM_SET_POSITION as single updates. -/

namespace Sys2Proof
namespace Machine

/-- The channel with a number is an element of the list (R98). -/
theorem channel?_some {s : State} {c : Int} {ch : Channel} (h : s.channel? c = some ch) :
    1 ≤ c ∧ ∃ hlt : c.toNat - 1 < s.channels.length, s.channels[c.toNat - 1] = ch := by
  unfold State.channel? at h
  split at h
  · next hc => exact ⟨hc, List.getElem?_eq_some_iff.1 h⟩
  · cases h

theorem channel?_mem {s : State} {c : Int} {ch : Channel} (h : s.channel? c = some ch) : ch ∈ s.channels := by
  obtain ⟨_, hl, e⟩ := channel?_some h
  rw [← e]; exact List.getElem_mem hl

theorem modify_of_lt (l : List Channel) (n : Nat) (f : Channel → Channel) (h : n < l.length) : l.modify n f = l.set n
    (f l[n]) := by
  apply List.ext_getElem
  · simp
  · intro k h1 h2
    rw [List.getElem_modify, List.getElem_set]
    split
    · next h => subst h; rfl
    · rfl

theorem set_modify (l : List Channel) (n : Nat) (x : Channel) (f : Channel → Channel) : (l.set n x).modify n f
    = l.set n (f x) := by
  apply List.ext_getElem
  · simp
  · intro k h1 h2
    rw [List.getElem_modify, List.getElem_set]
    split
    · next h => subst h; simp
    · next h => simp [h]

theorem modify_eq_set {s : State} {c : Int} {ch : Channel} (h : s.channel? c = some ch) (f : Channel → Channel) :
    s.channels.modify (c.toNat - 1) f = s.channels.set (c.toNat - 1) (f ch) := by
  obtain ⟨h1, hlt, rfl⟩ := channel?_some h
  exact modify_of_lt _ _ _ hlt

/-- Changing a channel that exists sets it. -/
theorem modifyChannel_eq {s : State} {c : Int} {ch : Channel} (h : s.channel? c = some ch) (f : Channel → Channel) :
    s.modifyChannel c f = { s with channels := s.channels.set (c.toNat - 1) (f ch) } := by
  unfold State.modifyChannel; rw [modify_eq_set h]

/-- A channel reads as it was set. -/
theorem channel?_set {s t : State} {c : Int} {ch : Channel} (h : s.channel? c = some ch) (x : Channel)
    (ht : t.channels = s.channels.set (c.toNat - 1) x) : t.channel? c = some x := by
  obtain ⟨h1, hlt, _⟩ := channel?_some h
  unfold State.channel?; rw [if_pos h1, ht, List.getElem?_set_self hlt]

theorem modifyChannel_twice (s : State) (c : Int) (f g) : (s.modifyChannel c f).modifyChannel c g = s.modifyChannel c
    (g ∘ f) := by
  simp [State.modifyChannel, List.modify_modify_eq]

theorem unlocked_iff {ch : Channel} : ch.unlocked = true ↔ ch.mutex = .free := by simp [Channel.unlocked]

/-- Changing one channel keeps all mutexes free where it keeps its own. -/
theorem modify_keeps_free {l : List Channel} {n : Nat} {f : Channel → Channel} (h : ∀ ch ∈ l, ch.mutex = .free)
    (hf : ∀ ch, ch.mutex = .free → (f ch).mutex = .free) : ∀ ch ∈ l.modify n f, ch.mutex = .free := by
  intro ch hc
  obtain ⟨k, hk, rfl⟩ := List.getElem_of_mem hc
  rw [List.getElem_modify]
  have hk' : k < l.length := by simpa using hk
  split
  · exact hf _ (h _ (List.getElem_mem hk'))
  · exact h _ (List.getElem_mem hk')

/-- SetPosImmediate as one update (R100). -/
theorem setPosImmediate_eq {s : State} {c w : Int} {ch : Channel} (dev : Int) (h : s.channel? c = some ch)
    (hm : ch.mutex = .free) :
    setPosImmediate c w dev s =
      { s with
        channels := s.channels.set (c.toNat - 1) { ch with cur := (w : Rat), tgt := (w : Rat), rem := s.cfg.idleTicks },
        trace := s.trace ++ [.pwm c.toNat ((w : Rat) + (dev : Rat))] } := by
  unfold setPosImmediate
  simp only [State.acquireCL, State.releaseCL, State.modifyChannel, State.pwmWrite, State.emit, modify_eq_set h, set_modify]
  cases ch; simp_all

/-- SetPosTimed as one update (R102). -/
theorem setPosTimed_eq {s : State} {c w d : Int} {ch : Channel} (c0 : Rat) (h : s.channel? c = some ch)
    (hm : ch.mutex = .free) :
    setPosTimed c w d c0 s =
      { s with
        channels := s.channels.set (c.toNat - 1)
          { ch with
            delta := (c0 - (w : Rat)) / (tickCount s.cfg d : Rat), tgt := (w : Rat), rem := tickCount s.cfg d } } := by
  unfold setPosTimed
  simp only [State.acquireCL, State.releaseCL, State.modifyChannel, modify_eq_set h, set_modify]
  cases ch; simp_all

/-- What PWM_SET_POSITION has checked (R99). -/
theorem pwmCheck_ok {c w d : Int} {s : State} {ch : Channel} (h : pwmCheck c w d s = .ok ch) : s.channel? c = some ch
    ∧ ch.lo ≤ w ∧ w ≤ ch.hi ∧ 0 ≤ d := by
  unfold pwmCheck at h
  split at h
  · cases h
  · next ch' hc =>
    split at h
    · cases h
    · next hb =>
      split at h
      · cases h
      · next hd => cases h; push Not at hb; exact ⟨hc, hb.1, hb.2, by omega⟩

/-- The rounded quotient is nearest (R101). -/
theorem roundDiv_near (tr : TickRound) (x y : Nat) (hy : 0 < y) :
    2 * (y * roundDiv tr x y) ≤ 2 * x + y ∧ 2 * x ≤ 2 * (y * roundDiv tr x y) + y := by
  have hd := Nat.div_add_mod x y
  have hm := Nat.mod_lt x hy
  have h1 : y * (x / y + 1) = y * (x / y) + y := Nat.mul_succ _ _
  unfold roundDiv
  simp only
  split
  · omega
  · split
    · omega
    · cases tr <;> simp only <;> (try split) <;> omega

/-- Rounding is monotonic. -/
theorem roundDiv_mono (tr : TickRound) {x z : Nat} (y : Nat) (h : x ≤ z) : roundDiv tr x y ≤ roundDiv tr z y := by
  have hq : x / y ≤ z / y := Nat.div_le_div_right h
  have hx := Nat.div_add_mod x y
  have hz := Nat.div_add_mod z y
  rcases Nat.lt_or_eq_of_le hq with hl | he
  · unfold roundDiv; simp only; cases tr <;> (repeat' split) <;> omega
  · unfold roundDiv; simp only; rw [← he] at hz ⊢
    have hr : x % y ≤ z % y := by omega
    cases tr <;> (repeat' split) <;> omega

/-- What `Config.ticksOk` says. -/
theorem ticksOk_iff {cfg : Config} :
    cfg.ticksOk = true ↔ 0 < cfg.tickMs ∧ (cfg.tickMs : Int) ≤ cfg.pdurMin ∧ cfg.pdurMin ≤ cfg.pdurMax := by
  simp [Config.ticksOk]

/-- A timed motion has at least one tick, and no more than one of the longest duration (R101). -/
theorem tickCount_range {cfg : Config} (h : cfg.ticksOk = true) (d : Int) :
    1 ≤ tickCount cfg d ∧ tickCount cfg d ≤ tickCount cfg cfg.pdurMax := by
  obtain ⟨h1, h2, h3⟩ := ticksOk_iff.1 h
  constructor
  · have hx : cfg.tickMs ≤ (pwmDuration cfg d).toNat := by simp only [pwmDuration, clamp]; omega
    have := roundDiv_mono cfg.tickRound cfg.tickMs hx
    refine Nat.le_trans ?_ this
    unfold roundDiv
    simp only [Nat.mod_self, Nat.div_self h1]
    rw [if_pos (by omega)]
  · refine roundDiv_mono _ _ ?_
    simp only [pwmDuration, clamp]; omega

end Machine
end Sys2Proof
end

