-- ==== Sys2Proof/Laws/Codec.lean ====
section
/-! SUPPORT. The codec (R52 to R69): what its functions accept and that they undo each other. -/

namespace Sys2Proof

/-! ## Range checks -/

theorem idOk_iff (id : Int) : idOk id = true ↔ 0 ≤ id ∧ id ≤ 254 :=
  by unfold idOk; rw [Bool.and_eq_true, decide_eq_true_iff, decide_eq_true_iff]

theorem byteOk_iff (v : Int) : byteOk v = true ↔ 0 ≤ v ∧ v ≤ 255 := by simp [byteOk]

theorem wordOk_iff (v : Int) : wordOk v = true ↔ -32768 ≤ v ∧ v ≤ 32767 := by simp [wordOk]

/-- The one-byte parameter lists (R55). -/
theorem isOneByte_iff (ps : List Int) : isOneByte ps = true ↔ ∃ v, ps = [v] ∧ 0 ≤ v ∧ v ≤ 255 := by
  unfold isOneByte; split
  · next v => simp [byteOk_iff]
  · next h => constructor
              · simp
              · rintro ⟨v, rfl, _⟩; exact (h v rfl).elim

/-! ## Bytes of values -/

theorem toNat_lo8 (v : Int) : ((lo8 v).toNat : Int) = v % 256 := by
  simp [lo8, BitVec.toNat_ofInt]; omega

theorem wordValue_bytes (v : Int) (h : wordOk v = true) : wordValue (lo8 v) (hi8 v) = v := by
  rw [wordOk_iff] at h
  have h1 := toNat_lo8 v
  have h2 := toNat_lo8 (v / 256)
  have : hi8 v = lo8 (v / 256) := rfl
  rw [this]
  unfold wordValue sext16
  split <;> omega

theorem wordValue_ok (b0 b1 : Byte) : wordOk (wordValue b0 b1) = true := by
  rw [wordOk_iff]; unfold wordValue sext16; have := b0.isLt; have := b1.isLt; split <;> omega

theorem wordBytes_value (b0 b1 : Byte) : wordBytes (wordValue b0 b1) = [b0, b1] := by
  have h0 := b0.isLt; have h1 := b1.isLt
  have e0 := toNat_lo8 (wordValue b0 b1)
  have e1 := toNat_lo8 (wordValue b0 b1 / 256)
  have : hi8 (wordValue b0 b1) = lo8 (wordValue b0 b1 / 256) := rfl
  have hv : wordValue b0 b1 = b0.toNat + 256 * b1.toNat ∨ wordValue b0 b1 = b0.toNat + 256 * b1.toNat - 65536 := by
    unfold wordValue sext16; split <;> omega
  unfold wordBytes
  rw [this]
  generalize wordValue b0 b1 = v at *
  congr
  · apply BitVec.eq_of_toNat_eq; omega
  · apply BitVec.eq_of_toNat_eq; omega

theorem lo8_toNat (b : Byte) : lo8 (b.toNat : Int) = b := by simp [lo8]

theorem byteOk_toNat (b : Byte) : byteOk (b.toNat : Int) = true := by rw [byteOk_iff]; have := b.isLt; omega

theorem pairs_flatMap (ps : List Int) (h : ps.all wordOk = true) : unparse.pairs (ps.flatMap wordBytes) = some ps := by
  induction ps with
  | nil => rfl
  | cons v ps ih =>
    simp only [List.all_cons, Bool.and_eq_true] at h
    simp [wordBytes, unparse.pairs]
    rw [ih h.2, wordValue_bytes v h.1]; exact ⟨rfl, rfl⟩

theorem flat_len (ps : List Int) : (ps.flatMap wordBytes).length = 2 * ps.length := by
  induction ps with
  | nil => rfl
  | cons v ps ih => simp [wordBytes, ih]; omega

theorem paramBytes_len {ps : List Int} (h : isOneByte ps = true ∨ (isOneByte ps = false ∧ ps.length ≤ 126
    ∧ ps.all wordOk = true)) : (paramBytes ps).length ≤ 252 := by
  unfold paramBytes
  rcases h with h | ⟨h, h1, h2⟩
  · obtain ⟨v, rfl, _⟩ := (isOneByte_iff _).1 h; simp [h]
  · simp [h]; have := flat_len ps; simp at this; omega

/-! ## Encoding -/

/-- What ENCODE has checked where it returns a frame (R65). -/
theorem encode_ok {cfg : Config} {id cmd : Int} {ps : List Int} {f : Frame} (h : encodeFrame cfg id cmd ps = .ok f) :
    idOk id = true ∧ byteOk cmd = true ∧ f = frameOf cfg (lo8 id) (lo8 cmd) (paramBytes ps)
      ∧ (isOneByte ps = true ∨ (isOneByte ps = false ∧ ps.length ≤ 126 ∧ ps.all wordOk = true)) := by
  unfold encodeFrame at h
  split at h
  · cases h
  · split at h
    · cases h
    · split at h
      · cases h
      · split at h
        · cases h
        · next h1 h2 h3 h4 =>
          cases h
          simp only [Bool.not_eq_true, Bool.not_eq_false] at h1 h2
          refine ⟨h1, h2, rfl, ?_⟩
          by_cases ho : isOneByte ps = true
          · exact .inl ho
          · simp only [ho, Bool.not_eq_true, true_and] at h3 h4
            exact .inr ⟨by simpa using ho, by omega, by simpa using h4⟩

/-- What ENCODE accepts (R65). -/
theorem encode_of_ok {cfg : Config} {id cmd : Int} {ps : List Int} (hid : idOk id = true) (hc : byteOk cmd = true)
    (h : isOneByte ps = true ∨ (ps.length ≤ 126 ∧ ps.all wordOk = true)) :
    encodeFrame cfg id cmd ps = .ok (frameOf cfg (lo8 id) (lo8 cmd) (paramBytes ps)) := by
  rcases h with h | ⟨h1, h2⟩
  · simp [encodeFrame, hid, hc, h]
  · have h3 : ¬ 126 < ps.length := by omega
    have h2 : ∀ v ∈ ps, wordOk v = true := by simpa using h2
    simp only [encodeFrame, hid, hc, h3, not_true_eq_false, if_false, and_false]
    rw [if_neg]
    rintro ⟨_, h⟩
    exact h (by simpa using h2)

/-- ENCODE checks the device id first (R65). -/
theorem encode_bad_id {cfg : Config} {id cmd : Int} {ps : List Int} (hid : idOk id = false) :
    encodeFrame cfg id cmd ps = .error (.encodeRange .deviceId) := by simp [encodeFrame, hid]

theorem byteOk_cmdInt (cfg : Config) (c : Command) : byteOk (cfg.cmdInt c) = true := byteOk_toNat _

/-- The bytes from the device id through the checksum sum to 255 modulo 256 (R54). -/
theorem frame_sum (cfg : Config) (id cmd : Byte) (pb : List Byte) : (((frameOf cfg id cmd pb).drop 2).map BitVec.toNat).sum % 256 = 255 := by
  simp only [frameOf, List.cons_append, List.drop_succ_cons, List.drop_zero]
  set body := id :: BitVec.ofNat 8 (pb.length + 3) :: cmd :: pb with hb
  have : ((id :: BitVec.ofNat 8 (pb.length + 3) :: cmd :: (pb ++ [checksum body])).map BitVec.toNat).sum = (body.map BitVec.toNat).sum + (checksum body).toNat := by
    rw [hb]; simp; omega
  rw [this]
  unfold checksum byteSum
  simp only [BitVec.toNat_ofNat]
  omega

theorem sum_set (l : List Nat) (k : Nat) (v : Nat) (h : k < l.length) : (l.set k v).sum + l[k] = l.sum + v := by
  induction l generalizing k with
  | nil => simp at h
  | cons a l ih =>
    cases k with
    | zero => simp; omega
    | succ k => simp at h ⊢; have := ih k h; omega

/-! ## Parsing -/

/-- ParseFrame reads back a frame (R66). -/
theorem parse_frameOf (cfg : Config) (id cmd : Byte) (pb : List Byte) (h : pb.length ≤ 252) :
    parseFrame cfg (frameOf cfg id cmd pb) = some (id, cmd, pb) := by
  have hl : (BitVec.ofNat 8 (pb.length + 3)).toNat = pb.length + 3 := by simp; omega
  have h1 : ¬ pb.length + 3 < 3 := by omega
  have h2 : ¬ (pb.length + 1 + 1 + 1 + 1 + 1 + 1 < pb.length + 3 + 3) := by omega
  simp [parseFrame, parseFrameWhy, frameOf, hl, Except.toOption]

theorem parseWhy_of (cfg b r) (h : parseFrame cfg b = some r) : parseFrameWhy cfg b = .ok r := by
  unfold parseFrame at h
  cases hh : parseFrameWhy cfg b <;> rw [hh] at h <;> simp [Except.toOption] at h; subst h; rfl

/-- Distinct command codes select their commands (R58). -/
theorem cmd_roundtrip (cfg : Config) (h : cfg.codes.toList.Nodup) (c : Command) : cfg.command? (cfg.cmdCode c)
    = some c := by
  have hn : (Command.all.map cfg.cmdCode).Nodup := by
    simpa [Command.all, Config.cmdCode, CmdCodes.toList] using h
  have hmem : c ∈ Command.all := by cases c <;> simp [Command.all]
  unfold Config.command?
  generalize Command.all = l at *
  induction l with
  | nil => simp at hmem
  | cons a l ih =>
    simp only [List.find?_cons]
    by_cases hac : cfg.cmdCode a = cfg.cmdCode c
    · rcases List.mem_cons.1 hmem with rfl | hm
      · simp
      · simp only [List.map_cons, List.nodup_cons] at hn
        exact absurd (hac ▸ List.mem_map_of_mem hm) hn.1
    · have hb : (cfg.cmdCode a == cfg.cmdCode c) = false := by simpa using hac
      rw [hb]
      simp only [List.map_cons, List.nodup_cons] at hn
      rcases List.mem_cons.1 hmem with rfl | hm
      · exact absurd rfl hac
      · exact ih hn.2 hm

/-- DECODE never answers Timeout (R67). -/
theorem decode_ne_timeout (cfg b cmd) : decodeFrame cfg b cmd ≠ .timeout := by
  unfold decodeFrame
  repeat' split
  all_goals simp

/-- DECODE never raises (R67). -/
theorem decode_ne_raised (cfg b cmd e) : decodeFrame cfg b cmd ≠ .raised e := by
  unfold decodeFrame
  repeat' split
  all_goals simp

end Sys2Proof
end

