-- ==== Sys2Proof/Laws/Effects.lean ====
section
/-! SUPPORT. What a step can do, said once: the elementary effects, and that whatever a meaning or a step comes to is
reached by them. A property that every elementary effect has then holds of every step. -/

namespace Sys2Proof
namespace Machine

/-- The elementary effects the meanings are made of. -/
inductive Effect
  | emit (e : Event)
  | elapse (ms : Rat)
  | turn (d : Dir)
  | rxFlush
  | rxAvailable
  | rxRead (n : Nat)
  | uartClose
  | uartOpen
  | lock
  | unlock
  | channel (c : Int) (f : Channel → Channel)
  | storeRead (path : Path)
  | push (ph : FlightPhase) (r : Rat)
  | pop (a : Agent)
  | setJob (J : Job)
  | removeJob (j : Nat)
  | addJob (sets : List ActionSet) (ctx : Ctx) (cb : Option Nat)
  | setRunning (r : Option Nat)
  | addHandle (j : Nat)
  | resolve (j : Nat) (o : JobOutcome)
  | become (a : Agent)
  | clock (t : Rat)
  | moves (l : List Move)
  | draw

/-- What an elementary effect does. -/
def Effect.run : Effect → State → State
  | .emit e, s            => s.emit e
  | .elapse ms, s         => s.elapse ms
  | .turn d, s            => s.setDirection d
  | .rxFlush, s           => s.rxFlush
  | .rxAvailable, s       => s.rxAvailable.2
  | .rxRead n, s          => (s.rxRead n).2
  | .uartClose, s         => s.uartClose
  | .uartOpen, s          => s.uartOpen
  | .lock, s              => s.acquireTL
  | .unlock, s            => s.releaseTL
  | .channel c f, s       => s.modifyChannel c f
  | .storeRead path, s    => (s.storeRead path).2
  | .push ph r, s         => s.pushFlight ph r
  | .pop a, s             => s.popFlight a
  | .setJob J, s          => s.setJob J
  | .removeJob j, s       => s.removeJob j
  | .addJob sets ctx cb, s => s.addJob sets ctx cb
  | .setRunning r, s      => s.setRunning r
  | .addHandle j, s       => s.addHandle j
  | .resolve j o, s       => s.resolveHandle j o
  | .become a, s          => { s with cur := a }
  | .clock t, s           => { s with now := t }
  | .moves l, s           => { s with script := l }
  | .draw, s              => { s with draws := s.draws + 1 }

/-- Events of the line. -/
def Event.onLine : Event → Bool
  | .pin _ _ | .tx _ | .rxflush _ | .rxavail _ | .rxread _ | .uclose | .uopen => true
  | _ => false

/-- An effect that leaves the line alone, and a channel's bounds. -/
def Effect.quiet : Effect → Prop
  | .emit e => e.onLine = false
  | .channel _ f => ∀ ch, (f ch).lo = ch.lo ∧ (f ch).hi = ch.hi
  | .turn _ | .rxFlush | .rxAvailable | .rxRead _ | .uartClose | .uartOpen | .lock | .unlock => False
  | _ => True

/-- An effect that a write of frame `f` makes. -/
def Effect.writes (f : Frame) : Effect → Prop
  | .emit e => e = .tx f
  | .turn d => d = .tx
  | .lock | .unlock | .elapse _ => True
  | _ => False

/-- An effect of the transport and of the store: none on channels, jobs and handles. -/
def Effect.line : Effect → Prop
  | .emit (.pin _ _) | .push (.pwmSplit _ _ _ _) _ => False
  | .channel _ _ | .setJob _ | .removeJob _ | .addJob _ _ _ | .setRunning _ | .addHandle _ | .resolve _ _ => False
  | _ => True

/-- An effect that any step makes: pins are written only by turning the line, bounds stay. -/
def Effect.any : Effect → Prop
  | .emit (.pin _ _) => False
  | .channel _ f => ∀ ch, (f ch).lo = ch.lo ∧ (f ch).hi = ch.hi
  | _ => True

/-- `t` is reached from `s` by effects that `P` allows. -/
inductive Evolves (P : Effect → Prop) : State → State → Prop
  | refl (s : State) : Evolves P s s
  | step {s t : State} (e : Effect) : Evolves P s t → P e → Evolves P s (e.run t)

theorem Evolves.trans {P : Effect → Prop} {s t u : State} (h : Evolves P s t) (k : Evolves P t u) : Evolves P s u := by
  induction k with
  | refl => exact h
  | step e _ he ih => exact .step e ih he

theorem Evolves.one {P : Effect → Prop} {s : State} (e : Effect) (h : P e) : Evolves P s (e.run s) := .step e
    (.refl s) h

theorem Evolves.mono {P Q : Effect → Prop} (hPQ : ∀ e, P e → Q e) {s t : State} (h : Evolves P s t) : Evolves Q s t := by
  induction h with
  | refl => exact .refl _
  | step e _ he ih => exact .step e ih (hPQ e he)

/-- A relation that every allowed effect has, and that composes, holds between the ends. -/
theorem Evolves.rel {P : Effect → Prop} (R : State → State → Prop) (hr : ∀ s, R s s)
    (hs : ∀ s t e, R s t → P e → R s (e.run t)) {s t : State} (h : Evolves P s t) : R s t := by
  induction h with
  | refl => exact hr _
  | step e _ he ih => exact hs _ _ e ih he

/-! ## What the reads of the outside leave -/

theorem storeRead_parts (s : State) (p : Path) : ∃ l d e, (s.storeRead p).2 =
    { s with storeIn := l, draws := d, trace := s.trace ++ [e] } ∧ e.onLine = false := by
  unfold State.storeRead; split <;> exact ⟨_, _, _, rfl, rfl⟩
theorem drawBus_parts (s : State) : ∃ l d, (s.drawBus).2 = { s with busIn := l, draws := d } := by
  unfold State.drawBus; split <;> exact ⟨_, _, rfl⟩
theorem elapse_parts (s : State) (ms : Rat) : ∃ l d, (s.elapse ms) = { s with now := l, draws := d } := by
  unfold State.elapse; split <;> exact ⟨_, _, rfl⟩
theorem rxAvailable_parts (s : State) : ∃ l d b, (s.rxAvailable).2 =
    { s with busIn := l, draws := d, T := { s.T with rx := s.T.rx ++ b }, trace := s.trace ++ [.rxavail (s.T.rx ++ b).length] } := by
  obtain ⟨l, d, h⟩ := drawBus_parts s
  unfold State.rxAvailable
  rcases hd : s.drawBus with ⟨b, u⟩
  rw [hd] at h; simp only at h; subst h
  exact ⟨l, d, b, rfl⟩

/-- No effect changes the configuration. -/
theorem run_cfg (e : Effect) (s : State) : (e.run s).cfg = s.cfg := by
  cases e with
  | elapse ms => obtain ⟨_, _, h⟩ := elapse_parts s ms; rw [Effect.run, h]
  | turn d => cases d <;> rfl
  | rxAvailable => obtain ⟨_, _, _, h⟩ := rxAvailable_parts s; rw [Effect.run, h]
  | storeRead p => obtain ⟨_, _, _, h, _⟩ := storeRead_parts s p; rw [Effect.run, h]
  | _ => rfl

theorem Evolves.cfg {P : Effect → Prop} {s t : State} (h : Evolves P s t) : t.cfg = s.cfg :=
  h.rel (fun s t => t.cfg = s.cfg) (fun _ => rfl) fun _ t e h _ => (run_cfg e t).trans h

theorem Effect.quiet_any (e : Effect) (h : e.quiet) : e.any := by
  cases e <;> simp_all [Effect.quiet, Effect.any]
  next e => cases e <;> simp_all [Event.onLine]

theorem Effect.line_any (e : Effect) (h : e.line) : e.any := by
  cases e <;> simp_all [Effect.line, Effect.any]
  next e => cases e <;> simp_all

theorem Effect.writes_line (f : Frame) (e : Effect) (h : e.writes f) : e.line := by
  cases e <;> simp_all [Effect.writes, Effect.line]

/-! ## The shared operations -/

section
variable {P : Effect → Prop} {s t : State}

theorem Evolves.emit (h : Evolves P s t) (e : Event) (he : P (.emit e)) : Evolves P s (t.emit e) := .step (.emit e) h he
theorem Evolves.answer (h : Evolves P s t) (op : HostOp) (v : Result) (he : ∀ e : Event, e.onLine = false → P
    (.emit e)) :
    Evolves P s (t.answer op v) := .step (.emit _) h (he _ rfl)
theorem Evolves.raise (h : Evolves P s t) (op : HostOp) (e : Err) (he : ∀ e : Event, e.onLine = false → P (.emit e)) :
    Evolves P s (t.raise op e) := h.answer op _ he
theorem Evolves.elapse (h : Evolves P s t) (ms : Rat) (he : P (.elapse ms)) : Evolves P s (t.elapse ms) := .step
    (.elapse ms) h he
theorem Evolves.turn (h : Evolves P s t) (d : Dir) (he : P (.turn d)) : Evolves P s (t.setDirection d) := .step
    (.turn d) h he
theorem Evolves.rxFlush (h : Evolves P s t) (he : P .rxFlush) : Evolves P s t.rxFlush := .step .rxFlush h he
theorem Evolves.lock (h : Evolves P s t) (he : P .lock) : Evolves P s t.acquireTL := .step .lock h he
theorem Evolves.unlock (h : Evolves P s t) (he : P .unlock) : Evolves P s t.releaseTL := .step .unlock h he
theorem Evolves.channel (h : Evolves P s t) (c : Int) (f : Channel → Channel) (he : P (.channel c f)) :
    Evolves P s (t.modifyChannel c f) := .step (.channel c f) h he
theorem Evolves.push (h : Evolves P s t) (ph : FlightPhase) (r : Rat) (he : P (.push ph r)) :
    Evolves P s (t.pushFlight ph r) := .step (.push ph r) h he
theorem Evolves.pop (h : Evolves P s t) (a : Agent) (he : P (.pop a)) : Evolves P s (t.popFlight a) := .step
    (.pop a) h he
theorem Evolves.setJob (h : Evolves P s t) (J : Job) (he : P (.setJob J)) : Evolves P s (t.setJob J) := .step
    (.setJob J) h he
theorem Evolves.uartWrite (h : Evolves P s t) (f : Frame) (he : P (.emit (.tx f))) (hm : ∀ ms, P (.elapse ms)) :
    Evolves P s (t.uartWrite f) := (h.emit _ he).elapse _ (hm _)

theorem sendFrame_evolves (f : Frame) (s : State) : Evolves (Effect.writes f) s (sendFrame f s) :=
  ((((Evolves.refl (P := Effect.writes f) s).lock (by trivial)).turn .tx rfl).uartWrite f rfl (fun _ => trivial)).unlock (by trivial)

theorem performWrite_done {id cmd : Int} {ps : List Int} {v : Result} (h : performWrite id cmd ps s = .done t v) :
    ∃ f, encodeFrame s.cfg id cmd ps = .ok f ∧ s.T.tl = .free ∧ t = sendFrame f s ∧ v = .done := by
  unfold performWrite at h
  split at h
  · cases h
  · next f hf =>
    split at h
    · next hl => cases h; exact ⟨f, hf, by simpa [State.tlFree] using hl, rfl, rfl⟩
    · cases h

theorem performWrite_raised {id cmd : Int} {ps : List Int} {e : Err} (h : performWrite id cmd ps s = .raised t e) :
    encodeFrame s.cfg id cmd ps = .error e ∧ t = s := by
  unfold performWrite at h
  split at h
  · next hf => cases h; exact ⟨hf, rfl⟩
  · split at h <;> cases h

theorem drawBus_T : (s.drawBus).2.T = s.T := by unfold State.drawBus; split <;> rfl
theorem drawBus_cfg : (s.drawBus).2.cfg = s.cfg := by unfold State.drawBus; split <;> rfl
theorem drawBus_trace : (s.drawBus).2.trace = s.trace := by unfold State.drawBus; split <;> rfl

end

section
variable {s : State}

theorem wait_line (k : WaitKind) (ms : Rat) {t : State} (h : Evolves Effect.line s t) : Evolves Effect.line s
    (t.wait k ms) :=
  h.emit _ (by trivial)

theorem attemptSend_evolves (req : Frame) : Evolves Effect.line s (attemptSend req s) :=
  wait_line _ _ ((((Evolves.refl s).rxFlush (by trivial)).turn .tx (by trivial)).uartWrite req trivial (fun _ => trivial))

theorem attemptTurn_evolves : Evolves Effect.line s (attemptTurn s) := wait_line _ _ ((Evolves.refl s).turn .rx
    (by trivial))

theorem attemptInspect_evolves (cmd : Int) : Evolves Effect.line s (attemptInspect cmd s).1 := by
  have h1 : Evolves Effect.line s s.rxAvailable.2 := Evolves.one .rxAvailable trivial
  unfold attemptInspect
  simp only
  split
  · exact h1
  · split <;> exact Evolves.step (.rxRead _) h1 trivial

theorem attempt_evolves (cmd : Int) (req : Frame) : Evolves Effect.line s (attempt cmd req s).1 :=
  (((attemptSend_evolves req).elapse _ (by trivial)).trans ((attemptTurn_evolves).elapse _ (by trivial))).trans (attemptInspect_evolves cmd)

theorem readLoop_evolves (cmd : Int) (req : Frame) (n : Nat) : Evolves Effect.line s (readLoop cmd req n s).1 := by
  induction n generalizing s with
  | zero => exact .refl _
  | succ n ih =>
    have ha := attempt_evolves (s := s) cmd req
    simp only [readLoop]
    rcases he : attempt cmd req s with ⟨t, r⟩
    rw [he] at ha
    cases r with
    | none => exact ha.trans ih
    | some v => exact ha

theorem performRead_done {id cmd : Int} {ps : List Int} {b : Int} {t : State} {v : Result}
    (h : performRead id cmd ps b s = .done t v) :
    ∃ req, encodeFrame s.cfg id cmd ps = .ok req ∧ 0 ≤ b ∧ s.T.tl = .free
      ∧ t = (readLoop cmd req b.toNat s.acquireTL).1.releaseTL ∧ v = (readLoop cmd req b.toNat s.acquireTL).2 := by
  unfold performRead at h
  split at h
  · cases h
  · next f hf =>
    split at h
    · cases h
    · next hb =>
      split at h
      · next hl => cases h; exact ⟨f, hf, by omega, by simpa [State.tlFree] using hl, rfl, rfl⟩
      · cases h

theorem performRead_raised {id cmd : Int} {ps : List Int} {b : Int} {t : State} {e : Err}
    (h : performRead id cmd ps b s = .raised t e) : t = s := by
  unfold performRead at h
  split at h
  · cases h; rfl
  · split at h
    · cases h; rfl
    · split at h <;> cases h

/-- What a call of an operation comes to: it answers, it raises, or it waits. -/
theorem conclude_cases {op : HostOp} {i : Instr} {p : Perform} {t : State} (h : p.conclude op i s = .next t) :
    (∃ u v, p = .done u v ∧ t = u.answer op v) ∨ (∃ u e, p = .raised u e ∧ t = u.raise op e) ∨ p = .blocked ∧ t = s.block i := by
  cases p with
  | done u v => exact .inl ⟨u, v, rfl, by simpa [Perform.conclude] using h.symm⟩
  | raised u e => exact .inr (.inl ⟨u, e, rfl, by simpa [Perform.conclude] using h.symm⟩)
  | blocked => exact .inr (.inr ⟨rfl, by simpa [Perform.conclude] using h.symm⟩)

theorem performWrite_next {op : HostOp} {i : Instr} {id cmd : Int} {ps : List Int} {t : State}
    (h : (performWrite id cmd ps s).conclude op i s = .next t) : Evolves Effect.line s t := by
  obtain ⟨u, v, hp, rfl⟩ | ⟨u, e, hp, rfl⟩ | ⟨-, rfl⟩ := conclude_cases h
  · obtain ⟨f, -, -, rfl, -⟩ := performWrite_done hp
    exact ((sendFrame_evolves f s).mono (Effect.writes_line f)).emit _ (by trivial)
  · obtain ⟨-, rfl⟩ := performWrite_raised hp
    exact (Evolves.refl _).emit _ (by trivial)
  · exact (Evolves.refl _).push _ _ (by trivial)

theorem performRead_next {op : HostOp} {i : Instr} {id cmd : Int} {ps : List Int} {b : Int} {t : State}
    (h : (performRead id cmd ps b s).conclude op i s = .next t) : Evolves Effect.line s t := by
  obtain ⟨u, v, hp, rfl⟩ | ⟨u, e, hp, rfl⟩ | ⟨-, rfl⟩ := conclude_cases h
  · obtain ⟨req, -, -, -, rfl, -⟩ := performRead_done hp
    exact ((((Evolves.refl s).lock (by trivial)).trans (readLoop_evolves cmd req _)).unlock (by trivial)).emit _ (by trivial)
  · cases performRead_raised hp
    exact (Evolves.refl _).emit _ (by trivial)
  · exact (Evolves.refl _).push _ _ (by trivial)

end

/-! ## PWM interpolator -/

section
variable {s : State}

theorem setPosImmediate_quiet (c w dev : Int) : Evolves Effect.quiet s (setPosImmediate c w dev s) :=
  ((((Evolves.refl (P := Effect.quiet) s).channel c _ (by intro _; exact ⟨rfl, rfl⟩)).channel c _ (by intro _; exact ⟨rfl, rfl⟩)).emit _ (by rfl)).channel
    c _ (by intro _; exact ⟨rfl, rfl⟩)

theorem setPosTimed_quiet (c w d : Int) (c0 : Rat) : Evolves Effect.quiet s (setPosTimed c w d c0 s) :=
  (((Evolves.refl (P := Effect.quiet) s).channel c _ (by intro _; exact ⟨rfl, rfl⟩)).channel c _ (by intro _; exact ⟨rfl, rfl⟩)).channel
    c _ (by intro _; exact ⟨rfl, rfl⟩)

theorem rearm_quiet (c : Int) : Evolves Effect.quiet s (rearm c s) := by
  unfold rearm
  split
  · exact (Evolves.refl (P := Effect.quiet) s).channel c _ (by intro _; exact ⟨rfl, rfl⟩)
  · exact .refl s

theorem tickChannel_quiet (c : Nat) (ch : Channel) : Evolves Effect.quiet s (tickChannel c ch s) := by
  have h1 : Evolves Effect.quiet s ((s.acquireCL c).emit (.tickfire c)) :=
    ((Evolves.refl (P := Effect.quiet) s).channel c _ (by intro _; exact ⟨rfl, rfl⟩)).emit _ (by rfl)
  unfold tickChannel
  refine Evolves.trans (Evolves.channel ?_ c _ (by intro _; exact ⟨rfl, rfl⟩)) (rearm_quiet _)
  split
  · exact h1
  · split
    · exact (h1.emit (.pwm (c : Int).toNat _) rfl).channel c _ (by intro _; exact ⟨rfl, rfl⟩)
    · split
      · exact (h1.emit (.pwm (c : Int).toNat _) rfl).channel c _ (by intro _; exact ⟨rfl, rfl⟩)
      · exact h1.channel c _ (by intro _; exact ⟨rfl, rfl⟩)

theorem execPwmSetPosition_quiet {c w d : Int} {t : State} (h : execPwmSetPosition c w d s = .next t) :
    Evolves Effect.quiet s t := by
  unfold execPwmSetPosition at h
  split at h
  · cases h; exact (Evolves.refl _).emit _ (by rfl)
  · split at h
    · cases h; exact (Evolves.refl _).push _ _ (by trivial)
    · split at h
      · cases h; exact (setPosImmediate_quiet c w _).emit _ (by rfl)
      · split at h
        · cases h; exact (Evolves.refl _).push _ _ (by trivial)
        · cases h; exact (setPosTimed_quiet c w d _).emit _ (by rfl)

theorem resumePwmSplit_quiet (c w d : Int) (c0 : Rat) : Evolves Effect.quiet s (resumePwmSplit c w d c0 s) := by
  unfold resumePwmSplit
  split
  · split
    · exact (setPosTimed_quiet c w d _).emit _ (by rfl)
    · exact (Evolves.refl _).push _ _ (by trivial)
  · exact (Evolves.refl _).emit _ (by rfl)

theorem execPwmTick_quiet {c : Nat} {t : State} (h : execPwmTick c s = .next t) : Evolves Effect.quiet s t := by
  unfold execPwmTick at h
  split at h
  · cases h
  · split at h
    · cases h
    · split at h
      · cases h; exact tickChannel_quiet c _
      · cases h; exact .refl _

theorem execPwmSetDeviation_quiet {c dv : Int} {t : State} (h : execPwmSetDeviation c dv s = .next t) :
    Evolves Effect.quiet s t := by
  unfold execPwmSetDeviation at h
  split at h
  · cases h; exact (Evolves.refl _).emit _ (by rfl)
  · split at h
    · cases h; exact (Evolves.refl _).emit _ (by rfl)
    · split at h
      · cases h; exact (Evolves.refl _).push _ _ (by trivial)
      · cases h
        exact ((((Evolves.refl (P := Effect.quiet) s).channel c _ (by intro _; exact ⟨rfl, rfl⟩)).channel c _
          (by intro _; exact ⟨rfl, rfl⟩)).channel c _ (by intro _; exact ⟨rfl, rfl⟩)).emit _ (by rfl)

theorem execPwmGetDeviation_quiet {c : Int} {t : State} (h : execPwmGetDeviation c s = .next t) :
    Evolves Effect.quiet s t := by
  unfold execPwmGetDeviation at h
  split at h
  · cases h; exact (Evolves.refl _).emit _ (by rfl)
  · split at h
    · cases h; exact (Evolves.refl _).push _ _ (by trivial)
    · cases h
      exact (((Evolves.refl (P := Effect.quiet) s).channel c _ (by intro _; exact ⟨rfl, rfl⟩)).channel c _
        (by intro _; exact ⟨rfl, rfl⟩)).emit _ (by rfl)

/-! ## Action sequencer -/

/-- An effect of a playback: quiet, or on the way to transmit a MOVE_TIME_WRITE frame in the clamped ranges (R121). -/
def Effect.playback (cfg : Config) : Effect → Prop
  | .emit (.tx g) =>
    ∃ id pos dur : Int, encodeFrame cfg id 0x01 [servoPosition cfg pos, servoDuration cfg dur] = .ok g
  | .turn d => d = .tx
  | .lock | .unlock => True
  | e => e.quiet

theorem Effect.quiet_playback {cfg : Config} (e : Effect) (h : e.quiet) : e.playback cfg := by
  cases e <;> simp_all [Effect.quiet, Effect.playback]
  next e => cases e <;> simp_all [Event.onLine]

theorem Effect.playback_any {cfg : Config} (e : Effect) (h : e.playback cfg) : e.any := by
  cases e <;> simp_all [Effect.quiet, Effect.playback, Effect.any]
  next e => cases e <;> simp_all [Event.onLine]

theorem Effect.writes_playback {cfg : Config} {id pos dur : Int} {f : Frame}
    (hf : encodeFrame cfg id 0x01 [servoPosition cfg pos, servoDuration cfg dur] = .ok f) (e : Effect) (h : e.writes f) :
    e.playback cfg := by
  cases e <;> simp_all [Effect.quiet, Effect.playback, Effect.writes]
  exact ⟨id, pos, dur, hf⟩

/-- Two runs of a playback make one: the configuration stays. -/
theorem Evolves.playback_trans {t u : State} (h : Evolves (Effect.playback s.cfg) s t)
    (k : Evolves (Effect.playback t.cfg) t u) : Evolves (Effect.playback s.cfg) s u := h.trans (h.cfg ▸ k)

theorem storeRead_quiet (path : Path) : Evolves Effect.quiet s (s.storeRead path).2 := Evolves.one
    (.storeRead path) trivial

theorem performLoad_cases {path : Path} {reps : Int} {locks : List (Int × Int)} :
    (∃ e, performLoad path reps locks s = .raised s e) ∨ (∃ e, performLoad path reps locks s = .raised (s.storeRead path).2 e)
      ∨ ∃ a, performLoad path reps locks s = .done (s.storeRead path).2 (.actionSet a) := by
  unfold performLoad
  split
  · exact .inl ⟨_, rfl⟩
  · simp only
    split
    · exact .inr (.inl ⟨_, rfl⟩)
    · exact .inr (.inr ⟨_, rfl⟩)

theorem execSeqLoad_quiet {path : Path} {reps : Int} {locks : List (Int × Int)} {t : State}
    (h : execSeqLoad path reps locks s = .next t) : Evolves Effect.quiet s t := by
  unfold execSeqLoad at h
  obtain ⟨e, he⟩ | ⟨e, he⟩ | ⟨a, he⟩ := performLoad_cases (s := s) (path := path) (reps := reps) (locks := locks) <;>
    rw [he] at h <;> cases h
  · exact (Evolves.refl _).emit _ (by rfl)
  · exact (storeRead_quiet path).emit _ (by rfl)
  · exact (storeRead_quiet path).emit _ (by rfl)

/-- The state a step of a job leaves evolves from `s`, whatever the step comes to. -/
theorem endJob_quiet (J : Job) : Evolves Effect.quiet s (endJob J s) := by
  unfold endJob
  split
  · exact .step (.removeJob _) (Evolves.one (.setRunning none) trivial) trivial
  · exact Evolves.one (.removeJob _) trivial

theorem finishJob_quiet (J : Job) (o : JobOutcome) : Evolves Effect.quiet s ((finishJob J o s).after s) := by
  have h1 : Evolves Effect.quiet s (s.emit (.complete J.id o)) := (Evolves.refl _).emit _ (by rfl)
  have h2 : Evolves Effect.quiet s (match J.ctx with
    | .onSched    => (s.emit (.complete J.id o)).resolveHandle J.id o
    | .onCaller _ => s.emit (.complete J.id o)) := by
    split
    · exact .step (.resolve _ _) h1 trivial
    · exact h1
  unfold finishJob
  simp only
  split
  · exact (h2.setJob _ (by trivial)).push _ _ (by trivial)
  · exact h2.trans (endJob_quiet J)

theorem finishJob_after (J : Job) (o : JobOutcome) (s u : State) : (finishJob J o s).after u =
    (finishJob J o s).after s := by
  unfold finishJob
  simp only
  split <;> rfl

theorem issueCmd_playback (J : Job) (p : Nat) (c : Cmd) : Evolves (Effect.playback s.cfg) s ((issueCmd J p c s).after s) := by
  unfold issueCmd
  split
  · rcases hp : performSetPosition c.col c.pos c.dur s with ⟨t, v⟩ | ⟨t, e⟩ | _
    · obtain ⟨f, hf, -, rfl, -⟩ := performWrite_done hp
      exact ((sendFrame_evolves f s).mono (Effect.writes_playback hf)).setJob _ (by trivial)
    · obtain ⟨-, rfl⟩ := performWrite_raised hp
      exact (finishJob_quiet J _).mono Effect.quiet_playback
    · exact .refl _
  · refine Evolves.mono Effect.quiet_playback ?_
    split
    · exact finishJob_quiet J _
    · split
      · exact .refl _
      · split
        · exact (setPosImmediate_quiet _ _ _).setJob _ (by trivial)
        · split
          · exact (Evolves.refl _).setJob _ (by trivial)
          · exact (setPosTimed_quiet _ _ _ _).setJob _ (by trivial)

theorem issueJob_playback (J : Job) (p : Nat) : Evolves (Effect.playback s.cfg) s ((issueJob J p s).after s) := by
  unfold issueJob
  split
  · exact (finishJob_quiet J _).mono Effect.quiet_playback
  · split
    · exact issueCmd_playback J p _
    · exact ((Evolves.refl (P := Effect.playback s.cfg) s).emit (.sleep _ _) (by exact rfl)).setJob _ (by exact trivial)

theorem wakeJob_quiet (J : Job) : Evolves Effect.quiet s (wakeJob J s) := 
  ((Evolves.refl (P := Effect.quiet) s).emit (.wake _) rfl).setJob _ (by exact trivial)

theorem suspendJob_quiet (J : Job) : Evolves Effect.quiet s (suspendJob J s) := by
  unfold suspendJob
  split
  · exact Evolves.one (.setRunning none) trivial
  · exact .refl _

/-- What an internal step comes to when it is taken. -/
theorem internalStep_next {i : Instr} {j : Nat} {step : Job → Option State} {t : State}
    (h : internalStep i j s step = .next t) : ∃ J, s.job? j = some J ∧ ownsJob J s = true ∧ step J = some t := by
  unfold internalStep at h
  split at h
  · cases h
  · next J hJ =>
    split at h
    · cases h
    · next ho =>
      split at h
      · next u hu => cases h; exact ⟨J, hJ, by simpa using ho, hu⟩
      · cases h

theorem execSeqIssue_playback {j : Nat} {t : State} (h : execSeqIssue j s = .next t) : Evolves (Effect.playback s.cfg) s t := by
  obtain ⟨J, -, -, hs⟩ := internalStep_next h
  split at hs <;> cases hs
  exact issueJob_playback J _

theorem execSeqSleep_quiet {j : Nat} {t : State} (h : execSeqSleep j s = .next t) : Evolves Effect.quiet s t := by
  obtain ⟨J, -, -, hs⟩ := internalStep_next h
  split at hs <;> cases hs
  exact suspendJob_quiet J

theorem execSeqWake_quiet {j : Nat} {t : State} (h : execSeqWake j s = .next t) : Evolves Effect.quiet s t := by
  obtain ⟨J, -, -, hs⟩ := internalStep_next h
  split at hs <;> cases hs
  split
  · exact wakeJob_quiet J
  · exact .refl _

theorem execSeqFinish_quiet {j : Nat} {o : JobOutcome} {t : State} (h : execSeqFinish j o s = .next t) :
    Evolves Effect.quiet s t := by
  obtain ⟨J, -, -, hs⟩ := internalStep_next h
  split at hs <;> cases hs
  exact finishJob_quiet J o

/-- The state a step of a blocking playback leaves. -/
def PlayMove.state : PlayMove → State
  | .on t    => t
  | .over t  => t
  | .stand t => t

theorem playStep_playback (j : Nat) : Evolves (Effect.playback s.cfg) s (playStep j s).state := by
  unfold playStep
  split
  · exact .refl _
  · next J _ =>
    split
    · next p _ =>
      have h := issueJob_playback (s := s) J p
      rcases hm : issueJob J p s with t | ⟨t, o⟩ | t | _ <;> rw [hm] at h
      · exact h
      · exact ((h.pop _ (by trivial)).emit (.result _ _ _) rfl)
      · exact h
      · exact .refl _
    · exact (wakeJob_quiet J).mono Effect.quiet_playback
    · exact .refl _

theorem sleepThrough_quiet (j : Nat) : Evolves Effect.quiet s (sleepThrough j s) := by
  unfold sleepThrough
  split
  · exact .refl _
  · split
    · exact (Evolves.refl _).elapse _ (by trivial)
    · exact .refl _
    · exact .refl _

theorem runBlocking_playback (j n : Nat) : Evolves (Effect.playback s.cfg) s (runBlocking j n s) := by
  induction n generalizing s with
  | zero => exact .refl _
  | succ n ih =>
    have h := ((sleepThrough_quiet (s := s) j).mono Effect.quiet_playback).playback_trans (playStep_playback j)
    unfold runBlocking
    rcases hm : playStep j (sleepThrough j s) with t | t | t <;> rw [hm] at h
    · exact h.playback_trans ih
    · exact h
    · exact h

theorem startBlocking_quiet (sets : List ActionSet) (cb : Option Nat) : Evolves Effect.quiet s
    (startBlocking sets cb s) :=
  (Evolves.one (.addJob sets (.onCaller s.cur) cb) trivial).push _ _ (by trivial)

theorem execSeqPlay_playback {sets : List ActionSet} {bl : Bool} {cb : Option Nat} {t : State}
    (h : execSeqPlay sets bl cb s = .next t) : Evolves (Effect.playback s.cfg) s t := by
  unfold execSeqPlay at h
  split at h
  · cases h; exact ((startBlocking_quiet sets cb).mono Effect.quiet_playback).playback_trans (runBlocking_playback _ _)
  · split at h <;> cases h
    exact (Evolves.step (.addHandle _) (Evolves.one (.addJob sets .onSched cb) trivial) trivial).emit (.result _ _ _) rfl

theorem loadAll_quiet (reqs : List (Path × Int × List (Int × Int))) : Evolves Effect.quiet s (loadAll reqs s).1 := by
  induction reqs generalizing s with
  | nil => exact .refl _
  | cons q rest ih =>
    obtain ⟨path, reps, locks⟩ := q
    obtain ⟨e, he⟩ | ⟨e, he⟩ | ⟨a, he⟩ := performLoad_cases (s := s) (path := path) (reps := reps) (locks := locks) <;>
      simp only [loadAll, he]
    · exact (Evolves.refl _).emit _ (by rfl)
    · exact (storeRead_quiet path).emit _ (by rfl)
    · exact ((storeRead_quiet path).emit _ (by rfl)).trans ih

theorem seqPlayPaths_playback {reqs : List (Path × Int × List (Int × Int))} {bl : Bool} {cb : Option Nat} {t : State}
    (h : seqPlayPaths reqs bl cb s = .next t) : Evolves (Effect.playback s.cfg) s t := by
  have hl := (loadAll_quiet (s := s) reqs).mono (Effect.quiet_playback (cfg := s.cfg))
  unfold seqPlayPaths at h
  simp only at h
  split at h
  · exact hl.playback_trans (execSeqPlay_playback h)
  · cases h; exact hl

/-! ## The dispatch -/

theorem execBusReset_line {id : Int} {t : State} (h : execBusReset id s = .next t) : Evolves Effect.line s t := by
  unfold execBusReset at h
  rcases hf : resetFirst id s with ⟨u, v⟩ | ⟨u, e⟩ | _
  · rw [hf] at h
    obtain ⟨f, -, -, rfl, -⟩ := performWrite_done hf
    have h1 : Evolves Effect.line s ((resetDelay (sendFrame f s)).elapse (sendFrame f s).cfg.tClientReset) :=
      (wait_line _ _ ((sendFrame_evolves f s).mono (Effect.writes_line f))).elapse _ (by trivial)
    simp only at h
    obtain ⟨u, v, hp, rfl⟩ | ⟨u, e, hp, rfl⟩ | ⟨-, rfl⟩ := conclude_cases h
    · obtain ⟨g, -, -, rfl, -⟩ := performWrite_done hp
      exact (h1.trans ((sendFrame_evolves g _).mono (Effect.writes_line g))).emit _ (by trivial)
    · obtain ⟨-, rfl⟩ := performWrite_raised hp
      exact h1.emit _ (by trivial)
    · exact (Evolves.refl _).push _ _ (by trivial)
  · rw [hf] at h
    obtain ⟨-, rfl⟩ := performWrite_raised hf
    cases h
    exact (Evolves.refl _).emit _ (by trivial)
  · rw [hf] at h
    cases h
    exact (Evolves.refl _).push _ _ (by trivial)

theorem execLineReset_line {t : State} (h : execLineReset s = .next t) : Evolves Effect.line s t := by
  unfold execLineReset performLineReset at h
  split at h
  · cases h
    have h1 : Evolves Effect.line s (lineClose s) :=
      wait_line _ _ (Evolves.step .uartClose ((Evolves.refl s).lock (by trivial)) trivial)
    have h2 : ∀ u, Evolves Effect.line s u → Evolves Effect.line s (lineReopen u) := fun u hu =>
      wait_line _ _ ((Evolves.step .uartOpen hu trivial).turn .tx (by trivial))
    exact (((h2 _ (h1.elapse _ (by trivial))).elapse _ (by trivial)).unlock (by trivial)).emit _ (by trivial)
  · cases h; exact (Evolves.refl _).push _ _ (by trivial)

/-- The instructions of the interpolator and of the sequencer, SEQ_LOAD apart. -/
def touchesChannelsOrJobs : Instr → Bool
  | .pwmSetPosition _ _ _ | .pwmTick _ | .pwmSetDeviation _ _ | .pwmGetDeviation _ | .seqPlay _ _ _ | .seqIssue _
  | .seqSleep _ | .seqWake _ | .seqFinish _ _ => true
  | _ => false

theorem execSeqLoad_line {path : Path} {reps : Int} {locks : List (Int × Int)} {t : State}
    (h : execSeqLoad path reps locks s = .next t) : Evolves Effect.line s t := by
  unfold execSeqLoad at h
  have hs : Evolves Effect.line s (s.storeRead path).2 := Evolves.one (.storeRead path) trivial
  obtain ⟨e, he⟩ | ⟨e, he⟩ | ⟨a, he⟩ := performLoad_cases (s := s) (path := path) (reps := reps) (locks := locks) <;>
    rw [he] at h <;> cases h
  · exact (Evolves.refl _).emit _ (by trivial)
  · exact hs.emit _ (by trivial)
  · exact hs.emit _ (by trivial)

/-- Every other instruction touches neither a channel nor a job. -/
theorem exec_line {i : Instr} {t : State} (hi : touchesChannelsOrJobs i = false) (h : exec i s = .next t) :
    Evolves Effect.line s t := by
  cases i
  case encode => cases h; split <;> exact (Evolves.refl _).emit _ (by trivial)
  case decode => cases h; exact (Evolves.refl _).emit _ (by trivial)
  case lineReset => exact execLineReset_line h
  case busReset => exact execBusReset_line h
  case seqLoad => exact execSeqLoad_line h
  all_goals first
    | exact performWrite_next h
    | exact performRead_next h
    | cases hi

/-- Whatever an instruction comes to, it is reached by the elementary effects. -/
theorem exec_any {i : Instr} {t : State} (h : exec i s = .next t) : Evolves Effect.any s t := by
  have q : ∀ {u}, Evolves Effect.quiet s u → Evolves Effect.any s u := fun h => h.mono Effect.quiet_any
  have p : ∀ {u}, Evolves (Effect.playback s.cfg) s u → Evolves Effect.any s u := fun h => h.mono Effect.playback_any
  have l : touchesChannelsOrJobs i = false → Evolves Effect.any s t := fun hi => (exec_line hi h).mono Effect.line_any
  cases i
  case pwmSetPosition => exact q (execPwmSetPosition_quiet h)
  case pwmTick => exact q (execPwmTick_quiet h)
  case pwmSetDeviation => exact q (execPwmSetDeviation_quiet h)
  case pwmGetDeviation => exact q (execPwmGetDeviation_quiet h)
  case seqPlay => exact p (execSeqPlay_playback h)
  case seqIssue => exact p (execSeqIssue_playback h)
  case seqSleep => exact q (execSeqSleep_quiet h)
  case seqWake => exact q (execSeqWake_quiet h)
  case seqFinish => exact q (execSeqFinish_quiet h)
  all_goals exact l rfl

/-! ## Cut operations, agents, steps -/

theorem beginRead_line {op : HostOp} {i : Instr} {id cmd : Int} {ps : List Int} {b : Int} {t : State}
    (h : beginRead op i id cmd ps b s = .next t) : Evolves Effect.line s t := by
  unfold beginRead at h
  split at h
  · cases h; exact (Evolves.refl _).emit _ (by trivial)
  · split at h
    · cases h; exact (Evolves.refl _).emit _ (by trivial)
    · split at h
      · split at h
        · cases h; exact (((Evolves.refl s).lock (by trivial)).unlock (by trivial)).emit _ (by trivial)
        · cases h
          exact (((Evolves.refl s).lock (by trivial)).trans (attemptSend_evolves _)).push _ _ (by trivial)
      · cases h; exact (Evolves.refl _).push _ _ (by trivial)

theorem beginLineReset_line {t : State} (h : beginLineReset s = .next t) : Evolves Effect.line s t := by
  unfold beginLineReset at h
  split at h <;> cases h
  · exact (wait_line _ _ (Evolves.step .uartClose ((Evolves.refl s).lock (by trivial)) trivial)).push _ _ (by trivial)
  · exact (Evolves.refl _).push _ _ (by trivial)

theorem beginBusReset_line {id : Int} {t : State} (h : beginBusReset id s = .next t) : Evolves Effect.line s t := by
  unfold beginBusReset at h
  rcases hf : resetFirst id s with ⟨u, v⟩ | ⟨u, e⟩ | _ <;> rw [hf] at h <;> cases h
  · obtain ⟨f, -, -, rfl, -⟩ := performWrite_done hf
    exact ((sendFrame_evolves f s).mono (Effect.writes_line f)).push _ _ (by trivial)
  · obtain ⟨-, rfl⟩ := performWrite_raised hf
    exact (Evolves.refl _).emit _ (by trivial)
  · exact (Evolves.refl _).push _ _ (by trivial)

theorem begin_any {i : Instr} {t : State} (h : begin i s = .next t) : Evolves Effect.any s t := by
  unfold begin at h
  split at h
  · exact (beginRead_line h).mono Effect.line_any
  · split at h
    · exact (beginLineReset_line h).mono Effect.line_any
    · exact (beginBusReset_line h).mono Effect.line_any
    · cases h; exact (startBlocking_quiet _ _).mono Effect.quiet_any
    · exact exec_any h

theorem resumeTurn_line (x : Exchange) : Evolves Effect.line s (resumeTurn x s) := attemptTurn_evolves.push _ _
    (by trivial)

theorem resumeInspect_line (x : Exchange) : Evolves Effect.line s (resumeInspect x s) := by
  have h := attemptInspect_evolves (s := s) x.cmd
  unfold resumeInspect
  rcases he : attemptInspect x.cmd s with ⟨t, r⟩
  rw [he] at h
  cases r with
  | some v => exact (h.unlock (by trivial)).emit _ (by trivial)
  | none =>
    simp only
    split
    · exact (h.unlock (by trivial)).emit _ (by trivial)
    · exact (h.trans (attemptSend_evolves _)).push _ _ (by trivial)

theorem resumeLineClosed_line : Evolves Effect.line s (resumeLineClosed s) :=
  (wait_line _ _ ((Evolves.one .uartOpen trivial).turn .tx (by trivial))).push _ _ (by trivial)

theorem resumeResetWaited_line (id : Int) : Evolves Effect.line s (resumeResetWaited id s) := by
  unfold resumeResetWaited
  rcases hf : resetSecond id s with ⟨u, v⟩ | ⟨u, e⟩ | _
  · obtain ⟨f, -, -, rfl, -⟩ := performWrite_done hf
    exact ((sendFrame_evolves f s).mono (Effect.writes_line f)).emit _ (by trivial)
  · obtain ⟨-, rfl⟩ := performWrite_raised hf
    exact (Evolves.refl _).emit _ (by trivial)
  · exact (Evolves.refl _).push _ _ (by trivial)

theorem resumePlaying_playback (j : Nat) : Evolves (Effect.playback s.cfg) s (resumePlaying j s) := by
  unfold resumePlaying
  split
  · exact .refl _
  · next J _ =>
    split
    · split
      · exact (wakeJob_quiet J).mono Effect.quiet_playback
      · exact .refl _
    · exact .refl _
    · have h := playStep_playback (s := s) j
      rcases hm : playStep j s with t | t | t <;> rw [hm] at h <;> exact h

theorem resumeCallback_quiet (j : Nat) (o : JobOutcome) : Evolves Effect.quiet s (resumeCallback j o s) := by
  unfold resumeCallback
  split
  · exact .refl _
  · next J _ =>
    split
    · exact endJob_quiet J
    · exact ((endJob_quiet J).pop _ (by trivial)).emit (.result _ _ _) rfl

theorem resumePhase_any {ph : FlightPhase} {t : State} (h : resumePhase ph s = .next t) : Evolves Effect.any s t := by
  have h0 : Evolves Effect.any s (s.popFlight s.cur) := (Evolves.refl s).pop _ (by trivial)
  cases ph with
  | waiting i => exact h0.trans (begin_any h)
  | readReq x => cases h; exact h0.trans ((resumeTurn_line x).mono Effect.line_any)
  | readSettle x => cases h; exact h0.trans ((resumeInspect_line x).mono Effect.line_any)
  | lineClosed => cases h; exact h0.trans (resumeLineClosed_line.mono Effect.line_any)
  | lineOpened => cases h; exact (h0.unlock (by trivial)).emit _ (by trivial)
  | resetWrote id => cases h; exact (h0.emit (.wait _ _) (by trivial)).push _ _ (by trivial)
  | resetWaited id => cases h; exact h0.trans ((resumeResetWaited_line id).mono Effect.line_any)
  | pwmSplit c w d c0 => cases h; exact h0.trans ((resumePwmSplit_quiet c w d c0).mono Effect.quiet_any)
  | playing j => cases h; exact (resumePlaying_playback j).mono Effect.playback_any
  | callback j o => cases h; exact h0.trans ((resumeCallback_quiet j o).mono Effect.quiet_any)

theorem resumeAgent_any {a : Agent} {t : State} (h : resumeAgent a s = .next t) : Evolves Effect.any s t := by
  unfold resumeAgent at h
  split at h
  · cases h
  · split at h
    · exact (Evolves.one (.become a) trivial).trans (resumePhase_any h)
    · cases h; exact .refl _

theorem settle_quiet (j : Nat) : Evolves Effect.quiet s (settle j s) := by
  unfold settle
  split
  · exact .refl _
  · split
    · exact suspendJob_quiet _
    · exact .refl _
    · exact .refl _

theorem schedStep_playback {j : Nat} {t : State} (h : schedStep j s = .next t) : Evolves (Effect.playback s.cfg) s t := by
  unfold schedStep at h
  split at h
  · cases h
  · next J _ =>
    split at h
    · cases h; exact (issueJob_playback J _).trans ((settle_quiet j).mono Effect.quiet_playback)
    · cases h
      split
      · exact (wakeJob_quiet J).mono Effect.quiet_playback
      · exact .refl _
    · cases h

theorem schedMove_playback {j : Nat} {t : State} (h : schedMove j s = .next t) : Evolves (Effect.playback s.cfg) s t := by
  unfold schedMove at h
  have hb : Evolves (Effect.playback s.cfg) s { s with cur := .sched } := Evolves.one (.become .sched) trivial
  split at h
  · cases h; exact .refl _
  · split at h
    · cases h
    · split at h
      · exact hb.trans (schedStep_playback h)
      · split at h
        · cases h
        · split at h
          · cases h
          · split at h
            · exact (Evolves.step (.setRunning (some j)) hb trivial).trans (schedStep_playback h)
            · cases h; exact .refl _

theorem issueBy_next {a : Agent} {i : Instr} {run : Instr → State → Host.Outcome State Fault Refusal} {t : State}
    (h : issueBy a i run s = .next t) : isInternal i = false ∧ mayIssue a s = true ∧ run i { s with cur := a } = .next t := by
  unfold issueBy at h
  split at h
  · cases h
  · next hi =>
    split at h
    · next hm => exact ⟨by simpa using hi, hm, h⟩
    · cases h

/-- What the firing of a timer comes to when it is taken. -/
theorem timerMove_next {c : Nat} {t : State} (h : timerMove c s = .next t) :
    s.topFlight (.tick c) = none ∧ exec (.pwmTick c) { s with cur := .tick c } = .next t := by
  unfold timerMove at h
  split at h
  · cases h
  · next hf => exact ⟨hf, h⟩

/-- Whatever a move comes to, it is reached by the elementary effects. -/
theorem runMove_any {m : Move} {t : State} (h : runMove m s = .next t) : Evolves Effect.any s t := by
  have hb : ∀ a, Evolves Effect.any s { s with cur := a } := fun a => Evolves.one (.become a) trivial
  cases m with
  | call a i => exact (hb a).trans (exec_any (issueBy_next h).2.2)
  | begin a i => exact (hb a).trans (begin_any (issueBy_next h).2.2)
  | frame a bytes =>
    unfold runMove at h
    simp only at h
    split at h
    · exact (hb a).trans (exec_any (issueBy_next h).2.2)
    · cases h
  | resume a => exact resumeAgent_any h
  | tick c => exact (hb (.tick c)).trans (exec_any (timerMove_next h).2)
  | sched j => exact (schedMove_playback h).mono Effect.playback_any
  | pass us =>
    cases h
    unfold passTime
    split
    · exact Evolves.one (.clock _) trivial
    · exact .refl _
  | request a r => cases h
  | playPaths a reqs bl cb =>
    unfold runMove at h
    simp only at h
    split at h
    · exact (hb a).trans ((seqPlayPaths_playback h).mono Effect.playback_any)
    · cases h

theorem nextMove_any : Evolves Effect.any s (nextMove s).2 := by
  unfold nextMove
  split
  · exact Evolves.one (.moves _) trivial
  · exact Evolves.one .draw trivial

/-- Whatever a step comes to, it is reached by the elementary effects. -/
theorem step_any {t : State} (h : step s = .next t) : Evolves Effect.any s t := nextMove_any.trans (runMove_any h)

end

/-! ## What an effect leaves -/

/-- what an effect appends -/
theorem run_trace (e : Effect) (s : State) : ∃ evs, (e.run s).trace = s.trace ++ evs := by
  cases e with
  | emit e => exact ⟨[e], rfl⟩
  | elapse ms => obtain ⟨_, _, h⟩ := elapse_parts s ms; exact ⟨[], by simp [Effect.run, h]⟩
  | turn d => cases d <;> exact ⟨[_, _], by simp [Effect.run, State.setDirection, State.pinWrite, State.emit]; exact ⟨rfl, rfl⟩⟩
  | rxAvailable =>
    obtain ⟨_, _, b, h⟩ := rxAvailable_parts s
    exact ⟨[.rxavail (s.T.rx ++ b).length], by simp only [Effect.run, h]⟩
  | storeRead p => obtain ⟨_, _, e, h, _⟩ := storeRead_parts s p; exact ⟨[e], by simp only [Effect.run, h]⟩
  | rxFlush | rxRead _ | uartClose | uartOpen => exact ⟨[_], rfl⟩
  | _ => exact ⟨[], (List.append_nil _).symm⟩

theorem trace_evolves {P : Effect → Prop} {s t : State} (h : Evolves P s t) : s.trace <+: t.trace := by
  refine h.rel (fun s t => s.trace <+: t.trace) (fun s => List.prefix_rfl) ?_
  intro s t e h _
  obtain ⟨evs, he⟩ := run_trace e t
  exact h.trans ⟨evs, he.symm⟩

theorem events_evolves {P : Effect → Prop} (Q : Event → Prop) (hQ : ∀ e s, P e → ∃ evs, (e.run s).trace
    = s.trace ++ evs ∧ ∀ e ∈ evs, Q e)
    {s t : State} (h : Evolves P s t) : ∃ evs, t.trace = s.trace ++ evs ∧ ∀ e ∈ evs, Q e := by
  refine h.rel (fun s t => ∃ evs, t.trace = s.trace ++ evs ∧ ∀ e ∈ evs, Q e) (fun s => ⟨[], by simp, by simp⟩) ?_
  rintro s t e ⟨evs, h1, h2⟩ hP
  obtain ⟨evs', h3, h4⟩ := hQ e t hP
  exact ⟨evs ++ evs', by rw [h3, h1, List.append_assoc], by intro e he; rcases List.mem_append.1 he with h | h; exacts [h2 e h, h4 e h]⟩


/-- An effect of the transport changes no channel, no job and no handle, and begins no split read. -/
theorem run_line {e : Effect} (he : e.line) (s : State) :
    (e.run s).channels = s.channels ∧ (e.run s).sq = s.sq ∧ (e.run s).handles = s.handles
      ∧ ∀ f ∈ (e.run s).flights, f ∈ s.flights ∨ ∀ c w d c0, f.phase ≠ .pwmSplit c w d c0 := by
  have old : ∀ f ∈ s.flights, f ∈ s.flights ∨ ∀ c w d c0, f.phase ≠ .pwmSplit c w d c0 := fun f h => .inl h
  cases e with
  | elapse ms => obtain ⟨_, _, h⟩ := elapse_parts s ms; rw [Effect.run, h]; exact ⟨rfl, rfl, rfl, old⟩
  | turn d => cases d <;> exact ⟨rfl, rfl, rfl, old⟩
  | rxAvailable => obtain ⟨_, _, _, h⟩ := rxAvailable_parts s; rw [Effect.run, h]; exact ⟨rfl, rfl, rfl, old⟩
  | storeRead p => obtain ⟨_, _, _, h, _⟩ := storeRead_parts s p; rw [Effect.run, h]; exact ⟨rfl, rfl, rfl, old⟩
  | push ph r =>
    refine ⟨rfl, rfl, rfl, fun f hf => ?_⟩
    rcases List.mem_cons.1 hf with rfl | hf
    · exact .inr fun c w d c0 hp => by subst hp; exact he.elim
    · exact .inl hf
  | pop a => exact ⟨rfl, rfl, rfl, fun f hf => .inl (List.mem_of_mem_eraseP hf)⟩
  | channel _ _ | setJob _ | removeJob _ | addJob _ _ _ | setRunning _ | addHandle _ | resolve _ _ => exact he.elim
  | _ => exact ⟨rfl, rfl, rfl, old⟩

theorem Evolves.line_keeps {s t : State} (h : Evolves Effect.line s t) :
    t.channels = s.channels ∧ t.sq = s.sq ∧ t.handles = s.handles
      ∧ ∀ f ∈ t.flights, f ∈ s.flights ∨ ∀ c w d c0, f.phase ≠ .pwmSplit c w d c0 := by
  refine h.rel (fun s t => t.channels = s.channels ∧ t.sq = s.sq ∧ t.handles = s.handles
      ∧ ∀ f ∈ t.flights, f ∈ s.flights ∨ ∀ c w d c0, f.phase ≠ .pwmSplit c w d c0) (fun s => ⟨rfl, rfl, rfl, fun f h => .inl h⟩) ?_
  rintro s t e ⟨h1, h2, h3, h4⟩ he
  obtain ⟨k1, k2, k3, k4⟩ := run_line he t
  refine ⟨k1.trans h1, k2.trans h2, k3.trans h3, fun f hf => ?_⟩
  rcases k4 f hf with h | h
  · exact h4 f h
  · exact .inr h

/-- A quiet effect leaves the line alone and appends no event of it. -/
theorem run_quiet {e : Effect} (he : e.quiet) (s : State) :
    (e.run s).T = s.T ∧ ∃ evs, (e.run s).trace = s.trace ++ evs ∧ ∀ e ∈ evs, e.onLine = false := by
  cases e with
  | emit e => exact ⟨rfl, [e], rfl, by simpa [Effect.quiet] using he⟩
  | elapse ms => obtain ⟨_, _, h⟩ := elapse_parts s ms; rw [Effect.run, h]; exact ⟨rfl, [], (List.append_nil _).symm, by simp⟩
  | storeRead p => obtain ⟨_, _, e, h, he⟩ := storeRead_parts s p; rw [Effect.run, h]; exact ⟨rfl, [e], rfl, by simpa using he⟩
  | turn _ | rxFlush | rxAvailable | rxRead _ | uartClose | uartOpen | lock | unlock => exact he.elim
  | _ => exact ⟨rfl, [], (List.append_nil _).symm, by simp⟩

theorem Evolves.quiet_keeps {s t : State} (h : Evolves Effect.quiet s t) :
    t.T = s.T ∧ ∃ evs, t.trace = s.trace ++ evs ∧ ∀ e ∈ evs, e.onLine = false :=
  ⟨h.rel (fun s t => t.T = s.T) (fun _ => rfl) fun _ t _ ht he => (run_quiet he t).1.trans ht,
    events_evolves (fun e => e.onLine = false) (fun _ s he => (run_quiet he s).2) h⟩

end Machine
end Sys2Proof
end

