-- ==== Sys2Proof/Laws/Jobs.lean ====
section
/-! SUPPORT. Jobs (R30, R31, R113 to R117): finding and changing one, who steps it, and that the shared operations keep the invariant. -/

namespace Sys2Proof
namespace Machine

/-! ## Finding and changing a job -/

theorem job_id {s : State} {j : Nat} {J : Job} (h : s.job? j = some J) : J.id = j := by
  have := List.find?_some h; simpa using this

theorem job?_mem {s : State} {j : Nat} {J : Job} (h : s.job? j = some J) : J ∈ s.sq.jobs := List.mem_of_find?_eq_some h

theorem job?_congr {s t : State} (h : s.sq.jobs = t.sq.jobs) (j : Nat) : s.job? j = t.job? j :=
  by unfold State.job?; rw [h]

theorem job?_setJob {s : State} {j : Nat} {J K : Job} (h : s.job? j = some K) (hJ : J.id = j) : (s.setJob J).job? j
    = some J := by
  unfold State.job? State.setJob at *
  simp only
  generalize s.sq.jobs = l at *
  induction l with
  | nil => simp at h
  | cons a l ih =>
    simp only [List.map_cons, List.find?_cons] at h ⊢
    by_cases ha : a.id = j
    · simp [ha, hJ]
    · have hb : (a.id == j) = false := by simpa using ha
      rw [hb] at h
      have hne : ¬ a.id = J.id := by rw [hJ]; exact ha
      simp only [hne, if_false, hb]; exact ih h

theorem job?_setJob_ne {s : State} {j : Nat} {J : Job} (hJ : J.id ≠ j) : (s.setJob J).job? j = s.job? j := by
  unfold State.job? State.setJob
  simp only
  generalize s.sq.jobs = l
  induction l with
  | nil => rfl
  | cons a l ih =>
    simp only [List.map_cons, List.find?_cons]
    by_cases ha : a.id = J.id
    · have h1 : (J.id == j) = false := by simpa using hJ
      have h2 : (a.id == j) = false := by rw [ha]; exact h1
      simp only [ha, if_true, h1, ih]
    · simp only [ha, if_false, ih]

theorem job?_removeJob (s : State) (j : Nat) : (s.removeJob j).job? j = none := by
  simp [State.job?, State.removeJob]

theorem job?_removeJob_ne {s : State} {i j : Nat} (h : i ≠ j) : (s.removeJob i).job? j = s.job? j := by
  unfold State.job? State.removeJob
  simp only
  generalize s.sq.jobs = l
  induction l with
  | nil => rfl
  | cons a l ih =>
    by_cases ha : a.id = i
    · have h2 : (a.id == j) = false := by rw [ha]; simpa using h
      rw [List.filter_cons_of_neg (by simpa using ha), List.find?_cons, h2]; exact ih
    · rw [List.filter_cons_of_pos (by simpa using ha), List.find?_cons, List.find?_cons, ih]

/-! ## Internal steps -/

/-- The agent that executes a job (R30, R31). -/
theorem owns_iff {J : Job} {s : State} : ownsJob J s = true ↔
    J.ctx = .onCaller s.cur ∨ (J.ctx = .onSched ∧ s.cur = .sched ∧ s.sq.running = some J.id) := by
  unfold ownsJob
  rw [Bool.and_eq_true, Bool.or_eq_true, decide_eq_true_iff, decide_eq_true_iff, decide_eq_true_iff]
  rcases hc : J.ctx with a | _
  · simp [Ctx.agent]
  · simp only [Ctx.agent, reduceCtorEq, false_or, true_and, ne_eq, not_true_eq_false]
    constructor
    · rintro ⟨h1, h2⟩; exact ⟨h1.symm, h2⟩
    · rintro ⟨h1, h2⟩; exact ⟨h1.symm, h2⟩

/-- An internal step of the job's agent (R133). -/
theorem internalStep_eq {i : Instr} {j : Nat} {s : State} {J : Job} {step : Job → Option State}
    (h : s.job? j = some J) (hm : ownsJob J s = true) :
    internalStep i j s step = match step J with | some t => .next t | none => .refused (.noSuchStep i) := by
  unfold internalStep; rw [h]; exact if_neg (fun h => h hm)

theorem sleepOver_iff {s : State} {J : Job} {d : Nat} :
    s.sleepOver J d = true ↔ (s.cfg.timed = true → J.sleptAt + (d : Rat) ≤ s.now) := by
  unfold State.sleepOver State.reached; cases s.cfg.timed <;> simp

/-! ## The invariant of jobs (R30, R31), for the shared operations -/

theorem jobsOk_congr {s t : State} (h1 : t.sq = s.sq) (h2 : t.handles = s.handles) (h : jobsOk s) : jobsOk t := by
  refine ⟨by rw [h1]; exact h.fresh, by rw [h1]; exact h.distinct, by rw [h1, h2]; exact h.handles, ?_⟩
  intro j hj; rw [h1] at hj
  obtain ⟨J, hJ, hc⟩ := h.running j hj
  exact ⟨J, (job?_congr (by rw [h1]) j).trans hJ, hc⟩

theorem jobsOk_setJob {s : State} {J K : Job} (h : jobsOk s) (hK : s.job? J.id = some K) (hc : J.ctx = K.ctx)
    : jobsOk (s.setJob J) := by
  have hid : (s.setJob J).sq.jobs.map Job.id = s.sq.jobs.map Job.id := by
    simp only [State.setJob, List.map_map]
    apply List.map_congr_left
    intro a _; simp only [Function.comp]; split
    · next h => exact h.symm
    · rfl
  refine ⟨?_, by rw [hid]; exact h.distinct, h.handles, ?_⟩
  · intro A hA
    simp only [State.setJob, List.mem_map] at hA
    obtain ⟨B, hB, rfl⟩ := hA
    split
    · next he => have := h.fresh B hB; rw [he] at this; exact this
    · exact h.fresh B hB
  · intro j hj
    obtain ⟨A, hA, hAc⟩ := h.running j hj
    by_cases he : J.id = j
    · subst he
      rw [hK] at hA; cases hA
      exact ⟨J, job?_setJob hK rfl, by rw [hc]; exact hAc⟩
    · exact ⟨A, by rw [job?_setJob_ne he]; exact hA, hAc⟩

theorem jobsOk_running_none {s : State} (h : jobsOk s) : jobsOk (s.setRunning none) :=
  ⟨h.fresh, h.distinct, h.handles, fun j hj => by cases hj⟩

theorem jobsOk_removeJob {s : State} {j : Nat} (h : jobsOk s) (hr : s.sq.running ≠ some j) : jobsOk (s.removeJob j) := by
  refine ⟨fun J hJ => h.fresh J (List.mem_of_mem_filter hJ), ?_, h.handles, ?_⟩
  · exact h.distinct.sublist ((List.filter_sublist).map _)
  · intro i hi
    obtain ⟨A, hA, hAc⟩ := h.running i hi
    refine ⟨A, ?_, hAc⟩
    rw [job?_removeJob_ne]; exact hA
    rintro rfl; exact hr hi

theorem jobsOk_endJob {s : State} {J : Job} (h : jobsOk s) (hJ : ∃ K, s.job? J.id = some K ∧ K.ctx = J.ctx) : jobsOk
    (endJob J s) := by
  obtain ⟨K, hK, hc⟩ := hJ
  unfold endJob
  split
  · exact jobsOk_removeJob (jobsOk_running_none h) (by simp [State.setRunning])
  · next a hctx => 
    apply jobsOk_removeJob h
    intro hr
    obtain ⟨A, hA, hAc⟩ := h.running _ hr
    rw [hK] at hA; cases hA
    rw [hc, hctx] at hAc; cases hAc

theorem jobsOk_resolve {s : State} (j o) (h : jobsOk s) : jobsOk (s.resolveHandle j o) := by
  refine ⟨h.fresh, h.distinct, ?_, h.running⟩
  intro x hx
  simp only [State.resolveHandle, List.mem_map] at hx
  obtain ⟨y, hy, rfl⟩ := hx
  have := h.handles y hy
  simp only [State.resolveHandle]
  split
  · next hc => rw [hc.1] at this; exact this
  · exact this

theorem jobsOk_finish {s : State} {J : Job} (h : jobsOk s) (hJ : ∃ K, s.job? J.id = some K ∧ K.ctx = J.ctx)
    (o : JobOutcome) (u : State) : jobsOk ((finishJob J o s).after u) := by
  have h1 : jobsOk (s.emit (.complete J.id o)) := jobsOk_congr (s := s) rfl rfl h
  have h2 : ∀ t : State, t = (match J.ctx with
    | .onSched    => (s.emit (.complete J.id o)).resolveHandle J.id o
    | .onCaller _ => s.emit (.complete J.id o)) → jobsOk t ∧ t.sq = s.sq := by
    rintro t rfl
    split
    · exact ⟨jobsOk_resolve _ _ h1, rfl⟩
    · exact ⟨h1, rfl⟩
  obtain ⟨h3, h4⟩ := h2 _ rfl
  obtain ⟨K, hK, hc⟩ := hJ
  unfold finishJob
  simp only
  split
  · refine jobsOk_congr (s := State.setJob { J with phase := .done } _) rfl rfl ?_
    refine jobsOk_setJob h3 (K := K) ?_ hc.symm
    exact (job?_congr (congrArg Sequencer.jobs h4) _).trans hK
  · exact jobsOk_endJob h3 ⟨K, (job?_congr (congrArg Sequencer.jobs h4) _).trans hK, hc⟩

theorem jobsOk_addJob {s : State} (sets ctx cb) (h : jobsOk s) : jobsOk (s.addJob sets ctx cb) := by
  refine ⟨?_, ?_, ?_, ?_⟩
  · intro J hJ
    simp only [State.addJob, List.mem_append, List.mem_singleton] at hJ ⊢
    rcases hJ with hJ | rfl
    · have := h.fresh J hJ; omega
    · simp
  · simp only [State.addJob, List.map_append, List.map_cons, List.map_nil]
    rw [List.nodup_append]
    refine ⟨h.distinct, by simp, ?_⟩
    intro a ha b hb hab
    simp only [List.mem_singleton] at hb
    obtain ⟨J, hJ, rfl⟩ := List.mem_map.1 ha
    have := h.fresh J hJ
    omega
  · intro x hx; have := h.handles x hx; simp only [State.addJob]; omega
  · intro j hj
    obtain ⟨J, hJ, hc⟩ := h.running j hj
    refine ⟨J, ?_, hc⟩
    simp only [State.job?, State.addJob, List.find?_append]
    unfold State.job? at hJ
    rw [hJ]; rfl

theorem jobsOk_wake {s : State} {j : Nat} {J : Job} (h : jobsOk s) (hJ : s.job? j = some J) : jobsOk (wakeJob J s) := by
  have hid := job_id hJ
  exact jobsOk_setJob (K := J) (jobsOk_congr (s := s) rfl rfl h) ((job?_congr (t := s) rfl _).trans (by simp only [hid]; exact hJ)) rfl

theorem jobsOk_suspend {s : State} {J : Job} (h : jobsOk s) : jobsOk (suspendJob J s) := by
  unfold suspendJob; split
  · exact jobsOk_running_none h
  · exact h

end Machine
end Sys2Proof
end

