-- ==== Sys2Proof/Laws/Line.lean ====
section
/-! SUPPORT. The transport (R70 to R76): what its operations do to the line, and what they leave alone. -/

namespace Sys2Proof
namespace Machine

theorem tlFree_iff {s : State} : s.tlFree = true ↔ s.T.tl = .free := by simp [State.tlFree]

/-- What sending a frame does (R71, R72). -/
theorem sendFrame_eq (f : Frame) (s : State) :
    sendFrame f s =
      ({ s with
        T := { s.T with dir := .tx, txEn := .asserted, rxEn := .deasserted, tl := .free },
        trace := s.trace ++ [.pin .rxEn .deasserted, .pin .txEn .asserted, .tx f] } : State).elapse (txTime s.cfg f) := by
  by_cases h : s.cfg.timed <;>
    simp [sendFrame, State.acquireTL, State.setDirection, State.pinWrite, State.emit, State.uartWrite, State.elapse,
      State.releaseTL, h]

/-- BUS_SET_POSITION as a playback performs it (R81). -/
theorem performSetPosition_eq (id pos dur : Int) (s : State) :
    performSetPosition id pos dur s =
      match encodeFrame s.cfg id (s.cfg.cmdInt .moveTimeWrite) [servoPosition s.cfg pos, servoDuration s.cfg dur] with
      | .error e => .raised s e
      | .ok f    => if s.tlFree then .done (sendFrame f s) .done else .blocked := rfl

/-- After the clamps only a bad id is an error (R81). -/
theorem moveFrame_ok {cfg : Config} (hc : cfg.clampsOk = true) (id pos dur : Int) (h : 0 ≤ id) (h2 : id ≤ 254) :
    ∃ f, encodeFrame cfg id (cfg.cmdInt .moveTimeWrite) [servoPosition cfg pos, servoDuration cfg dur] = .ok f := by
  refine ⟨_, encode_of_ok ((idOk_iff id).2 ⟨h, h2⟩) (byteOk_cmdInt _ _) (.inr ⟨by simp, ?_⟩)⟩
  simp only [List.all_cons, List.all_nil, Bool.and_true, Bool.and_eq_true, wordOk_iff, servoPosition, servoDuration,
    clamp]
  simp only [Config.clampsOk, Bool.and_eq_true, decide_eq_true_eq] at hc
  omega

/-! ## What the parts of an exchange leave alone -/

/-- Two states that differ at most in the line's direction and buffer, the history, time and the draws. -/
structure LineOnly (s t : State) : Prop where
  cur : t.cur = s.cur
  tl : t.T.tl = s.T.tl
  op : t.T.isOpen = s.T.isOpen
  fl : t.flights = s.flights
  ch : t.channels = s.channels

theorem LineOnly.refl (s : State) : LineOnly s s := ⟨rfl, rfl, rfl, rfl, rfl⟩

theorem LineOnly.trans {s t u : State} (a : LineOnly s t) (b : LineOnly t u) : LineOnly s u :=
  ⟨b.cur.trans a.cur, b.tl.trans a.tl, b.op.trans a.op, b.fl.trans a.fl, b.ch.trans a.ch⟩

theorem lineOnly_emit (s : State) (e) : LineOnly s (s.emit e) := ⟨rfl, rfl, rfl, rfl, rfl⟩

theorem lineOnly_elapse (s : State) (ms) : LineOnly s (s.elapse ms) :=
  by obtain ⟨a, b, e⟩ := elapse_parts s ms; rw [e]; exact ⟨rfl, rfl, rfl, rfl, rfl⟩

theorem lineOnly_turn (s : State) (d) : LineOnly s (s.setDirection d) := by cases d <;> exact ⟨rfl, rfl, rfl, rfl, rfl⟩

theorem lineOnly_send (s : State) (req) : LineOnly s (attemptSend req s) := 
  (((LineOnly.trans (s := s) (t := s.rxFlush) ⟨rfl, rfl, rfl, rfl, rfl⟩ (lineOnly_turn _ _)).trans (lineOnly_emit _ _)).trans (lineOnly_elapse _ _)).trans (lineOnly_emit _ _)

theorem lineOnly_aturn (s : State) : LineOnly s (attemptTurn s) := (lineOnly_turn _ _).trans (lineOnly_emit _ _)

theorem lineOnly_inspect (s : State) (cmd) : LineOnly s (attemptInspect cmd s).1 := by
  obtain ⟨l, d, b, h⟩ := rxAvailable_parts s
  have h1 : LineOnly s s.rxAvailable.2 := by rw [h]; exact ⟨rfl, rfl, rfl, rfl, rfl⟩
  unfold attemptInspect
  simp only
  split
  · exact h1
  · have h2 : LineOnly s (s.rxAvailable.2.rxRead s.rxAvailable.1).2 := h1.trans ⟨rfl, rfl, rfl, rfl, rfl⟩
    split <;> exact h2

theorem lineOnly_attempt (s : State) (cmd req) : LineOnly s (attempt cmd req s).1 :=
  ((((lineOnly_send s req).trans (lineOnly_elapse _ _)).trans (lineOnly_aturn _)).trans (lineOnly_elapse _ _)).trans (lineOnly_inspect _ _)

theorem lineOnly_loop (s : State) (cmd req n) : LineOnly s (readLoop cmd req n s).1 := by
  induction n generalizing s with
  | zero => exact .refl s
  | succ n ih =>
    unfold readLoop
    have := lineOnly_attempt s cmd req
    rcases hm : attempt cmd req s with ⟨t, _ | v⟩ <;> rw [hm] at this
    · exact this.trans (ih t)
    · exact this

end Machine
end Sys2Proof
end

