-- ==== Sys2Proof/Laws/Locks.lean ====
section
/-! SUPPORT. Locks (R21, R26, R48): every operation that runs to its end gives TL and the channel mutexes back, and leaves the operations in progress of other agents alone. -/

namespace Sys2Proof
namespace Machine

/-- The current agent stands in no operation that holds TL. -/
def NoTL (s : State) : Prop := ∀ f ∈ s.flights, f.agent = s.cur → f.phase.holdsTL = false

/-- What an operation that ends with TL as it found it leaves alone. -/
structure Stay (s t : State) : Prop where
  n : NoTL t
  cur : t.cur = s.cur
  tl : t.T.tl = s.T.tl
  op : t.T.isOpen = s.T.isOpen
  top : ∀ a, a ≠ s.cur → t.topFlight a = s.topFlight a
  filt : t.flights.filter (fun f => f.phase.holdsTL) = s.flights.filter (fun f => f.phase.holdsTL)
  mf : mutexesFree s → mutexesFree t

def Stays (s t : State) : Prop := NoTL s → Stay s t

theorem Stays.refl (s : State) : Stays s s := fun h => ⟨h, rfl, rfl, rfl, fun _ _ => rfl, rfl, id⟩

theorem Stays.trans {s t u : State} (h : Stays s t) (k : Stays t u) : Stays s u := fun n =>
  let a := h n; let b := k a.n
  ⟨b.n, b.cur.trans a.cur, b.tl.trans a.tl, b.op.trans a.op, fun x hx => (b.top x (by rw [a.cur]; exact hx)).trans (a.top x hx), b.filt.trans a.filt, b.mf ∘ a.mf⟩

theorem Stays.same {s t : State} (h1 : t.cur = s.cur) (h2 : t.T.tl = s.T.tl) (h3 : t.T.isOpen = s.T.isOpen)
    (h4 : t.flights = s.flights) (h5 : mutexesFree s → mutexesFree t) : Stays s t := fun n =>
  ⟨by unfold NoTL; rw [h1, h4]; exact n, h1, h2, h3, fun a _ => by unfold State.topFlight; rw [h4], by rw [h4], h5⟩

theorem Stays.emit {s t : State} (h : Stays s t) (e) : Stays s (t.emit e) := h.trans (.same rfl rfl rfl rfl id)

theorem Stays.elapse {s t : State} (h : Stays s t) (ms) : Stays s (t.elapse ms) := h.trans (by
  obtain ⟨a, b, e⟩ := elapse_parts t ms
  rw [e]; exact .same rfl rfl rfl rfl id)

theorem Stays.push {s t : State} (h : Stays s t) {ph r} (hp : ph.holdsTL = false) : Stays s (t.pushFlight ph r) :=
  h.trans fun n => by
  refine ⟨?_, rfl, rfl, rfl, fun a ha => ?_, ?_, id⟩
  · intro f hf hc
    rcases List.mem_cons.1 hf with rfl | hf
    · exact hp
    · exact n f hf hc
  · have : (t.cur == a) = false := by simpa using fun h => ha h.symm
    simp [State.topFlight, State.pushFlight, this]
  · simp [State.pushFlight, hp]

theorem filter_eraseP (l : List Flight) (q : Flight → Bool) (h : ∀ f ∈ l, q f = true → f.phase.holdsTL = false) :
    (l.eraseP q).filter (fun f => f.phase.holdsTL) = l.filter (fun f => f.phase.holdsTL) := by
  induction l with
  | nil => rfl
  | cons a l ih =>
    rw [List.eraseP_cons]
    by_cases ha : q a = true
    · simp [ha, h a (by simp) ha]
    · have ha : q a = false := by simpa using ha
      rw [ha]
      simp only [cond_false, List.filter_cons, ih (fun f hf => h f (List.mem_cons_of_mem _ hf))]

theorem find_eraseP (l : List Flight) (q p : Flight → Bool) (h : ∀ f, q f = true → p f = false) :
    (l.eraseP q).find? p = l.find? p := by
  induction l with
  | nil => rfl
  | cons a l ih =>
    rw [List.eraseP_cons]
    by_cases ha : q a = true
    · simp [ha, h a ha]
    · have ha : q a = false := by simpa using ha
      rw [ha]
      simp only [cond_false, List.find?_cons, ih]

theorem Stays.pop {s t : State} (h : Stays s t) : Stays s (t.popFlight t.cur) := h.trans fun n => by
  refine ⟨fun f hf hc => n f (List.mem_of_mem_eraseP hf) hc, rfl, rfl, rfl, fun a ha => ?_, ?_, id⟩
  · unfold State.topFlight State.popFlight
    apply find_eraseP
    intro f hf; simp only [beq_iff_eq] at hf; simp only [hf]; simpa using fun h => ha h.symm
  · apply filter_eraseP
    intro f hf hq; exact n f hf (by simpa using hq)

theorem Stays.jobs {s t u : State} (h : Stays s t) (h1 : u.cur = t.cur) (h2 : u.T = t.T) (h4 : u.flights = t.flights)
    (h5 : u.channels = t.channels) : Stays s u :=
  h.trans (.same h1 (by rw [h2]) (by rw [h2]) h4 (by unfold mutexesFree; rw [h5]; exact id))

theorem stay_send {f : Frame} {s : State} (h : s.T.tl = .free) : Stays s (sendFrame f s) := by
  rw [sendFrame_eq]
  refine Stays.elapse ?_ _
  exact .same rfl (by simp [h]) rfl rfl id

theorem stay_cycle {s t : State} (h : s.T.tl = .free) (hs : LineOnly s.acquireTL t) : Stays s t.releaseTL :=
  .same (hs.cur) (by rw [h]; rfl) hs.op hs.fl (by unfold mutexesFree; rw [show t.releaseTL.channels = t.channels from rfl, hs.ch]; exact id)

theorem stay_block {s : State} (i) : Stays s (s.block i) := (Stays.refl s).push rfl

theorem stay_write {s t : State} {op i id cmd ps} (h : (performWrite id cmd ps s).conclude op i s = .next t)
    : Stays s t := by
  unfold performWrite at h
  split at h
  · cases h; exact (Stays.refl s).emit _
  · split at h
    · next hl => cases h; exact (stay_send (tlFree_iff.1 hl)).emit _
    · cases h; exact stay_block _

theorem stay_read {s t : State} {op i id cmd ps b} (h : (performRead id cmd ps b s).conclude op i s = .next t)
    : Stays s t := by
  unfold performRead at h
  split at h
  · cases h; exact (Stays.refl s).emit _
  · split at h
    · cases h; exact (Stays.refl s).emit _
    · split at h
      · next hl => cases h; exact (stay_cycle (tlFree_iff.1 hl) (lineOnly_loop _ _ _ _)).emit _
      · cases h; exact stay_block _

theorem stay_mod {s : State} (c : Int) (f) (hf : ∀ ch, ch.mutex = .free → (f ch).mutex = .free) : Stays s
    (s.modifyChannel c f) :=
  .same rfl rfl rfl rfl fun h => modify_keeps_free h hf

theorem stay_imm {s : State} (c w dev) : Stays s (setPosImmediate c w dev s) := by
  have : setPosImmediate c w dev s = (s.modifyChannel c ((fun ch => { ch with mutex := .free }) ∘ (fun ch => { ch with cur := (w : Rat), tgt := (w : Rat), rem := s.cfg.idleTicks }) ∘ fun ch => { ch with mutex := .held s.cur })).emit (.pwm c.toNat ((w : Rat) + (dev : Rat))) := by
    simp [setPosImmediate, State.acquireCL, State.releaseCL, State.modifyChannel, State.pwmWrite, State.emit, List.modify_modify_eq]
  rw [this]; exact (stay_mod c _ (fun _ _ => rfl)).emit _

theorem stay_timed {s : State} (c w d c0) : Stays s (setPosTimed c w d c0 s) := by
  unfold setPosTimed State.acquireCL State.releaseCL
  simp only [modifyChannel_twice]
  exact stay_mod _ _ (fun _ _ => rfl)

theorem stay_tick {s : State} (c ch) : Stays s (tickChannel c ch s) := by
  unfold tickChannel
  simp only
  have hr : ∀ u, Stays u (rearm (c : Int) u) := by
    intro u; unfold rearm; split
    · exact stay_mod _ _ (fun _ h => h)
    · exact .refl _
  refine Stays.trans ?_ (hr _)
  have key : ∀ (g : Channel → Channel) (evs : List Event), Stays s { s with channels := s.channels.modify (c - 1) ((fun (ch : Channel) => { ch with mutex := .free }) ∘ g ∘ fun (ch : Channel) => { ch with mutex := .held s.cur }), trace := s.trace ++ evs } := by
    intro g evs
    exact .same rfl rfl rfl rfl fun h => modify_keeps_free h (fun _ _ => rfl)
  split
  · have := key id [.tickfire c]
    simpa [State.acquireCL, State.releaseCL, State.modifyChannel, State.emit, List.modify_modify_eq] using this
  · split
    · have := key (fun ch' => { ch' with rem := ch.rem - 1, cur := ch.tgt + ch.delta * ((ch.rem - 1 : Int) : Rat) }) [.tickfire c, .pwm c (ch.tgt + ch.delta * ((ch.rem - 1 : Int) : Rat) + (ch.dev : Rat))]
      simpa [State.acquireCL, State.releaseCL, State.modifyChannel, State.emit, State.pwmWrite, List.modify_modify_eq] using this
    · split
      · next hz =>
        have := key (fun ch => { ch with rem := s.cfg.idleTicks, cur := ch.tgt }) [.tickfire c, .pwm c (ch.tgt + (ch.dev : Rat))]
        simpa [State.acquireCL, State.releaseCL, State.modifyChannel, State.emit, State.pwmWrite, List.modify_modify_eq] using this
      · have := key (fun ch' => { ch' with rem := ch.rem - 1 }) [.tickfire c]
        simpa [State.acquireCL, State.releaseCL, State.modifyChannel, State.emit, List.modify_modify_eq] using this

theorem stay_endJob {s t : State} (J) (h : Stays s t) : Stays s (endJob J t) := by
  unfold endJob; split <;> exact h.jobs rfl rfl rfl rfl

theorem stay_finish {s u : State} (J o) : Stays s ((finishJob J o s).after u) := by
  unfold finishJob
  simp only
  have h2 : ∀ t : State, t = (match J.ctx with
    | .onSched    => (s.emit (.complete J.id o)).resolveHandle J.id o
    | .onCaller _ => s.emit (.complete J.id o)) → Stays s t := by
    rintro t rfl; split <;> exact .same rfl rfl rfl rfl id
  have h3 := h2 _ rfl
  split
  · exact (Stays.jobs (u := State.setJob { J with phase := .done } _) h3 rfl rfl rfl rfl).push rfl
  · exact stay_endJob J h3

theorem stay_issue {s : State} (J p) : Stays s ((issueJob J p s).after s) := by
  unfold issueJob
  split
  · exact stay_finish _ _
  · split
    · next c _ =>
      unfold issueCmd
      split
      · rw [performSetPosition_eq]
        split
        · next heq => 
          split at heq <;> [cases heq; skip]
          split at heq <;> cases heq
          next hl => exact (stay_send (tlFree_iff.1 hl)).jobs rfl rfl rfl rfl
        · next heq => 
          split at heq
          · cases heq; exact stay_finish _ _
          · split at heq <;> cases heq
        · exact .refl s
      · split
        · exact stay_finish _ _
        · split
          · exact .refl s
          · split
            · exact (stay_imm _ _ _).jobs rfl rfl rfl rfl
            · split
              · exact (Stays.refl s).jobs rfl rfl rfl rfl
              · exact (stay_timed _ _ _ _).jobs rfl rfl rfl rfl
    · exact .same rfl rfl rfl rfl id

theorem stay_wake {s : State} (J) : Stays s (wakeJob J s) := .same rfl rfl rfl rfl id

theorem stay_suspend {s t : State} (J) (h : Stays s t) : Stays s (suspendJob J t) := by
  unfold suspendJob; split
  · exact h.jobs rfl rfl rfl rfl
  · exact h

theorem stay_playStep {s : State} (j) : Stays s (playStep j s).state := by
  unfold playStep
  split
  · exact .refl s
  · next J hJ =>
    split
    · next p _ =>
      have hi := stay_issue (s := s) J p
      rcases hm : issueJob J p s with t | ⟨t, o⟩ | t | _ <;> rw [hm] at hi
      · exact hi
      · exact (Stays.pop hi).emit _
      · exact hi
      · exact .refl s
    · exact stay_wake _
    · exact .refl s

theorem stay_sleep {s : State} (j) : Stays s (sleepThrough j s) := by
  unfold sleepThrough
  split
  · exact .refl s
  · split
    · exact (Stays.refl s).elapse _
    · exact .refl s
    · exact .refl s

theorem stay_run {s : State} (j n) : Stays s (runBlocking j n s) := by
  induction n generalizing s with
  | zero => exact .refl s
  | succ n ih =>
    have hp := (stay_sleep (s := s) j).trans (stay_playStep j)
    unfold runBlocking
    rcases hm : playStep j (sleepThrough j s) with t | t | t <;> rw [hm] at hp
    · exact hp.trans ih
    · exact hp
    · exact hp

theorem stay_start {s : State} (sets cb) : Stays s (startBlocking sets cb s) := Stays.push (s := s) (t :=
  s.addJob sets (.onCaller s.cur) cb) (ph := .playing s.sq.nextId) (r := s.now) (.same rfl rfl rfl rfl id) rfl

end Machine
end Sys2Proof
end

