-- ==== Sys2Proof/Laws/PerInstr.lean ====
section
/-! SUPPORT. Laws stated per instruction. `Framed`: whatever frame the encoder gives an instruction begins with the
header, and its length byte counts the bytes after the header and the device id (R52, R53). -/

namespace Sys2Proof
namespace Laws

/-- The law `Framed` of an instruction. -/
def Framed.Statement (i : Instr) : Prop :=
  ∀ cfg f, encode cfg i = some f → f.take 2 = [cfg.header1, cfg.header2] ∧ f.length = (f.getD 3 0).toNat + 3

/-- The law `Framed` holds of every instruction. -/
theorem framed_all (i : Instr) : Framed.Statement i := by
  intro cfg f h
  unfold encode at h
  split at h
  · cases h
  · next c id ps _ =>
    cases he : encodeFrame cfg id (cfg.cmdInt c) ps with
    | error e => rw [he] at h; cases h
    | ok g =>
      rw [he] at h
      cases h
      obtain ⟨-, -, rfl, hp⟩ := encode_ok he
      have hl := paramBytes_len hp
      have hn : (BitVec.ofNat 8 ((paramBytes ps).length + 3)).toNat = (paramBytes ps).length + 3 := by simp; omega
      refine ⟨rfl, ?_⟩
      show _ = (BitVec.ofNat 8 ((paramBytes ps).length + 3)).toNat + 3
      rw [hn]
      simp [frameOf]

/-! ## One lemma for each constructor -/

theorem Framed.moveTimeWrite (id pos dur : Int) : Framed.Statement (.moveTimeWrite id pos dur) := framed_all _
theorem Framed.moveTimeRead (id : Int) : Framed.Statement (.moveTimeRead id) := framed_all _
theorem Framed.moveStop (id : Int) : Framed.Statement (.moveStop id) := framed_all _
theorem Framed.idWrite (id newId : Int) : Framed.Statement (.idWrite id newId) := framed_all _
theorem Framed.idRead (id : Int) : Framed.Statement (.idRead id) := framed_all _
theorem Framed.angleOffsetAdjust (id dev : Int) : Framed.Statement (.angleOffsetAdjust id dev) := framed_all _
theorem Framed.angleOffsetWrite (id : Int) : Framed.Statement (.angleOffsetWrite id) := framed_all _
theorem Framed.angleOffsetRead (id : Int) : Framed.Statement (.angleOffsetRead id) := framed_all _
theorem Framed.angleLimitWrite (id lo hi : Int) : Framed.Statement (.angleLimitWrite id lo hi) := framed_all _
theorem Framed.angleLimitRead (id : Int) : Framed.Statement (.angleLimitRead id) := framed_all _
theorem Framed.vinLimitWrite (id lo hi : Int) : Framed.Statement (.vinLimitWrite id lo hi) := framed_all _
theorem Framed.vinLimitRead (id : Int) : Framed.Statement (.vinLimitRead id) := framed_all _
theorem Framed.tempMaxLimitWrite (id t : Int) : Framed.Statement (.tempMaxLimitWrite id t) := framed_all _
theorem Framed.tempMaxLimitRead (id : Int) : Framed.Statement (.tempMaxLimitRead id) := framed_all _
theorem Framed.tempRead (id : Int) : Framed.Statement (.tempRead id) := framed_all _
theorem Framed.vinRead (id : Int) : Framed.Statement (.vinRead id) := framed_all _
theorem Framed.posRead (id : Int) : Framed.Statement (.posRead id) := framed_all _
theorem Framed.loadOrUnloadWrite (id v : Int) : Framed.Statement (.loadOrUnloadWrite id v) := framed_all _
theorem Framed.loadOrUnloadRead (id : Int) : Framed.Statement (.loadOrUnloadRead id) := framed_all _
theorem Framed.encode (id cmd : Int) (ps : List Int) : Framed.Statement (.encode id cmd ps) := framed_all _
theorem Framed.decode (bytes : Frame) (expectedCmd : Int) :
    Framed.Statement (.decode bytes expectedCmd) := framed_all _
theorem Framed.twrite (id cmd : Int) (ps : List Int) : Framed.Statement (.twrite id cmd ps) := framed_all _
theorem Framed.tread (id cmd : Int) (ps : List Int) (budget : Int) :
    Framed.Statement (.tread id cmd ps budget) := framed_all _
theorem Framed.lineReset : Framed.Statement .lineReset := framed_all _
theorem Framed.busSetId (id newId : Int) : Framed.Statement (.busSetId id newId) := framed_all _
theorem Framed.busGetId (id : Option Int) (budget : Option Int) :
    Framed.Statement (.busGetId id budget) := framed_all _
theorem Framed.busSetPosition (id pos dur : Int) : Framed.Statement (.busSetPosition id pos dur) := framed_all _
theorem Framed.busStop (id : Int) : Framed.Statement (.busStop id) := framed_all _
theorem Framed.busSetDeviation (id dev : Int) : Framed.Statement (.busSetDeviation id dev) := framed_all _
theorem Framed.busSaveDeviation (id : Int) : Framed.Statement (.busSaveDeviation id) := framed_all _
theorem Framed.busGetDeviation (id : Int) (budget : Option Int) :
    Framed.Statement (.busGetDeviation id budget) := framed_all _
theorem Framed.busSetAngleLimit (id lo hi : Int) : Framed.Statement (.busSetAngleLimit id lo hi) := framed_all _
theorem Framed.busGetAngleLimit (id : Int) (budget : Option Int) :
    Framed.Statement (.busGetAngleLimit id budget) := framed_all _
theorem Framed.busSetVinLimit (id lo hi : Int) : Framed.Statement (.busSetVinLimit id lo hi) := framed_all _
theorem Framed.busGetVinLimit (id : Int) (budget : Option Int) :
    Framed.Statement (.busGetVinLimit id budget) := framed_all _
theorem Framed.busSetTempLimit (id t : Int) : Framed.Statement (.busSetTempLimit id t) := framed_all _
theorem Framed.busGetTempLimit (id : Int) (budget : Option Int) :
    Framed.Statement (.busGetTempLimit id budget) := framed_all _
theorem Framed.busGetPosition (id : Int) (budget : Option Int) :
    Framed.Statement (.busGetPosition id budget) := framed_all _
theorem Framed.busGetTemp (id : Int) (budget : Option Int) : Framed.Statement (.busGetTemp id budget) := framed_all _
theorem Framed.busGetVin (id : Int) (budget : Option Int) : Framed.Statement (.busGetVin id budget) := framed_all _
theorem Framed.busUnload (id : Int) : Framed.Statement (.busUnload id) := framed_all _
theorem Framed.busGetLoadState (id : Int) (budget : Option Int) :
    Framed.Statement (.busGetLoadState id budget) := framed_all _
theorem Framed.busReset (id : Int) : Framed.Statement (.busReset id) := framed_all _
theorem Framed.pwmSetPosition (c w d : Int) : Framed.Statement (.pwmSetPosition c w d) := framed_all _
theorem Framed.pwmTick (c : Nat) : Framed.Statement (.pwmTick c) := framed_all _
theorem Framed.pwmSetDeviation (c dv : Int) : Framed.Statement (.pwmSetDeviation c dv) := framed_all _
theorem Framed.pwmGetDeviation (c : Int) : Framed.Statement (.pwmGetDeviation c) := framed_all _
theorem Framed.seqLoad (path : Path) (reps : Int) (locks : List (Int × Int)) :
    Framed.Statement (.seqLoad path reps locks) := framed_all _
theorem Framed.seqPlay (sets : List ActionSet) (blocking : Bool) (cb : Option Nat) :
    Framed.Statement (.seqPlay sets blocking cb) := framed_all _
theorem Framed.seqIssue (j : Nat) : Framed.Statement (.seqIssue j) := framed_all _
theorem Framed.seqSleep (j : Nat) : Framed.Statement (.seqSleep j) := framed_all _
theorem Framed.seqWake (j : Nat) : Framed.Statement (.seqWake j) := framed_all _
theorem Framed.seqFinish (j : Nat) (o : JobOutcome) : Framed.Statement (.seqFinish j o) := framed_all _

end Laws
end Sys2Proof
end

