-- ==== Sys2Proof/Tests/Slice0.lean ====
section
/-! SUPPORT. Tests. Expected values come from the spec: the vectors E1 to E23, D-1 to D-20, T1 to T10, S1 to S29,
P-1 to P-23 and Q1 to Q7 of 95_test_vectors.md, or hand calculation from the rule a test names. The theorems named
`witness_…` show states and operands that meet the hypotheses of the statement they are named after, clause by
clause. -/

namespace Sys2Proof
namespace Tests

open Machine Claims

set_option Elab.async false

/-! ## Reading off an outcome -/

/-- The state an outcome leaves, or the one given. -/
def after (d : State) : Host.Outcome State Fault Refusal → State
  | .next s => s
  | _       => d

/-- Whether an outcome is a next state. -/
def isNext : Host.Outcome State Fault Refusal → Bool
  | .next _ => true
  | _       => false

theorem next_after {r : Host.Outcome State Fault Refusal} (h : isNext r = true) : r = .next (after State.reset r) := by
  cases r with
  | next s    => rfl
  | fault f   => cases h
  | refused q => cases h

/-- The frames an outcome's history shows as transmitted. -/
def sends (r : Host.Outcome State Fault Refusal) : List Frame :=
  (after State.reset r).trace.filterMap fun e => match e with
    | .tx f => some f
    | _     => none

/-- The results an outcome's history shows. -/
def returns (r : Host.Outcome State Fault Refusal) : List Result :=
  (after State.reset r).trace.filterMap fun e => match e with
    | .result _ _ v => some v
    | _             => none

/-- The history an outcome leaves. -/
def events (r : Host.Outcome State Fault Refusal) : List Event := (after State.reset r).trace

/-- The reset state with BUS draws to come. -/
def bus (l : List Frame) : State := { State.reset with busIn := l }

/-- The reset state with channel 1 in the state `(cur, tgt, rem, delta, dev)`. -/
def ch1 (cur tgt : Rat) (rem : Int) (delta : Rat) (dev : Int) : State :=
  { State.reset with
    channels := [{ Channel.init Config.default 1 with cur := cur, tgt := tgt, rem := rem, delta := delta, dev := dev }] }

/-- The state of channel 1 after an outcome. -/
def chAfter (r : Host.Outcome State Fault Refusal) : Option (Rat × Rat × Int × Rat × Int) :=
  ((after State.reset r).channel? 1).map fun ch => (ch.cur, ch.tgt, ch.rem, ch.delta, ch.dev)

/-- CALLER(1) stands in a read exchange: TL is its. -/
def reading : State :=
  { State.reset with
    T := { State.reset.T with tl := .held (.caller 1) },
    flights := [{ agent := .caller 1,
                  phase := .readReq { op := .tread, cmd := 0x1C, req := [0x55, 0x55, 0x01, 0x03, 0x1C, 0xDF], left := 1 },
                  readyAt := 0 }] }

/-- Channel 1 under another agent's mutex. -/
def mutexTaken : State :=
  { State.reset with channels := [{ Channel.init Config.default 1 with mutex := .held (.caller 1) }] }

/-- The store's table "wave" of 95_test_vectors.md. -/
def wave : List ActionRow := [{ dur := 500, pos := [100, 200] }, { dur := 800, pos := [300, 400] }]

/-- An action set without locks. -/
def setOf (reps : Nat) (rows : List ActionRow) : ActionSet := { path := "wave", reps := reps, locks := [], rows := rows }

/-- Job 1. -/
def job1 (ctx : Ctx) (sets : List ActionSet) (k : Nat) (ph : JobPhase) (cb : Option Nat) : Job :=
  { id := 1, sets := sets, k := k, phase := ph, ctx := ctx, cb := cb, sleptAt := 0, split := none }

/-- A state in which job 1 exists, SCHED runs it, and it is SCHED's turn. -/
def sched (sets : List ActionSet) (k : Nat) (ph : JobPhase) (cb : Option Nat) : State :=
  { State.reset with
    cur := .sched,
    sq := { State.reset.sq with jobs := [job1 .onSched sets k ph cb], running := some 1, nextId := 2 },
    handles := [(1, .pending)] }

/-- A state in which CALLER(0) plays job 1. -/
def playing (sets : List ActionSet) (k : Nat) (ph : JobPhase) (cb : Option Nat) : State :=
  { State.reset with
    sq := { State.reset.sq with jobs := [job1 (.onCaller (.caller 0)) sets k ph cb], nextId := 2 },
    flights := [{ agent := .caller 0, phase := .playing 1, readyAt := 0 }] }

/-- CALLER(3) began an operation after every other one in progress, and stands in it in phase `ph`. -/
def among (ph : FlightPhase) (s : State) : State :=
  { s with flights := { agent := .caller 3, phase := ph, readyAt := 0 } :: s.flights }

/-- The default parameters with the timed refinement, from the time `t`. -/
def timedAt (t : Rat) (s : State) : State := { s with cfg := { s.cfg with timed := true }, now := t }

/-- The default parameters with column 1 on a PWM channel. -/
def onPwm (s : State) : State := { s with cfg := { s.cfg with pwmColumns := [1] } }

/-- The default parameters with SETPOS_SPLIT_READ. -/
def splitRead (s : State) : State := { s with cfg := { s.cfg with setposSplitRead := true } }

/-- The default parameters with RX_CHECKSUM_CHECK. -/
def checked : Config := { Config.default with rxChecksumCheck := true }

/-! ## WellFormed refuses -/

theorem test_wf_id : (Instr.posRead 255).wellFormed Config.default = false
    ∧ (Instr.posRead (-1)).wellFormed Config.default = false := by decide
theorem test_wf_byte : (Instr.idWrite 1 256).wellFormed Config.default = false
    ∧ (Instr.encode 1 256 []).wellFormed Config.default = false := by decide
theorem test_wf_word : (Instr.moveTimeWrite 1 32768 0).wellFormed Config.default = false
    ∧ (Instr.busSetDeviation 1 (-32769)).wellFormed Config.default = false := by decide
theorem test_wf_params : (Instr.twrite 1 1 (List.replicate 127 0)).wellFormed Config.default = false
    ∧ (Instr.twrite 1 1 [40000]).wellFormed Config.default = false := by decide +kernel
theorem test_wf_budget : (Instr.busGetTemp 1 (some (-1))).wellFormed Config.default = false
    ∧ (Instr.tread 1 1 [] (-1)).wellFormed Config.default = false := by
  decide
theorem test_wf_channel : (Instr.pwmSetPosition 0 1500 0).wellFormed Config.default = false
    ∧ (Instr.pwmTick 0).wellFormed Config.default = false := by
  decide
theorem test_wf_duration : (Instr.pwmSetPosition 1 1500 (-1)).wellFormed Config.default = false := by decide
theorem test_wf_deviation : (Instr.pwmSetDeviation 1 301).wellFormed Config.default = false := by decide
theorem test_wf_reps : (Instr.seqLoad "wave" (-1) []).wellFormed Config.default = false := by decide
theorem test_wf_locks : (Instr.seqLoad "wave" 1 [(2, 700), (2, 5)]).wellFormed Config.default = false := by decide
theorem test_wf_locked :
    (Instr.seqPlay [{ setOf 1 wave with locks := [(2, 700)] }] true none).wellFormed Config.default = false := by
  decide
theorem test_wf_config_codes :
    Config.wf { Config.default with codes := { CmdCodes.default with posRead := 0x01 } } = false := by decide +kernel
theorem test_wf_config_channels : Config.wf { Config.default with nPwm := 0 } = false := by decide +kernel
theorem test_wf_config_bounds : Config.wf { Config.default with pwMin := 2501 } = false
    ∧ Config.wf { Config.default with pwBounds := [(1, 2000, 1000)] } = false := by decide +kernel
theorem test_wf_config_deviation : Config.wf { Config.default with devInit := 300 } = false := by decide +kernel
theorem test_wf_config_clamps : Config.wf { Config.default with posMax := 32768 } = false
    ∧ Config.wf { Config.default with posMin := 1001 } = false ∧ Config.wf { Config.default with sdurMax := 40000 } = false
    ∧ Config.wf { Config.default with sdurMin := -32769 } = false := by decide +kernel
theorem test_wf_config_ticks : Config.wf { Config.default with tickMs := 0 } = false
    ∧ Config.wf { Config.default with pdurMin := 19 } = false ∧ Config.wf { Config.default with pdurMax := 10 } = false
    ∧ Config.wf { Config.default with idleTicks := 0 } = false := by decide +kernel
theorem test_wf_config_ids : Config.wf { Config.default with idBroadcast := 255 } = false
    ∧ Config.wf { Config.default with idMaxUnicast := 254 } = false
    ∧ Config.wf { Config.default with idMaxUnicast := -1 } = false := by decide +kernel
theorem test_wf_config_line : Config.wf { Config.default with baud := 0 } = false
    ∧ Config.wf { Config.default with tReq := -1 } = false ∧ Config.wf { Config.default with tSettle := -1 } = false := by
  decide +kernel

/-! ## Words of every wire command, from R52, R54, R55 and R58 -/

theorem test_word_moveTimeWrite : decode Config.default [0x55, 0x55, 0x01, 0x07, 0x01, 0xF4, 0x01, 0xE8, 0x03, 0x16]
    = .ok (.moveTimeWrite 1 500 1000) := by decide
theorem test_word_moveTimeRead : decode Config.default [0x55, 0x55, 0x01, 0x03, 0x02, 0xF9] = .ok (.moveTimeRead 1) := by
  decide
theorem test_word_moveStop : decode Config.default [0x55, 0x55, 0x07, 0x03, 0x0C, 0xE9] = .ok (.moveStop 7) := by decide
theorem test_word_idWrite : decode Config.default [0x55, 0x55, 0x01, 0x04, 0x0D, 0x05, 0xE8] = .ok (.idWrite 1 5) := by
  decide
theorem test_word_idRead : decode Config.default [0x55, 0x55, 0xFE, 0x03, 0x0E, 0xF0] = .ok (.idRead 254) := by decide
theorem test_word_angleOffsetAdjust :
    decode Config.default [0x55, 0x55, 0x03, 0x05, 0x11, 0xF6, 0xFF, 0xF1] = .ok (.angleOffsetAdjust 3 (-10)) := by decide
theorem test_word_angleOffsetWrite : decode Config.default [0x55, 0x55, 0x01, 0x03, 0x12, 0xE9] = .ok (.angleOffsetWrite 1) := by
  decide
theorem test_word_angleOffsetRead : decode Config.default [0x55, 0x55, 0x01, 0x03, 0x13, 0xE8] = .ok (.angleOffsetRead 1) := by
  decide
theorem test_word_angleLimitWrite : decode Config.default [0x55, 0x55, 0x02, 0x07, 0x14, 0x00, 0x00, 0xE8, 0x03, 0xF7]
    = .ok (.angleLimitWrite 2 0 1000) := by decide
theorem test_word_angleLimitRead : decode Config.default [0x55, 0x55, 0x01, 0x03, 0x15, 0xE6] = .ok (.angleLimitRead 1) := by
  decide
theorem test_word_vinLimitWrite : decode Config.default [0x55, 0x55, 0x02, 0x07, 0x16, 0x94, 0x11, 0xE0, 0x2E, 0x2D]
    = .ok (.vinLimitWrite 2 4500 12000) := by decide
theorem test_word_vinLimitRead : decode Config.default [0x55, 0x55, 0x01, 0x03, 0x17, 0xE4] = .ok (.vinLimitRead 1) := by
  decide
theorem test_word_tempMaxLimitWrite :
    decode Config.default [0x55, 0x55, 0x05, 0x04, 0x18, 0x55, 0x89] = .ok (.tempMaxLimitWrite 5 85) := by decide
theorem test_word_tempMaxLimitRead : decode Config.default [0x55, 0x55, 0x01, 0x03, 0x19, 0xE2] = .ok (.tempMaxLimitRead 1) := by
  decide
theorem test_word_tempRead : decode Config.default [0x55, 0x55, 0x01, 0x03, 0x1A, 0xE1] = .ok (.tempRead 1) := by decide
theorem test_word_vinRead : decode Config.default [0x55, 0x55, 0x01, 0x03, 0x1B, 0xE0] = .ok (.vinRead 1) := by decide
theorem test_word_posRead : decode Config.default [0x55, 0x55, 0x01, 0x03, 0x1C, 0xDF] = .ok (.posRead 1) := by decide
theorem test_word_loadOrUnloadWrite :
    decode Config.default [0x55, 0x55, 0x06, 0x04, 0x1F, 0x00, 0xD6] = .ok (.loadOrUnloadWrite 6 0) := by decide
theorem test_word_loadOrUnloadRead : decode Config.default [0x55, 0x55, 0x01, 0x03, 0x20, 0xDB] = .ok (.loadOrUnloadRead 1) := by
  decide

/-- Each way bytes are no wire command. -/
theorem test_word_rejected :
    decode Config.default [0x55, 0x55, 0x01, 0x03] = .error .tooShort
    ∧ decode Config.default [0x55, 0x54, 0x01, 0x03, 0x1C, 0xDF] = .error .badHeader
    ∧ decode Config.default [0x55, 0x55, 0x01, 0x02, 0x1C, 0xE0] = .error .badLength
    ∧ decode Config.default [0x55, 0x55, 0x01, 0x05, 0x1C, 0xF4, 0x01] = .error .truncated
    ∧ decode checked [0x55, 0x55, 0x01, 0x03, 0x1C, 0xDE] = .error .badChecksum
    ∧ decode Config.default [0x55, 0x55, 0x01, 0x03, 0x77, 0x84] = .error .unknownCommand
    ∧ decode Config.default [0x55, 0x55, 0x01, 0x04, 0x1C, 0x00, 0xDE] = .error .badShape
    ∧ decode Config.default [0x55, 0x55, 0x03, 0x05, 0x11, 0x05, 0x00, 0xE1] = .error .notCanonical := by decide

/-- A number of the opcode table is fetched and runs as the first instruction after reset (POS_READ of id 1). -/
theorem test_fetch : decodeTableWord 48 0xDF1C03015555 = some (.posRead 1)
    ∧ sends (step ((bus [[0x55, 0x55, 0x01, 0x05, 0x1C, 0xF4, 0x01, 0xE8]]).withFetchWord 48 0xDF1C03015555))
      = [[0x55, 0x55, 0x01, 0x03, 0x1C, 0xDF]] := by decide +kernel

/-! ## Wire commands -/

theorem test_moveTimeWrite : sends (exec (.moveTimeWrite 1 500 1000) State.reset)
    = [[0x55, 0x55, 0x01, 0x07, 0x01, 0xF4, 0x01, 0xE8, 0x03, 0x16]] := by decide +kernel
theorem test_posRead : returns (exec (.posRead 1) (bus [[0x55, 0x55, 0x01, 0x05, 0x1C, 0xFB, 0xFF, 0xE3]])) = [.value (-5)] := by
  decide +kernel

/-! ## Frame codec -/

theorem test_encode_e10 : returns (exec (.encode 1 0x11 [-32768]) State.reset)
    = [.frame [0x55, 0x55, 0x01, 0x05, 0x11, 0x00, 0x80, 0x68]] := by decide +kernel
theorem test_encode_e21 : returns (exec (.encode 1 0x01 (List.replicate 127 0)) State.reset)
    = [.raised (.encodeRange .parameterCount)] := by decide +kernel
theorem test_decode_d5 : returns (exec (.decode [0x55, 0x55, 0x01, 0x05, 0x1C, 0xFB, 0xFF, 0xE3] 0x1C) State.reset)
    = [.value (-5)] := by decide +kernel
theorem test_decode_d17 : returns (exec (.decode [0x55, 0x55, 0x01, 0x02, 0x1C, 0xE0] 0x1C) State.reset) = [.error] := by
  decide +kernel

/-! ## Serial transport -/

theorem test_twrite_t1 : events (exec (.twrite 1 0x01 [500, 1000]) State.reset)
    = [.pin .rxEn .deasserted, .pin .txEn .asserted, .tx [0x55, 0x55, 0x01, 0x07, 0x01, 0xF4, 0x01, 0xE8, 0x03, 0x16],
      .result (.caller 0) .twrite .done] := by decide +kernel
theorem test_twrite_t2 : events (exec (.twrite 255 0x01 []) State.reset)
    = [.result (.caller 0) .twrite (.raised (.encodeRange .deviceId))] := by decide +kernel
theorem test_tread_t6 :
    events (exec (.tread 1 0x1C [] 2) (bus [[0x55, 0x55, 0x01], [0x55, 0x55, 0x01, 0x05, 0x1C, 0xF4, 0x01, 0xE8]]))
    = [.rxflush [], .pin .rxEn .deasserted, .pin .txEn .asserted, .tx [0x55, 0x55, 0x01, 0x03, 0x1C, 0xDF],
      .wait .req (34 / 100), .pin .txEn .deasserted, .pin .rxEn .asserted, .wait .settle 5, .rxavail 3,
      .rxflush [0x55, 0x55, 0x01], .pin .rxEn .deasserted, .pin .txEn .asserted,
      .tx [0x55, 0x55, 0x01, 0x03, 0x1C, 0xDF], .wait .req (34 / 100), .pin .txEn .deasserted, .pin .rxEn .asserted,
      .wait .settle 5, .rxavail 8, .rxread [0x55, 0x55, 0x01, 0x05, 0x1C, 0xF4, 0x01, 0xE8],
      .result (.caller 0) .tread (.value 500)] := by decide +kernel
theorem test_tread_t8 :
    (after State.reset (exec (.tread 1 0x1C [] 1) (bus [[0x55, 0x55, 0x01, 0x05]]))).T
      = { dir := .rx, txEn := .deasserted, rxEn := .asserted, tl := .free, isOpen := true, rx := [0x55, 0x55, 0x01, 0x05] }
    ∧ returns (exec (.tread 1 0x1C [] 1) (bus [[0x55, 0x55, 0x01, 0x05]])) = [.timeout] := by decide +kernel
theorem test_lineReset_t9 :
    let s := after State.reset (exec (.tread 1 0x1C [] 1) (bus [[0x55, 0x55, 0x01, 0x05]]))
    events (exec .lineReset { s with trace := [] })
      = [.uclose, .wait .lineReset 0, .uopen, .pin .rxEn .deasserted, .pin .txEn .asserted, .wait .lineReset 0,
        .result (.caller 0) .lineReset .done]
    ∧ (after State.reset (exec .lineReset s)).T = Transport.init := by decide +kernel

/-! ## Serial servo client -/

theorem test_busSetId_s2 : sends (exec (.busSetId 1 254) State.reset) = [[0x55, 0x55, 0x01, 0x04, 0x0D, 0xFE, 0xEF]] := by
  decide +kernel
theorem test_busGetId_s3 :
    sends (exec (.busGetId none none) (bus [[0x55, 0x55, 0x01, 0x04, 0x0E, 0x01, 0xEB]])) = [[0x55, 0x55, 0xFE, 0x03, 0x0E, 0xF0]]
    ∧ returns (exec (.busGetId none none) (bus [[0x55, 0x55, 0x01, 0x04, 0x0E, 0x01, 0xEB]])) = [.value 1] := by
  decide +kernel
theorem test_busSetPosition_s6 : sends (exec (.busSetPosition 1 1200 40000) State.reset)
    = [[0x55, 0x55, 0x01, 0x07, 0x01, 0xE8, 0x03, 0x30, 0x75, 0x66]] := by decide +kernel
theorem test_busSetPosition_s9 : events (exec (.busSetPosition 255 500 1000) State.reset)
    = [.result (.caller 0) .busSetPosition (.raised (.encodeRange .deviceId))] := by decide +kernel
theorem test_busStop_s10 : sends (exec (.busStop 7) State.reset) = [[0x55, 0x55, 0x07, 0x03, 0x0C, 0xE9]] := by
  decide +kernel
theorem test_busSetDeviation_s13 : sends (exec (.busSetDeviation 3 300) State.reset)
    = [[0x55, 0x55, 0x03, 0x05, 0x11, 0x2C, 0x01, 0xB9]] := by decide +kernel
theorem test_busSaveDeviation_s14 : sends (exec (.busSaveDeviation 1) State.reset) = [[0x55, 0x55, 0x01, 0x03, 0x12, 0xE9]] := by
  decide +kernel
theorem test_busGetDeviation_s15 :
    returns (exec (.busGetDeviation 1 none) (bus [[0x55, 0x55, 0x01, 0x04, 0x13, 0xF6, 0xF1]])) = [.value 246] := by
  decide +kernel
theorem test_busSetAngleLimit_s16 : sends (exec (.busSetAngleLimit 2 0 1000) State.reset)
    = [[0x55, 0x55, 0x02, 0x07, 0x14, 0x00, 0x00, 0xE8, 0x03, 0xF7]] := by decide +kernel
theorem test_busGetAngleLimit_s17 :
    returns (exec (.busGetAngleLimit 1 none) (bus [[0x55, 0x55, 0x01, 0x07, 0x15, 0x00, 0x00, 0xE8, 0x03, 0xF7]]))
    = [.valuePair 0 1000] := by decide +kernel
theorem test_busSetVinLimit_s18 : sends (exec (.busSetVinLimit 2 4500 12000) State.reset)
    = [[0x55, 0x55, 0x02, 0x07, 0x16, 0x94, 0x11, 0xE0, 0x2E, 0x2D]] := by decide +kernel
theorem test_busGetVinLimit_s19 :
    sends (exec (.busGetVinLimit 1 (some 1)) (bus [[]])) = [[0x55, 0x55, 0x01, 0x03, 0x17, 0xE4]] := by decide +kernel
theorem test_busSetTempLimit_s20 : sends (exec (.busSetTempLimit 5 85) State.reset)
    = [[0x55, 0x55, 0x05, 0x04, 0x18, 0x55, 0x89]] := by decide +kernel
theorem test_busGetTempLimit_s21 :
    sends (exec (.busGetTempLimit 1 (some 1)) (bus [[]])) = [[0x55, 0x55, 0x01, 0x03, 0x19, 0xE2]] := by decide +kernel
theorem test_busGetPosition_s23 :
    returns (exec (.busGetPosition 1 none) (bus [[0x55, 0x55, 0x01, 0x03, 0x1C, 0xDF]])) = [.ack] := by decide +kernel
theorem test_busGetPosition_s29 : events (exec (.busGetPosition 1 (some (-1))) State.reset)
    = [.result (.caller 0) .busGetPosition (.raised (.budgetRange (-1)))] := by decide +kernel
theorem test_busGetTemp_s24 :
    returns (exec (.busGetTemp 1 none) (bus [[0x55, 0x55, 0x01, 0x04, 0x1A, 0x28, 0xB8]])) = [.value 40] := by
  decide +kernel
theorem test_busGetVin_s25 :
    sends (exec (.busGetVin 1 (some 1)) (bus [[]])) = [[0x55, 0x55, 0x01, 0x03, 0x1B, 0xE0]] := by decide +kernel
theorem test_busUnload_s26 : sends (exec (.busUnload 6) State.reset) = [[0x55, 0x55, 0x06, 0x04, 0x1F, 0x00, 0xD6]] := by
  decide +kernel
theorem test_busGetLoadState_s27 :
    sends (exec (.busGetLoadState 1 (some 1)) (bus [[]])) = [[0x55, 0x55, 0x01, 0x03, 0x20, 0xDB]] := by decide +kernel
theorem test_busReset_s28 : events (exec (.busReset 3) State.reset)
    = [.pin .rxEn .deasserted, .pin .txEn .asserted, .tx [0x55, 0x55, 0x03, 0x04, 0x11, 0x00, 0xE7], .wait .clientReset 0,
      .pin .rxEn .deasserted, .pin .txEn .asserted, .tx [0x55, 0x55, 0x03, 0x07, 0x01, 0xF4, 0x01, 0xE8, 0x03, 0x14],
      .result (.caller 0) .busReset .done] := by decide +kernel

/-! ## PWM interpolator -/

theorem test_pwmSetPosition_p2 :
    chAfter (exec (.pwmSetPosition 1 1000 0) (ch1 1500 1500 (-1) 0 10)) = some (1000, 1000, -1, 0, 10)
    ∧ events (exec (.pwmSetPosition 1 1000 0) (ch1 1500 1500 (-1) 0 10))
      = [.pwm 1 1010, .result (.caller 0) .pwmSetPosition .done] := by decide +kernel
theorem test_pwmSetPosition_p7 :
    chAfter (exec (.pwmSetPosition 1 1000 60) (ch1 1700 2000 3 (-100) 0)) = some (1700, 1000, 3, 700 / 3, 0) := by
  decide +kernel
theorem test_pwmTick_p4 :
    chAfter (exec (.pwmTick 1) { ch1 1500 2000 5 (-100) 0 with cur := .tick 1 }) = some (1600, 2000, 4, -100, 0)
    ∧ events (exec (.pwmTick 1) { ch1 1500 2000 5 (-100) 0 with cur := .tick 1 }) = [.tickfire 1, .pwm 1 1600] := by
  decide +kernel
theorem test_pwmTick_p11 :
    chAfter (exec (.pwmTick 1) { ch1 1900 2000 1 (-100) 20 with cur := .tick 1 }) = some (2000, 2000, -1, -100, 20)
    ∧ events (exec (.pwmTick 1) { ch1 1900 2000 1 (-100) 20 with cur := .tick 1 }) = [.tickfire 1, .pwm 1 2020] := by
  decide +kernel
theorem test_pwmSetDeviation_p18 : returns (exec (.pwmSetDeviation 1 300) State.reset) = [.raised (.deviationRange 300)] := by
  decide +kernel
theorem test_pwmSetDeviation_p20 :
    chAfter (exec (.pwmSetDeviation 1 (-299)) State.reset) = some (1500, 1500, -1, 0, -299)
    ∧ events (exec (.pwmSetDeviation 1 (-299)) State.reset) = [.result (.caller 0) .pwmSetDeviation .done] := by
  decide +kernel
theorem test_pwmGetDeviation_p21 : returns (exec (.pwmGetDeviation 1) (ch1 1500 1500 (-1) 0 (-299))) = [.value (-299)] := by
  decide +kernel

/-- The table of tick counts of 95_test_vectors.md, section 2.4, its ties (R101). -/
theorem test_ticks :
    [1, 19, 20, 29, 30, 45, 50, 55, 70, 90, 29970, 29990, 40000].map (tickCount Config.default)
      = [1, 1, 1, 1, 2, 2, 2, 3, 4, 4, 1498, 1500, 1500]
    ∧ [30, 50, 70, 90, 29970].map (tickCount { Config.default with tickRound := .halfAwayFromZero })
      = [2, 3, 4, 5, 1499] := by decide +kernel

/-! ## Action sequencer -/

theorem test_seqLoad_q2 :
    returns (exec (.seqLoad "wave" 2 [(2, 700)]) { State.reset with storeIn := [some wave] })
    = [.actionSet
        { path := "wave", reps := 2, locks := [(2, 700)],
          rows := [{ dur := 500, pos := [100, 700] }, { dur := 800, pos := [300, 700] }] }] := by decide +kernel
theorem test_seqLoad_q4 : events (exec (.seqLoad "missing" (-1) []) State.reset)
    = [.result (.caller 0) .seqLoad (.raised (.repeatRange (-1)))] := by decide +kernel
theorem test_seqPlay_q5 : events (exec (.seqPlay [setOf 0 wave] true none) State.reset)
    = [.complete 1 .ok, .result (.caller 0) .seqPlay .done] := by decide +kernel
theorem test_seqPlay_q6 :
    let s := after State.reset (exec (.seqPlay [] false (some 7)) State.reset)
    s.trace = [.result (.caller 0) .seqPlay (.handle 1)] ∧ s.handles = [(1, .pending)]
    ∧ events (schedMove 1 { s with trace := [] }) = [.complete 1 .ok]
    ∧ (after State.reset (schedMove 1 s)).handles = [(1, .resolved .ok)] := by decide +kernel
/-- The row `(40000, [1200])` of section 2.5: the values are clamped where they are sent, not where they are slept. -/
theorem test_seqIssue : sends (exec (.seqIssue 1) (sched [setOf 1 [{ dur := 40000, pos := [1200] }]] 0 (.issue 0) none))
    = [[0x55, 0x55, 0x01, 0x07, 0x01, 0xE8, 0x03, 0x30, 0x75, 0x66]] := by decide +kernel
theorem test_seqIssue_sleep :
    events (exec (.seqIssue 1) (sched [setOf 1 [{ dur := 40000, pos := [1200] }]] 0 (.issue 1) none)) = [.sleep 1 40000] := by
  decide +kernel
theorem test_seqSleep :
    (after State.reset (exec (.seqSleep 1) (sched [setOf 1 wave] 0 (.sleep 500) none))).sq.running = none := by
  decide +kernel
theorem test_seqWake :
    events (exec (.seqWake 1) (sched [setOf 1 wave] 0 (.sleep 500) none)) = [.wake 1]
    ∧ ((after State.reset (exec (.seqWake 1) (sched [setOf 1 wave] 0 (.sleep 500) none))).job? 1).map (fun J => (J.k, J.phase))
      = some (1, .issue 0) := by decide +kernel
theorem test_seqFinish :
    let r := exec (.seqFinish 1 .ok) (sched [setOf 1 wave] 2 (.issue 0) none)
    events r = [.complete 1 .ok] ∧ (after State.reset r).handles = [(1, .resolved .ok)]
    ∧ (after State.reset r).sq.jobs = [] ∧ (after State.reset r).sq.running = none := by decide +kernel
theorem test_seqPlay_stopped :
    exec (.seqPlay [] false none) { State.reset with sq := { State.reset.sq with started := false } }
      = .refused .schedulerStopped := rfl
/-- The rounds of the example of R111. -/
theorem test_rounds :
    let A := setOf 2 [{ dur := 100, pos := [10, 11] }, { dur := 200, pos := [20, 21] }]
    let B := setOf 1 [{ dur := 300, pos := [30, 31] }, { dur := 50, pos := [40, 41] }, { dur := 60, pos := [50, 51] }]
    rounds [A, B] = 4
    ∧ (cmds [A, B] 2).map (fun c => (c.col, c.pos, c.dur)) = [(1, 10, 100), (2, 11, 100), (1, 50, 60), (2, 51, 60)]
    ∧ sleepLen [A, B] 2 = 100 ∧ (cmds [A, B] 3).map (fun c => (c.col, c.pos, c.dur)) = [(1, 20, 200), (2, 21, 200)]
    ∧ sleepLen [A, B] 3 = 200 := by decide +kernel
/-- Q7: the second load fails, and nothing is played. -/
theorem test_playPaths_q7 :
    events (seqPlayPaths [("wave", 1, []), ("missing", 1, [])] true none { State.reset with storeIn := [some wave, none] })
    = [.store "wave" (some wave), .result (.caller 0) .seqLoad (.actionSet (setOf 1 wave)), .store "missing" none,
      .result (.caller 0) .seqLoad (.raised (.resourceNotFound "missing"))] := by decide +kernel

/-! ## Witnesses: frame codec -/

theorem witness_EncodeBuildsTheFrame :
    ¬ ((0 : Int) ≤ 255 ∧ (255 : Int) ≤ 254) ∧ ¬ ((0 : Int) ≤ 256 ∧ (256 : Int) ≤ 255)
    ∧ encodeFrame Config.default 255 256 [] = .error (.encodeRange .deviceId)
    ∧ encodeFrame Config.default 254 256 [] = .error (.encodeRange .commandCode)
    ∧ encodeFrame Config.default 254 255 [255] = .ok (framed Config.default 254 255 [255])
    ∧ encodeFrame Config.default 1 0x01 (List.replicate 127 0) = .error (.encodeRange .parameterCount)
    ∧ encodeFrame Config.default 1 0x11 [32768] = .error (.encodeRange .parameterValue)
    ∧ encodeFrame Config.default 1 0x11 [-32768] = .ok (framed Config.default 1 0x11 [0x00, 0x80])
    ∧ encodeFrame Config.default 1 0x11 [256] = .ok (framed Config.default 1 0x11 [0x00, 0x01]) := by decide +kernel

theorem witness_DecodeByParameterCount :
    parseFrame Config.default [0x55] = none
    ∧ parseFrame Config.default [0x55, 0x55, 0x01, 0x03, 0x01, 0xFA] = some (0x01, 0x01, [])
    ∧ parseFrame Config.default [0x55, 0x55, 0x01, 0x04, 0x13, 0xF6, 0xF1] = some (0x01, 0x13, [0xF6])
    ∧ parseFrame Config.default [0x55, 0x55, 0x01, 0x05, 0x1C, 0xFB, 0xFF, 0xE3] = some (0x01, 0x1C, [0xFB, 0xFF])
    ∧ parseFrame Config.default [0x55, 0x55, 0x01, 0x06, 0x1C, 0x01, 0x02, 0x03, 0xD6] = some (0x01, 0x1C, [0x01, 0x02, 0x03])
    ∧ parseFrame Config.default [0x55, 0x55, 0x01, 0x07, 0x15, 0x00, 0x00, 0xE8, 0x03, 0xF7]
      = some (0x01, 0x15, [0x00, 0x00, 0xE8, 0x03])
    ∧ (∀ e ∈ [(0 : Int), 0x01, 0x13, 0x15, 0x1C, 255], 0 ≤ e ∧ e ≤ 255)
    ∧ (((0x1C : Byte).toNat : Int) = 0x1C) ∧ ((0x1C : Byte).toNat : Int) ≠ 255 := by decide +kernel

theorem witness_EncodeParseRoundTrip :
    encodeFrame Config.default 1 0x1C [] = .ok [0x55, 0x55, 0x01, 0x03, 0x1C, 0xDF]
    ∧ encodeFrame Config.default 3 0x11 [-10] = .ok [0x55, 0x55, 0x03, 0x05, 0x11, 0xF6, 0xFF, 0xF1]
    ∧ encodeFrame Config.default 1 0x01 [0, 0] = .ok [0x55, 0x55, 0x01, 0x07, 0x01, 0x00, 0x00, 0x00, 0x00, 0xF6]
    ∧ encodeFrame Config.default 1 0x01 [1, 2, 3] = .ok [0x55, 0x55, 0x01, 0x09, 0x01, 0x01, 0x00, 0x02, 0x00, 0x03, 0x00, 0xEE] := by
  decide +kernel

theorem witness_ChecksumCatchesOneByte :
    let f : Frame := [0x55, 0x55, 0x01, 0x07, 0x01, 0xF4, 0x01, 0xE8, 0x03, 0x16]
    encodeFrame Config.default 1 0x01 [500, 1000] = .ok f ∧ f[2]? ≠ some 0x02 ∧ f[5]? ≠ some 0xF5 ∧ f[9]? ≠ some 0x17
    ∧ checked.rxChecksumCheck = true ∧ Config.default.rxChecksumCheck = false := by decide +kernel

theorem witness_WireDecodeEncode :
    Config.default.codes.toList.Nodup ∧ (Instr.tempMaxLimitWrite 254 32767).wellFormed Config.default = true
    ∧ (Instr.tempMaxLimitWrite 254 32767).wire? ≠ none := by decide +kernel

theorem witness_WireEncodeDecode :
    checked.rxChecksumCheck = true
    ∧ decode checked [0x55, 0x55, 0xFE, 0x03, 0x0E, 0xF0, 0xAA] = .ok (.idRead 254)
    ∧ ([0x55, 0x55, 0xFE, 0x03, 0x0E, 0xF0, 0xAA] : Frame)[2]? ≠ some 0xFF := by decide +kernel

theorem witness_CodecCallsOnlyAnswer :
    encodeFrame Config.default 1 0x1C [] = .ok [0x55, 0x55, 0x01, 0x03, 0x1C, 0xDF]
    ∧ encodeFrame Config.default 255 0x1C [] = .error (.encodeRange .deviceId)
    ∧ ∀ e ∈ [(-1 : Int), 256], ¬ (0 ≤ e ∧ e ≤ 255) := by decide +kernel

/-! ## Witnesses: serial transport and client -/

/-- For TwriteSendsOneFrame, WriteOperationsSend and BusSetPositionClamps: operands ENCODE refuses and
accepts, TL free and held. -/
theorem witness_WriteRule :
    encodeFrame Config.default 255 0x01 [500, 1000] = .error (.encodeRange .deviceId)
    ∧ encodeFrame Config.default 254 0x01 [500, 1000] = .ok [0x55, 0x55, 0xFE, 0x07, 0x01, 0xF4, 0x01, 0xE8, 0x03, 0x19]
    ∧ encodeFrame Config.default 1 0x0D [256] = .ok [0x55, 0x55, 0x01, 0x05, 0x0D, 0x00, 0x01, 0xEB]
    ∧ State.reset.T.tl = .free ∧ reading.T.tl = .held (.caller 1) := by decide +kernel

theorem witness_TwriteSendsOneFrame :
    encodeFrame Config.default 1 0x01 [500, 1000] = .ok [0x55, 0x55, 0x01, 0x07, 0x01, 0xF4, 0x01, 0xE8, 0x03, 0x16]
    ∧ encodeFrame Config.default 255 0x01 [] = .error (.encodeRange .deviceId)
    ∧ State.reset.T.tl = .free ∧ reading.T.tl = .held (.caller 1) := by decide +kernel

theorem witness_WriteOperationsSend :
    encodeFrame Config.default 7 0x0C [] = .ok [0x55, 0x55, 0x07, 0x03, 0x0C, 0xE9]
    ∧ encodeFrame Config.default 1 0x0D [32768] = .error (.encodeRange .parameterValue)
    ∧ encodeFrame Config.default 6 0x1F [0] = .ok [0x55, 0x55, 0x06, 0x04, 0x1F, 0x00, 0xD6]
    ∧ encodeFrame Config.default (-1) 0x1F [0] = .error (.encodeRange .deviceId)
    ∧ State.reset.T.tl = .free ∧ reading.T.tl = .held (.caller 1) := by decide +kernel

theorem witness_BusSetPositionClamps :
    encodeFrame Config.default 0 0x01 [min (max 1200 0) 1000, min (max (-1) 0) 30000]
      = .ok [0x55, 0x55, 0x00, 0x07, 0x01, 0xE8, 0x03, 0x00, 0x00, 0x0C]
    ∧ State.reset.cfg.clampsOk = true ∧ (0 : Int) ≤ 254 ∧ ¬ ((0 : Int) ≤ 255 ∧ (255 : Int) ≤ 254)
    ∧ State.reset.T.tl = .free ∧ reading.T.tl = .held (.caller 1) := by decide +kernel

/-- For TreadExchange and ReadOperationsExchange: a request ENCODE refuses and one it accepts, budgets
below and at 0, TL held and free. -/
theorem witness_ReadRule :
    encodeFrame Config.default 255 0x1C [] = .error (.encodeRange .deviceId)
    ∧ encodeFrame Config.default 254 0x1C [] = .ok [0x55, 0x55, 0xFE, 0x03, 0x1C, 0xE2]
    ∧ (-1 : Int) < 0 ∧ (0 : Int) ≤ 0
    ∧ State.reset.T.tl = .free ∧ reading.T.tl = .held (.caller 1) := by decide +kernel

theorem witness_TreadExchange :
    encodeFrame Config.default 1 0x1C [] = .ok [0x55, 0x55, 0x01, 0x03, 0x1C, 0xDF]
    ∧ encodeFrame Config.default 1 256 [] = .error (.encodeRange .commandCode)
    ∧ (-1 : Int) < 0 ∧ (0 : Int) ≤ 0 ∧ State.reset.T.tl = .free ∧ reading.T.tl = .held (.caller 1) := by decide +kernel

theorem witness_ReadOperationsExchange :
    encodeFrame Config.default 1 0x20 [] = .ok [0x55, 0x55, 0x01, 0x03, 0x20, 0xDB]
    ∧ encodeFrame Config.default 255 0x20 [] = .error (.encodeRange .deviceId)
    ∧ (0 : Int) ≤ Config.default.readRetryDefault
    ∧ encodeFrame Config.default ((none : Option Int).getD Config.default.idBroadcast) 0x0E []
      = .ok [0x55, 0x55, 0xFE, 0x03, 0x0E, 0xF0]
    ∧ encodeFrame Config.default ((some 255 : Option Int).getD Config.default.idBroadcast) 0x0E []
      = .error (.encodeRange .deviceId)
    ∧ (some (-1 : Int)).getD 50 < 0 ∧ (0 : Int) ≤ (some (0 : Int)).getD 50
    ∧ State.reset.T.tl = .free ∧ reading.T.tl = .held (.caller 1) := by decide +kernel

theorem witness_TreadCountsAttempts :
    let good : Frame := [0x55, 0x55, 0x01, 0x05, 0x1C, 0xF4, 0x01, 0xE8]
    let bad : List Frame := [[], [0x55, 0x55, 0x01, 0x05, 0x1B, 0xE8, 0x1C, 0xDA]]
    encodeFrame Config.default 1 0x1C [] = .ok [0x55, 0x55, 0x01, 0x03, 0x1C, 0xDF] ∧ (bus bad).T.tl = .free
    ∧ (∀ b ∈ bad, accepted Config.default 0x1C b = none) ∧ bad.length = 2 ∧ (bus bad).busIn = bad ++ []
    ∧ accepted Config.default 0x1C good = some (.value 500) ∧ bad.length < 3
    ∧ (bus (bad ++ good :: [[0x00]])).busIn = bad ++ good :: [[0x00]]
    ∧ (bus [good]).busIn = [] ++ good :: [] ∧ ([] : List Frame).length < 1 := by decide +kernel

theorem witness_LineResetReopens : State.reset.T.tl = .free ∧ reading.T.tl = .held (.caller 1) := by decide +kernel

theorem witness_BusResetWritesTwice :
    ¬ ((0 : Int) ≤ -1 ∧ (-1 : Int) ≤ 254) ∧ (0 : Int) ≤ 254 ∧ State.reset.T.tl = .free
    ∧ reading.T.tl = .held (.caller 1) := by decide +kernel

/-! ## Witnesses: locks, cuts and errors -/

/-- The operation is cut twice, and what it comes to is what it comes to without a cut. Then the other clauses: an
operation without a wait, the frames that are sent up to the first wait, and a caller inside a playback. -/
theorem witness_CutOperationsAgree :
    let s := bus [[], []]
    let i := Instr.tread 1 0x1C [] 2
    s.cfg.timed = false ∧ s.cur = .caller 0
    ∧ after State.reset (goOn (.caller 0) 4 (begin i s)) = after State.reset (exec i s)
    ∧ after State.reset (goOn (.caller 0) 3 (begin i s)) ≠ after State.reset (exec i s)
    ∧ hasWait (.busStop 7) = false ∧ hasWait i = true ∧ s.T.tl = .free
    ∧ encodeFrame s.cfg 1 0x1C [] = .ok [0x55, 0x55, 0x01, 0x03, 0x1C, 0xDF]
    ∧ encodeFrame s.cfg 3 (s.cfg.codes.angleOffsetAdjust.toNat : Int) [0]
      = .ok [0x55, 0x55, 0x03, 0x04, 0x11, 0x00, 0xE7] := by decide +kernel

/-- A job that sleeps, one at a command, and one after its last round, whose last step ends the operation. -/
theorem witness_CutOperationsAgree_playing :
    let s (k : Nat) (ph : JobPhase) := among (.waiting .lineReset) (playing [setOf 1 wave] k ph none)
    let J (k : Nat) (ph : JobPhase) := job1 (.onCaller (.caller 0)) [setOf 1 wave] k ph none
    (∀ x ∈ [(0, JobPhase.sleep 500), (0, .issue 0), (2, .issue 0)],
      (s x.1 x.2).topFlight (.caller 0) = some { agent := .caller 0, phase := .playing 1, readyAt := 0 }
      ∧ (s x.1 x.2).reached 0 = true ∧ (s x.1 x.2).job? 1 = some (J x.1 x.2) ∧ (J x.1 x.2).ctx = .onCaller (.caller 0))
    ∧ (J 0 (.sleep 500)).phase = .sleep 500 ∧ (J 0 (.issue 0)).phase = .issue 0 ∧ (J 2 (.issue 0)).phase = .issue 0
    ∧ ((after State.reset (exec (.seqIssue 1) (s 0 (.issue 0)))).job? 1).isSome = true
    ∧ ((after State.reset (exec (.seqIssue 1) (s 2 (.issue 0)))).job? 1).isNone = true
    ∧ events (resumeAgent (.caller 0) (s 2 (.issue 0))) = [.complete 1 .ok, .result (.caller 0) .seqPlay .done] := by
  decide +kernel

theorem witness_ValidationErrorsChangeNothing :
    let t := after State.reset (exec (.pwmSetPosition 1 2600 0) State.reset)
    exec (.pwmSetPosition 1 2600 0) State.reset = .next t
    ∧ t.trace = State.reset.trace ++ [] ++ [.result State.reset.cur .pwmSetPosition (.raised (.pwRange 2600))]
    ∧ Err.isValidation (.pwRange 2600) = true :=
  ⟨next_after (by decide +kernel), by decide +kernel⟩

/-- CALLER(0) stands in phase `ph`, before every operation that is in progress. -/
def standing (ph : FlightPhase) (s : State) : State :=
  { s with flights := s.flights ++ [{ agent := .caller 0, phase := ph, readyAt := 0 }] }

/-- Each clause, with the lock free and held. -/
theorem witness_LockWaitsEnd :
    let f (ph : FlightPhase) : Flight := { agent := .caller 0, phase := ph, readyAt := 0 }
    let w := FlightPhase.waiting (.posRead 1)
    let p (d : Int) := FlightPhase.pwmSplit d 2000 40 1500
    let ch := Channel.init Config.default 1
    (∀ ph ∈ [w, .resetWaited 255, .resetWaited 254, p 1, p 2], ∀ s ∈ [State.reset, reading, mutexTaken],
      (standing ph s).topFlight (.caller 0) = some (f ph) ∧ (standing ph s).reached 0 = true)
    ∧ (standing w reading).T.tl = .held (.caller 1) ∧ (standing w State.reset).T.tl = .free
    ∧ (∀ id ∈ [(254 : Int), 255], (standing (.resetWaited id) reading).T.tl = .held (.caller 1)
      ∧ (standing (.resetWaited id) State.reset).T.tl = .free)
    ∧ (standing (p 2) State.reset).channel? 2 = none ∧ (standing (p 1) State.reset).channel? 1 = some ch ∧ ch.mutex = .free
    ∧ ((standing (p 1) mutexTaken).channel? 1).map (fun ch => decide (ch.mutex ≠ .free)) = some true := by decide +kernel

/-- A blocking playback at a command on a serial column, another agent holding TL, and on a channel whose mutex is
held. -/
theorem witness_LockWaitsEnd_playing :
    let S := [setOf 1 [{ dur := 0, pos := [1000] }]]
    let J := job1 (.onCaller (.caller 0)) S 0 (.issue 0) none
    let p := playing S 0 (.issue 0) none
    let a : State := { p with T := reading.T, flights := reading.flights ++ p.flights }
    let b : State := onPwm { p with channels := mutexTaken.channels }
    let ch : Channel := { Channel.init Config.default 1 with mutex := .held (.caller 1) }
    (∀ s ∈ [a, b], s.topFlight (.caller 0) = some { agent := .caller 0, phase := .playing 1, readyAt := 0 }
      ∧ s.reached 0 = true ∧ s.job? 1 = some J ∧ s.cfg.clampsOk = true)
    ∧ J.phase = .issue 0 ∧ J.k < rounds J.sets ∧ (cmds J.sets J.k)[0]? = some { col := 1, pos := 1000, dur := 0 }
    ∧ channelKind a.cfg 1 = .serial ∧ 1 ≤ 254 ∧ a.T.tl = .held (.caller 1)
    ∧ channelKind b.cfg 1 = .pwm ∧ b.channel? 1 = some ch ∧ ch.lo ≤ 1000 ∧ 1000 ≤ ch.hi ∧ ch.mutex ≠ .free := by
  decide +kernel

/-! A fair run: CALLER(1) ends its line reset, CALLER(0) gets the TL it waits for, CALLER(2) plays job 2 and
SCHED job 1, and then the timer of channel 1 fires for ever. -/

/-- The states moves lead to. -/
def follow (m : Nat → Move) (s : State) : Nat → State
  | 0     => s
  | n + 1 => after (follow m s n) (runMove (m n) (follow m s n))

theorem follow_isRun (m : Nat → Move) (s : State) : isRun m (follow m s) := by
  refine fun n => ⟨follow m s (n + 1), ?_, .inl rfl⟩
  unfold leadsTo
  rw [show follow m s (n + 1) = after (follow m s n) (runMove (m n) (follow m s n)) from rfl]
  cases h : runMove (m n) (follow m s n) with
  | next t    => exact .inl rfl
  | fault f   => cases f
  | refused q => exact .inr ⟨⟨q, rfl⟩, rfl⟩

def fairMove : Nat → Move
  | 0 | 1         => .resume (.caller 1)
  | 2             => .resume (.caller 0)
  | 3             => .resume (.caller 2)
  | 4 | 5 | 6 | 7 => .sched 1
  | _             => .tick 1

/-- Job 1 of SCHED, with one command, and job 2 of CALLER(2), with none. -/
def fairJobs : List Job :=
  [job1 .onSched [setOf 1 [{ dur := 0, pos := [1000] }]] 0 (.issue 0) none,
   { job1 (.onCaller (.caller 2)) [] 0 (.issue 0) none with id := 2 }]

/-- CALLER(1) stands inside a line reset, CALLER(0) waits for TL, and two jobs are ready. -/
def resetting : State :=
  { State.reset with
    T := { State.reset.T with tl := .held (.caller 1), isOpen := false },
    sq := { State.reset.sq with jobs := fairJobs, nextId := 3 },
    flights := [{ agent := .caller 1, phase := .lineClosed, readyAt := 0 },
                { agent := .caller 0, phase := .waiting (.busStop 7), readyAt := 0 },
                { agent := .caller 2, phase := .playing 2, readyAt := 0 }] }

/-- The states of the run. -/
def fairState : Nat → State := follow fairMove resetting

/-- Nothing is in progress. -/
def quiet (l : List Event) (a : Agent) : State :=
  { State.reset with trace := l, cur := a, sq := { State.reset.sq with nextId := 3 } }

theorem quiet_tick (l : List Event) (a : Agent) :
    runMove (.tick 1) (quiet l a) = .next (quiet (l ++ [.tickfire 1]) (.tick 1)) := rfl

theorem fair_quiet : ∀ n, ∃ l a, fairState (n + 8) = quiet l a
  | 0     => ⟨_, .sched, rfl⟩
  | n + 1 => by
    obtain ⟨l, a, h⟩ := fair_quiet n
    refine ⟨l ++ [.tickfire 1], .tick 1, ?_⟩
    show after _ (runMove (.tick 1) (fairState (n + 8))) = _
    rw [h, quiet_tick]; rfl

theorem quiet_takesStep (l : List Event) (a : Agent) : takesStep (.tick 1) (.tick 1) (quiet l a) :=
  ⟨rfl, _, quiet_tick l a, .inl (by simp [quiet])⟩

/-- Which agents may have an enabled step, channel 1 being the only one. -/
theorem enabled_among {s : State} {b : Agent} (hc : ∀ c : Nat, s.channel? ((c + 2 : Nat) : Int) = none) (h : enabled b s) :
    b = .tick 1 ∨ b ∈ s.flights.map Flight.agent ∨ b = .sched ∧ s.sq.jobs ≠ [] := by
  obtain ⟨m, hm, ha, t, ht, hd⟩ := h
  cases m with
  | resume c =>
    cases ha
    have ht : resumeAgent b s = .next t := ht
    unfold resumeAgent at ht
    split at ht
    · cases ht
    · next f hf =>
      have he : f.agent = b := by simpa using List.find?_some hf
      exact .inr (.inl (List.mem_map.2 ⟨f, List.mem_of_find?_eq_some hf, he⟩))
  | sched j =>
    cases ha
    refine .inr (.inr ⟨rfl, fun hj => ?_⟩)
    have no : ∀ i, s.job? i = none := fun i => by unfold State.job?; rw [hj]; rfl
    have step : ∀ i u, schedStep i { s with cur := .sched } ≠ .next u := fun i u hu => by
      unfold schedStep at hu
      rw [show ({ s with cur := .sched } : State).job? i = none from no i] at hu
      cases hu
    have ht : schedMove j s = .next t := ht
    unfold schedMove at ht
    split at ht
    · cases ht; rcases hd with h | h | h <;> exact h rfl
    · split at ht
      · cases ht
      · split at ht
        · exact step _ _ ht
        · rw [no j] at ht; cases ht
  | tick c =>
    cases ha
    match c with
    | 1 => exact .inl rfl
    | 0 => exact absurd ht (by simp [runMove, timerMove, exec, execPwmTick, State.channel?]; split <;> simp)
    | c + 2 =>
      have ht : timerMove (c + 2) s = .next t := ht
      unfold timerMove at ht
      split at ht
      · cases ht
      · have ht : execPwmTick (c + 2) { s with cur := .tick (c + 2) } = .next t := ht
        unfold execPwmTick at ht
        rw [if_neg (fun h => h rfl),
          show ({ s with cur := .tick (c + 2) } : State).channel? ((c + 2 : Nat) : Int) = none from hc c] at ht
        cases ht
  | _ => cases hm

theorem one_channel {s : State} (h : s.channels = State.reset.channels) (c : Nat) : s.channel? ((c + 2 : Nat) : Int) = none := by
  have : ((c : Int) + 2).toNat = c + 2 := by omega
  simp [State.channel?, h, State.reset, State.init, Config.default, List.range_succ, this]

theorem fair_enabled {n : Nat} {b : Agent} (h : enabled b (fairState n)) :
    b = .tick 1 ∨ b = .caller 1 ∧ n ≤ 1 ∨ b = .caller 0 ∧ n ≤ 2 ∨ b = .caller 2 ∧ n ≤ 3 ∨ b = .sched ∧ n ≤ 7 := by
  by_cases hn : 8 ≤ n
  · obtain ⟨l, a, hq⟩ := fair_quiet (n - 8)
    rw [Nat.sub_add_cancel hn] at hq
    rw [hq] at h
    have := enabled_among (one_channel (s := quiet l a) rfl) h
    exact .inl (by simpa [quiet, State.reset, State.init, Sequencer.init] using this)
  · have key : ∀ n < 8, (fairState n).channels = State.reset.channels
        ∧ ∀ b ∈ (fairState n).flights.map Flight.agent, b = .caller 1 ∧ n ≤ 1 ∨ b = .caller 0 ∧ n ≤ 2 ∨ b = .caller 2 ∧ n ≤ 3 := by
      decide +kernel
    obtain ⟨hc, hb⟩ := key n (by omega)
    rcases enabled_among (one_channel hc) h with h | h | h
    · exact .inl h
    · rcases hb b h with h | h | h <;> simp [h]
    · exact .inr (.inr (.inr (.inr ⟨h.1, by omega⟩)))

theorem fair_steps : takesStep (.caller 1) (fairMove 1) (fairState 1) ∧ takesStep (.caller 0) (fairMove 2) (fairState 2)
    ∧ takesStep (.caller 2) (fairMove 3) (fairState 3) ∧ takesStep .sched (fairMove 7) (fairState 7) := by
  refine ⟨⟨rfl, _, rfl, ?_⟩, ⟨rfl, _, rfl, ?_⟩, ⟨rfl, _, rfl, ?_⟩, ⟨rfl, _, rfl, ?_⟩⟩ <;> decide +kernel

theorem fair_tick (n : Nat) : takesStep (.tick 1) (fairMove (n + 8)) (fairState (n + 8)) := by
  obtain ⟨l, a, h⟩ := fair_quiet n
  rw [h]; exact quiet_takesStep l a

/-- At first CALLER(1) holds TL and CALLER(0) waits for it; at state 3 TL is free, and both jobs are ready; at state 5
SCHED runs its job. -/
theorem witness_FairRunEndsWaits :
    isRun fairMove fairState ∧ weaklyFair fairMove fairState ∧ tlOk resetting ∧ mutexesFree resetting
    ∧ resetting.sq.started = true ∧ resetting.T.tl = .held (.caller 1)
    ∧ resetting.topFlight (.caller 0) = some { agent := .caller 0, phase := .waiting (.busStop 7), readyAt := 0 }
    ∧ isInternal (.busStop 7) = false
    ∧ (let s := fairState 3
      s.T.tl = .free ∧ (∀ J ∈ fairJobs, s.job? J.id = some J ∧ ready J s) ∧ s.sq.running = none ∧ s.topFlight .sched = none
      ∧ fairJobs.map Job.ctx = [.onSched, .onCaller (.caller 2)]
      ∧ s.topFlight (.caller 2) = some { agent := .caller 2, phase := .playing 2, readyAt := 0 } ∧ s.reached 0 = true)
    ∧ (fairState 5).sq.running = some 1 ∧ (fairState 5).T.tl = .free
    ∧ ((fairState 5).job? 1).map Job.phase = some (.issue 1) := by
  refine ⟨follow_isRun _ _, ⟨fun a n h => ?_, fun h => absurd h (by decide +kernel)⟩, ?_, by unfold mutexesFree; decide +kernel,
    rfl, rfl, rfl, rfl, ⟨by decide +kernel, ?_, by decide +kernel⟩, by decide +kernel⟩
  · obtain ⟨s1, s2, s3, s7⟩ := fair_steps
    rcases fair_enabled h with rfl | ⟨rfl, hn⟩ | ⟨rfl, hn⟩ | ⟨rfl, hn⟩ | ⟨rfl, hn⟩
    · exact ⟨n + 8, by omega, fair_tick n⟩
    · exact ⟨1, hn, s1⟩
    · exact ⟨2, hn, s2⟩
    · exact ⟨3, hn, s3⟩
    · exact ⟨7, hn, s7⟩
  · refine ⟨_, rfl, rfl, rfl, ?_⟩
    show (resetting.T.isOpen = false ↔ true = true)
    decide
  · have : ∀ J ∈ fairJobs, (fairState 3).job? J.id = some J ∧ J.phase = .issue 0 := by decide +kernel
    exact fun J hJ => ⟨(this J hJ).1, .inl ⟨0, (this J hJ).2⟩⟩

/-! A fair run with TIMED: the period of channel 1 passes, its timer fires, and so on. -/

def timedMove (n : Nat) : Move := if n % 2 = 0 then .pass 20000 else .tick 1

/-- At time `r` nothing is in progress; the timer was armed at `r₀`. -/
def quietAt (l : List Event) (a : Agent) (r r₀ : Rat) : State :=
  { timedAt r State.reset with trace := l, cur := a, channels := [{ Channel.init Config.default 1 with armedAt := r₀ }] }

theorem quietAt_pass (l : List Event) (a : Agent) (r r₀ : Rat) :
    runMove (.pass 20000) (quietAt l a r r₀) = .next (quietAt l a (r + 20) r₀) := by
  simp [runMove, passTime, quietAt, timedAt]; norm_num

theorem quietAt_tick (l : List Event) (a : Agent) (r : Rat) :
    runMove (.tick 1) (quietAt l a (r + 20) r) = .next (quietAt (l ++ [.tickfire 1]) (.tick 1) (r + 20) (r + 20)) := by
  have due : ({ quietAt l a (r + 20) r with cur := .tick 1 } : State).tickDue
      { Channel.init Config.default 1 with armedAt := r } = true := by
    simp [State.tickDue, State.reached, quietAt, timedAt, State.reset, State.init, Config.default]
  show execPwmTick 1 { quietAt l a (r + 20) r with cur := .tick 1 } = _
  unfold execPwmTick
  rw [if_neg (fun h => h rfl), show ({ quietAt l a (r + 20) r with cur := .tick 1 } : State).channel? ((1 : Nat) : Int)
    = some { Channel.init Config.default 1 with armedAt := r } from rfl]
  simp only [due]; rfl

/-- The states of the run. -/
def timedState : Nat → State := follow timedMove (quietAt [] .sched 0 0)

theorem timed_even (n : Nat) : timedMove (2 * n) = .pass 20000 := by simp [timedMove]
theorem timed_odd (n : Nat) : timedMove (2 * n + 1) = .tick 1 := by unfold timedMove; rw [if_neg (by omega)]

theorem timed_next (n : Nat) (h : ∃ l a, timedState (2 * n) = quietAt l a (20 * n) (20 * n)) :
    ∃ l a, timedState (2 * n + 1) = quietAt l a (20 * n + 20) (20 * n) := by
  obtain ⟨l, a, h⟩ := h
  refine ⟨l, a, ?_⟩
  show after _ (runMove (timedMove (2 * n)) (timedState (2 * n))) = _
  rw [h, timed_even, quietAt_pass]; rfl

theorem timed_quiet : ∀ n, ∃ l a, timedState (2 * n) = quietAt l a (20 * n) (20 * n)
  | 0     => ⟨[], .sched, by simp [timedState, follow]⟩
  | n + 1 => by
    obtain ⟨l, a, h⟩ := timed_next n (timed_quiet n)
    refine ⟨l ++ [.tickfire 1], .tick 1, ?_⟩
    show after _ (runMove (timedMove (2 * n + 1)) (timedState (2 * n + 1))) = _
    rw [h, timed_odd, quietAt_tick, show (20 * ((n + 1 : Nat) : Rat)) = 20 * n + 20 by push_cast; ring]; rfl

theorem timed_now (n : Nat) : (timedState (2 * n)).now = 20 * n ∧ (timedState (2 * n + 1)).now = 20 * n + 20 := by
  obtain ⟨l, a, h⟩ := timed_quiet n
  obtain ⟨l', a', h'⟩ := timed_next n ⟨l, a, h⟩
  exact ⟨by rw [h]; rfl, by rw [h']; rfl⟩

theorem timed_ticks (n : Nat) : takesStep (.tick 1) (timedMove (2 * n + 1)) (timedState (2 * n + 1)) := by
  obtain ⟨l, a, h⟩ := timed_next n (timed_quiet n)
  rw [timed_odd, h]
  exact ⟨rfl, _, quietAt_tick l a _, .inl (by simp [quietAt])⟩

theorem timed_enabled {n : Nat} {b : Agent} (h : enabled b (timedState n)) : b = .tick 1 := by
  have : ∃ l a r r₀, timedState n = quietAt l a r r₀ := by
    obtain ⟨k, rfl | rfl⟩ := Nat.even_or_odd' n
    · obtain ⟨l, a, h⟩ := timed_quiet k; exact ⟨l, a, _, _, h⟩
    · obtain ⟨l, a, h⟩ := timed_next k (timed_quiet k); exact ⟨l, a, _, _, h⟩
  obtain ⟨l, a, r, r₀, hq⟩ := this
  rw [hq] at h
  have hc : ∀ c : Nat, (quietAt l a r r₀).channel? ((c + 2 : Nat) : Int) = none := fun c => by
    have : ((c : Int) + 2).toNat = c + 2 := by omega
    simp [State.channel?, quietAt, this]
  simpa [quietAt, timedAt, State.reset, State.init, Sequencer.init] using enabled_among hc h

theorem witness_FairRunEndsWaits_timed :
    isRun timedMove timedState ∧ weaklyFair timedMove timedState ∧ (timedState 0).cfg.timed = true
    ∧ tlOk (timedState 0) ∧ mutexesFree (timedState 0) ∧ (timedState 0).sq.started = true := by
  refine ⟨follow_isRun _ _, ⟨fun a n h => ⟨2 * n + 1, by omega, ?_⟩, fun _ => ⟨fun n => ?_, fun T => ?_⟩⟩, rfl, ?_, ?_, rfl⟩
  · rw [timed_enabled h]; exact timed_ticks n
  · obtain ⟨k, rfl | rfl⟩ := Nat.even_or_odd' n
    · rw [(timed_now k).1, (timed_now k).2]; norm_num
    · rw [(timed_now k).2, show 2 * k + 1 + 1 = 2 * (k + 1) by ring, (timed_now (k + 1)).1]
      push_cast; linarith
  · obtain ⟨k, hk⟩ := exists_nat_gt T
    refine ⟨2 * k, ?_⟩
    have : (0 : Rat) ≤ k := Nat.cast_nonneg k
    rw [(timed_now k).1]; linarith
  · exact ⟨rfl, rfl⟩
  · unfold mutexesFree; decide +kernel

/-- A step inside an exchange: it turns the line. -/
theorem witness_PinsBreakBeforeMake :
    let s := { reading with script := [.resume (.caller 1)] }
    pinsOk s ∧ step s = .next (after State.reset (step s)) ∧ (after State.reset (step s)).T.dir = .rx :=
  ⟨by unfold pinsOk; decide +kernel, next_after (by decide +kernel), by decide +kernel⟩

theorem reading_tlOk (l : List Move) : tlOk { reading with script := l } := by
  refine ⟨_, rfl, rfl, rfl, ?_⟩
  show (State.reset.T.isOpen = false ↔ false = true)
  decide

theorem witness_LockInvariantKept :
    let s := { reading with script := [.resume (.caller 1)] }
    tlOk s ∧ mutexesFree s ∧ step s = .next (after State.reset (step s)) :=
  ⟨reading_tlOk _, by unfold mutexesFree; decide +kernel, next_after (by decide +kernel)⟩

theorem witness_ExchangeIsIsolated :
    let m : Move := .call (.caller 0) (.twrite 2 0x01 [500, 1000])
    tlOk reading ∧ reading.T.tl = .held (.caller 1) ∧ m ≠ .resume (.caller 1)
    ∧ runMove m reading = .next (after State.reset (runMove m reading)) :=
  ⟨reading_tlOk _, rfl, by decide, next_after (by decide +kernel)⟩

/-! ## Witnesses: PWM interpolator -/

theorem witness_PwmSetPositionChecks :
    State.reset.channel? 0 = none ∧ State.reset.channel? 2 = none
    ∧ State.reset.channel? 1 = some (Channel.init Config.default 1)
    ∧ ¬ ((Channel.init Config.default 1).lo ≤ 49 ∧ (49 : Int) ≤ (Channel.init Config.default 1).hi)
    ∧ ¬ ((Channel.init Config.default 1).lo ≤ 2501 ∧ (2501 : Int) ≤ (Channel.init Config.default 1).hi)
    ∧ (Channel.init Config.default 1).lo ≤ 50 ∧ (2500 : Int) ≤ (Channel.init Config.default 1).hi
    ∧ (mutexTaken.channel? 1).map (fun ch => decide (ch.mutex ≠ .free)) = some true := by decide +kernel

theorem witness_PwmImmediateJumps :
    let ch := Channel.init Config.default 1
    State.reset.channel? 1 = some ch ∧ ch.lo ≤ 50 ∧ (50 : Int) ≤ ch.hi ∧ ch.lo ≤ 2500 ∧ (2500 : Int) ≤ ch.hi
    ∧ ch.mutex = .free := by decide +kernel

theorem witness_PwmTimedPlansMotion :
    let ch := Channel.init Config.default 1
    State.reset.channel? 1 = some ch ∧ ch.lo ≤ 2500 ∧ (2500 : Int) ≤ ch.hi ∧ ch.mutex = .free ∧ (0 : Int) < 1
    ∧ State.reset.cfg.setposSplitRead = false ∧ (splitRead State.reset).cfg.setposSplitRead = true
    ∧ (splitRead State.reset).channel? 1 = some ch := by decide +kernel

/-- A duration of 30 ms is a tie under every TICK_ROUND. -/
theorem witness_TickCountRounds :
    Config.default.ticksOk = true ∧ (0 : Int) < 30 ∧ 2 * ((min (max 30 20) 30000 : Int) % 20) = 20
    ∧ Config.default.tickRound = .halfToEven ∧ Config.default.tickMs = 20 ∧ Config.default.pdurMax = 30000
    ∧ tickCount { Config.default with tickRound := .halfAwayFromZero } 50 = 3
    ∧ tickCount { Config.default with tickRound := .halfTowardZero } 50 = 2 := by decide +kernel

theorem witness_PwmTickInterpolates :
    let s : State := { ch1 1500 2000 5 (-100) 0 with cur := .tick 1 }
    s.cur = .tick 1
    ∧ (s.channel? 1).map (fun ch => (ch.rem, decide (ch.mutex = .free))) = some (5, true) ∧ s.cfg.timed = false
    ∧ (mutexTaken.channel? 1).map (fun ch => decide (ch.mutex ≠ .free)) = some true
    ∧ (timedAt 19 s).cfg.timed = true ∧ (timedAt 19 s).now < 0 + 20 ∧ (0 : Rat) + 20 ≤ (timedAt 20 s).now
    ∧ ((ch1 0 0 0 0 0).channel? 1).map (fun ch => ch.rem) = some 0
    ∧ ((ch1 0 0 1 0 0).channel? 1).map (fun ch => ch.rem) = some 1
    ∧ ((ch1 0 0 2 0 0).channel? 1).map (fun ch => ch.rem) = some 2
    ∧ (State.reset.channel? 1).map (fun ch => ch.rem) = some (-1) := by decide +kernel

/-- A motion of two ticks: its command, then the first and the second firing, each after the one before. -/
theorem witness_PwmMotionConverges :
    let s := ch1 1500 1500 (-1) 0 0
    let t := after State.reset (exec (.pwmSetPosition 1 2000 40) s)
    let u := after State.reset (exec (.pwmTick 1) { t with cur := .tick 1 })
    let v := after State.reset (exec (.pwmTick 1) { u with cur := .tick 1 })
    let w := after State.reset (exec (.pwmTick 1) { v with cur := .tick 1 })
    TickRun 1 0 t t ∧ TickRun 1 1 t u ∧ TickRun 1 2 t v
    ∧ s.cfg.ticksOk = true ∧ s.cfg.idleTicks < 0 ∧ s.cfg.pdurMin = s.cfg.tickMs
    ∧ exec (.pwmSetPosition 1 2000 40) s = .next t ∧ s.cfg.setposSplitRead = false ∧ tickCount s.cfg 40 = 2
    ∧ fires 1 t u ∧ fires 1 u v ∧ fires 1 v w := by
  have f1 : fires 1 (after State.reset (exec (.pwmSetPosition 1 2000 40) (ch1 1500 1500 (-1) 0 0))) _ :=
    ⟨rfl, by decide +kernel⟩
  have f2 : fires 1 (after State.reset (exec (.pwmTick 1)
      { after State.reset (exec (.pwmSetPosition 1 2000 40) (ch1 1500 1500 (-1) 0 0)) with cur := .tick 1 })) _ :=
    ⟨rfl, by decide +kernel⟩
  exact ⟨.start _, .tick (.start _) f1, .tick (.tick (.start _) f1) f2, by decide +kernel, by decide +kernel, rfl,
    rfl, rfl, by decide +kernel, f1, f2, rfl,
    by decide +kernel⟩

theorem witness_PwmDurationClampIdempotent :
    mutexesFree State.reset ∧ State.reset.cfg.ticksOk = true ∧ (1 : Int) ≤ 1 ∧ 19 < State.reset.cfg.pdurMin
    ∧ State.reset.cfg.pdurMax < 30001 ∧ State.reset.cfg.pdurMin = State.reset.cfg.tickMs
    ∧ State.reset.cfg.pdurMax = (1500 : Nat) * State.reset.cfg.tickMs
    ∧ State.reset.cfg.setposSplitRead = false := by
  unfold mutexesFree; decide +kernel

theorem witness_PwmSetDeviation :
    State.reset.channel? 2 = none ∧ State.reset.channel? 1 = some (Channel.init Config.default 1)
    ∧ State.reset.cfg.devRangeInclusive = false ∧ State.reset.cfg.devLimit = 300 ∧ ¬ ((-300 : Int) < 300 ∧ (300 : Int) < 300)
    ∧ ((-300 : Int) < -299 ∧ (-299 : Int) < 300) ∧ ((-300 : Int) ≤ 300 ∧ (300 : Int) ≤ 300)
    ∧ (Channel.init Config.default 1).mutex = .free
    ∧ (mutexTaken.channel? 1).map (fun ch => decide (ch.mutex ≠ .free)) = some true := by decide +kernel

theorem witness_PwmGetDeviation :
    State.reset.channel? 2 = none ∧ State.reset.channel? 1 = some (Channel.init Config.default 1)
    ∧ (Channel.init Config.default 1).mutex = .free
    ∧ (mutexTaken.channel? 1).map (fun ch => decide (ch.mutex ≠ .free)) = some true := by decide +kernel

theorem reset_pwmOk (l : List Move) : pwmOk { State.reset with script := l } where
  params := show Config.default.wf = true by decide +kernel
  count := rfl
  channels := by
    intro ch hc
    have : ch = Channel.init Config.default 1 := by simpa [State.reset, State.init, Config.default, List.range_succ] using hc
    subst this
    exact ⟨.inl rfl, .inl rfl, show State.reset.cfg.devOk (Channel.init Config.default 1).dev = true by decide,
      fun _ h => absurd h (by decide)⟩
  flights := by intro f hf; cases hf
  jobs := by intro f hf; cases hf

theorem witness_ChannelInvariantKept :
    let s := { State.reset with script := [.call (.caller 0) (.pwmSetPosition 1 2000 100)] }
    pwmOk s ∧ step s = .next (after State.reset (step s)) ∧ chAfter (step s) = some (1500, 2000, 5, -100, 0) :=
  ⟨reset_pwmOk _, next_after (by decide +kernel), by decide +kernel⟩

/-! ## Witnesses: action sequencer -/

theorem witness_SeqLoadReadsTheStore :
    (-1 : Int) < 0 ∧ (0 : Int) ≤ 0 ∧ State.reset.storeIn = []
    ∧ ({ State.reset with storeIn := [none] } : State).storeIn = none :: []
    ∧ ({ State.reset with storeIn := [some wave, none] } : State).storeIn = some wave :: [none] := by decide +kernel

theorem witness_LockOverride :
    locksOk [(2, 700), (3, 5)] = true ∧ wave[0]? = some { dur := 500, pos := [100, 200] }
    ∧ (loadedSet "wave" 1 [(2, 700), (3, 5)] wave).rows[0]? = some { dur := 500, pos := [100, 700] }
    ∧ ((2 : Nat) : Int) = 2 ∧ ((2 : Int), (700 : Int)) ∈ [((2 : Int), (700 : Int)), (3, 5)]
    ∧ ∀ v ∈ [700, 5], ((1 : Int), v) ∉ [((2 : Int), (700 : Int)), (3, 5)] := by decide +kernel

theorem witness_RoundsOfABatch :
    (3 : Nat) < (setOf 2 wave).reps * (setOf 2 wave).rows.length ∧ (setOf 2 wave).reps * (setOf 2 wave).rows.length ≤ 4
    ∧ activeRows [setOf 2 wave] 3 = [{ dur := 800, pos := [300, 400] }]
    ∧ (cmds [setOf 2 wave] 3)[1]? = some { col := 2, pos := 400, dur := 800 }
    ∧ 3 < rounds [setOf 2 wave] ∧ rounds ([] : List ActionSet) ≤ 0 := by decide +kernel

theorem reset_jobsOk (s : State) (h1 : s.sq = State.reset.sq) (h2 : s.handles = []) : jobsOk s := by
  refine ⟨?_, ?_, ?_, ?_⟩ <;> rw [h1] at * <;> simp [h2, State.reset, State.init, Sequencer.init]

theorem witness_PlayNonBlockingReturnsAtOnce :
    State.reset.sq.started = true
    ∧ ({ State.reset with sq := { State.reset.sq with started := false } } : State).sq.started = false := by decide +kernel

theorem witness_PlayBlockingCompletes :
    let S := [setOf 2 [{ dur := 100, pos := [500] }, { dur := 0, pos := [1000] }]]
    jobsOk State.reset ∧ State.reset.T.tl = .free ∧ mutexesFree State.reset ∧ State.reset.cfg.clampsOk = true
    ∧ State.reset.cfg.blockingCallback = false
    ∧ rounds S = 4 ∧ (∀ k < rounds S, ∀ c ∈ cmds S k, playable State.reset c)
    ∧ ∀ k < rounds S, ∀ c ∈ cmds S k, playable (onPwm State.reset) c := by
  refine ⟨reset_jobsOk _ rfl rfl, rfl, by unfold mutexesFree; decide +kernel, by decide +kernel, rfl, by decide +kernel, ?_, ?_⟩
  · intro k _ c hc
    have : c.col ≤ 254 := by
      have h : k < 4 := by assumption
      interval_cases k <;> revert c <;> decide +kernel
    exact this
  · intro k h c hc
    have h : k < 4 := h
    have key : c.col = 1 ∧ 50 ≤ c.pos ∧ c.pos ≤ 2500 := by interval_cases k <;> revert c <;> decide +kernel
    unfold playable
    rw [key.1]
    exact ⟨Channel.init _ 1, rfl, key.2⟩

/-- Program 5: column 2 is a PWM channel that does not exist. -/
theorem witness_PlayBlockingRaises :
    let S := [setOf 1 [{ dur := 100, pos := [500, 1500] }]]
    let s : State := among (.waiting .lineReset)
      { playing S 0 (.issue 1) none with cfg := { Config.default with pwmColumns := [2] } }
    let J := job1 (.onCaller (.caller 0)) S 0 (.issue 1) none
    s.topFlight (.caller 0) = some { agent := .caller 0, phase := .playing 1, readyAt := 0 } ∧ s.reached 0 = true
    ∧ s.flights.head?.map Flight.agent = some (.caller 3)
    ∧ s.job? 1 = some J ∧ J.ctx = .onCaller (.caller 0) ∧ J.phase = .issue 1
    ∧ (cmds J.sets J.k)[1]? = some { col := 2, pos := 1500, dur := 100 } ∧ J.k < rounds J.sets ∧ J.cb = none
    ∧ channelKind s.cfg 2 = .pwm ∧ pwmCheck 2 1500 100 s = .error (.channelRange 2) := by decide +kernel

/-- The same with a serial column 255. -/
theorem witness_PlayBlockingRaises_serial :
    let S := [setOf 1 [{ dur := 1, pos := List.replicate 255 0 }]]
    let s := among (.waiting .lineReset) (playing S 0 (.issue 254) (some 3))
    let J := job1 (.onCaller (.caller 0)) S 0 (.issue 254) (some 3)
    s.topFlight (.caller 0) = some { agent := .caller 0, phase := .playing 1, readyAt := 0 } ∧ s.reached 0 = true
    ∧ s.job? 1 = some J ∧ J.ctx = .onCaller (.caller 0) ∧ J.phase = .issue 254
    ∧ (cmds J.sets J.k)[254]? = some { col := 255, pos := 0, dur := 1 } ∧ J.k < rounds J.sets
    ∧ s.cfg.blockingCallback = false ∧ channelKind s.cfg 255 = .serial
    ∧ moveFrame s.cfg 255 0 1 = .error (.encodeRange .deviceId) := by decide +kernel

theorem witness_SeqIssueSerialCommand :
    let s := sched [setOf 1 wave] 0 (.issue 1) none
    let J := job1 .onSched [setOf 1 wave] 0 (.issue 1) none
    s.job? 1 = some J ∧ mine J s ∧ J.phase = .issue 1 ∧ J.k < rounds J.sets
    ∧ (cmds J.sets J.k)[1]? = some { col := 2, pos := 200, dur := 500 } ∧ channelKind s.cfg 2 = .serial ∧ s.T.tl = .free
    ∧ s.cfg.clampsOk = true
    ∧ { s with T := { s.T with tl := .held (.caller 1) } }.job? 1 = some J := by
  unfold mine; decide +kernel

/-- A blocking playback, at a column that is no device id. -/
theorem witness_SeqIssueSerialCommand_id :
    let S := [setOf 1 [{ dur := 1, pos := List.replicate 255 0 }]]
    let s := playing S 0 (.issue 254) none
    let J := job1 (.onCaller (.caller 0)) S 0 (.issue 254) none
    s.job? 1 = some J ∧ mine J s ∧ J.phase = .issue 254 ∧ J.k < rounds J.sets
    ∧ (cmds J.sets J.k)[254]? = some { col := 255, pos := 0, dur := 1 } ∧ channelKind s.cfg 255 = .serial
    ∧ s.cfg.clampsOk = true := by
  unfold mine; decide +kernel

theorem witness_SeqIssuePwmCommand :
    let S := [setOf 1 [{ dur := 100, pos := [2500] }, { dur := 0, pos := [50] }, { dur := 0, pos := [49] }]]
    let s (k : Nat) := onPwm (sched S k (.issue 0) none)
    let J (k : Nat) := job1 .onSched S k (.issue 0) none
    let ch := Channel.init Config.default 1
    (∀ k < 3, (s k).job? 1 = some (J k) ∧ mine (J k) (s k) ∧ (J k).phase = .issue 0 ∧ (J k).k < rounds (J k).sets)
    ∧ (cmds S 0)[0]? = some { col := 1, pos := 2500, dur := 100 } ∧ (cmds S 1)[0]? = some { col := 1, pos := 50, dur := 0 }
    ∧ (cmds S 2)[0]? = some { col := 1, pos := 49, dur := 0 }
    ∧ channelKind (s 0).cfg 1 = .pwm ∧ (s 0).channel? 1 = some ch ∧ ch.mutex = .free ∧ ch.hi = 2500 ∧ ch.lo = 50
    ∧ (s 0).cfg.setposSplitRead = false ∧ (J 0).split = none ∧ (splitRead (s 0)).cfg.setposSplitRead = true
    ∧ ({ s 0 with channels := [] } : State).channel? 1 = none
    ∧ (mutexTaken.channel? 1).map (fun ch => decide (ch.mutex ≠ .free)) = some true := by
  unfold mine; decide +kernel

/-- A timed command whose width is already read. -/
theorem witness_SeqIssuePwmCommand_split :
    let S := [setOf 1 [{ dur := 100, pos := [2500] }]]
    let J : Job := { job1 .onSched S 0 (.issue 0) none with split := some 1500 }
    let s : State := splitRead (onPwm (sched S 0 (.issue 0) none))
    let s : State := { s with sq := { s.sq with jobs := [J] } }
    s.job? 1 = some J ∧ mine J s ∧ J.phase = .issue 0 ∧ J.k < rounds J.sets
    ∧ (cmds J.sets J.k)[0]? = some { col := 1, pos := 2500, dur := 100 } ∧ channelKind s.cfg 1 = .pwm ∧ J.split ≠ none
    ∧ s.channel? 1 = some (Channel.init Config.default 1)
    ∧ chAfter (exec (.seqIssue 1) s) = some (1500, 2500, 5, -200, 0) := by
  unfold mine; decide +kernel

theorem witness_SeqIssueEndsRound :
    let s (k p : Nat) := sched [setOf 1 wave] k (.issue p) none
    let J (k p : Nat) := job1 .onSched [setOf 1 wave] k (.issue p) none
    (s 2 0).job? 1 = some (J 2 0) ∧ mine (J 2 0) (s 2 0) ∧ rounds (J 2 0).sets ≤ (J 2 0).k
    ∧ (s 1 2).job? 1 = some (J 1 2) ∧ mine (J 1 2) (s 1 2) ∧ (J 1 2).phase = .issue 2
    ∧ (J 1 2).k < rounds (J 1 2).sets ∧ (cmds (J 1 2).sets (J 1 2).k).length ≤ 2 := by
  unfold mine; decide +kernel

theorem witness_SeqSleepSuspends :
    let J := job1 .onSched [setOf 1 wave] 0 (.sleep 500) none
    let K := job1 (.onCaller (.caller 0)) [setOf 1 wave] 0 (.sleep 500) none
    (sched [setOf 1 wave] 0 (.sleep 500) none).job? 1 = some J ∧ mine J (sched [setOf 1 wave] 0 (.sleep 500) none)
    ∧ J.phase = .sleep 500 ∧ J.ctx = .onSched
    ∧ (playing [setOf 1 wave] 0 (.sleep 500) none).job? 1 = some K ∧ mine K (playing [setOf 1 wave] 0 (.sleep 500) none)
    ∧ K.phase = .sleep 500 ∧ K.ctx ≠ .onSched := by
  unfold mine; decide +kernel

theorem witness_SeqWakeStartsNextRound :
    let s := sched [setOf 1 wave] 0 (.sleep 500) none
    let J := job1 .onSched [setOf 1 wave] 0 (.sleep 500) none
    s.job? 1 = some J ∧ mine J s ∧ J.phase = .sleep 500 ∧ s.cfg.timed = false
    ∧ (timedAt 500 s).job? 1 = some J ∧ mine J (timedAt 500 s) ∧ J.sleptAt + (500 : Nat) ≤ (timedAt 500 s).now
    ∧ (timedAt 499 s).job? 1 = some J ∧ (timedAt 499 s).cfg.timed = true
    ∧ (timedAt 499 s).now < J.sleptAt + (500 : Nat) := by
  unfold mine; decide +kernel

theorem witness_SeqFinishCompletes :
    let s (cb : Option Nat) := sched [setOf 1 wave] 2 (.issue 0) cb
    let J (cb : Option Nat) := job1 .onSched [setOf 1 wave] 2 (.issue 0) cb
    let p (cb : Option Nat) := playing [setOf 1 wave] 2 (.issue 0) cb
    let K (cb : Option Nat) := job1 (.onCaller (.caller 0)) [setOf 1 wave] 2 (.issue 0) cb
    (∀ cb ∈ [none, some 7], (s cb).job? 1 = some (J cb) ∧ mine (J cb) (s cb) ∧ (J cb).phase = .issue 0
      ∧ (J cb).ctx = .onSched ∧ (p cb).job? 1 = some (K cb) ∧ mine (K cb) (p cb) ∧ (K cb).phase = .issue 0
      ∧ (K cb).ctx ≠ .onSched)
    ∧ (J none).cb = none ∧ (J (some 7)).cb ≠ none ∧ (p (some 7)).cfg.blockingCallback = false
    ∧ ({ Config.default with blockingCallback := true } : Config).blockingCallback = true := by
  unfold mine; decide +kernel

theorem witness_CallbackReturnEndsJob :
    let s := among (.waiting .lineReset)
      (after State.reset (exec (.seqFinish 1 .ok) (sched [setOf 1 wave] 2 (.issue 0) (some 7))))
    let J := job1 .onSched [setOf 1 wave] 2 .done (some 7)
    s.topFlight .sched = some { agent := .sched, phase := .callback 1 .ok, readyAt := 0 } ∧ s.reached 0 = true
    ∧ s.job? 1 = some J ∧ J.ctx = .onSched := by decide +kernel

/-- The body of a blocking job, under BLOCKING_CALLBACK: its caller stands in it above its playback. -/
theorem witness_CallbackReturnEndsJob_blocking :
    let p := playing [setOf 1 wave] 2 (.issue 0) (some 7)
    let s := among (.waiting .lineReset)
      (after State.reset (exec (.seqFinish 1 .ok) { p with cfg := { p.cfg with blockingCallback := true } }))
    let J := job1 (.onCaller (.caller 0)) [setOf 1 wave] 2 .done (some 7)
    s.topFlight (.caller 0) = some { agent := .caller 0, phase := .callback 1 .ok, readyAt := 0 } ∧ s.reached 0 = true
    ∧ s.job? 1 = some J ∧ J.ctx = .onCaller (.caller 0)
    ∧ (after State.reset (resumeAgent (.caller 0) s)).flights.map Flight.agent = [.caller 3]
    ∧ (events (resumeAgent (.caller 0) s)).drop 1 = [.result (.caller 0) .seqPlay .done] := by decide +kernel

/-- A ready job of SCHED, issuing or sleeping, that SCHED does not run. -/
theorem witness_SchedStartsReadyJob :
    let idle (ph : JobPhase) : State := (sched [setOf 1 wave] 0 ph none).setRunning none
    let J (ph : JobPhase) : Job := job1 .onSched [setOf 1 wave] 0 ph none
    (∀ ph ∈ [JobPhase.issue 1, JobPhase.issue 2, JobPhase.sleep 500],
      (idle ph).sq.started = true ∧ (idle ph).topFlight .sched = none ∧ (idle ph).sq.running = none
      ∧ (idle ph).job? 1 = some (J ph) ∧ (J ph).ctx = .onSched ∧ (J ph).phase = ph)
    ∧ (timedAt 500 (idle (.sleep 500))).job? 1 = some (J (.sleep 500))
    ∧ (J (.sleep 500)).sleptAt + (500 : Nat) ≤ (timedAt 500 (idle (.sleep 500))).now
    ∧ (timedAt 499 (idle (.sleep 500))).cfg.timed = true
    ∧ (timedAt 499 (idle (.sleep 500))).now < (J (.sleep 500)).sleptAt + (500 : Nat)
    ∧ ((after State.reset (exec (.seqIssue 1) (sched [setOf 1 wave] 0 (.issue 1) none))).job? 1).map Job.phase = some (.issue 2)
    ∧ ((after State.reset (exec (.seqIssue 1) (sched [setOf 1 wave] 0 (.issue 2) none))).job? 1).map Job.phase
      = some (.sleep 500) := by decide +kernel

/-- The job SCHED runs, at a command, after the last command of its round, and asleep; another job is asked for. -/
theorem witness_SchedRunsOneJob :
    let s (ph : JobPhase) := sched [setOf 1 wave] 0 ph none
    let t (p : Nat) := after State.reset (exec (.seqIssue 1) (s (.issue p)))
    schedMove 5 (s (.issue 0)) = .next (after State.reset (schedMove 5 (s (.issue 0))))
    ∧ (∀ ph ∈ [JobPhase.issue 0, .issue 2, .sleep 500], (s ph).sq.running = some 1 ∧ (s ph).sq.started = true
      ∧ (s ph).topFlight .sched = none ∧ (s ph).job? 1 = some (job1 .onSched [setOf 1 wave] 0 ph none))
    ∧ ((t 0).job? 1).map Job.phase = some (.issue 1) ∧ ((t 2).job? 1).map Job.phase = some (.sleep 500) :=
  ⟨next_after (by decide +kernel), by decide +kernel, by decide +kernel, by decide +kernel⟩

theorem witness_PlaybackSendsOnlyMoves :
    let s := sched [setOf 1 wave] 0 (.issue 0) none
    let p := among (.waiting .lineReset) (playing [setOf 1 wave] 0 (.issue 0) none)
    s.cfg.clampsOk = true
    ∧ exec (.seqIssue 1) s = .next (after State.reset (exec (.seqIssue 1) s))
    ∧ schedMove 1 s = .next (after State.reset (schedMove 1 s))
    ∧ exec (.seqPlay [setOf 1 wave] true none) State.reset
      = .next (after State.reset (exec (.seqPlay [setOf 1 wave] true none) State.reset))
    ∧ p.topFlight (.caller 0) = some { agent := .caller 0, phase := .playing 1, readyAt := 0 }
    ∧ resumeAgent (.caller 0) p = .next (after State.reset (resumeAgent (.caller 0) p))
    ∧ (sends (resumeAgent (.caller 0) p)).length = 1 :=
  ⟨by decide +kernel, next_after (by decide +kernel), next_after (by decide +kernel), next_after (by decide +kernel),
    by decide +kernel, next_after (by decide +kernel), by decide +kernel⟩

theorem witness_PlayPathsLoadsThenPlays :
    let s (l : List (Option (List ActionRow))) : State := { State.reset with storeIn := l }
    let t l := after State.reset (exec (.seqLoad "wave" 1 []) (s l))
    exec (.seqLoad "wave" 1 []) (s [none]) = .next (t [none])
    ∧ (t [none]).trace = (s [none]).trace ++ [.store "wave" none]
      ++ [.result (.caller 0) .seqLoad (.raised (.resourceNotFound "wave"))]
    ∧ (t [some wave, none]).trace = (s []).trace ++ [.store "wave" (some wave)]
      ++ [.result (.caller 0) .seqLoad (.actionSet (setOf 1 wave))]
    ∧ (loadAll [("missing", 1, [])] (t [some wave, none])).2 = none
    ∧ (loadAll [("wave", 1, [])] (t [some wave, some wave])).2 = some [setOf 1 wave] :=
  ⟨next_after (by decide +kernel), by decide +kernel⟩

theorem witness_JobInvariantKept :
    let s := { State.reset with script := [.call (.caller 0) (.seqPlay [setOf 1 wave] false none)] }
    jobsOk s ∧ step s = .next (after State.reset (step s)) ∧ ((after State.reset (step s)).sq.jobs.map Job.id) = [1] :=
  ⟨reset_jobsOk _ rfl rfl, next_after (by decide +kernel), by decide +kernel⟩

theorem witness_HandlesResolveOnce :
    let s := { sched [setOf 1 wave] 2 (.issue 0) none with script := [.sched 1] }
    step s = .next (after State.reset (step s)) ∧ s.handles[0]? = some (1, .pending) :=
  ⟨next_after (by decide +kernel), rfl⟩

/-! ## Witnesses: the machine -/

theorem witness_ResetValues :
    let cfg : Config := { Config.default with pwBounds := [(1, 700, 2300)] }
    (State.init Config.default).channel? 1 = some (Channel.init Config.default 1)
    ∧ Config.default.pwBounds.lookup (1 : Int).toNat = none
    ∧ (State.init cfg).channel? 1 = some (Channel.init cfg 1) ∧ cfg.pwBounds.lookup (1 : Int).toNat = some (700, 2300) := by
  decide +kernel

theorem witness_ResetMeetsInvariants : Config.default.wf = true := by decide +kernel

theorem witness_StepRunsIssuedInstr :
    let b : Frame := [0x55, 0x55, 0x07, 0x03, 0x0C, 0xE9]
    let s (m : Move) : State := { State.reset with script := [m] }
    mayIssue (.caller 0) State.reset = true ∧ decode State.reset.cfg b = .ok (.moveStop 7)
    ∧ isInternal .lineReset = false ∧ decode State.reset.cfg [] = .error .tooShort
    ∧ (∀ m ∈ [Move.frame (.caller 0) b, .frame (.caller 0) [], .call (.caller 0) .lineReset, .begin (.caller 0) .lineReset,
        .playPaths (.caller 0) [] true none, .tick 1, .resume (.caller 0), .sched 1, .pass 5, .request (.caller 0) .other],
      (s m).script = m :: [])
    ∧ State.reset.topFlight (.tick 1) = none ∧ State.reset.script = [] := by decide +kernel

/-- The step of a firing, of a begun operation and of the one going on. -/
theorem test_step_moves :
    events (step { ch1 1500 2000 5 (-100) 0 with script := [.tick 1] }) = [.tickfire 1, .pwm 1 1600]
    ∧ events (step { State.reset with script := [.begin (.caller 2) .lineReset] }) = [.uclose, .wait .lineReset 0]
    ∧ events (step { after State.reset (step { State.reset with script := [.begin (.caller 2) .lineReset] }) with
        script := [.resume (.caller 2)], trace := [] })
      = [.uopen, .pin .rxEn .deasserted, .pin .txEn .asserted, .wait .lineReset 0] := by decide +kernel

theorem witness_NonOperationsRefused :
    State.reset.cur ≠ .tick 1
    ∧ exec (.seqIssue 1) { sched [setOf 1 wave] 0 (.issue 0) none with cur := .caller 0 }
      = .refused (.internalStep (.seqIssue 1))
    ∧ ((sched [setOf 1 wave] 0 (.issue 0) none).job? 1).map (fun J => (J.ctx, J.id)) = some (.onSched, 1) :=
  ⟨by decide +kernel, rfl, by decide +kernel⟩

/-- A timer makes no other step while it stands in an operation (log 23). -/
theorem test_timer_busy :
    runMove (.tick 1) { State.reset with flights := [{ agent := .tick 1, phase := .waiting .lineReset, readyAt := 0 }] }
      = .refused (.agentBusy (.tick 1)) := rfl

theorem witness_ConfigFixedTraceGrows :
    let s := { State.reset with script := [.call (.caller 0) (.busStop 7)] }
    step s = .next (after State.reset (step s)) := next_after (by decide +kernel)

theorem witness_EndedRunOnlyTicks :
    let stopped : State := { State.reset with sq := { State.reset.sq with started := false } }
    let due : State := timedAt 20 State.reset
    let early : State := timedAt 19 State.reset
    (∀ s ∈ [State.reset, stopped, due, early], runEnded s ∧ s.cfg.idleTicks < 0
      ∧ s.channel? 1 = some (Channel.init Config.default 1))
    ∧ State.reset.sq.started = true ∧ stopped.sq.started = false ∧ State.reset.cfg.timed = false
    ∧ due.cfg.timed = true ∧ (Channel.init Config.default 1).armedAt + (due.cfg.tickMs : Rat) ≤ due.now
    ∧ early.now < (Channel.init Config.default 1).armedAt + (early.cfg.tickMs : Rat) := by
  unfold runEnded
  decide +kernel

/-- Each phase that waits for a length of time: due and not due; and the two operations that begin with such a wait. -/
theorem witness_WaitsTakeTheirLength :
    let x : Exchange := { op := .tread, cmd := 0x1C, req := [0x55, 0x55, 0x01, 0x03, 0x1C, 0xDF], left := 1 }
    let s (ph : FlightPhase) : State := { State.reset with flights := [{ agent := .caller 1, phase := ph, readyAt := 5 }] }
    (∀ ph ∈ [FlightPhase.readReq x, .readSettle x, .lineClosed, .resetWrote 3],
      (s ph).topFlight (.caller 1) = some { agent := .caller 1, phase := ph, readyAt := 5 } ∧ (s ph).reached 5 = true
      ∧ (timedAt 5 (s ph)).reached 5 = true ∧ (timedAt 4 (s ph)).cfg.timed = true ∧ (timedAt 4 (s ph)).now < 5)
    ∧ ∀ i ∈ [Instr.tread 1 0x1C [] 2, .lineReset],
      isNext (begin i State.reset) = true ∧ (after State.reset (begin i State.reset)).flights.length = 1
      ∧ ((after State.reset (begin i State.reset)).flights.drop 1) = State.reset.flights := by decide +kernel

end Tests
end Sys2Proof
end

/-! # The frame codec: what ENCODE, ParseFrame and DECODE answer (R65 to R67) -/

section
namespace Sys2Proof
open Claims

/-! ## The claims' spelling of the frame and of its fields -/

/-- The frame the claims write out is the one the model builds (R52, R54). -/
theorem frameOf_eq_framed (cfg : Config) (id cmd : Byte) (pb : List Byte) :
    frameOf cfg id cmd pb = framed cfg id cmd pb := rfl

/-- The claims' signed 16-bit field is the model's (R40). -/
theorem wordValue_eq_signed16 (b0 b1 : Byte) : wordValue b0 b1 = signed16 b0 b1 := rfl

theorem isOneByte_eq_false {ps : List Int} (h : ∀ v, ps = [v] → ¬ (0 ≤ v ∧ v ≤ 255)) : isOneByte ps = false := by
  rw [← Bool.not_eq_true, isOneByte_iff]
  rintro ⟨v, hv, hrange⟩
  exact h v hv hrange

theorem all_wordOk_iff (ps : List Int) : ps.all wordOk = true ↔ ∀ v ∈ ps, -32768 ≤ v ∧ v ≤ 32767 := by
  simp only [List.all_eq_true, wordOk_iff]

theorem paramBytes_single {v : Int} (h0 : 0 ≤ v) (h1 : v ≤ 255) : paramBytes [v] = [lo8 v] :=
  if_pos ((isOneByte_iff [v]).2 ⟨v, rfl, h0, h1⟩)

theorem paramBytes_words {ps : List Int} (h : isOneByte ps = false) : paramBytes ps = ps.flatMap wordBytes :=
  if_neg (Bool.not_eq_true _ ▸ h)

/-! ## The checks of ENCODE after the first (R65, R128); `encode_bad_id` is the first -/

section
variable {cfg : Config} {id cmd : Int} {ps : List Int}

theorem encode_bad_cmd (hid : idOk id = true) (hc : byteOk cmd = false) :
    encodeFrame cfg id cmd ps = .error (.encodeRange .commandCode) := by
  simp [encodeFrame, hid, hc]

theorem encode_bad_count (hid : idOk id = true) (hc : byteOk cmd = true) (ho : isOneByte ps = false)
    (hn : 126 < ps.length) : encodeFrame cfg id cmd ps = .error (.encodeRange .parameterCount) := by
  simp [encodeFrame, hid, hc, ho, hn]

theorem encode_bad_value (hid : idOk id = true) (hc : byteOk cmd = true) (ho : isOneByte ps = false)
    (hn : ps.length ≤ 126) (hw : ps.all wordOk = false) :
    encodeFrame cfg id cmd ps = .error (.encodeRange .parameterValue) := by
  simp only [encodeFrame, hid, hc, ho, hw, Nat.not_lt.2 hn]
  simp

end

/-- Settles O1: each clause is one check of ENCODE, or the frame it gives where all four pass. -/
theorem encodeBuildsTheFrame : Obligations.EncodeBuildsTheFrame := by
  unfold Obligations.EncodeBuildsTheFrame
  intro cfg id cmd ps
  simp only [← idOk_iff, ← byteOk_iff, Bool.not_eq_true]
  refine ⟨encode_bad_id, fun h0 h1 hc => encode_bad_cmd ((idOk_iff id).2 ⟨h0, h1⟩) hc, fun h0 h1 c0 c1 => ?_⟩
  have hid : idOk id = true := (idOk_iff id).2 ⟨h0, h1⟩
  have hc : byteOk cmd = true := (byteOk_iff cmd).2 ⟨c0, c1⟩
  constructor
  · rintro v rfl v0 v1
    have hone : isOneByte [v] = true := (isOneByte_iff [v]).2 ⟨v, rfl, v0, v1⟩
    rw [encode_of_ok hid hc (.inl hone), paramBytes_single v0 v1, frameOf_eq_framed]
    rfl
  · intro hps
    have ho : isOneByte ps = false := isOneByte_eq_false fun v hv => by rw [← byteOk_iff, hps v hv]; decide
    refine ⟨encode_bad_count hid hc ho, fun hn hbad => encode_bad_value hid hc ho hn ?_, fun hn hw => ?_⟩
    · obtain ⟨v, hv, hrange⟩ := hbad
      rw [← Bool.not_eq_true, all_wordOk_iff]
      exact fun hall => hrange (hall v hv)
    · rw [encode_of_ok hid hc (.inr ⟨hn, (all_wordOk_iff ps).2 hw⟩), paramBytes_words ho, frameOf_eq_framed]
      rfl

/-! ## ParseFrame (R66) -/

/-- What ParseFrame asks of bytes that hold a header, an id, a length and a command. -/
theorem parseFrame_cons_eq_some (cfg : Config) (h1 h2 id len cmd : Byte) (rest : List Byte)
    (r : Byte × Byte × List Byte) :
    parseFrame cfg (h1 :: h2 :: id :: len :: cmd :: rest) = some r ↔
      (h1 = cfg.header1 ∧ h2 = cfg.header2) ∧ 3 ≤ len.toNat
        ∧ len.toNat + 3 ≤ (h1 :: h2 :: id :: len :: cmd :: rest).length
        ∧ (cfg.rxChecksumCheck = true → (h1 :: h2 :: id :: len :: cmd :: rest)[len.toNat + 2]?
            = some (checksum ((id :: len :: cmd :: rest).take len.toNat)))
        ∧ (id, cmd, rest.take (len.toNat - 3)) = r := by
  simp only [parseFrame, parseFrameWhy, List.drop_succ_cons, List.drop_zero]
  split_ifs with hHeader hLen hShort hSum <;> simp only [Except.toOption, reduceCtorEq, false_iff, Option.some.injEq]
  · rintro ⟨⟨e1, e2⟩, _⟩
    exact hHeader.elim (· e1) (· e2)
  · exact fun ⟨_, hL, _⟩ => absurd hL (Nat.not_le.2 hLen)
  · exact fun ⟨_, _, hB, _⟩ => absurd hB (Nat.not_le.2 hShort)
  · exact fun ⟨_, _, _, hC, _⟩ => hSum.2 (hC hSum.1)
  · have hHdr : h1 = cfg.header1 ∧ h2 = cfg.header2 := by simpa [not_or] using hHeader
    exact ⟨fun hr => ⟨hHdr, Nat.not_lt.1 hLen, Nat.not_lt.1 hShort, fun hx => by_contra fun hne => hSum ⟨hx, hne⟩, hr⟩,
      fun ⟨_, _, _, _, hr⟩ => hr⟩

/-- Bytes that ParseFrame accepts hold a header, an id, a length and a command. -/
theorem parseFrame_some_shape {cfg : Config} {b : Frame} {r : Byte × Byte × List Byte} (h : parseFrame cfg b = some r) :
    ∃ (h1 h2 id len cmd : Byte) (rest : List Byte), b = h1 :: h2 :: id :: len :: cmd :: rest := by
  have hwhy := parseWhy_of cfg b r h
  unfold parseFrameWhy at hwhy
  split at hwhy
  · next h1 h2 id len cmd rest => exact ⟨h1, h2, id, len, cmd, rest, rfl⟩
  · cases hwhy

/-- Settles O2: accepted bytes have the five-byte shape, and on that shape the checks are those of R66. -/
theorem parseFrameAcceptsExactly : Obligations.ParseFrameAcceptsExactly := by
  unfold Obligations.ParseFrameAcceptsExactly
  intro cfg b id cmd pb
  constructor
  · intro h
    obtain ⟨h1, h2, id', len, cmd', rest, rfl⟩ := parseFrame_some_shape h
    obtain ⟨⟨rfl, rfl⟩, hL, hB, hC, hr⟩ := (parseFrame_cons_eq_some ..).1 h
    cases hr
    exact ⟨len, rest, rfl, hL, hB, rfl, hC⟩
  · rintro ⟨len, rest, rfl, hL, hB, rfl, hC⟩
    exact (parseFrame_cons_eq_some ..).2 ⟨⟨rfl, rfl⟩, hL, hB, hC, rfl⟩

/-! ## DECODE (R67) -/

theorem decodeFrame_of_none {cfg : Config} {b : Frame} (expected : Int) (h : parseFrame cfg b = none) :
    decodeFrame cfg b expected = .error := by
  simp [decodeFrame, h]

section
variable {cfg : Config} {b : Frame} {id cmd : Byte} {expected : Int}

theorem decodeFrame_other_cmd {pb : List Byte} (h : parseFrame cfg b = some (id, cmd, pb))
    (hne : (cmd.toNat : Int) ≠ expected) : decodeFrame cfg b expected = .error := by
  simp [decodeFrame, h, hne]

theorem decodeFrame_no_byte (h : parseFrame cfg b = some (id, cmd, [])) (he : (cmd.toNat : Int) = expected) :
    decodeFrame cfg b expected = .ack := by
  simp [decodeFrame, h, he]

theorem decodeFrame_one_byte {b0 : Byte} (h : parseFrame cfg b = some (id, cmd, [b0]))
    (he : (cmd.toNat : Int) = expected) : decodeFrame cfg b expected = .value (b0.toNat : Int) := by
  simp [decodeFrame, h, he]

theorem decodeFrame_two_bytes {b0 b1 : Byte} (h : parseFrame cfg b = some (id, cmd, [b0, b1]))
    (he : (cmd.toNat : Int) = expected) : decodeFrame cfg b expected = .value (wordValue b0 b1) := by
  simp [decodeFrame, h, he]

theorem decodeFrame_four_bytes {b0 b1 b2 b3 : Byte} (h : parseFrame cfg b = some (id, cmd, [b0, b1, b2, b3]))
    (he : (cmd.toNat : Int) = expected) :
    decodeFrame cfg b expected = .valuePair (wordValue b0 b1) (wordValue b2 b3) := by
  simp [decodeFrame, h, he]

theorem decodeFrame_other_count {pb : List Byte} (h : parseFrame cfg b = some (id, cmd, pb)) (n0 : pb.length ≠ 0)
    (n1 : pb.length ≠ 1) (n2 : pb.length ≠ 2) (n4 : pb.length ≠ 4) : decodeFrame cfg b expected = .error := by
  simp only [decodeFrame, h]
  split
  · rfl
  · split
    · exact absurd rfl n0
    · exact absurd rfl n1
    · exact absurd rfl n2
    · exact absurd rfl n4
    · rfl

end

/-- Settles O3: one case of DECODE for each count of parameter bytes. -/
theorem decodeByParameterCount : Obligations.DecodeByParameterCount := by
  unfold Obligations.DecodeByParameterCount
  intro cfg b expected _ _
  refine ⟨decodeFrame_of_none expected, fun id cmd pb h => ⟨decodeFrame_other_cmd h, fun he => ?_⟩⟩
  simp only [← wordValue_eq_signed16]
  refine ⟨?_, ?_, ?_, ?_, decodeFrame_other_count h⟩
  · rintro rfl
    exact decodeFrame_no_byte h he
  · rintro b0 rfl
    exact decodeFrame_one_byte h he
  · rintro b0 b1 rfl
    exact decodeFrame_two_bytes h he
  · rintro b0 b1 b2 b3 rfl
    exact decodeFrame_four_bytes h he

end Sys2Proof
end

/-! # PWM_SET_POSITION in its immediate form (R99, R100) -/

section
namespace Sys2Proof
namespace Machine

/-- What PWM_SET_POSITION checks is enough for it to go on (R99): the converse of `pwmCheck_ok`. -/
theorem pwmCheck_eq_ok {c w d : Int} {s : State} {ch : Channel} (hc : s.channel? c = some ch) (hlo : ch.lo ≤ w)
    (hhi : w ≤ ch.hi) (hd : 0 ≤ d) : pwmCheck c w d s = .ok ch := by
  simp [pwmCheck, hc, hlo, hhi, Int.not_lt.2 hd]

/-- PWM_SET_POSITION with duration 0 that passes its checks and has the mutex is SetPosImmediate, then the answer. -/
theorem execPwmSetPosition_zero {c w : Int} {s : State} {ch : Channel} (hok : pwmCheck c w 0 s = .ok ch)
    (hm : ch.mutex = .free) :
    execPwmSetPosition c w 0 s = .next ((setPosImmediate c w ch.dev s).answer .pwmSetPosition .done) := by
  simp [execPwmSetPosition, hok, unlocked_iff.2 hm]

end Machine

/-- Settles O26: the checks pass, the mutex is free, and SetPosImmediate is one update of the channel and one write. -/
theorem pwmImmediateJumps : Obligations.PwmImmediateJumps := by
  unfold Obligations.PwmImmediateJumps
  intro s c w ch hc hlo hhi hm
  have hok : Machine.pwmCheck c w 0 s = .ok ch := Machine.pwmCheck_eq_ok hc hlo hhi le_rfl
  calc Machine.exec (.pwmSetPosition c w 0) s
      = .next ((Machine.setPosImmediate c w ch.dev s).answer .pwmSetPosition .done) :=
        Machine.execPwmSetPosition_zero hok hm
    _ = _ := by
      rw [Machine.setPosImmediate_eq ch.dev hc hm]
      simp [Machine.State.answer, Machine.State.emit, Claims.withChannel]

end Sys2Proof
end

/-! # The frame codec: decoding undoes encoding, and the checksum law (R54, R55, R58, R68, R69) -/

section
namespace Sys2Proof
open Claims

/-! ## The request shapes read back the parameter bytes that ENCODE writes (R55, R58) -/

theorem paramBytes_pair (v w : Int) : paramBytes [v, w] = [lo8 v, hi8 v, lo8 w, hi8 w] := rfl

theorem paramBytes_word {v : Int} (h : byteOk v = false) : paramBytes [v] = [lo8 v, hi8 v] := by
  simp [paramBytes, isOneByte, h, wordBytes]

theorem toNat_lo8_of_byteOk {v : Int} (h : byteOk v = true) : ((lo8 v).toNat : Int) = v := by
  rw [byteOk_iff] at h
  rw [toNat_lo8]
  omega

theorem paramBytes_of_byteOk {v : Int} (h : byteOk v = true) : paramBytes [v] = [lo8 v] :=
  paramBytes_single ((byteOk_iff v).1 h).1 ((byteOk_iff v).1 h).2

theorem byteParam_paramBytes {v : Int} (mk : Int → Instr) (h : byteOk v = true) :
    byteParam mk (paramBytes [v]) = .ok (mk v) := by
  rw [paramBytes_of_byteOk h, byteParam, toNat_lo8_of_byteOk h]

theorem oneParam_paramBytes {v : Int} (mk : Int → Instr) (h : wordOk v = true) :
    oneParam mk (paramBytes [v]) = .ok (mk v) := by
  cases hb : byteOk v
  · simp [paramBytes_word hb, oneParam, wordValue_bytes v h, hb]
  · rw [paramBytes_of_byteOk hb, oneParam, toNat_lo8_of_byteOk hb]

theorem twoParams_paramBytes {v w : Int} (mk : Int → Int → Instr) (hv : wordOk v = true) (hw : wordOk w = true) :
    twoParams mk (paramBytes [v, w]) = .ok (mk v w) := by
  rw [paramBytes_pair, twoParams, wordValue_bytes v hv, wordValue_bytes w hw]

/-- The operands of a well-formed wire command are operands ENCODE accepts, and its row of the table reads it back from
the parameter bytes (R58). -/
theorem decodeCommand_of_wellFormed {cfg : Config} {i : Instr} {c : Command} {id : Int} {ps : List Int}
    (hw : i.wellFormed cfg = true) (hi : i.wire? = some (c, id, ps)) :
    idOk id = true ∧ (isOneByte ps = true ∨ (ps.length ≤ 126 ∧ ps.all wordOk = true))
      ∧ decodeCommand c id (paramBytes ps) = .ok i := by
  cases i <;> simp only [Instr.wire?, reduceCtorEq, Option.some.injEq, Prod.mk.injEq] at hi <;>
    obtain ⟨rfl, rfl, rfl⟩ := hi <;> simp only [Instr.wellFormed, Bool.and_eq_true] at hw
  case idWrite id v | loadOrUnloadWrite id v =>
    exact ⟨hw.1, .inl hw.2, byteParam_paramBytes _ hw.2⟩
  case angleOffsetAdjust id v | tempMaxLimitWrite id v =>
    exact ⟨hw.1, .inr ⟨by simp, by simp [hw.2]⟩, oneParam_paramBytes _ hw.2⟩
  case moveTimeWrite id v w | angleLimitWrite id v w | vinLimitWrite id v w =>
    exact ⟨hw.1.1, .inr ⟨by simp, by simp [hw.1.2, hw.2]⟩, twoParams_paramBytes _ hw.1.2 hw.2⟩
  all_goals exact ⟨hw, .inr ⟨by simp, rfl⟩, rfl⟩

/-- ParseFrame of an encoded frame gives the fields that were encoded (R68). -/
theorem parseFrame_encodeFrame {cfg : Config} {id cmd : Int} {ps : List Int} {f : Frame}
    (h : encodeFrame cfg id cmd ps = .ok f) : parseFrame cfg f = some (lo8 id, lo8 cmd, paramBytes ps) := by
  obtain ⟨-, -, rfl, hps⟩ := encode_ok h
  exact parse_frameOf cfg _ _ _ (paramBytes_len hps)

theorem toNat_lo8_id {id : Int} (h : idOk id = true) : ((lo8 id).toNat : Int) = id := by
  rw [idOk_iff] at h
  rw [toNat_lo8]
  omega

/-- Settles O6: the frame parses to the code and the parameter bytes, distinct codes select the command, and its row
reads the operands back. -/
theorem wireDecodeEncode : Obligations.WireDecodeEncode := by
  unfold Obligations.WireDecodeEncode
  intro cfg i hcodes hwf hwire
  obtain ⟨⟨c, id, ps⟩, hi⟩ := Option.ne_none_iff_exists'.1 hwire
  obtain ⟨hid, hps, hdec⟩ := decodeCommand_of_wellFormed hwf hi
  have henc := encode_of_ok (cfg := cfg) hid (byteOk_cmdInt cfg c) hps
  have hcode : lo8 (cfg.cmdInt c) = cfg.cmdCode c := lo8_toNat _
  have hparse := parseWhy_of _ _ _ (parseFrame_encodeFrame henc)
  rw [hcode] at henc hparse
  refine ⟨_, by rw [encode, hi]; simp only [henc, Except.toOption]; rfl, ?_⟩
  simp only [decode, hparse, cmd_roundtrip cfg hcodes c, toNat_lo8_id hid, hdec]

/-! ## What the decoder has read (R58, log 24) -/

/-- A row of the table yields only well-formed commands of its own, whose parameter bytes are the ones it read: the
converse of `decodeCommand_of_wellFormed`. -/
theorem wellFormed_of_decodeCommand {cfg : Config} {c : Command} {id : Int} {pb : List Byte} {i : Instr}
    (hid : idOk id = true) (h : decodeCommand c id pb = .ok i) :
    i.wellFormed cfg = true ∧ ∃ ps, i.wire? = some (c, id, ps) ∧ paramBytes ps = pb := by
  have none' {k : Instr} (hk : noParam k pb = .ok i) : i = k ∧ pb = [] := by
    unfold noParam at hk
    split at hk <;> cases hk
    exact ⟨rfl, rfl⟩
  have byte {mk} (hk : byteParam mk pb = .ok i) : ∃ v, i = mk v ∧ byteOk v = true ∧ paramBytes [v] = pb := by
    unfold byteParam at hk
    split at hk <;> cases hk
    next b => exact ⟨_, rfl, byteOk_toNat b, by rw [paramBytes_of_byteOk (byteOk_toNat b), lo8_toNat]⟩
  have one {mk} (hk : oneParam mk pb = .ok i) : ∃ v, i = mk v ∧ wordOk v = true ∧ paramBytes [v] = pb := by
    unfold oneParam at hk
    split at hk
    · next b =>
      cases hk
      refine ⟨_, rfl, ?_, by rw [paramBytes_of_byteOk (byteOk_toNat b), lo8_toNat]⟩
      have := b.isLt
      rw [wordOk_iff]
      omega
    · next b0 b1 =>
      split at hk <;> cases hk
      next hb =>
      exact ⟨_, rfl, wordValue_ok b0 b1, by
        rw [paramBytes_word (Bool.not_eq_true _ ▸ hb)]; exact wordBytes_value b0 b1⟩
    · cases hk
  have two {mk} (hk : twoParams mk pb = .ok i) :
      ∃ v w, i = mk v w ∧ wordOk v = true ∧ wordOk w = true ∧ paramBytes [v, w] = pb := by
    unfold twoParams at hk
    split at hk <;> cases hk
    next b0 b1 b2 b3 =>
    refine ⟨_, _, rfl, wordValue_ok b0 b1, wordValue_ok b2 b3, ?_⟩
    rw [paramBytes_pair]
    exact congrArg₂ (· ++ ·) (wordBytes_value b0 b1) (wordBytes_value b2 b3)
  cases c
  case idWrite | loadOrUnloadWrite =>
    obtain ⟨v, rfl, hv, hpb⟩ := byte h
    exact ⟨by simp [Instr.wellFormed, hid, hv], [v], rfl, hpb⟩
  case angleOffsetAdjust | tempMaxLimitWrite =>
    obtain ⟨v, rfl, hv, hpb⟩ := one h
    exact ⟨by simp [Instr.wellFormed, hid, hv], [v], rfl, hpb⟩
  case moveTimeWrite | angleLimitWrite | vinLimitWrite =>
    obtain ⟨v, w, rfl, hv, hw, hpb⟩ := two h
    exact ⟨by simp [Instr.wellFormed, hid, hv, hw], [v, w], rfl, hpb⟩
  all_goals
    obtain ⟨rfl, rfl⟩ := none' h
    exact ⟨hid, [], rfl, rfl⟩

/-- Where checksums are checked, accepted bytes begin with the frame of the fields that ParseFrame returns (R66). -/
theorem frame_prefix_of_parse {cfg : Config} {b : Frame} {id cmd : Byte} {pb : List Byte}
    (hx : cfg.rxChecksumCheck = true) (h : parseFrame cfg b = some (id, cmd, pb)) :
    ∃ rest, b = frameOf cfg id cmd pb ++ rest := by
  obtain ⟨h1, h2, id', len, cmd', rest, rfl⟩ := parseFrame_some_shape h
  obtain ⟨⟨rfl, rfl⟩, hL, hB, hC, hr⟩ := (parseFrame_cons_eq_some ..).1 h
  simp only [Prod.mk.injEq] at hr
  obtain ⟨rfl, rfl, rfl⟩ := hr
  obtain ⟨n, hn⟩ : ∃ n, len.toNat = n + 3 := ⟨len.toNat - 3, by omega⟩
  have hlt : n < rest.length := by simp at hB; omega
  have hlen : BitVec.ofNat 8 (n + 3) = len := by rw [← hn]; simp
  have hck := hC hx
  simp only [hn, List.take_succ_cons, List.getElem?_cons_succ] at hck
  rw [List.getElem?_eq_getElem hlt, Option.some.injEq] at hck
  refine ⟨rest.drop (n + 1), ?_⟩
  simp only [hn, Nat.add_sub_cancel, frameOf, List.length_take, Nat.min_eq_left hlt.le, hlen, ← hck]
  simp

/-- A code selects only a command that has it (R58). -/
theorem cmdCode_of_command? {cfg : Config} {code : Byte} {c : Command} (h : cfg.command? code = some c) :
    cfg.cmdCode c = code := by
  simpa using List.find?_some h

/-- Settles O7: the bytes begin with the frame of the parsed fields, and the row that accepted them encodes to it. -/
theorem wireEncodeDecode : Obligations.WireEncodeDecode := by
  unfold Obligations.WireEncodeDecode
  intro cfg b i hx hdec hff
  unfold decode at hdec
  split at hdec
  · cases hdec
  next id code pb hparse =>
  split at hdec
  · cases hdec
  next c hc =>
  have hparse' : parseFrame cfg b = some (id, code, pb) := by simp [parseFrame, hparse, Except.toOption]
  obtain ⟨rest, rfl⟩ := frame_prefix_of_parse hx hparse'
  have hid : idOk (id.toNat : Int) = true := by
    have hne : id ≠ 0xFF := fun he => hff (by rw [he]; rfl)
    have := id.isLt
    have hne' : id.toNat ≠ 255 := fun he => hne (BitVec.eq_of_toNat_eq he)
    rw [idOk_iff]
    omega
  obtain ⟨hwf, ps, hwire, rfl⟩ := wellFormed_of_decodeCommand (cfg := cfg) hid hdec
  obtain ⟨-, hps, -⟩ := decodeCommand_of_wellFormed hwf hwire
  refine ⟨hwf, _, rest, ?_, rfl⟩
  have hcode : lo8 (cfg.cmdInt c) = code := (lo8_toNat _).trans (cmdCode_of_command? hc)
  simp only [encode, hwire, encode_of_ok hid (byteOk_cmdInt cfg c) hps, hcode, lo8_toNat, Except.toOption]

/-! ## Round trip and checksum law (R68, R69) -/

theorem unparse_paramBytes {ps : List Int} (h : isOneByte ps = true ∨ ps.all wordOk = true) :
    unparse (paramBytes ps) = some ps := by
  cases ho : isOneByte ps
  · have hw : ps.all wordOk = true := h.resolve_left (by simp [ho])
    rw [paramBytes_words ho]
    have hne : ∀ b, ps.flatMap wordBytes ≠ [b] := fun b hb => by
      have := congrArg List.length hb
      rw [flat_len, List.length_singleton] at this
      omega
    unfold unparse
    split
    · next b hb => exact absurd hb (hne b)
    · exact pairs_flatMap ps hw
  · obtain ⟨v, rfl, h0, h1⟩ := (isOneByte_iff ps).1 ho
    rw [paramBytes_single h0 h1, unparse, toNat_lo8_of_byteOk ((byteOk_iff v).2 ⟨h0, h1⟩)]

/-- Settles O4: the frame parses to the encoded fields, and DECODE goes by the count of their bytes. -/
theorem encodeParseRoundTrip : Obligations.EncodeParseRoundTrip := by
  unfold Obligations.EncodeParseRoundTrip
  intro cfg id cmd ps f h
  have hparse := parseFrame_encodeFrame h
  obtain ⟨hid, hcmd, -, hps⟩ := encode_ok h
  have hcode := toNat_lo8_of_byteOk hcmd
  refine ⟨⟨_, _, toNat_lo8_id hid, hcode, hparse⟩, unparse_paramBytes (hps.imp_right (·.2.2)), ?_, ?_, ?_, ?_⟩
  · rintro rfl
    exact decodeFrame_no_byte hparse hcode
  · rintro v rfl
    cases hb : byteOk v
    · have hv : wordOk v = true := by
        rcases hps with ho | ⟨-, -, hw⟩
        · exact absurd ho (by simp [isOneByte, hb])
        · simpa using hw
      rw [paramBytes_word hb] at hparse
      rw [decodeFrame_two_bytes hparse hcode, wordValue_bytes v hv]
    · rw [paramBytes_of_byteOk hb] at hparse
      rw [decodeFrame_one_byte hparse hcode, toNat_lo8_of_byteOk hb]
  · rintro v w rfl
    have hvw : wordOk v = true ∧ wordOk w = true := by
      rcases hps with ho | ⟨-, -, hw⟩
      · exact absurd ho (by simp [isOneByte])
      · simpa using hw
    rw [paramBytes_pair] at hparse
    rw [decodeFrame_four_bytes hparse hcode, wordValue_bytes v hvw.1, wordValue_bytes w hvw.2]
  · intro hn
    have ho : isOneByte ps = false := isOneByte_eq_false fun v hv => by rw [hv] at hn; simp at hn
    have hlen : (paramBytes ps).length = 2 * ps.length := by rw [paramBytes_words ho, flat_len]
    exact decodeFrame_other_count hparse (by omega) (by omega) (by omega) (by omega)

/-- Changing one byte changes the sum modulo 256. -/
theorem byteSum_set_ne {l : List Byte} {k : Nat} {v : Byte} (hk : k < l.length) (hne : l[k] ≠ v) :
    byteSum (l.set k v) % 256 ≠ byteSum l % 256 := by
  have hsum := sum_set (l.map BitVec.toNat) k v.toNat (by simpa using hk)
  have hbyte : l[k].toNat ≠ v.toNat := fun he => hne (BitVec.eq_of_toNat_eq he)
  have h1 := l[k].isLt
  have h2 := v.isLt
  simp only [List.getElem_map] at hsum
  simp only [byteSum, List.map_set]
  omega

/-- A frame with a byte changed after the header, the length byte kept, still has a frame's shape. -/
theorem frameOf_set_shape (cfg : Config) (id cmd : Byte) (pb : List Byte) {k : Nat} (v : Byte) (h2 : 2 ≤ k) (h3 : k ≠ 3) :
    ∃ id' cmd' rest, (frameOf cfg id cmd pb).set k v
        = cfg.header1 :: cfg.header2 :: id' :: BitVec.ofNat 8 (pb.length + 3) :: cmd' :: rest
      ∧ rest.length = pb.length + 1 := by
  match k, h2, h3 with
  | 2, _, _ => exact ⟨v, cmd, _, rfl, by simp⟩
  | 4, _, _ => exact ⟨id, v, _, rfl, by simp⟩
  | k + 5, _, _ => exact ⟨id, cmd, _, rfl, by simp⟩

/-- Settles O5: the changed frame has the wrong sum, which a frame that passes the checksum check cannot have. -/
theorem checksumCatchesOneByte : Obligations.ChecksumCatchesOneByte := by
  unfold Obligations.ChecksumCatchesOneByte
  intro cfg id cmd ps f h
  obtain ⟨-, -, rfl, hps⟩ := encode_ok h
  have hpb := paramBytes_len hps
  generalize paramBytes ps = pb at hpb
  set f := frameOf cfg (lo8 id) (lo8 cmd) pb with hf
  have hsum : byteSum (f.drop 2) % 256 = 255 := frame_sum cfg _ _ pb
  refine ⟨hsum, fun k v hk2 hk hk3 hne => ?_⟩
  have hwrong : byteSum ((f.set k v).drop 2) % 256 ≠ 255 := by
    obtain ⟨m, rfl⟩ : ∃ m, k = m + 2 := ⟨k - 2, by omega⟩
    have hm : m < (f.drop 2).length := by simp; omega
    have hset : (f.set (m + 2) v).drop 2 = (f.drop 2).set m v := by simp [hf, frameOf]
    have hv : (f.drop 2)[m] ≠ v := by
      rw [List.getElem_drop]
      intro he
      exact hne (by rw [List.getElem?_eq_getElem hk, ← he]; simp [Nat.add_comm])
    rw [hset, ← hsum]
    exact byteSum_set_ne hm hv
  obtain ⟨id', cmd', rest, hshape, hrest⟩ := frameOf_set_shape cfg (lo8 id) (lo8 cmd) pb v hk2 hk3
  have hlen : (BitVec.ofNat 8 (pb.length + 3)).toNat = pb.length + 3 := by simp; omega
  refine ⟨hwrong, fun hx => ?_, fun hx hnone => ?_⟩
  · by_contra hsome
    obtain ⟨⟨id2, cmd2, pb2⟩, hparse⟩ := Option.ne_none_iff_exists'.1 hsome
    have hpb2 : pb2.length = pb.length := by
      rw [hf, hshape] at hparse
      obtain ⟨-, -, -, -, hr⟩ := (parseFrame_cons_eq_some ..).1 hparse
      simp only [Prod.mk.injEq] at hr
      rw [← hr.2.2, List.length_take, hlen, hrest]
      omega
    obtain ⟨tail, htail⟩ := frame_prefix_of_parse hx hparse
    have hnil : tail = [] := by
      have := congrArg List.length htail
      simp [hf, frameOf, hpb2] at this
      exact this
    rw [htail, hnil, List.append_nil] at hwrong
    exact hwrong (frame_sum cfg id2 cmd2 pb2)
  · rw [hf, hshape] at hnone
    have hok := (parseFrame_cons_eq_some cfg _ _ id' (BitVec.ofNat 8 (pb.length + 3)) cmd' rest _).2
      ⟨⟨rfl, rfl⟩, by omega, by simp [hlen, hrest], fun hx' => absurd hx' (by simp [hx]), rfl⟩
    rw [hnone] at hok
    cases hok

/-! ## Examples, and the codec called as an operation -/

/-- Settles O8: the decoder run on each frame. -/
theorem wireWordsDecode : Obligations.WireWordsDecode := by
  unfold Obligations.WireWordsDecode
  decide +kernel

/-- Settles O9: both operations end with their RESULT at once, and no command byte equals a code outside 0..255. -/
theorem codecCallsOnlyAnswer : Obligations.CodecCallsOnlyAnswer := by
  unfold Obligations.CodecCallsOnlyAnswer
  intro s
  refine ⟨fun id cmd ps => ⟨fun f hf => ?_, fun e he => ?_⟩, fun b expected => ⟨rfl, fun hout => ?_⟩⟩
  · simp only [Machine.exec, Machine.execEncode, hf]
    rfl
  · simp only [Machine.exec, Machine.execEncode, he]
    rfl
  · have herr : decodeFrame s.cfg b expected = .error := by
      cases hp : parseFrame s.cfg b with
      | none => exact decodeFrame_of_none expected hp
      | some r =>
        obtain ⟨id, cmd, pb⟩ := r
        have := cmd.isLt
        exact decodeFrame_other_cmd hp (by omega)
    rw [← herr]
    rfl

end Sys2Proof
end

/-! # The line: one write, one exchange, the line reset, and the operations made of them (R72 to R97) -/

section
namespace Sys2Proof
namespace Machine
open Claims

/-! ## The claims' spelling of how an operation ends or waits -/

theorem tlFree_eq_true {s : State} (h : s.T.tl = .free) : s.tlFree = true := tlFree_iff.2 h

theorem tlFree_eq_false {s : State} {a : Agent} (h : s.T.tl = .held a) : s.tlFree = false := by simp [State.tlFree, h]

/-! ## TWRITE (R72) -/

theorem sendFrame_answer (op : HostOp) (f : Frame) (s : State) : (sendFrame f s).answer op .done = sent op f s := by
  rw [sendFrame_eq, State.elapse_answer]
  rfl

section
variable {id cmd : Int} {ps : List Int} {s : State}

theorem performWrite_error {e : Err} (h : encodeFrame s.cfg id cmd ps = .error e) :
    performWrite id cmd ps s = .raised s e := by
  simp [performWrite, h]

theorem performWrite_free {f : Frame} (h : encodeFrame s.cfg id cmd ps = .ok f) (hl : s.T.tl = .free) :
    performWrite id cmd ps s = .done (sendFrame f s) .done := by
  simp [performWrite, h, tlFree_eq_true hl]

theorem performWrite_held {f : Frame} {a : Agent} (h : encodeFrame s.cfg id cmd ps = .ok f) (hl : s.T.tl = .held a) :
    performWrite id cmd ps s = .blocked := by
  simp [performWrite, h, tlFree_eq_false hl]

/-- An operation that is one TWRITE keeps the rule of TWRITE. -/
theorem writeRule_of_exec {i : Instr} {op : HostOp} (h : exec i s = (performWrite id cmd ps s).conclude op i s) :
    WriteRule i op id cmd ps s := by
  refine ⟨fun e he => ?_, fun f hf => ⟨fun hl => ?_, fun a hl => ?_⟩⟩
  · rw [h, performWrite_error he]
    rfl
  · rw [h, performWrite_free hf hl, ← sendFrame_answer]
    rfl
  · rw [h, performWrite_held hf hl]
    rfl

end

/-! ## TREAD (R73) -/

section
variable {id cmd : Int} {ps : List Int} {s : State}

theorem performRead_error {e : Err} (budget : Int) (h : encodeFrame s.cfg id cmd ps = .error e) :
    performRead id cmd ps budget s = .raised s e := by
  simp [performRead, h]

theorem performRead_budget {req : Frame} {budget : Int} (h : encodeFrame s.cfg id cmd ps = .ok req) (hb : budget < 0) :
    performRead id cmd ps budget s = .raised s (.budgetRange budget) := by
  simp [performRead, h, hb]

theorem performRead_free {req : Frame} {budget : Int} (h : encodeFrame s.cfg id cmd ps = .ok req) (hb : 0 ≤ budget)
    (hl : s.T.tl = .free) :
    performRead id cmd ps budget s =
      .done (readLoop cmd req budget.toNat s.acquireTL).1.releaseTL (readLoop cmd req budget.toNat s.acquireTL).2 := by
  simp [performRead, h, Int.not_lt.2 hb, tlFree_eq_true hl]

theorem performRead_held {req : Frame} {budget : Int} {a : Agent} (h : encodeFrame s.cfg id cmd ps = .ok req)
    (hb : 0 ≤ budget) (hl : s.T.tl = .held a) : performRead id cmd ps budget s = .blocked := by
  simp [performRead, h, Int.not_lt.2 hb, tlFree_eq_false hl]

end

/-- An attempt up to the end of Wait(SETTLE) is the claims' `asked`. -/
theorem attemptTurn_eq_asked (req : Frame) (s : State) :
    (attemptTurn ((attemptSend req s).elapse s.cfg.tReq)).elapse s.cfg.tSettle = asked req s := by
  cases ht : s.cfg.timed <;>
    simp [attemptTurn, attemptSend, asked, State.rxFlush, State.setDirection, State.pinWrite, State.uartWrite,
      State.wait, State.emit, State.elapse, ht]

/-- Inspecting the input of a line whose buffer is empty is what the claims say of the draw (R73, R126). -/
theorem attemptInspect_eq (cmd : Int) {u : State} (hrx : u.T.rx = []) :
    attemptInspect cmd u = (inspected u.drawBus.1 u.drawBus.2, accepted u.cfg cmd u.drawBus.1) := by
  have hT : u.drawBus.2.T = u.T := drawBus_T
  have hcfg : u.drawBus.2.cfg = u.cfg := drawBus_cfg
  simp only [attemptInspect, State.rxAvailable, State.rxRead, State.emit, inspected, accepted, hT, hcfg, hrx,
    List.nil_append, List.take_length, List.drop_length]
  split_ifs with hshort
  · rfl
  · cases hd : decodeFrame u.cfg u.drawBus.1 cmd <;> simp

/-- One attempt run without interruption, as the claims write it (R73). -/
theorem attempt_eq (cmd : Int) (req : Frame) (s : State) :
    attempt cmd req s =
      (inspected (asked req s).drawBus.1 (asked req s).drawBus.2, accepted s.cfg cmd (asked req s).drawBus.1) := by
  have hrx : (asked req s).T.rx = [] := by simp [asked]
  have hcfg : (asked req s).cfg = s.cfg := by simp [asked]
  rw [attempt, attemptTurn_eq_asked, attemptInspect_eq cmd hrx, hcfg]

theorem readLoop_eq_readRun (cmd : Int) (req : Frame) (n : Nat) (s : State) :
    readLoop cmd req n s = readRun cmd req n s := by
  induction n generalizing s with
  | zero => rfl
  | succ n ih =>
    rw [readLoop, readRun, attempt_eq]
    cases hv : accepted s.cfg cmd (asked req s).drawBus.1 with
    | some v => rfl
    | none => exact ih _

/-- An operation that is one TREAD keeps the rule of TREAD. -/
theorem readRule_of_exec {i : Instr} {op : HostOp} {id cmd budget : Int} {ps : List Int} {s : State}
    (h : exec i s = (performRead id cmd ps budget s).conclude op i s) : ReadRule i op id cmd ps budget s := by
  refine ⟨fun e he => ?_, fun req hreq => ⟨fun hb => ?_, fun hb => ⟨fun a hl => ?_, fun hl => ?_⟩⟩⟩
  · rw [h, performRead_error budget he]
    rfl
  · rw [h, performRead_budget hreq hb]
    rfl
  · rw [h, performRead_held hreq hb hl]
    rfl
  · rw [h, performRead_free hreq hb hl, readLoop_eq_readRun]
    rfl

end Machine

open Machine Claims

/-- Settles O10: TWRITE is one write. -/
theorem twriteSendsOneFrame : Obligations.TwriteSendsOneFrame := by
  unfold Obligations.TwriteSendsOneFrame
  intro id cmd ps s
  exact writeRule_of_exec rfl

/-- Settles O11: TREAD is one exchange, and its loop of attempts is the claims' run. -/
theorem treadExchange : Obligations.TreadExchange := by
  unfold Obligations.TreadExchange
  intro id cmd ps budget s
  exact readRule_of_exec rfl

/-- Settles O14: each of the seventeen operations is one write by the model's own table. -/
theorem writeOperationsSend : Obligations.WriteOperationsSend := by
  unfold Obligations.WriteOperationsSend
  intro s id a b
  refine ⟨?_, ?_, ?_, ?_, ?_, ?_, ?_, ?_, ?_, ?_, ?_, ?_, ?_, ?_, ?_, ?_, ?_⟩
  all_goals exact writeRule_of_exec rfl

/-- Settles O15: each of the nineteen operations is one exchange by the model's own table. -/
theorem readOperationsExchange : Obligations.ReadOperationsExchange := by
  unfold Obligations.ReadOperationsExchange
  intro s id oid budget
  refine ⟨?_, ?_, ?_, ?_, ?_, ?_, ?_, ?_, ?_, ?_, ?_, ?_, ?_, ?_, ?_, ?_, ?_, ?_, ?_⟩
  all_goals exact readRule_of_exec rfl

/-! ## How often a read transmits its request (R74) -/

namespace Machine

theorem accepted_ne_timeout (cfg : Config) (cmd : Int) (b : Frame) : accepted cfg cmd b ≠ some .timeout := by
  have hd := decode_ne_timeout cfg b cmd
  unfold accepted
  split_ifs
  · simp
  · split
    · simp
    · simpa using hd

/-- Inspecting the input transmits nothing. -/
theorem inspected_events (b : Frame) (u : State) :
    ∃ evs, (inspected b u).trace = u.trace ++ evs ∧ evs.filter isTx = [] := by
  unfold inspected
  split_ifs <;> exact ⟨_, rfl, rfl⟩

/-- Up to the inspection an attempt transmits its request, once. -/
theorem asked_events (req : Frame) (s : State) :
    ∃ evs, (asked req s).trace = s.trace ++ evs ∧ evs.filter isTx = [.tx req] :=
  ⟨_, by simp only [asked, State.elapse_trace]; rfl, rfl⟩

/-- An attempt transmits its request once, whatever the line answers. -/
theorem attempt_events (req : Frame) (s : State) :
    ∃ evs, (inspected (asked req s).drawBus.1 (asked req s).drawBus.2).trace = s.trace ++ evs
      ∧ evs.filter isTx = [.tx req] := by
  obtain ⟨evs, htrace, hevs⟩ := asked_events req s
  obtain ⟨evs', htrace', hevs'⟩ := inspected_events (asked req s).drawBus.1 (asked req s).drawBus.2
  refine ⟨evs ++ evs', ?_, by rw [List.filter_append, hevs, hevs', List.append_nil]⟩
  rw [htrace', drawBus_trace, htrace, List.append_assoc]

theorem inspected_cfg (b : Frame) (u : State) : (inspected b u).cfg = u.cfg := by unfold inspected; split_ifs <;> rfl

theorem inspected_busIn (b : Frame) (u : State) : (inspected b u).busIn = u.busIn := by
  unfold inspected; split_ifs <;> rfl

theorem asked_cfg (req : Frame) (s : State) : (asked req s).cfg = s.cfg := by simp [asked]

theorem asked_busIn (req : Frame) (s : State) : (asked req s).busIn = s.busIn := by simp [asked]

theorem drawBus_cons {s : State} {b : Frame} {rest : List Frame} (h : s.busIn = b :: rest) :
    s.drawBus = (b, { s with busIn := rest }) := by
  simp [State.drawBus, h]

section
variable {cmd : Int} {req : Frame}

/-- Whatever the line answers, a read transmits its request at most as often as its budget, and so often where it times
out. -/
theorem readRun_counts (n : Nat) (s : State) :
    ∃ k evs, (readRun cmd req n s).1.trace = s.trace ++ evs ∧ evs.filter isTx = List.replicate k (.tx req) ∧ k ≤ n
      ∧ ((readRun cmd req n s).2 = .timeout → k = n) := by
  induction n generalizing s with
  | zero => exact ⟨0, [], by simp [readRun], rfl, le_rfl, fun _ => rfl⟩
  | succ n ih =>
    obtain ⟨evs, htrace, hevs⟩ := attempt_events req s
    have hne := accepted_ne_timeout s.cfg cmd (asked req s).drawBus.1
    rw [readRun]
    cases hv : accepted s.cfg cmd (asked req s).drawBus.1 with
    | some v =>
      refine ⟨1, evs, by simpa only [hv] using htrace, hevs, by omega, fun ht => ?_⟩
      exact absurd (ht ▸ hv) hne
    | none =>
      obtain ⟨k, evs', htrace', hevs', hk, htimeout⟩ := ih (inspected (asked req s).drawBus.1 (asked req s).drawBus.2)
      refine ⟨k + 1, evs ++ evs', by rw [htrace', htrace, List.append_assoc], ?_, by omega, fun ht => by rw [htimeout ht]⟩
      rw [List.filter_append, hevs, hevs', List.replicate_succ, List.singleton_append]

/-- Listed draws that do not decode cost one attempt each. -/
theorem readRun_bad {bad rest : List Frame} {s : State} (hbad : ∀ b ∈ bad, accepted s.cfg cmd b = none)
    (hin : s.busIn = bad ++ rest) (m : Nat) :
    ∃ t evs, readRun cmd req (bad.length + m) s = readRun cmd req m t ∧ t.cfg = s.cfg ∧ t.busIn = rest
      ∧ t.trace = s.trace ++ evs ∧ evs.filter isTx = List.replicate bad.length (.tx req) := by
  induction bad generalizing s with
  | nil => exact ⟨s, [], by simp, rfl, hin, by simp, rfl⟩
  | cons b bad ih =>
    have hdraw := drawBus_cons (s := asked req s) ((asked_busIn req s).trans hin)
    obtain ⟨evs, htrace, hevs⟩ := attempt_events req s
    have hcfg : (inspected (asked req s).drawBus.1 (asked req s).drawBus.2).cfg = s.cfg := by
      rw [inspected_cfg, drawBus_cfg, asked_cfg]
    obtain ⟨t, evs', hrun, hcfg', hin', htrace', hevs'⟩ :=
      ih (s := inspected (asked req s).drawBus.1 (asked req s).drawBus.2)
        (fun b' hb' => by rw [hcfg]; exact hbad b' (List.mem_cons_of_mem _ hb')) (by rw [inspected_busIn, hdraw]; rfl)
    refine ⟨t, evs ++ evs', ?_, hcfg'.trans hcfg, hin', by rw [htrace', htrace, List.append_assoc], ?_⟩
    · rw [← hrun, List.length_cons, Nat.add_right_comm, readRun, hdraw]
      simp only [hbad b List.mem_cons_self]
    · rw [List.filter_append, hevs, hevs', List.length_cons, List.replicate_succ, List.singleton_append]

/-- A listed draw that decodes ends the read. -/
theorem readRun_good {good : Frame} {r : Result} {rest : List Frame} {s : State}
    (hgood : accepted s.cfg cmd good = some r) (hin : s.busIn = good :: rest) (m : Nat) :
    ∃ evs, (readRun cmd req (m + 1) s).2 = r ∧ (readRun cmd req (m + 1) s).1.busIn = rest
      ∧ (readRun cmd req (m + 1) s).1.trace = s.trace ++ evs ∧ evs.filter isTx = [.tx req] := by
  have hdraw := drawBus_cons (s := asked req s) ((asked_busIn req s).trans hin)
  obtain ⟨evs, htrace, hevs⟩ := attempt_events req s
  have hrun : readRun cmd req (m + 1) s = (inspected (asked req s).drawBus.1 (asked req s).drawBus.2, r) := by
    rw [readRun, hdraw]
    simp only [hgood]
  rw [hrun]
  exact ⟨evs, rfl, by rw [inspected_busIn, hdraw], htrace, hevs⟩

end
end Machine

/-- Settles O12: the attempts counted along the run, first for any answers of the line, then for listed ones. -/
theorem treadCountsAttempts : Obligations.TreadCountsAttempts := by
  unfold Obligations.TreadCountsAttempts
  intro id cmd ps budget req s hreq hl
  have hexec : exec (.tread id cmd ps budget) s = .next
      (ended .tread (readRun cmd req budget s.acquireTL).2 (readRun cmd req budget s.acquireTL).1.releaseTL) :=
    (((readRule_of_exec (i := .tread id cmd ps budget) (op := .tread) rfl).2 req hreq).2 (by omega)).2 hl
  have hcur : (readRun cmd req budget s.acquireTL).1.releaseTL.cur = s.cur := by
    rw [← readLoop_eq_readRun]
    exact (lineOnly_loop _ _ _ _).cur
  refine ⟨?_, fun bad rest hbad => ⟨fun hlen hin => ?_, fun good r hgood hlt hin => ?_⟩⟩
  · obtain ⟨k, evs, htrace, hevs, hk, htimeout⟩ := readRun_counts (cmd := cmd) (req := req) budget s.acquireTL
    refine ⟨_, k, evs, _, hexec, ?_, hevs, hk, htimeout⟩
    rw [ended, hcur]
    exact congrArg (· ++ [_]) htrace
  · obtain ⟨t, evs, hrun, -, hin', htrace, hevs⟩ :=
      readRun_bad (s := s.acquireTL) (req := req) hbad hin 0
    rw [Nat.add_zero, hlen] at hrun
    refine ⟨_, evs, hexec, ?_, hlen ▸ hevs, ?_⟩
    · rw [ended, hcur, hrun]
      exact congrArg (· ++ [_]) htrace
    · rw [hrun]
      exact hin'
  · obtain ⟨m, rfl⟩ : ∃ m, budget = bad.length + (m + 1) := ⟨budget - bad.length - 1, by omega⟩
    obtain ⟨t, evs, hrun, hcfg, hin', htrace, hevs⟩ :=
      readRun_bad (s := s.acquireTL) (req := req) hbad hin (m + 1)
    obtain ⟨evs', hres, hin2, htrace', hevs'⟩ :=
      readRun_good (s := t) (req := req) (by rw [hcfg]; exact hgood) hin' m
    refine ⟨_, evs ++ evs', hexec, ?_, ?_, ?_⟩
    · rw [ended, hcur, hrun, hres]
      refine congrArg (· ++ [_]) ?_
      rw [← List.append_assoc]
      exact htrace'.trans (congrArg (· ++ evs') htrace)
    · rw [List.filter_append, hevs, hevs', List.replicate_succ']
    · rw [hrun]
      exact hin2

/-! ## LINE_RESET, BUS_SET_POSITION and BUS_RESET (R76, R81, R97) -/

/-- Settles O13: the two halves of the reset, with the two delays moved behind the updates. -/
theorem lineResetReopens : Obligations.LineResetReopens := by
  unfold Obligations.LineResetReopens
  intro s
  refine ⟨fun a hl => ?_, fun hl => ?_⟩
  · simp only [exec, execLineReset, performLineReset, tlFree_eq_false hl]
    rfl
  · cases ht : s.cfg.timed <;>
      simp [exec, execLineReset, performLineReset, tlFree_eq_true hl, Perform.conclude, lineReopen, lineClose,
        State.acquireTL, State.uartClose, State.uartOpen, State.setDirection, State.pinWrite, State.wait,
        State.elapse, State.releaseTL, State.answer, State.emit, ht]

/-- Settles O17: BUS_SET_POSITION is one write of the clamped values, of which ENCODE refuses only a bad id. -/
theorem busSetPositionClamps : Obligations.BusSetPositionClamps := by
  unfold Obligations.BusSetPositionClamps
  intro s id pos dur
  have hrule := writeRule_of_exec (s := s) (i := .busSetPosition id pos dur) (op := .busSetPosition) rfl
  refine ⟨hrule, fun hc h0 h1 => moveFrame_ok hc id pos dur h0 h1, fun hid => hrule.1 _ (encode_bad_id ?_)⟩
  rwa [← idOk_iff, Bool.not_eq_true] at hid

namespace Machine

/-- The second frame of BUS_RESET: mid-travel over 1000 ms. -/
theorem resetSecond_frame {id : Int} (cfg : Config) (hid : idOk id = true) :
    encodeFrame cfg id (cfg.cmdInt .moveTimeWrite) [500, 1000]
      = .ok (frameOf cfg (lo8 id) (lo8 (cfg.cmdInt .moveTimeWrite)) (paramBytes [500, 1000])) :=
  encode_of_ok hid (byteOk_cmdInt _ _) (.inr ⟨by decide, by decide⟩)

/-- The first frame of BUS_RESET: deviation 0. -/
theorem resetFirst_frame {id : Int} (cfg : Config) (hid : idOk id = true) :
    encodeFrame cfg id (cfg.cmdInt .angleOffsetAdjust) [0]
      = .ok (frameOf cfg (lo8 id) (lo8 (cfg.cmdInt .angleOffsetAdjust)) (paramBytes [0])) :=
  encode_of_ok hid (byteOk_cmdInt _ _) (.inl (by decide))

/-- The two writes of BUS_RESET with its delay between them (R97), for the frames of both. -/
theorem execBusReset_free {id : Int} {f g : Frame} {s : State}
    (hf : encodeFrame s.cfg id (s.cfg.cmdInt .angleOffsetAdjust) [0] = .ok f)
    (hg : encodeFrame s.cfg id (s.cfg.cmdInt .moveTimeWrite) [500, 1000] = .ok g) (hl : s.T.tl = .free) :
    execBusReset id s = .next
      ((sendFrame g ((resetDelay (sendFrame f s)).elapse s.cfg.tClientReset)).answer .busReset .done) := by
  have hcfg : (sendFrame f s).cfg = s.cfg := by simp [sendFrame_eq]
  have hfirst : resetFirst id s = .done (sendFrame f s) .done := performWrite_free hf hl
  have hcfg' : ((resetDelay (sendFrame f s)).elapse s.cfg.tClientReset).cfg = s.cfg := by
    simp [resetDelay, State.wait, hcfg]
  have hsecond : resetSecond id ((resetDelay (sendFrame f s)).elapse s.cfg.tClientReset)
      = .done (sendFrame g ((resetDelay (sendFrame f s)).elapse s.cfg.tClientReset)) .done := by
    refine performWrite_free (by rw [hcfg']; exact hg) ?_
    simp [resetDelay, State.wait, sendFrame_eq]
  simp only [execBusReset, hfirst, hcfg, hsecond]
  rfl

end Machine

/-- Settles O19: both frames exist for every id 0..254, and the second write finds TL free. -/
theorem busResetWritesTwice : Obligations.BusResetWritesTwice := by
  unfold Obligations.BusResetWritesTwice
  intro s id
  refine ⟨fun hid => ?_, fun h0 h1 => ?_⟩
  · have hbad : idOk id = false := by rwa [← idOk_iff, Bool.not_eq_true] at hid
    have hfirst : resetFirst id s = .raised s _ := performWrite_error (encode_bad_id hbad)
    simp only [exec, execBusReset, hfirst]
    rfl
  · have hid : idOk id = true := (idOk_iff id).2 ⟨h0, h1⟩
    have hf := resetFirst_frame s.cfg hid
    have hg := resetSecond_frame s.cfg hid
    refine ⟨fun a hl => ?_, _, _, hf, hg, fun hl => ?_⟩
    · have hfirst : resetFirst id s = .blocked := performWrite_held hf hl
      simp only [exec, execBusReset, hfirst]
      rfl
    · rw [exec, execBusReset_free hf hg hl]
      cases ht : s.cfg.timed <;>
        simp [sendFrame_eq, resetDelay, State.wait, State.emit, State.answer, State.elapse, sentLine, sentEvents, ht]

end Sys2Proof
end

/-! # The PWM interpolator (R98 to R108) -/

section
namespace Sys2Proof
namespace Machine
open Claims

/-! ## PWM_SET_POSITION: the checks and the forms (R99, R102) -/

theorem channel?_eq_none_iff (s : State) (c : Int) :
    s.channel? c = none ↔ ¬ (1 ≤ c ∧ c ≤ (s.channels.length : Int)) := by
  unfold State.channel?
  split_ifs with h
  · rw [List.getElem?_eq_none_iff]
    omega
  · simp [h]

theorem unlocked_eq_true {ch : Channel} (h : ch.mutex = .free) : ch.unlocked = true := unlocked_iff.2 h

theorem unlocked_eq_false {ch : Channel} (h : ch.mutex ≠ .free) : ch.unlocked = false := by
  simpa [Channel.unlocked] using h

section
variable {s : State} {c w d : Int} {ch : Channel}

theorem pwmCheck_no_channel (h : s.channel? c = none) : pwmCheck c w d s = .error (.channelRange c) := by
  simp [pwmCheck, h]

theorem pwmCheck_bad_width (h : s.channel? c = some ch) (hw : ¬ (ch.lo ≤ w ∧ w ≤ ch.hi)) :
    pwmCheck c w d s = .error (.pwRange w) := by
  simp only [pwmCheck, h, hw, not_false_eq_true, if_true]

theorem pwmCheck_bad_duration (h : s.channel? c = some ch) (hlo : ch.lo ≤ w) (hhi : w ≤ ch.hi) (hd : d < 0) :
    pwmCheck c w d s = .error (.durationRange d) := by
  simp [pwmCheck, h, hlo, hhi, hd]

theorem execPwmSetPosition_error {e : Err} (h : pwmCheck c w d s = .error e) :
    exec (.pwmSetPosition c w d) s = .next (ended .pwmSetPosition (.raised e) s) := by
  simp only [exec, execPwmSetPosition, h]
  rfl

theorem execPwmSetPosition_locked (h : pwmCheck c w d s = .ok ch) (hm : ch.mutex ≠ .free) :
    exec (.pwmSetPosition c w d) s = .next (waits (.pwmSetPosition c w d) s) := by
  simp only [exec, execPwmSetPosition, h, unlocked_eq_false hm]
  rfl

theorem execPwmSetPosition_timed (h : pwmCheck c w d s = .ok ch) (hm : ch.mutex = .free) (hd : 0 < d)
    (hsplit : s.cfg.setposSplitRead = false) :
    exec (.pwmSetPosition c w d) s = .next ((setPosTimed c w d ch.cur s).answer .pwmSetPosition .done) := by
  simp [exec, execPwmSetPosition, h, unlocked_eq_true hm, hd.ne', hsplit]

theorem execPwmSetPosition_split (h : pwmCheck c w d s = .ok ch) (hm : ch.mutex = .free) (hd : 0 < d)
    (hsplit : s.cfg.setposSplitRead = true) :
    exec (.pwmSetPosition c w d) s = .next (s.pushFlight (.pwmSplit c w d ch.cur) s.now) := by
  simp [exec, execPwmSetPosition, h, unlocked_eq_true hm, hd.ne', hsplit]

theorem resumePwmSplit_free (c0 : Rat) (h : s.channel? c = some ch) (hm : ch.mutex = .free) :
    resumePwmSplit c w d c0 s = (setPosTimed c w d c0 s).answer .pwmSetPosition .done := by
  simp [resumePwmSplit, h, unlocked_eq_true hm]

theorem resumePwmSplit_locked (c0 : Rat) (h : s.channel? c = some ch) (hm : ch.mutex ≠ .free) :
    resumePwmSplit c w d c0 s = s.pushFlight (.pwmSplit c w d c0) s.now := by
  simp [resumePwmSplit, h, unlocked_eq_false hm]

theorem resumePwmSplit_no_channel (c0 : Rat) (h : s.channel? c = none) :
    resumePwmSplit c w d c0 s = s.raise .pwmSetPosition (.channelRange c) := by
  simp [resumePwmSplit, h]

end

end Machine

open Machine Claims

/-- Settles O25: the checks in the order in which PWM_SET_POSITION makes them. -/
theorem pwmSetPositionChecks : Obligations.PwmSetPositionChecks := by
  unfold Obligations.PwmSetPositionChecks
  intro s c w d
  refine ⟨channel?_eq_none_iff s c, fun h => execPwmSetPosition_error (pwmCheck_no_channel h), fun ch h => ⟨?_, ?_, ?_⟩⟩
  · exact fun hw => execPwmSetPosition_error (pwmCheck_bad_width h hw)
  · exact fun hlo hhi hd => execPwmSetPosition_error (pwmCheck_bad_duration h hlo hhi hd)
  · exact fun hlo hhi hd hm => execPwmSetPosition_locked (pwmCheck_eq_ok h hlo hhi hd) hm

/-- Settles O27: SetPosTimed is one update of the channel, from the width of the channel or from the one read before. -/
theorem pwmTimedPlansMotion : Obligations.PwmTimedPlansMotion := by
  unfold Obligations.PwmTimedPlansMotion
  intro s c w d ch h hlo hhi hm hd
  have hok := pwmCheck_eq_ok h hlo hhi hd.le
  refine ⟨fun hs => ?_, fun hs => execPwmSetPosition_split hok hm hd hs, fun c0 => ?_⟩
  · rw [execPwmSetPosition_timed hok hm hd hs, setPosTimed_eq _ h hm]
    rfl
  · rw [resumePwmSplit_free c0 h hm, setPosTimed_eq _ h hm]
    rfl

/-! ## The tick count (R101, R106) -/

namespace Machine

/-- At a tie the rounding is what TICK_ROUND says (R101, log 19). -/
theorem roundDiv_tie {x y : Nat} (h : 2 * (x % y) = y) :
    (roundDiv .halfToEven x y) % 2 = 0 ∧ roundDiv .halfAwayFromZero x y = x / y + 1
      ∧ roundDiv .halfTowardZero x y = x / y := by
  simp only [roundDiv, h, lt_irrefl, if_false, and_self, and_true]
  split_ifs <;> omega

theorem roundDiv_mul (tr : TickRound) (m : Nat) {y : Nat} (hy : 0 < y) : roundDiv tr (m * y) y = m := by
  simp [roundDiv, Nat.mul_div_cancel m hy, hy]

theorem pwmDuration_eq (cfg : Config) (d : Int) : pwmDuration cfg d = min (max d cfg.pdurMin) cfg.pdurMax := rfl

end Machine

/-- Settles O28: the rounding rule, for the clamped duration as a natural number. -/
theorem tickCountRounds : Obligations.TickCountRounds := by
  unfold Obligations.TickCountRounds
  intro cfg d hcfg hd
  obtain ⟨hy, hlo, hhi⟩ := ticksOk_iff.1 hcfg
  obtain ⟨x, hx⟩ : ∃ x : Nat, min (max d cfg.pdurMin) cfg.pdurMax = (x : Int) := ⟨(pwmDuration cfg d).toNat, by
    rw [pwmDuration_eq]
    omega⟩
  have hn : tickCount cfg d = roundDiv cfg.tickRound x cfg.tickMs := by
    rw [tickCount, pwmDuration_eq, hx, Int.toNat_natCast]
  obtain ⟨hone, hmax⟩ := tickCount_range hcfg d
  obtain ⟨habove, hbelow⟩ := roundDiv_near cfg.tickRound x cfg.tickMs hy
  have hdiv := Nat.div_add_mod x cfg.tickMs
  have hsucc : cfg.tickMs * (x / cfg.tickMs + 1) = cfg.tickMs * (x / cfg.tickMs) + cfg.tickMs := Nat.mul_succ _ _
  rw [← hn] at habove hbelow
  simp only [hx]
  refine ⟨by exact_mod_cast hone, ?_, by exact_mod_cast habove, fun htie => ?_, fun hms hpd => ?_⟩
  · have : (2 * x : Int) ≤ 2 * (cfg.tickMs * tickCount cfg d) + cfg.tickMs := by exact_mod_cast hbelow
    omega
  · have htie' : 2 * (x % cfg.tickMs) = cfg.tickMs := by exact_mod_cast htie
    obtain ⟨heven, haway, htoward⟩ := roundDiv_tie htie'
    refine ⟨fun htr => ?_, fun htr => ?_, fun htr => ?_⟩ <;> rw [hn, htr]
    · exact_mod_cast heven
    · rw [haway]
      have : 2 * (cfg.tickMs * (x / cfg.tickMs + 1)) = 2 * x + cfg.tickMs := by omega
      exact_mod_cast this
    · rw [htoward]
      have : 2 * (cfg.tickMs * (x / cfg.tickMs)) + cfg.tickMs = 2 * x := by omega
      have : (2 * (cfg.tickMs * (x / cfg.tickMs : Nat)) + cfg.tickMs : Int) = 2 * x := by exact_mod_cast this
      omega
  · have hlongest : tickCount cfg cfg.pdurMax = 1500 := by
      have : pwmDuration cfg cfg.pdurMax = 30000 := by rw [pwmDuration_eq]; omega
      rw [tickCount, this, hms]
      exact roundDiv_mul cfg.tickRound 1500 (y := 20) (by decide)
    omega

/-! ## Durations outside the range act as its ends (R106) -/

namespace Machine

theorem tickCount_congr {cfg : Config} {d e : Int} (h : pwmDuration cfg d = pwmDuration cfg e) :
    tickCount cfg d = tickCount cfg e := by rw [tickCount, tickCount, h]

/-- Of two positive durations with one tick count, only which one a wait would record differs. -/
theorem setPosTimed_congr {s : State} {d e : Int} (c w : Int) (c0 : Rat) (h : tickCount s.cfg d = tickCount s.cfg e) :
    setPosTimed c w d c0 s = setPosTimed c w e c0 s := by
  simp only [setPosTimed, h]

theorem execPwmSetPosition_congr {s : State} {d e : Int} (c w : Int) (hfree : mutexesFree s)
    (hsplit : s.cfg.setposSplitRead = false) (hd : 0 < d) (he : 0 < e) (h : tickCount s.cfg d = tickCount s.cfg e) :
    exec (.pwmSetPosition c w d) s = exec (.pwmSetPosition c w e) s := by
  cases hc : s.channel? c with
  | none => rw [execPwmSetPosition_error (pwmCheck_no_channel hc), execPwmSetPosition_error (pwmCheck_no_channel hc)]
  | some ch =>
    by_cases hw : ch.lo ≤ w ∧ w ≤ ch.hi
    · have hm := hfree ch (channel?_mem hc)
      rw [execPwmSetPosition_timed (pwmCheck_eq_ok hc hw.1 hw.2 hd.le) hm hd hsplit,
        execPwmSetPosition_timed (pwmCheck_eq_ok hc hw.1 hw.2 he.le) hm he hsplit, setPosTimed_congr c w _ h]
    · rw [execPwmSetPosition_error (pwmCheck_bad_width hc hw), execPwmSetPosition_error (pwmCheck_bad_width hc hw)]

theorem resumePwmSplit_congr {s : State} {d e : Int} (c w : Int) (c0 : Rat) (hfree : mutexesFree s)
    (h : tickCount s.cfg d = tickCount s.cfg e) : resumePwmSplit c w d c0 s = resumePwmSplit c w e c0 s := by
  cases hc : s.channel? c with
  | none => rw [resumePwmSplit_no_channel c0 hc, resumePwmSplit_no_channel c0 hc]
  | some ch =>
    have hm := hfree ch (channel?_mem hc)
    rw [resumePwmSplit_free c0 hc hm, resumePwmSplit_free c0 hc hm, setPosTimed_congr c w c0 h]

end Machine

/-- Settles O31: a duration outside the range clamps as the end of the range does, and only the tick count counts. -/
theorem pwmDurationClampIdempotent : Obligations.PwmDurationClampIdempotent := by
  unfold Obligations.PwmDurationClampIdempotent
  intro s c w d hfree hcfg
  obtain ⟨hy, hlo, hhi⟩ := ticksOk_iff.1 hcfg
  refine ⟨fun h1 h2 => ?_, fun h1 => ?_, fun hlt => ?_, fun m hm => ?_⟩
  · have hn : tickCount s.cfg d = tickCount s.cfg s.cfg.pdurMin :=
      tickCount_congr (by simp only [pwmDuration_eq]; omega)
    exact ⟨hn, fun hs => execPwmSetPosition_congr c w hfree hs (by omega) (by omega) hn,
      fun c0 => resumePwmSplit_congr c w c0 hfree hn⟩
  · have hn : tickCount s.cfg d = tickCount s.cfg s.cfg.pdurMax :=
      tickCount_congr (by simp only [pwmDuration_eq]; omega)
    exact ⟨hn, fun hs => execPwmSetPosition_congr c w hfree hs (by omega) (by omega) hn,
      fun c0 => resumePwmSplit_congr c w c0 hfree hn⟩
  · have hx : (pwmDuration s.cfg s.cfg.pdurMin).toNat = 1 * s.cfg.tickMs := by rw [pwmDuration_eq]; omega
    rw [tickCount, hx, roundDiv_mul _ _ hy]
  · have hx : (pwmDuration s.cfg s.cfg.pdurMax).toNat = m * s.cfg.tickMs := by
      have : pwmDuration s.cfg s.cfg.pdurMax = ((m * s.cfg.tickMs : Nat) : Int) := by
        rw [pwmDuration_eq, Nat.cast_mul, ← hm]
        omega
      rw [this, Int.toNat_natCast]
    rw [tickCount, hx, roundDiv_mul _ _ hy]

/-! ## PWM_TICK (R104) -/

namespace Machine

/-- When the timer of a channel was armed, after a firing in `s`. -/
def armedAfter (s : State) (ch : Channel) : Rat := if s.cfg.timed then s.now else ch.armedAt

section
variable {s : State} {c : Nat} {ch : Channel}

theorem tickDue_iff : s.tickDue ch = true ↔ (s.cfg.timed = true → ch.armedAt + (s.cfg.tickMs : Rat) ≤ s.now) := by
  unfold State.tickDue State.reached
  cases s.cfg.timed <;> simp

/-- A firing that steps, as one update of the channel and one of the trace: a rule for each of R104's cases. -/
theorem tickChannel_eq (h : s.channel? c = some ch) (hm : ch.mutex = .free) :
    (ch.rem < 0 → tickChannel c ch s = { s with
      channels := withChannel c { ch with armedAt := armedAfter s ch } s, trace := s.trace ++ [.tickfire c] })
    ∧ (1 < ch.rem → tickChannel c ch s = { s with
      channels := withChannel c
        { ch with rem := ch.rem - 1, cur := ch.tgt + ch.delta * ((ch.rem - 1 : Int) : Rat), armedAt := armedAfter s ch } s,
      trace := s.trace ++ [.tickfire c, .pwm c (ch.tgt + ch.delta * ((ch.rem - 1 : Int) : Rat) + (ch.dev : Rat))] })
    ∧ (ch.rem = 1 → tickChannel c ch s = { s with
      channels := withChannel c { ch with rem := s.cfg.idleTicks, cur := ch.tgt, armedAt := armedAfter s ch } s,
      trace := s.trace ++ [.tickfire c, .pwm c (ch.tgt + (ch.dev : Rat))] })
    ∧ (ch.rem = 0 → tickChannel c ch s = { s with
      channels := withChannel c { ch with rem := -1, armedAt := armedAfter s ch } s,
      trace := s.trace ++ [.tickfire c] }) := by
  have hset (f : Channel → Channel) : s.channels.modify (c - 1) f = s.channels.set (c - 1) (f ch) := modify_eq_set h f
  refine ⟨fun hr => ?_, fun hr => ?_, fun hr => ?_, fun hr => ?_⟩
  · cases ht : s.cfg.timed <;>
      simp [tickChannel, rearm, withChannel, armedAfter, State.acquireCL, State.releaseCL, State.modifyChannel,
        State.emit, hset, set_modify, hr, ht, ← hm]
  · have h0 : ¬ ch.rem < 0 := by omega
    have h1 : 0 < ch.rem - 1 := by omega
    cases ht : s.cfg.timed <;>
      simp [tickChannel, rearm, withChannel, armedAfter, State.acquireCL, State.releaseCL, State.modifyChannel,
        State.emit, State.pwmWrite, hset, set_modify, hr, h0, ht, ← hm]
  · cases ht : s.cfg.timed <;>
      simp [tickChannel, rearm, withChannel, armedAfter, State.acquireCL, State.releaseCL, State.modifyChannel,
        State.emit, State.pwmWrite, hset, set_modify, hr, ht, ← hm]
  · cases ht : s.cfg.timed <;>
      simp [tickChannel, rearm, withChannel, armedAfter, State.acquireCL, State.releaseCL, State.modifyChannel,
        State.emit, hset, set_modify, hr, ht, ← hm]

theorem execPwmTick_eq (hcur : s.cur = .tick c) (h : s.channel? c = some ch) :
    exec (.pwmTick c) s = .next (if ch.unlocked && s.tickDue ch then tickChannel c ch s else s) := by
  simp [exec, execPwmTick, hcur, h]

theorem execPwmTick_steps (hcur : s.cur = .tick c) (h : s.channel? c = some ch) (hm : ch.mutex = .free)
    (hdue : s.tickDue ch = true) : exec (.pwmTick c) s = .next (tickChannel c ch s) := by
  simp [execPwmTick_eq hcur h, unlocked_eq_true hm, hdue]

theorem execPwmTick_waits (hcur : s.cur = .tick c) (h : s.channel? c = some ch)
    (hw : ch.mutex ≠ .free ∨ s.tickDue ch = false) : exec (.pwmTick c) s = .next s := by
  rw [execPwmTick_eq hcur h]
  rcases hw with hm | hdue
  · simp [unlocked_eq_false hm]
  · simp [hdue]

end
end Machine

/-- Settles O29: the firing waits, or steps by the rule for the ticks left. -/
theorem pwmTickInterpolates : Obligations.PwmTickInterpolates := by
  unfold Obligations.PwmTickInterpolates
  intro s c ch hcur h
  refine ⟨fun hm => execPwmTick_waits hcur h (.inl hm), fun ht hnow => execPwmTick_waits hcur h (.inr ?_),
    fun hm hdue => ?_⟩
  · rw [← Bool.not_eq_true, tickDue_iff]
    exact fun hle => absurd (hle ht) (not_le.2 hnow)
  · obtain ⟨hidle, hmany, hlast, hzero⟩ := tickChannel_eq h hm
    rw [execPwmTick_steps hcur h hm (tickDue_iff.2 hdue)]
    exact ⟨fun hr => by rw [hidle hr]; rfl, fun hr => by rw [hmany hr]; rfl, fun hr => by rw [hlast hr]; rfl,
      fun hr => by rw [hzero hr]; rfl⟩

/-! ## The deviation (R107, R108) -/

namespace Machine

theorem devOk_iff (cfg : Config) (dv : Int) : cfg.devOk dv = true ↔
    if cfg.devRangeInclusive then -cfg.devLimit ≤ dv ∧ dv ≤ cfg.devLimit else -cfg.devLimit < dv ∧ dv < cfg.devLimit := by
  unfold Config.devOk
  split <;> exact decide_eq_true_iff

/-- Taking and giving back the mutex around a change of the channel is that change. -/
theorem locked_modify_eq {s : State} {c : Int} {ch : Channel} (f : Channel → Channel) (h : s.channel? c = some ch)
    (hf : ∀ a, { f { ch with mutex := .held a } with mutex := .free } = f ch) :
    ((s.acquireCL c).modifyChannel c f).releaseCL c = { s with channels := withChannel c (f ch) s } := by
  simp only [State.acquireCL, State.releaseCL, State.modifyChannel, modify_eq_set h, set_modify, hf]
  rfl

theorem acquire_release_eq {s : State} {c : Int} {ch : Channel} (h : s.channel? c = some ch) (hm : ch.mutex = .free) :
    (s.acquireCL c).releaseCL c = s := by
  obtain ⟨-, hlt, hget⟩ := channel?_some h
  have hsame : { ch with mutex := .free } = ch := by rw [← hm]
  simp only [State.acquireCL, State.releaseCL, State.modifyChannel, modify_eq_set h, set_modify, hsame]
  rw [← hget, List.set_getElem_self]

end Machine

/-- Settles O32: the two checks, the wait, and the change of the deviation under the mutex. -/
theorem pwmSetDeviation : Obligations.PwmSetDeviation := by
  unfold Obligations.PwmSetDeviation
  intro s c dv
  simp only [← devOk_iff]
  refine ⟨fun h => ?_, fun ch h => ⟨fun hdev => ?_, fun hdev hm => ?_, fun hdev hm => ?_⟩⟩
  · simp only [exec, execPwmSetDeviation, h]
    rfl
  · simp only [exec, execPwmSetDeviation, h, hdev]
    rfl
  · simp only [exec, execPwmSetDeviation, h, hdev, unlocked_eq_false hm]
    rfl
  · simp only [exec, execPwmSetDeviation, h, hdev, unlocked_eq_true hm, not_true_eq_false, if_false]
    rw [locked_modify_eq _ h fun _ => by rw [← hm]]
    rfl

/-- Settles O33: the check, the wait, and the answer, which leaves the mutex as it was. -/
theorem pwmGetDeviation : Obligations.PwmGetDeviation := by
  unfold Obligations.PwmGetDeviation
  intro s c
  refine ⟨fun h => ?_, fun ch h => ⟨fun hm => ?_, fun hm => ?_⟩⟩
  · simp only [exec, execPwmGetDeviation, h]
    rfl
  · simp only [exec, execPwmGetDeviation, h, unlocked_eq_false hm]
    rfl
  · simp only [exec, execPwmGetDeviation, h, unlocked_eq_true hm, not_true_eq_false, if_false, acquire_release_eq h hm]
    rfl

end Sys2Proof
end

/-! # A timed motion and its firings (R105) -/

section
namespace Sys2Proof
namespace Machine
open Claims

/-- Where a motion of `n` ticks from `c0` to `w` stands after `k` ticks: width, target, ticks left and delta. -/
def motionAfter (c0 w : Rat) (n : Nat) (idle : Int) (k : Nat) : Rat × Rat × Int × Rat :=
  if k < n then (widthAfter c0 w n k, w, (n : Int) - k, (c0 - w) / n) else (w, w, idle, (c0 - w) / n)

section
variable {c0 w : Rat} {n : Nat} {idle : Int} {k : Nat}

theorem motionAfter_before (h : k < n) :
    motionAfter c0 w n idle k = (widthAfter c0 w n k, w, (n : Int) - k, (c0 - w) / n) := if_pos h

theorem motionAfter_end (h : n ≤ k) : motionAfter c0 w n idle k = (w, w, idle, (c0 - w) / n) := if_neg (Nat.not_lt.2 h)

/-- The width on the line to the target with `n - (k + 1)` ticks left is the one after tick `k + 1`. -/
theorem line_eq_widthAfter (h : 0 < n) :
    w + (c0 - w) / n * (((n : Int) - k - 1 : Int) : Rat) = widthAfter c0 w n (k + 1) := by
  have hn : (n : Rat) ≠ 0 := by exact_mod_cast h.ne'
  unfold widthAfter
  push_cast
  field_simp
  ring

theorem widthAfter_zero : widthAfter c0 w n 0 = c0 := by simp [widthAfter]

theorem widthAfter_succ_sub (h : 0 < n) : widthAfter c0 w n (k + 1) - widthAfter c0 w n k = (w - c0) / n := by
  have hn : (n : Rat) ≠ 0 := by exact_mod_cast h.ne'
  unfold widthAfter
  push_cast
  field_simp
  ring

end

/-- The motion of a channel that exists, field by field. -/
theorem motion_eq {s : State} {c : Int} {ch : Channel} (h : s.channel? c = some ch) :
    motion c s = some (ch.cur, ch.tgt, ch.rem, ch.delta) := by
  simp [motion, h]

theorem map_cur_eq (c : Int) (s : State) : (s.channel? c).map Channel.cur = (motion c s).map (·.1) := by
  rw [motion, Option.map_map]
  rfl

theorem map_rem_eq (c : Int) (s : State) : (s.channel? c).map Channel.rem = (motion c s).map (·.2.2.1) := by
  rw [motion, Option.map_map]
  rfl

/-- A timer that fires finds the mutex free and steps; the waits of R104 append nothing. -/
theorem fires_eq {c : Nat} {u v : State} {ch : Channel} (h : u.channel? c = some ch) (hf : fires c u v) :
    ch.mutex = .free ∧ v = tickChannel c ch { u with cur := .tick c } := by
  obtain ⟨hexec, htrace⟩ := hf
  rw [execPwmTick_eq (s := { u with cur := .tick c }) rfl h] at hexec
  cases hstep : ch.unlocked && State.tickDue ch { u with cur := .tick c } with
  | true =>
    rw [hstep] at hexec
    cases hexec
    exact ⟨unlocked_iff.1 (Bool.and_eq_true _ _ ▸ hstep).1, rfl⟩
  | false =>
    rw [hstep] at hexec
    cases hexec
    exact absurd rfl htrace

/-- A firing moves the motion on by one tick, and writes the width it comes to, unless the motion was over. -/
theorem fires_motionAfter {c : Nat} {u v : State} {ch : Channel} {c0 w : Rat} {n k : Nat} (hidle : u.cfg.idleTicks < 0)
    (h : u.channel? c = some ch) (hm : motion c u = some (motionAfter c0 w n u.cfg.idleTicks k)) (hf : fires c u v) :
    v.cfg = u.cfg ∧ motion c v = some (motionAfter c0 w n u.cfg.idleTicks (k + 1))
      ∧ v.trace = u.trace ++ (if k + 1 < n then [.tickfire c, .pwm c (widthAfter c0 w n (k + 1) + (ch.dev : Rat))]
          else if k + 1 = n then [.tickfire c, .pwm c (w + (ch.dev : Rat))] else [.tickfire c]) := by
  obtain ⟨hfree, rfl⟩ := fires_eq h hf
  obtain ⟨hIdle, hMany, hLast, -⟩ := tickChannel_eq (s := { u with cur := .tick c }) h hfree
  rw [motion_eq h, Option.some.injEq] at hm
  rcases Nat.lt_or_ge k n with hk | hk
  · rw [motionAfter_before hk] at hm
    simp only [Prod.mk.injEq] at hm
    obtain ⟨-, htgt, hrem, hdelta⟩ := hm
    rcases Nat.lt_or_ge (k + 1) n with hk1 | hk1
    · have hwidth : ch.tgt + ch.delta * ((ch.rem - 1 : Int) : Rat) = widthAfter c0 w n (k + 1) := by
        rw [htgt, hdelta, hrem]
        exact line_eq_widthAfter (by omega)
      rw [hMany (by omega), hwidth]
      refine ⟨rfl, ?_, by simp [hk1]⟩
      rw [motion_eq (channel?_set h _ rfl), motionAfter_before hk1, htgt, hdelta, hrem]
      simp only [Option.some.injEq, Prod.mk.injEq, true_and, and_true]
      omega
    · rw [hLast (by omega), htgt]
      refine ⟨rfl, ?_, by simp [show k + 1 = n by omega]⟩
      rw [motion_eq (channel?_set h _ rfl), motionAfter_end hk1, hdelta]
  · rw [motionAfter_end hk] at hm
    simp only [Prod.mk.injEq] at hm
    obtain ⟨hcur, htgt, hrem, hdelta⟩ := hm
    rw [hIdle (by omega)]
    refine ⟨rfl, ?_, by simp [show ¬ k + 1 < n by omega, show ¬ k + 1 = n by omega]⟩
    rw [motion_eq (channel?_set h _ rfl), motionAfter_end (by omega), hcur, htgt, hrem, hdelta]

/-- A run of `k` firings brings a motion that has just begun to where it stands after `k` ticks. -/
theorem tickRun_motionAfter {c k : Nat} {t u : State} {c0 w : Rat} {n : Nat} (hidle : t.cfg.idleTicks < 0)
    (hm : motion c t = some (motionAfter c0 w n t.cfg.idleTicks 0)) (hrun : TickRun c k t u) :
    u.cfg = t.cfg ∧ motion c u = some (motionAfter c0 w n t.cfg.idleTicks k) := by
  induction hrun with
  | start t => exact ⟨rfl, hm⟩
  | tick _ hf ih =>
    obtain ⟨hcfg, hmid⟩ := ih hidle hm
    obtain ⟨ch, hch, -⟩ := Option.map_eq_some_iff.1 hmid
    rw [← hcfg] at hmid hidle
    obtain ⟨hcfg', hnext, -⟩ := fires_motionAfter hidle hch hmid hf
    exact ⟨hcfg'.trans hcfg, hcfg ▸ hnext⟩
  | other _ hmotion hcfg' ih =>
    obtain ⟨hcfg, hmid⟩ := ih hidle hm
    exact ⟨hcfg'.trans hcfg, hmotion.trans hmid⟩

/-- With PDUR_MIN one tick, a motion has at most its duration over TICK_MS, rounded up, ticks (R105). -/
theorem tickCount_le_ceil {cfg : Config} {d : Int} (hcfg : cfg.ticksOk = true) (hd : 0 < d)
    (hmin : cfg.pdurMin = cfg.tickMs) : (tickCount cfg d : Int) ≤ (d + cfg.tickMs - 1) / cfg.tickMs := by
  obtain ⟨hy, hlo, hhi⟩ := ticksOk_iff.1 hcfg
  have hx : ((pwmDuration cfg d).toNat : Int) ≤ max d cfg.tickMs := by rw [pwmDuration_eq]; omega
  have hnear : (2 * (cfg.tickMs * tickCount cfg d) : Int) ≤ 2 * (pwmDuration cfg d).toNat + cfg.tickMs := by
    exact_mod_cast (roundDiv_near cfg.tickRound (pwmDuration cfg d).toNat cfg.tickMs hy).1
  rw [Int.le_ediv_iff_mul_le (by omega), mul_comm]
  rcases le_total d cfg.tickMs with hle | hge
  · have hone : tickCount cfg d ≤ 1 := by
      by_contra hgt
      have hmul := Nat.mul_le_mul_left cfg.tickMs (show 2 ≤ tickCount cfg d by omega)
      have hmul' : ((cfg.tickMs * 2 : Nat) : Int) ≤ cfg.tickMs * tickCount cfg d := by exact_mod_cast hmul
      omega
    have hmul := Nat.mul_le_mul_left cfg.tickMs hone
    have hmul' : (cfg.tickMs * tickCount cfg d : Int) ≤ cfg.tickMs * 1 := by exact_mod_cast hmul
    omega
  · omega

end Machine

open Machine Claims

/-- Settles O30: the motion after `k` firings is known, so the next firing's width and write are. -/
theorem pwmMotionConverges : Obligations.PwmMotionConverges := by
  unfold Obligations.PwmMotionConverges
  intro s t u v c k w d ch ch' hcfg hidle h hlo hhi hm hd hsplit hexec hrun hch' hf
  have hn : 0 < tickCount s.cfg d := (tickCount_range hcfg d).1
  rw [execPwmSetPosition_timed (pwmCheck_eq_ok h hlo hhi hd.le) hm hd hsplit, setPosTimed_eq _ h hm] at hexec
  injection hexec with ht
  have hcfgt : t.cfg = s.cfg := ht ▸ rfl
  have hstart : motion c t = some (motionAfter ch.cur w (tickCount s.cfg d) t.cfg.idleTicks 0) := by
    rw [← ht, motion_eq (channel?_set h _ rfl), motionAfter_before hn, widthAfter_zero]
    simp
  obtain ⟨hcfgu, hmu⟩ := tickRun_motionAfter (hcfgt ▸ hidle) hstart hrun
  rw [← hcfgu] at hmu
  rw [← hcfgt, ← hcfgu] at hidle
  replace hcfgu : u.cfg = s.cfg := hcfgu.trans hcfgt
  obtain ⟨-, hmv, htrace⟩ := fires_motionAfter hidle hch' hmu hf
  have hstep := widthAfter_succ_sub (c0 := ch.cur) (w := w) (k := k) hn
  have hnq : (0 : Rat) < (tickCount s.cfg d : Rat) := by exact_mod_cast hn
  rw [map_cur_eq, map_rem_eq, hmv, hcfgu]
  refine ⟨tickCount_le_ceil hcfg hd, fun hk => ?_, fun hk => ?_, fun hk => ?_, fun hlt => ?_, fun hlt => ?_, fun heq => ?_⟩
  · rw [htrace, motionAfter_before hk]
    simp [hk]
  · rw [htrace, motionAfter_end hk.ge]
    simp [hk]
  · rw [htrace, motionAfter_end hk.le]
    simp [show ¬ k + 1 < tickCount s.cfg d by omega, show ¬ k + 1 = tickCount s.cfg d by omega]
  · have : 0 < ((w : Rat) - ch.cur) / tickCount s.cfg d := div_pos (sub_pos.2 hlt) hnq
    linarith
  · have : ((w : Rat) - ch.cur) / tickCount s.cfg d < 0 := div_neg_of_neg_of_pos (sub_neg.2 hlt) hnq
    linarith
  · simp [widthAfter, heq]

end Sys2Proof
end

/-! # What every step keeps, seen effect by effect (R20, R27, R32, R33, R35) -/

section
namespace Sys2Proof
namespace Machine
open Claims

/-! ## Parameters, bounds, SQ.started (R27, R31, R35) -/

theorem map_modify_bounds {f : Channel → Channel} (hf : ∀ ch, (f ch).lo = ch.lo ∧ (f ch).hi = ch.hi) (l : List Channel)
    (n : Nat) : (l.modify n f).map (fun ch => (ch.lo, ch.hi)) = l.map fun ch => (ch.lo, ch.hi) := by
  apply List.ext_getElem
  · simp
  · intro k h1 h2
    simp only [List.getElem_map, List.getElem_modify]
    split_ifs
    · rw [(hf _).1, (hf _).2]
    · rfl

/-- No effect of a step changes a channel's bounds or SQ.started. -/
theorem run_bounds_started {e : Effect} (he : e.any) (s : State) :
    (e.run s).sq.started = s.sq.started
      ∧ (e.run s).channels.map (fun ch => (ch.lo, ch.hi)) = s.channels.map fun ch => (ch.lo, ch.hi) := by
  cases e with
  | elapse ms => obtain ⟨_, _, h⟩ := elapse_parts s ms; rw [Effect.run, h]; exact ⟨rfl, rfl⟩
  | turn d => cases d <;> exact ⟨rfl, rfl⟩
  | rxAvailable => obtain ⟨_, _, _, h⟩ := rxAvailable_parts s; rw [Effect.run, h]; exact ⟨rfl, rfl⟩
  | storeRead p => obtain ⟨_, _, _, h, _⟩ := storeRead_parts s p; rw [Effect.run, h]; exact ⟨rfl, rfl⟩
  | channel c f => exact ⟨rfl, map_modify_bounds he _ _⟩
  | _ => exact ⟨rfl, rfl⟩

theorem Evolves.bounds_started {s t : State} (h : Evolves Effect.any s t) : t.sq.started = s.sq.started
    ∧ t.channels.map (fun ch => (ch.lo, ch.hi)) = s.channels.map fun ch => (ch.lo, ch.hi) :=
  h.rel (fun s t => t.sq.started = s.sq.started
      ∧ t.channels.map (fun ch => (ch.lo, ch.hi)) = s.channels.map fun ch => (ch.lo, ch.hi)) (fun _ => ⟨rfl, rfl⟩)
    fun _ t _ ht he => ⟨(run_bounds_started he t).1.trans ht.1, (run_bounds_started he t).2.trans ht.2⟩

end Machine

open Machine Claims

/-- Settles O58: each effect a step is made of keeps the parameters, the bounds and SQ.started, and only appends. -/
theorem configFixedTraceGrows : Obligations.ConfigFixedTraceGrows := by
  unfold Obligations.ConfigFixedTraceGrows
  intro s s' h
  have hstep := step_any h
  exact ⟨hstep.cfg, trace_evolves hstep, hstep.bounds_started⟩

/-! ## Handles (R32) -/

namespace Machine

theorem mayBecome_refl (h : Nat × HandleState) : mayBecome h h := by
  obtain ⟨j, _ | o⟩ := h <;> simp [mayBecome]

theorem mayBecome_trans {a b c : Nat × HandleState} (h : mayBecome a b) (k : mayBecome b c) : mayBecome a c := by
  obtain ⟨i, _ | o⟩ := a <;> obtain ⟨j, _ | p⟩ := b <;> obtain ⟨l, _ | q⟩ := c <;> simp_all [mayBecome]

/-- Every handle of `s` stands at its place in `t`, as it was or resolved. -/
def HandlesKept (s t : State) : Prop :=
  ∀ (n : Nat) (h : Nat × HandleState), s.handles[n]? = some h → ∃ h', t.handles[n]? = some h' ∧ mayBecome h h'

theorem HandlesKept.refl (s : State) : HandlesKept s s := fun _ h hn => ⟨h, hn, mayBecome_refl h⟩

theorem HandlesKept.trans {s t u : State} (h : HandlesKept s t) (k : HandlesKept t u) : HandlesKept s u := by
  intro n x hx
  obtain ⟨y, hy, hxy⟩ := h n x hx
  obtain ⟨z, hz, hyz⟩ := k n y hy
  exact ⟨z, hz, mayBecome_trans hxy hyz⟩

theorem HandlesKept.of_eq {s t : State} (h : t.handles = s.handles) : HandlesKept s t :=
  fun _ x hx => ⟨x, h ▸ hx, mayBecome_refl x⟩

theorem resolveHandle_kept (j : Nat) (o : JobOutcome) (s : State) : HandlesKept s (s.resolveHandle j o) := by
  intro n x hx
  refine ⟨_, by rw [State.resolveHandle, List.getElem?_map, hx]; rfl, ?_⟩
  dsimp only
  split_ifs with hpend
  · obtain ⟨i, st⟩ := x
    obtain ⟨rfl, rfl⟩ := hpend
    rfl
  · exact mayBecome_refl x

theorem run_handles (e : Effect) (s : State) : HandlesKept s (e.run s) := by
  cases e with
  | addHandle j => exact fun n x hx => ⟨x, List.getElem?_append_left (List.getElem?_eq_some_iff.1 hx).1 ▸ hx, mayBecome_refl x⟩
  | resolve j o => exact resolveHandle_kept j o s
  | elapse ms => exact .of_eq (State.elapse_handles s ms)
  | turn d => cases d <;> exact .of_eq rfl
  | rxAvailable => obtain ⟨_, _, _, h⟩ := rxAvailable_parts s; exact .of_eq (by rw [Effect.run, h])
  | storeRead p => obtain ⟨_, _, _, h, _⟩ := storeRead_parts s p; exact .of_eq (by rw [Effect.run, h])
  | _ => exact .of_eq rfl

end Machine

/-- Settles O53: no effect removes a handle, and one that is resolved stays so. -/
theorem handlesResolveOnce : Obligations.HandlesResolveOnce := by
  unfold Obligations.HandlesResolveOnce
  intro s s' n h hstep
  exact (step_any hstep).rel HandlesKept .refl (fun _ t e hst _ => hst.trans (run_handles e t)) n h

/-! ## Direction pins (R20, R71, R145) -/

namespace Machine

theorem pinRun_append (l : PinLevel × PinLevel) (a b : List Event) :
    pinRun l (a ++ b) = (pinRun l a).bind fun m => pinRun m b := by
  induction a generalizing l with
  | nil => rfl
  | cons e a ih =>
    cases e with
    | pin p v =>
      simp only [List.cons_append, pinRun]
      split_ifs
      · rfl
      · exact ih _
    | _ => exact ih l

theorem pinRun_of_no_pin {l : PinLevel × PinLevel} {evs : List Event} (h : ∀ e ∈ evs, ∀ p v, e ≠ .pin p v) :
    pinRun l evs = some l := by
  induction evs with
  | nil => rfl
  | cons e evs ih =>
    have hrest := ih fun e' he' => h e' (List.mem_cons_of_mem _ he')
    cases e with
    | pin p v => exact absurd rfl (h _ List.mem_cons_self p v)
    | _ => exact hrest

/-- Turning the line drops one enable before it asserts the other, from whatever levels. -/
theorem turn_pins (d : Dir) (s : State) : pinsOk (s.setDirection d) ∧
    ∃ evs, (s.setDirection d).trace = s.trace ++ evs
      ∧ pinRun (s.T.txEn, s.T.rxEn) evs = some ((s.setDirection d).T.txEn, (s.setDirection d).T.rxEn) := by
  cases d
  · exact ⟨by simp [pinsOk, State.setDirection, State.pinWrite, State.emit],
      [.pin .rxEn .deasserted, .pin .txEn .asserted], by
        simp [State.setDirection, State.pinWrite, State.emit], by
        simp [pinRun, State.setDirection, State.pinWrite, State.emit]⟩
  · exact ⟨by simp [pinsOk, State.setDirection, State.pinWrite, State.emit],
      [.pin .txEn .deasserted, .pin .rxEn .asserted], by
        simp [State.setDirection, State.pinWrite, State.emit], by
        simp [pinRun, State.setDirection, State.pinWrite, State.emit]⟩

/-- Every other effect leaves the direction and its pins, and appends no pin event. -/
theorem run_pins {e : Effect} (he : e.any) (hturn : ∀ d, e ≠ .turn d) (s : State) :
    ((e.run s).T.dir = s.T.dir ∧ (e.run s).T.txEn = s.T.txEn ∧ (e.run s).T.rxEn = s.T.rxEn)
      ∧ ∃ evs, (e.run s).trace = s.trace ++ evs ∧ ∀ e ∈ evs, ∀ p v, e ≠ .pin p v := by
  have silent {t : State} (hT : t.T = s.T) (h : t.trace = s.trace) :
      (t.T.dir = s.T.dir ∧ t.T.txEn = s.T.txEn ∧ t.T.rxEn = s.T.rxEn)
        ∧ ∃ evs, t.trace = s.trace ++ evs ∧ ∀ e ∈ evs, ∀ p v, e ≠ .pin p v :=
    ⟨by rw [hT]; exact ⟨rfl, rfl, rfl⟩, [], by rw [h, List.append_nil], by simp⟩
  cases e with
  | emit e =>
    refine ⟨⟨rfl, rfl, rfl⟩, [e], rfl, fun e' he' p v => ?_⟩
    rw [List.mem_singleton.1 he']
    rintro rfl
    exact he
  | turn d => exact absurd rfl (hturn d)
  | elapse ms => exact silent (State.elapse_line s ms) (State.elapse_trace s ms)
  | rxAvailable =>
    obtain ⟨_, _, b, h⟩ := rxAvailable_parts s
    rw [Effect.run, h]
    exact ⟨⟨rfl, rfl, rfl⟩, _, rfl, by simp⟩
  | storeRead p =>
    obtain ⟨_, _, e, h, hline⟩ := storeRead_parts s p
    rw [Effect.run, h]
    refine ⟨⟨rfl, rfl, rfl⟩, [e], rfl, fun e' he' p v => ?_⟩
    rw [List.mem_singleton.1 he']
    rintro rfl
    cases hline
  | rxFlush | rxRead _ | uartClose | uartOpen => exact ⟨⟨rfl, rfl, rfl⟩, [_], rfl, by simp⟩
  | lock | unlock => exact ⟨⟨rfl, rfl, rfl⟩, [], (List.append_nil _).symm, by simp⟩
  | _ => exact silent rfl rfl

/-- The pins are consistent in `t`, and on the way from `s` they were never both asserted. -/
def PinsKept (s t : State) : Prop :=
  (pinsOk s → pinsOk t) ∧ ∃ evs, t.trace = s.trace ++ evs
    ∧ pinRun (s.T.txEn, s.T.rxEn) evs = some (t.T.txEn, t.T.rxEn)

theorem PinsKept.refl (s : State) : PinsKept s s := ⟨id, [], (List.append_nil _).symm, rfl⟩

theorem PinsKept.trans {s t u : State} (h : PinsKept s t) (k : PinsKept t u) : PinsKept s u := by
  obtain ⟨h1, evs, htrace, hrun⟩ := h
  obtain ⟨k1, evs', htrace', hrun'⟩ := k
  refine ⟨k1 ∘ h1, evs ++ evs', by rw [htrace', htrace, List.append_assoc], ?_⟩
  rw [pinRun_append, hrun]
  exact hrun'

theorem run_pinsKept {e : Effect} (he : e.any) (s : State) : PinsKept s (e.run s) := by
  by_cases hturn : ∃ d, e = .turn d
  · obtain ⟨d, rfl⟩ := hturn
    exact ⟨fun _ => (turn_pins d s).1, (turn_pins d s).2⟩
  · obtain ⟨⟨hdir, htx, hrx⟩, evs, htrace, hno⟩ := run_pins he (fun d hd => hturn ⟨d, hd⟩) s
    refine ⟨fun hok => ?_, evs, htrace, ?_⟩
    · rw [pinsOk, hdir, htx, hrx]
      exact hok
    · rw [htx, hrx]
      exact pinRun_of_no_pin hno

end Machine

/-- Settles O22: only turning the line writes pins, and it breaks before it makes. -/
theorem pinsBreakBeforeMake : Obligations.PinsBreakBeforeMake := by
  unfold Obligations.PinsBreakBeforeMake
  intro s s' hok hstep
  obtain ⟨hkeep, hevs⟩ := (step_any hstep).rel PinsKept .refl fun _ t _ hst he => hst.trans (run_pinsKept he t)
  exact ⟨hkeep hok, hevs⟩

end Sys2Proof
end

/-! # Invariants of jobs and of channels: what every step keeps, operation by operation (R25, R30, R31) -/

section
namespace Sys2Proof
namespace Machine
open Claims

/-! ## The induction over the moves, once

A property of states that the transport's effects, the four operations of the interpolator and the steps of a job keep
is kept by every step. -/

/-- The parts a step is made of keep `I`. -/
structure Kept (I : State → Prop) : Prop where
  line : ∀ {s t : State}, Evolves Effect.line s t → I s → I t
  setPosition : ∀ {c w d : Int} {s t : State}, execPwmSetPosition c w d s = .next t → I s → I t
  splitRead : ∀ {c w d : Int} {c0 : Rat} {f : Flight} {s : State}, f ∈ s.flights → f.phase = .pwmSplit c w d c0 → I s →
    I (resumePwmSplit c w d c0 (s.popFlight s.cur))
  tick : ∀ {c : Nat} {s t : State}, execPwmTick c s = .next t → I s → I t
  setDeviation : ∀ {c dv : Int} {s t : State}, execPwmSetDeviation c dv s = .next t → I s → I t
  getDeviation : ∀ {c : Int} {s t : State}, execPwmGetDeviation c s = .next t → I s → I t
  issue : ∀ {j : Nat} {J : Job} {s : State} (p : Nat), s.job? j = some J → I s → I ((issueJob J p s).after s)
  finish : ∀ {j : Nat} {J : Job} {s : State} (o : JobOutcome), s.job? j = some J → I s → I ((finishJob J o s).after s)
  wake : ∀ {j : Nat} {J : Job} {s : State}, s.job? j = some J → I s → I (wakeJob J s)
  suspend : ∀ {s : State} (J : Job), I s → I (suspendJob J s)
  ended : ∀ {j : Nat} {J : Job} {s : State}, s.job? j = some J → I s → I (endJob J s)
  choose : ∀ {j : Nat} {J : Job} {s : State}, s.job? j = some J → J.ctx = .onSched → I s → I (s.setRunning (some j))
  addJob : ∀ {s : State} (sets : List ActionSet) (ctx : Ctx) (cb : Option Nat), I s → I (s.addJob sets ctx cb)
  startScheduled : ∀ {s : State} (sets : List ActionSet) (cb : Option Nat), I s → I (startScheduled sets cb s)

section
variable {I : State → Prop} (hI : Kept I) {s t : State}
include hI

theorem Kept.emit {e : Event} (he : Effect.line (.emit e)) (h : I s) : I (s.emit e) := hI.line (Evolves.one (.emit e) he) h

theorem Kept.become (a : Agent) (h : I s) : I { s with cur := a } := hI.line (Evolves.one (.become a) trivial) h

theorem Kept.pop (a : Agent) (h : I s) : I (s.popFlight a) := hI.line (Evolves.one (.pop a) trivial) h

theorem Kept.startBlocking (sets : List ActionSet) (cb : Option Nat) (h : I s) : I (startBlocking sets cb s) :=
  hI.line ((Evolves.refl _).push _ _ trivial) (hI.addJob sets (.onCaller s.cur) cb h)

theorem Kept.sleepThrough (j : Nat) (h : I s) : I (sleepThrough j s) := by
  have h' (ms : Rat) : I (s.elapse ms) := hI.line ((Evolves.refl s).elapse ms trivial) h
  unfold Machine.sleepThrough
  split
  · exact h
  · split
    · exact h' _
    · exact h
    · exact h

theorem Kept.playStep (j : Nat) (h : I s) : I (playStep j s).state := by
  unfold Machine.playStep
  split
  · exact h
  next J hJ =>
  split
  · next p _ =>
    have hissue := hI.issue p hJ h
    rcases hm : issueJob J p s with t | ⟨t, o⟩ | t | _ <;> rw [hm] at hissue
    · exact hissue
    · exact hI.line (((Evolves.refl t).pop t.cur trivial).emit _ trivial) hissue
    · exact hissue
    · exact h
  · exact hI.wake hJ h
  · exact h

theorem Kept.runBlocking (j n : Nat) (h : I s) : I (runBlocking j n s) := by
  induction n generalizing s with
  | zero => exact h
  | succ n ih =>
    have hp := hI.playStep j (hI.sleepThrough j h)
    unfold Machine.runBlocking
    rcases hm : Machine.playStep j (Machine.sleepThrough j s) with t | t | t <;> rw [hm] at hp
    · exact ih hp
    · exact hp
    · exact hp

theorem Kept.seqPlay {sets : List ActionSet} {bl : Bool} {cb : Option Nat} (hn : execSeqPlay sets bl cb s = .next t)
    (h : I s) : I t := by
  unfold execSeqPlay at hn
  split at hn
  · cases hn
    exact hI.runBlocking _ _ (hI.startBlocking sets cb h)
  · split at hn <;> cases hn
    exact hI.startScheduled sets cb h

theorem Kept.exec {i : Instr} (hn : exec i s = .next t) (h : I s) : I t := by
  have line : touchesChannelsOrJobs i = false → I t := fun hi => hI.line (exec_line hi hn) h
  cases i
  case pwmSetPosition => exact hI.setPosition hn h
  case pwmTick => exact hI.tick hn h
  case pwmSetDeviation => exact hI.setDeviation hn h
  case pwmGetDeviation => exact hI.getDeviation hn h
  case seqPlay => exact hI.seqPlay hn h
  case seqIssue =>
    obtain ⟨J, hJ, -, hs⟩ := internalStep_next hn
    split at hs <;> cases hs
    exact hI.issue _ hJ h
  case seqSleep =>
    obtain ⟨J, -, -, hs⟩ := internalStep_next hn
    split at hs <;> cases hs
    exact hI.suspend J h
  case seqWake =>
    obtain ⟨J, hJ, -, hs⟩ := internalStep_next hn
    split at hs <;> cases hs
    split
    · exact hI.wake hJ h
    · exact h
  case seqFinish =>
    obtain ⟨J, hJ, -, hs⟩ := internalStep_next hn
    split at hs <;> cases hs
    exact hI.finish _ hJ h
  all_goals exact line rfl

theorem Kept.begin {i : Instr} (hn : begin i s = .next t) (h : I s) : I t := by
  unfold Machine.begin at hn
  split at hn
  · exact hI.line (beginRead_line hn) h
  · split at hn
    · exact hI.line (beginLineReset_line hn) h
    · exact hI.line (beginBusReset_line hn) h
    · cases hn
      exact hI.startBlocking _ _ h
    · exact hI.exec hn h

theorem Kept.resumePlaying (j : Nat) (h : I s) : I (resumePlaying j s) := by
  unfold Machine.resumePlaying
  split
  · exact h
  next J hJ =>
  split
  · split
    · exact hI.wake hJ h
    · exact h
  · exact h
  · have hp := hI.playStep j h
    rcases hm : Machine.playStep j s with t | t | t <;> rw [hm] at hp <;> exact hp

theorem Kept.resumeCallback (j : Nat) (o : JobOutcome) (h : I s) : I (resumeCallback j o s) := by
  unfold Machine.resumeCallback
  split
  · exact h
  next J hJ =>
  have hend := hI.ended hJ h
  split
  · exact hend
  · exact hI.line (((Evolves.refl _).pop _ trivial).emit _ trivial) hend

theorem Kept.resumePhase {f : Flight} (hf : f ∈ s.flights) (hn : resumePhase f.phase s = .next t) (h : I s) : I t := by
  have hpop := hI.pop s.cur h
  rcases hph : f.phase with i | x | x | _ | _ | id | id | ⟨c, w, d, c0⟩ | j | ⟨j, o⟩ <;> rw [hph] at hn
  case waiting => exact hI.begin hn hpop
  all_goals cases hn
  case readReq => exact hI.line (resumeTurn_line x) hpop
  case readSettle => exact hI.line (resumeInspect_line x) hpop
  case lineClosed => exact hI.line resumeLineClosed_line hpop
  case lineOpened => exact hI.line (((Evolves.refl _).unlock trivial).emit _ trivial) hpop
  case resetWrote => exact hI.line (((Evolves.refl _).emit (.wait _ _) trivial).push _ _ trivial) hpop
  case resetWaited => exact hI.line (resumeResetWaited_line id) hpop
  case pwmSplit => exact hI.splitRead hf hph h
  case playing => exact hI.resumePlaying j h
  case callback => exact hI.resumeCallback j o hpop

theorem Kept.resumeAgent {a : Agent} (hn : resumeAgent a s = .next t) (h : I s) : I t := by
  unfold Machine.resumeAgent at hn
  split at hn
  · cases hn
  next f hf =>
  split at hn
  · exact hI.resumePhase (s := { s with cur := a }) (List.mem_of_find?_eq_some hf) hn (hI.become a h)
  · cases hn
    exact h

theorem Kept.schedStep {j : Nat} (hn : schedStep j s = .next t) (h : I s) : I t := by
  unfold Machine.schedStep at hn
  split at hn
  · cases hn
  next J hJ =>
  split at hn
  · next p _ =>
    cases hn
    have hissue := hI.issue p hJ h
    unfold settle
    split
    · exact hissue
    · split
      · exact hI.suspend _ hissue
      · exact hissue
      · exact hissue
  · cases hn
    split
    · exact hI.wake hJ h
    · exact h
  · cases hn

theorem Kept.schedMove {j : Nat} (hn : schedMove j s = .next t) (h : I s) : I t := by
  have hb := hI.become .sched h
  unfold Machine.schedMove at hn
  split at hn
  · cases hn
    exact h
  split at hn
  · cases hn
  split at hn
  · exact hI.schedStep hn hb
  split at hn
  · cases hn
  next J hJ =>
  split at hn
  · cases hn
  next hctx =>
  split at hn
  · exact hI.schedStep hn (hI.choose (s := { s with cur := .sched }) hJ (not_not.1 hctx) hb)
  · cases hn
    exact h

theorem Kept.loadAll (reqs : List (Path × Int × List (Int × Int))) (h : I s) : I (loadAll reqs s).1 := by
  induction reqs generalizing s with
  | nil => exact h
  | cons q rest ih =>
    obtain ⟨path, reps, locks⟩ := q
    have hr : Evolves Effect.line s (s.storeRead path).2 := Evolves.one (.storeRead path) trivial
    obtain ⟨e, he⟩ | ⟨e, he⟩ | ⟨a, he⟩ := performLoad_cases (s := s) (path := path) (reps := reps) (locks := locks) <;>
      simp only [Machine.loadAll, he]
    · exact hI.emit trivial h
    · exact hI.line (hr.emit _ trivial) h
    · exact ih (hI.line (hr.emit _ trivial) h)

theorem Kept.seqPlayPaths {reqs : List (Path × Int × List (Int × Int))} {bl : Bool} {cb : Option Nat}
    (hn : seqPlayPaths reqs bl cb s = .next t) (h : I s) : I t := by
  have hl := hI.loadAll reqs h
  unfold Machine.seqPlayPaths at hn
  dsimp only at hn
  split at hn
  · exact hI.seqPlay hn hl
  · cases hn
    exact hl

theorem Kept.runMove {m : Move} (hn : runMove m s = .next t) (h : I s) : I t := by
  cases m with
  | call a i => exact hI.exec (issueBy_next hn).2.2 (hI.become a h)
  | begin a i => exact hI.begin (issueBy_next hn).2.2 (hI.become a h)
  | frame a bytes =>
    simp only [Machine.runMove] at hn
    split at hn
    · exact hI.exec (issueBy_next hn).2.2 (hI.become a h)
    · cases hn
  | resume a => exact hI.resumeAgent hn h
  | tick c => exact hI.exec (timerMove_next hn).2 (hI.become (.tick c) h)
  | sched j => exact hI.schedMove hn h
  | pass us =>
    cases hn
    unfold passTime
    split
    · exact hI.line (Evolves.one (.clock _) trivial) h
    · exact h
  | request a r => cases hn
  | playPaths a reqs bl cb =>
    simp only [Machine.runMove] at hn
    split at hn
    · exact hI.seqPlayPaths hn (hI.become a h)
    · cases hn

/-- What the parts of a step keep, the step keeps. -/
theorem Kept.step (hn : step s = .next t) (h : I s) : I t := by
  refine hI.runMove hn (hI.line ?_ h)
  unfold nextMove
  split
  · exact Evolves.one (.moves _) trivial
  · exact Evolves.one .draw trivial

end

/-! ## What the interpolator leaves of jobs and handles -/

/-- Two states with the same sequencer and the same handles. -/
structure SameJobs (s t : State) : Prop where
  sq : t.sq = s.sq
  handles : t.handles = s.handles

theorem setPosImmediate_sameJobs (c w dev : Int) (s : State) : SameJobs s (setPosImmediate c w dev s) := ⟨rfl, rfl⟩

theorem setPosTimed_sameJobs (c w d : Int) (c0 : Rat) (s : State) : SameJobs s (setPosTimed c w d c0 s) := ⟨rfl, rfl⟩

theorem tickChannel_sameJobs (c : Nat) (ch : Channel) (s : State) : SameJobs s (tickChannel c ch s) := by
  constructor <;> simp only [tickChannel, rearm] <;> split_ifs <;> rfl

section
variable {s t : State}

theorem execPwmSetPosition_sameJobs {c w d : Int} (h : execPwmSetPosition c w d s = .next t) : SameJobs s t := by
  unfold execPwmSetPosition at h
  split at h
  · cases h; exact ⟨rfl, rfl⟩
  · split_ifs at h <;> cases h <;> exact ⟨rfl, rfl⟩

theorem resumePwmSplit_sameJobs (c w d : Int) (c0 : Rat) (s : State) : SameJobs s (resumePwmSplit c w d c0 s) := by
  unfold resumePwmSplit
  split
  · split_ifs <;> exact ⟨rfl, rfl⟩
  · exact ⟨rfl, rfl⟩

theorem execPwmTick_sameJobs {c : Nat} (h : execPwmTick c s = .next t) : SameJobs s t := by
  unfold execPwmTick at h
  split_ifs at h
  split at h
  · cases h
  · cases h
    split_ifs
    · exact tickChannel_sameJobs c _ s
    · exact ⟨rfl, rfl⟩

theorem execPwmSetDeviation_sameJobs {c dv : Int} (h : execPwmSetDeviation c dv s = .next t) : SameJobs s t := by
  unfold execPwmSetDeviation at h
  split at h
  · cases h; exact ⟨rfl, rfl⟩
  · split_ifs at h <;> cases h <;> exact ⟨rfl, rfl⟩

theorem execPwmGetDeviation_sameJobs {c : Int} (h : execPwmGetDeviation c s = .next t) : SameJobs s t := by
  unfold execPwmGetDeviation at h
  split at h
  · cases h; exact ⟨rfl, rfl⟩
  · split_ifs at h <;> cases h <;> exact ⟨rfl, rfl⟩

end

/-! ## What the step of a job that issues comes to -/

/-- A step of an issuing job ends it, waits, begins its sleep, or performs its command (R114). -/
inductive IssueMove (J : Job) (p : Nat) (s : State) : JobMove → Prop
  | finished (o : JobOutcome) : IssueMove J p s (finishJob J o s)
  | waits : IssueMove J p s .blocked
  | sleeps : J.k < rounds J.sets → (cmds J.sets J.k).length ≤ p → IssueMove J p s
      (.moved ((s.emit (.sleep J.id (sleepLen J.sets J.k))).setJob
        { J with phase := .sleep (sleepLen J.sets J.k), sleptAt := s.now }))
  | sends (c : Cmd) (f : Frame) : encodeFrame s.cfg c.col 0x01 [servoPosition s.cfg c.pos, servoDuration s.cfg c.dur] = .ok f →
      s.T.tl = .free → IssueMove J p s (.moved ((sendFrame f s).setJob { J with phase := .issue (p + 1) }))
  | jumps (c : Cmd) (ch : Channel) : pwmCheck c.col c.pos c.dur s = .ok ch → ch.mutex = .free → c.dur = 0 →
      IssueMove J p s (.moved ((setPosImmediate c.col c.pos ch.dev s).setJob { J with phase := .issue (p + 1) }))
  | reads (c : Cmd) (ch : Channel) : pwmCheck c.col c.pos c.dur s = .ok ch → ch.mutex = .free → 0 < c.dur →
      s.cfg.setposSplitRead = true → J.split = none → IssueMove J p s (.moved (s.setJob { J with split := some ch.cur }))
  | plans (c : Cmd) (ch : Channel) : pwmCheck c.col c.pos c.dur s = .ok ch → ch.mutex = .free → 0 < c.dur →
      IssueMove J p s (.moved ((setPosTimed c.col c.pos c.dur (J.split.getD ch.cur) s).setJob
        { J with phase := .issue (p + 1), split := none }))

theorem issueJob_cases (J : Job) (p : Nat) (s : State) : IssueMove J p s (issueJob J p s) := by
  unfold issueJob
  split
  · exact .finished .ok
  next hk =>
  split
  · next c _ =>
    unfold issueCmd
    split
    · rcases hp : performSetPosition c.col c.pos c.dur s with ⟨t, v⟩ | ⟨t, e⟩ | _
      · obtain ⟨f, hf, hl, rfl, -⟩ := performWrite_done hp
        exact .sends c f hf hl
      · obtain ⟨-, rfl⟩ := performWrite_raised hp
        exact .finished _
      · exact .waits
    · split
      · exact .finished _
      next ch hok =>
      split
      · exact .waits
      next hm =>
      have hm : ch.mutex = .free := unlocked_iff.1 (not_not.1 hm)
      split
      · next hd => exact .jumps c ch hok hm hd
      next hd =>
      split
      · next hs => exact .reads c ch hok hm (Nat.pos_of_ne_zero hd) hs.1 hs.2
      · exact .plans c ch hok hm (Nat.pos_of_ne_zero hd)
  · next hnone => exact .sleeps (Nat.not_le.1 hk) (List.getElem?_eq_none_iff.1 hnone)

/-! ## The invariant of jobs (R30, R31) -/

theorem SameJobs.jobsOk {s t : State} (h : SameJobs s t) (hs : jobsOk s) : jobsOk t := jobsOk_congr h.sq h.handles hs

/-- Writing back a job of `s`, changed in anything but its id and its agent, after an effect that keeps the jobs. -/
theorem jobsOk_writeBack {s t : State} {j : Nat} {J K : Job} (hJ : s.job? j = some J) (h : SameJobs s t) (hs : jobsOk s)
    (hid : K.id = J.id) (hctx : K.ctx = J.ctx) : jobsOk (t.setJob K) := by
  refine jobsOk_setJob (h.jobsOk hs) (K := J) ?_ hctx
  rw [hid, job_id hJ, job?_congr (congrArg Sequencer.jobs h.sq) j, hJ]

theorem sendFrame_sameJobs (f : Frame) (s : State) : SameJobs s (sendFrame f s) := by
  rw [sendFrame_eq]
  exact ⟨State.elapse_sq _ _, State.elapse_handles _ _⟩

theorem jobsOk_issue {s : State} {j : Nat} {J : Job} (p : Nat) (hJ : s.job? j = some J) (hs : jobsOk s) :
    jobsOk ((issueJob J p s).after s) := by
  have h := issueJob_cases J p s
  generalize issueJob J p s = m at h
  cases h with
  | finished o => exact jobsOk_finish hs ⟨J, by rw [job_id hJ]; exact hJ, rfl⟩ o s
  | waits => exact hs
  | sleeps => exact jobsOk_writeBack hJ (t := s.emit _) ⟨rfl, rfl⟩ hs rfl rfl
  | sends _ f => exact jobsOk_writeBack hJ (sendFrame_sameJobs f s) hs rfl rfl
  | jumps => exact jobsOk_writeBack hJ (setPosImmediate_sameJobs _ _ _ s) hs rfl rfl
  | reads => exact jobsOk_writeBack hJ (t := s) ⟨rfl, rfl⟩ hs rfl rfl
  | plans => exact jobsOk_writeBack hJ (setPosTimed_sameJobs _ _ _ _ s) hs rfl rfl

theorem jobsOk_startScheduled {s : State} (sets : List ActionSet) (cb : Option Nat) (hs : jobsOk s) :
    jobsOk (startScheduled sets cb s) := by
  have h := jobsOk_addJob sets .onSched cb hs
  refine ⟨h.fresh, h.distinct, fun x hx => ?_, h.running⟩
  rcases List.mem_append.1 hx with hx | hx
  · exact h.handles x hx
  · rw [List.mem_singleton.1 hx]
    exact Nat.lt_succ_self _

theorem jobsOk_kept : Kept jobsOk where
  line h := jobsOk_congr h.line_keeps.2.1 h.line_keeps.2.2.1
  setPosition h := (execPwmSetPosition_sameJobs h).jobsOk
  splitRead {_ _ _ _ _ s} _ _ h := (resumePwmSplit_sameJobs _ _ _ _ _).jobsOk (jobsOk_congr (s := s) rfl rfl h)
  tick h := (execPwmTick_sameJobs h).jobsOk
  setDeviation h := (execPwmSetDeviation_sameJobs h).jobsOk
  getDeviation h := (execPwmGetDeviation_sameJobs h).jobsOk
  issue p hJ h := jobsOk_issue p hJ h
  finish o hJ h := jobsOk_finish h ⟨_, by rw [job_id hJ]; exact hJ, rfl⟩ o _
  wake hJ h := jobsOk_wake h hJ
  suspend _ h := jobsOk_suspend h
  ended hJ h := jobsOk_endJob h ⟨_, by rw [job_id hJ]; exact hJ, rfl⟩
  choose hJ hctx h := ⟨h.fresh, h.distinct, h.handles, fun i hi => by cases hi; exact ⟨_, hJ, hctx⟩⟩
  addJob sets ctx cb h := jobsOk_addJob sets ctx cb h
  startScheduled sets cb h := jobsOk_startScheduled sets cb h

end Machine

open Machine

/-- Settles O52: the parts of a step keep the invariant of jobs. -/
theorem jobInvariantKept : Obligations.JobInvariantKept := by
  unfold Obligations.JobInvariantKept
  exact fun s s' hs hstep => jobsOk_kept.step hstep hs

end Sys2Proof
end

/-! # The invariants of the PWM channels (R25) -/

section
namespace Sys2Proof
namespace Machine
open Claims

/-! ## Rules for `pwmOk` -/

theorem wf_ticks {cfg : Config} (h : cfg.wf = true) : cfg.idleTicks < 0 ∧ cfg.ticksOk = true := by
  simp only [Config.wf, Bool.and_eq_true, decide_eq_true_eq] at h
  exact ⟨h.1.1.1.1.1.1.2, h.1.1.1.2⟩

/-- Reading a channel after one was set, as far as the bounds go. -/
theorem channel?_bounds {s t : State} {n : Nat} {x : Channel} (ht : t.channels = s.channels.set n x)
    (hx : ∀ y, s.channels[n]? = some y → x.lo = y.lo ∧ x.hi = y.hi) {c : Int} {z : Channel} (hz : t.channel? c = some z) :
    ∃ y, s.channel? c = some y ∧ z.lo = y.lo ∧ z.hi = y.hi := by
  obtain ⟨hc, hlt, rfl⟩ := channel?_some hz
  have hlt' : c.toNat - 1 < s.channels.length := by simpa [ht] using hlt
  refine ⟨s.channels[c.toNat - 1], by simp [State.channel?, hc, hlt'], ?_⟩
  simp only [ht, List.getElem_set]
  split_ifs with hn
  · subst hn
    exact hx _ (List.getElem?_eq_getElem hlt')
  · exact ⟨rfl, rfl⟩

/-- A flight that stands in no split read needs no check. -/
theorem splitOk_of_not_split {s : State} {f : Flight} (h : ∀ c w d c0, f.phase ≠ .pwmSplit c w d c0) : splitOk s f := by
  unfold splitOk
  split
  · next c w d c0 hp => exact absurd hp (h c w d c0)
  · trivial

/-- Where bounds and parameters stay, so do the checks of the split reads. -/
theorem splitOk_of_bounds {s t : State} {f : Flight} (hcfg : t.cfg = s.cfg)
    (hch : ∀ c z, t.channel? c = some z → ∃ y, s.channel? c = some y ∧ z.lo = y.lo ∧ z.hi = y.hi) (h : splitOk s f) :
    splitOk t f := by
  unfold splitOk at h ⊢
  split at h
  · obtain ⟨h1, h2, h3⟩ := h
    refine ⟨hcfg ▸ h1, h2, fun z hz => ?_⟩
    obtain ⟨y, hy, hlo, hhi⟩ := hch _ z hz
    rw [hlo, hhi]
    exact h3 y hy
  · trivial

/-- Anything that leaves parameters and channels, and begins no split read. -/
theorem pwmOk_congr {s t : State} (hcfg : t.cfg = s.cfg) (hch : t.channels = s.channels)
    (hfl : ∀ f ∈ t.flights, f ∈ s.flights ∨ ∀ c w d c0, f.phase ≠ .pwmSplit c w d c0)
    (hjobs : ∀ J ∈ t.sq.jobs, J.split.isSome = true → s.cfg.setposSplitRead = true) (h : pwmOk s) : pwmOk t := by
  have hc (c : Int) : t.channel? c = s.channel? c := by simp only [State.channel?, hch]
  refine ⟨hcfg ▸ h.params, by rw [hch, hcfg, h.count], by rw [hch, hcfg]; exact h.channels, fun f hf => ?_,
    hcfg ▸ hjobs⟩
  rcases hfl f hf with hold | hno
  · exact splitOk_of_bounds hcfg (fun c z hz => ⟨z, hc c ▸ hz, rfl, rfl⟩) (h.flights f hold)
  · exact splitOk_of_not_split hno

/-- One channel is set, within its bounds, to a state that keeps R25. -/
theorem pwmOk_setChannel {s t : State} {c : Int} {ch x : Channel} (hc : s.channel? c = some ch)
    (hch : t.channels = withChannel c x s) (hcfg : t.cfg = s.cfg) (hfl : t.flights = s.flights) (hsq : t.sq = s.sq)
    (hlo : x.lo = ch.lo) (hhi : x.hi = ch.hi) (hx : channelOk s.cfg x) (h : pwmOk s) : pwmOk t := by
  obtain ⟨-, hlt, hget⟩ := channel?_some hc
  refine ⟨hcfg ▸ h.params, ?_, fun y hy => ?_, fun f hf => ?_, by rw [hsq, hcfg]; exact h.jobs⟩
  · rw [hch, withChannel, List.length_set, hcfg, h.count]
  · rw [hcfg]
    rw [hch] at hy
    rcases List.mem_or_eq_of_mem_set hy with hold | rfl
    · exact h.channels y hold
    · exact hx
  · refine splitOk_of_bounds hcfg (fun d z hz => channel?_bounds hch (fun y hy => ?_) hz) (h.flights f (hfl ▸ hf))
    rw [List.getElem?_eq_getElem hlt, hget, Option.some.injEq] at hy
    exact ⟨hy ▸ hlo, hy ▸ hhi⟩

/-- RESULT changes nothing the invariant speaks of. -/
theorem pwmOk_answer {s : State} (op : HostOp) (v : Result) (h : pwmOk s) : pwmOk (s.answer op v) :=
  pwmOk_congr (s := s) rfl rfl (fun _ hf => .inl hf) h.jobs h

theorem pwmOk_push {s : State} {ph : FlightPhase} (r : Rat) (hph : ∀ c w d c0, ph ≠ .pwmSplit c w d c0) (h : pwmOk s) :
    pwmOk (s.pushFlight ph r) :=
  pwmOk_congr (s := s) rfl rfl
    (fun _ hf => (List.mem_cons.1 hf).symm.imp_right fun he => by rw [he]; exact hph) h.jobs h

theorem pwmOk_pop {s : State} (a : Agent) (h : pwmOk s) : pwmOk (s.popFlight a) :=
  pwmOk_congr (s := s) rfl rfl (fun _ hf => .inl (List.mem_of_mem_eraseP hf)) h.jobs h

theorem pwmOk_pushSplit {s : State} {c w d : Int} {ch : Channel} (c0 r : Rat) (hc : s.channel? c = some ch)
    (hlo : ch.lo ≤ w) (hhi : w ≤ ch.hi) (hd : 0 < d) (hs : s.cfg.setposSplitRead = true) (h : pwmOk s) :
    pwmOk (s.pushFlight (.pwmSplit c w d c0) r) := by
  refine ⟨h.params, h.count, h.channels, fun f hf => ?_, h.jobs⟩
  rcases List.mem_cons.1 hf with rfl | hold
  · exact ⟨hs, hd, fun y hy => by cases hc.symm.trans hy; exact ⟨hlo, hhi⟩⟩
  · exact h.flights f hold

/-- Writing back a job changes only what splits stand in the jobs. -/
theorem pwmOk_setJob {s : State} {K : Job} (hK : K.split.isSome = true → s.cfg.setposSplitRead = true) (h : pwmOk s) :
    pwmOk (s.setJob K) := by
  refine pwmOk_congr (s := s) rfl rfl (fun _ hf => .inl hf) (fun J hJ hJs => ?_) h
  obtain ⟨A, hA, rfl⟩ := List.mem_map.1 hJ
  split_ifs at hJs
  · exact hK hJs
  · exact h.jobs A hA hJs

/-! ## The forms of PWM_SET_POSITION and the other operations keep R25 -/

section
variable {s : State} {c w d : Int} {ch : Channel}

theorem pwmOk_setPosImmediate (hok : pwmCheck c w d s = .ok ch) (hm : ch.mutex = .free) (dev : Int) (h : pwmOk s) :
    pwmOk (setPosImmediate c w dev s) := by
  obtain ⟨hc, hlo, hhi, -⟩ := pwmCheck_ok hok
  rw [setPosImmediate_eq dev hc hm]
  have hdev := (h.channels ch (channel?_mem hc)).deviation
  refine pwmOk_setChannel hc rfl rfl rfl rfl rfl rfl ⟨.inr ⟨?_, ?_⟩, .inl rfl, hdev, fun _ hr => ?_⟩ h
  · exact Int.cast_le.2 hlo
  · exact Int.cast_le.2 hhi
  · have := (wf_ticks h.params).1
    change 1 ≤ s.cfg.idleTicks at hr
    omega

/-- The timed form keeps R25; (d) needs that the width it starts from is the channel's own, unless reads are split. -/
theorem pwmOk_setPosTimed (hc : s.channel? c = some ch) (hlo : ch.lo ≤ w) (hhi : w ≤ ch.hi) (hm : ch.mutex = .free)
    {c0 : Rat} (hc0 : s.cfg.setposSplitRead = false → c0 = ch.cur) (h : pwmOk s) : pwmOk (setPosTimed c w d c0 s) := by
  obtain ⟨hone, hmax⟩ := tickCount_range (wf_ticks h.params).2 d
  have hticks : (1 : Int) ≤ tickCount s.cfg d := by exact_mod_cast hone
  rw [setPosTimed_eq c0 hc hm]
  refine pwmOk_setChannel hc rfl rfl rfl rfl rfl rfl ⟨.inr ⟨?_, ?_⟩, .inr ⟨hticks, Int.ofNat_le.2 hmax⟩,
    (h.channels ch (channel?_mem hc)).deviation, fun hs _ => ?_⟩ h
  · exact Int.cast_le.2 hlo
  · exact Int.cast_le.2 hhi
  · have hn : (tickCount s.cfg d : Rat) ≠ 0 := by exact_mod_cast (Nat.one_le_iff_ne_zero.1 hone)
    simp only [hc0 hs, Int.cast_natCast]
    field_simp
    ring

theorem pwmOk_execPwmSetPosition {t : State} (hn : execPwmSetPosition c w d s = .next t) (h : pwmOk s) : pwmOk t := by
  unfold execPwmSetPosition at hn
  split at hn
  · cases hn
    exact pwmOk_answer _ _ h
  next ch hok =>
  obtain ⟨hc, hlo, hhi, hd⟩ := pwmCheck_ok hok
  split at hn
  · cases hn
    exact pwmOk_push _ (by simp) h
  next hm =>
  have hm : ch.mutex = .free := unlocked_iff.1 (not_not.1 hm)
  split at hn
  · cases hn
    exact pwmOk_answer _ _ (pwmOk_setPosImmediate hok hm _ h)
  next hd0 =>
  split at hn
  · next hs =>
    cases hn
    exact pwmOk_pushSplit _ _ hc hlo hhi (by omega) hs h
  · cases hn
    exact pwmOk_answer _ _ (pwmOk_setPosTimed hc hlo hhi hm (fun _ => rfl) h)

theorem pwmOk_resumePwmSplit {c0 : Rat} {f : Flight} (hf : f ∈ s.flights) (hp : f.phase = .pwmSplit c w d c0)
    (h : pwmOk s) : pwmOk (resumePwmSplit c w d c0 (s.popFlight s.cur)) := by
  obtain ⟨hs, hd, hbounds⟩ : s.cfg.setposSplitRead = true ∧ 0 < d ∧ ∀ ch, s.channel? c = some ch → ch.lo ≤ w ∧ w ≤ ch.hi := by
    have hsplit := h.flights f hf
    unfold splitOk at hsplit
    rw [hp] at hsplit
    exact hsplit
  have hpop := pwmOk_pop s.cur h
  unfold resumePwmSplit
  split
  · next ch hc =>
    obtain ⟨hlo, hhi⟩ := hbounds ch hc
    split_ifs with hm
    · exact pwmOk_answer _ _ (pwmOk_setPosTimed hc hlo hhi (unlocked_iff.1 hm)
        (fun hs' => absurd (show s.cfg.setposSplitRead = false from hs') (by simp [hs])) hpop)
    · exact pwmOk_pushSplit _ _ hc hlo hhi hd hs hpop
  · exact pwmOk_answer _ _ hpop

theorem pwmOk_execPwmTick {n : Nat} {t : State} (hn : execPwmTick n s = .next t) (h : pwmOk s) : pwmOk t := by
  unfold execPwmTick at hn
  split_ifs at hn
  split at hn
  · cases hn
  next ch hc =>
  cases hn
  split_ifs with hstep
  swap
  · exact h
  have hm : ch.mutex = .free := unlocked_iff.1 (Bool.and_eq_true _ _ ▸ hstep).1
  obtain ⟨hIdle, hMany, hLast, -⟩ := tickChannel_eq hc hm
  obtain ⟨htgt, hticks, hdev, hline⟩ := h.channels ch (channel?_mem hc)
  have hidle := (wf_ticks h.params).1
  rcases hticks with hrem | ⟨hrem, hmax⟩
  · rw [hIdle (by omega)]
    exact pwmOk_setChannel hc rfl rfl rfl rfl rfl rfl ⟨htgt, .inl hrem, hdev, hline⟩ h
  · rcases hrem.lt_or_eq with hgt | hone
    · rw [hMany hgt]
      refine pwmOk_setChannel hc rfl rfl rfl rfl rfl rfl ⟨htgt, .inr ⟨?_, ?_⟩, hdev, fun _ _ => rfl⟩ h
      · change 1 ≤ ch.rem - 1
        omega
      · change ch.rem - 1 ≤ _
        omega
    · rw [hLast hone.symm]
      refine pwmOk_setChannel hc rfl rfl rfl rfl rfl rfl ⟨htgt, .inl rfl, hdev, fun _ hr => ?_⟩ h
      change 1 ≤ s.cfg.idleTicks at hr
      omega

theorem pwmOk_execPwmSetDeviation {dv : Int} {t : State} (hn : execPwmSetDeviation c dv s = .next t) (h : pwmOk s) :
    pwmOk t := by
  unfold execPwmSetDeviation at hn
  split at hn
  · cases hn
    exact pwmOk_answer _ _ h
  next ch hc =>
  split_ifs at hn with hdev hm <;> cases hn
  · have hm : ch.mutex = .free := unlocked_iff.1 hm
    rw [locked_modify_eq _ hc fun _ => by rw [← hm]]
    obtain ⟨htgt, hticks, -, hline⟩ := h.channels ch (channel?_mem hc)
    exact pwmOk_answer _ _ (pwmOk_setChannel hc rfl rfl rfl rfl rfl rfl ⟨htgt, hticks, hdev, hline⟩ h)
  · exact pwmOk_push _ (by simp) h
  · exact pwmOk_answer _ _ h

theorem pwmOk_execPwmGetDeviation {t : State} (hn : execPwmGetDeviation c s = .next t) (h : pwmOk s) : pwmOk t := by
  unfold execPwmGetDeviation at hn
  split at hn
  · cases hn
    exact pwmOk_answer _ _ h
  next ch hc =>
  split_ifs at hn with hm <;> cases hn
  · rw [acquire_release_eq hc (unlocked_iff.1 hm)]
    exact pwmOk_answer _ _ h
  · exact pwmOk_push _ (by simp) h

end

/-! ## The steps of a job keep R25 -/

section
variable {s : State} {j : Nat} {J : Job}

theorem pwmOk_line {t : State} (hl : Evolves Effect.line s t) (h : pwmOk s) : pwmOk t := by
  obtain ⟨hch, hsq, -, hfl⟩ := hl.line_keeps
  exact pwmOk_congr hl.cfg hch hfl (by rw [hsq]; exact h.jobs) h

theorem pwmOk_setRunning (r : Option Nat) (h : pwmOk s) : pwmOk (s.setRunning r) :=
  pwmOk_congr (s := s) rfl rfl (fun _ hf => .inl hf) h.jobs h

theorem pwmOk_removeJob (i : Nat) (h : pwmOk s) : pwmOk (s.removeJob i) :=
  pwmOk_congr (s := s) rfl rfl (fun _ hf => .inl hf) (fun K hK => h.jobs K (List.mem_of_mem_filter hK)) h

theorem pwmOk_endJob (J : Job) (h : pwmOk s) : pwmOk (endJob J s) := by
  unfold endJob
  split
  · exact pwmOk_removeJob _ (pwmOk_setRunning none h)
  · exact pwmOk_removeJob _ h

theorem pwmOk_finish (o : JobOutcome) (hJ : s.job? j = some J) (h : pwmOk s) : pwmOk ((finishJob J o s).after s) := by
  have hcomplete : pwmOk (s.emit (.complete J.id o)) := pwmOk_congr (s := s) rfl rfl (fun _ hf => .inl hf) h.jobs h
  have hsplit := h.jobs J (job?_mem hJ)
  unfold finishJob
  cases J.ctx with
  | onSched =>
    have hres : pwmOk ((s.emit (.complete J.id o)).resolveHandle J.id o) :=
      pwmOk_congr (s := s.emit (.complete J.id o)) rfl rfl (fun _ hf => .inl hf) h.jobs hcomplete
    dsimp only
    split_ifs
    · exact pwmOk_push _ (by simp) (pwmOk_setJob hsplit hres)
    · exact pwmOk_endJob J hres
  | onCaller a =>
    dsimp only
    split_ifs
    · exact pwmOk_push _ (by simp) (pwmOk_setJob hsplit hcomplete)
    · exact pwmOk_endJob J hcomplete

theorem pwmOk_issue (p : Nat) (hJ : s.job? j = some J) (h : pwmOk s) : pwmOk ((issueJob J p s).after s) := by
  have hsplit := h.jobs J (job?_mem hJ)
  have hm := issueJob_cases J p s
  generalize issueJob J p s = m at hm
  cases hm with
  | finished o => exact pwmOk_finish o hJ h
  | waits => exact h
  | sleeps => exact pwmOk_setJob hsplit (pwmOk_line ((Evolves.refl s).emit (.sleep _ _) trivial) h)
  | sends c f =>
    have hl := (sendFrame_evolves f s).mono (Effect.writes_line f)
    refine pwmOk_setJob ?_ (pwmOk_line hl h)
    rw [hl.cfg]
    exact hsplit
  | jumps c ch hok hm => exact pwmOk_setJob hsplit (pwmOk_setPosImmediate hok hm _ h)
  | reads c ch _ _ _ hs => exact pwmOk_setJob (fun _ => hs) h
  | plans c ch hok hm =>
    obtain ⟨hc, hlo, hhi, -⟩ := pwmCheck_ok hok
    refine pwmOk_setJob (fun hn => absurd hn (by simp)) (pwmOk_setPosTimed hc hlo hhi hm (fun hs => ?_) h)
    cases hJs : J.split with
    | none => rfl
    | some x => exact absurd (hsplit (by simp [hJs])) (by simp [hs])

theorem pwmOk_addJob (sets : List ActionSet) (ctx : Ctx) (cb : Option Nat) (h : pwmOk s) :
    pwmOk (s.addJob sets ctx cb) := by
  refine pwmOk_congr (s := s) rfl rfl (fun _ hf => .inl hf) (fun K hK hKs => ?_) h
  rcases List.mem_append.1 hK with hK | hK
  · exact h.jobs K hK hKs
  · rw [List.mem_singleton.1 hK] at hKs
    cases hKs

end

theorem pwmOk_kept : Kept pwmOk where
  line := pwmOk_line
  setPosition := pwmOk_execPwmSetPosition
  splitRead := pwmOk_resumePwmSplit
  tick := pwmOk_execPwmTick
  setDeviation := pwmOk_execPwmSetDeviation
  getDeviation := pwmOk_execPwmGetDeviation
  issue := pwmOk_issue
  finish := pwmOk_finish
  wake {_ J s} hJ h := pwmOk_setJob (s := s.emit _) (h.jobs J (job?_mem hJ))
    (pwmOk_line ((Evolves.refl s).emit (.wake _) trivial) h)
  suspend J h := by
    unfold suspendJob
    split
    · exact pwmOk_setRunning none h
    · exact h
  ended {_ J _} _ h := pwmOk_endJob J h
  choose _ _ h := pwmOk_setRunning _ h
  addJob := pwmOk_addJob
  startScheduled {s} sets cb h := pwmOk_congr (s := s.addJob sets .onSched cb) rfl rfl (fun _ hf => .inl hf)
    (pwmOk_addJob sets .onSched cb h).jobs (pwmOk_addJob sets .onSched cb h)

end Machine

open Machine

/-- Settles O34: the parts of a step keep the invariants of the channels. -/
theorem channelInvariantKept : Obligations.ChannelInvariantKept := by
  unfold Obligations.ChannelInvariantKept
  exact fun s s' hs hstep => pwmOk_kept.step hstep hs

namespace Machine

/-! ## Controller init -/

/-- The channels after controller init, by number. -/
theorem init_channel? {cfg : Config} {c : Int} {ch : Channel} (h : (State.init cfg).channel? c = some ch) :
    ch = Channel.init cfg c.toNat := by
  obtain ⟨hc, hlt, rfl⟩ := channel?_some h
  have hn : c.toNat - 1 + 1 = c.toNat := by omega
  simp [State.init, hn]

theorem init_channelOk {cfg : Config} (hwf : cfg.wf = true) (n : Nat) : channelOk cfg (Channel.init cfg n) := by
  have hdev : cfg.devOk cfg.devInit = true := by
    simp only [Config.wf, Bool.and_eq_true] at hwf
    exact hwf.1.1.1.1.1.1.1.2
  have hidle := (wf_ticks hwf).1
  refine ⟨.inl rfl, .inl rfl, hdev, fun _ hr => ?_⟩
  change 1 ≤ cfg.idleTicks at hr
  omega

theorem init_mem_channels {cfg : Config} {ch : Channel} (h : ch ∈ (State.init cfg).channels) :
    ∃ n, ch = Channel.init cfg n := by
  obtain ⟨i, -, rfl⟩ := List.mem_map.1 h
  exact ⟨i + 1, rfl⟩

end Machine

/-- Settles O55: the reset values meet each invariant. -/
theorem resetMeetsInvariants : Obligations.ResetMeetsInvariants := by
  unfold Obligations.ResetMeetsInvariants
  intro cfg hwf
  refine ⟨?_, ⟨rfl, rfl⟩, fun ch hch => ?_, ⟨hwf, ?_, fun ch hch => ?_, ?_, ?_⟩, ⟨?_, ?_, ?_, ?_⟩⟩
  · simp [pinsOk, State.init, Transport.init]
  · obtain ⟨n, rfl⟩ := init_mem_channels hch
    rfl
  · simp [State.init]
  · obtain ⟨n, rfl⟩ := init_mem_channels hch
    exact init_channelOk hwf n
  all_goals simp [State.init, Sequencer.init]

/-- Settles O54: the defaults and the reset values, field by field. -/
theorem resetValues : Obligations.ResetValues := by
  unfold Obligations.ResetValues
  refine ⟨rfl, rfl, fun cfg => ⟨rfl, rfl, by simp [State.init], fun c ch h => ?_, rfl, rfl, rfl, rfl, rfl, rfl⟩⟩
  rw [init_channel? h]
  refine ⟨rfl, rfl, rfl, rfl, rfl, rfl, fun hb => ?_, fun lo hi hb => ?_⟩ <;>
    simp [Channel.init, Channel.boundsOf, hb]

end Sys2Proof
end

/-! # The lock discipline, and the isolation of an exchange (R21, R22, R26, R48, R75) -/

section
namespace Sys2Proof
namespace Machine
open Claims

/-! ## Rules for `tlOk` -/

theorem mem_of_topFlight {s : State} {a : Agent} {f : Flight} (h : s.topFlight a = some f) : f ∈ s.flights :=
  List.mem_of_find?_eq_some h

theorem agent_of_topFlight {s : State} {a : Agent} {f : Flight} (h : s.topFlight a = some f) : f.agent = a := by
  simpa using List.find?_some h

/-- With TL free no operation holds it, and the channel is open. -/
theorem tlOk_free {s : State} (hl : s.T.tl = .free) (hfl : s.flights.filter (fun f => f.phase.holdsTL) = [])
    (hopen : s.T.isOpen = true) : tlOk s := by
  unfold tlOk
  rw [hl]
  exact ⟨hfl, hopen⟩

theorem tlOk_of_free {s : State} (hl : s.T.tl = .free) (h : tlOk s) :
    s.flights.filter (fun f => f.phase.holdsTL) = [] ∧ s.T.isOpen = true := by
  unfold tlOk at h
  rwa [hl] at h

/-- The latest operation of an agent that has taken TL holds it alone. -/
theorem tlOk_push {s : State} {a : Agent} {ph : FlightPhase} {r : Rat} {fs : List Flight} (hl : s.T.tl = .held a)
    (hfl : s.flights = { agent := a, phase := ph, readyAt := r } :: fs) (hph : ph.holdsTL = true)
    (hfs : fs.filter (fun f => f.phase.holdsTL) = []) (hopen : s.T.isOpen = false ↔ ph.lineShut = true) : tlOk s := by
  unfold tlOk
  rw [hl]
  refine ⟨{ agent := a, phase := ph, readyAt := r }, ?_, rfl, ?_, hopen⟩
  · rw [hfl, List.filter_cons_of_pos (by exact hph), hfs]
  · rw [State.topFlight, hfl, List.find?_cons_of_pos (by simp)]

/-- An operation of `s` that holds TL is the latest one of the agent that has TL. -/
theorem tlOk_holder {s : State} {f : Flight} (h : tlOk s) (hf : f ∈ s.flights) (hph : f.phase.holdsTL = true) :
    s.T.tl = .held f.agent ∧ s.flights.filter (fun f => f.phase.holdsTL) = [f] ∧ s.topFlight f.agent = some f
      ∧ (s.T.isOpen = false ↔ f.phase.lineShut = true) := by
  have hmem : f ∈ s.flights.filter (fun f => f.phase.holdsTL) := List.mem_filter.2 ⟨hf, hph⟩
  unfold tlOk at h
  split at h
  · rw [h.1] at hmem
    cases hmem
  · next a hl =>
    obtain ⟨g, hg, rfl, htop, hopen⟩ := h
    rw [hg] at hmem
    cases List.mem_singleton.1 hmem
    exact ⟨hl, hg, htop, hopen⟩

/-- An agent whose latest operation does not hold TL has no operation that does. -/
theorem noTL_of_top {s : State} {a : Agent} (h : tlOk s) (htop : ∀ f, s.topFlight a = some f → f.phase.holdsTL = false) :
    NoTL { s with cur := a } := by
  intro f hf hagent
  by_contra hph
  obtain ⟨-, -, htopf, -⟩ := tlOk_holder h hf (Bool.not_eq_false _ ▸ hph)
  exact hph (htop f (by rw [← htopf]; exact congrArg s.topFlight hagent.symm))

/-- An onComplete body holds no TL. -/
theorem holdsTL_of_isCallback {ph : FlightPhase} (h : ph.isCallback = true) : ph.holdsTL = false := by
  cases ph
  case callback => rfl
  all_goals cases h

/-- An agent that stands in an operation issues another only in an onComplete body. -/
theorem isCallback_of_mayIssue {s : State} {a : Agent} {f : Flight} (hf : s.topFlight a = some f)
    (hm : mayIssue a s = true) : f.phase.isCallback = true := by
  unfold mayIssue at hm
  rw [hf] at hm
  cases a
  case tick => cases hm
  all_goals exact hm

theorem noTL_of_mayIssue {s : State} {a : Agent} (h : tlOk s) (hm : mayIssue a s = true) : NoTL { s with cur := a } :=
  noTL_of_top h fun _ hf => holdsTL_of_isCallback (isCallback_of_mayIssue hf hm)

/-- The discipline of locks, as a property of states. -/
def LocksOk (s : State) : Prop := tlOk s ∧ mutexesFree s

/-- What stays away from TL keeps the discipline. -/
theorem LocksOk.stay {s t : State} (h : LocksOk s) (hn : NoTL s) (hst : Stays s t) : LocksOk t := by
  obtain ⟨htl, hm⟩ := h
  obtain ⟨-, -, hl, hop, htop, hfilt, hmf⟩ := hst hn
  refine ⟨?_, hmf hm⟩
  cases hls : s.T.tl with
  | free =>
    obtain ⟨hfl, hopen⟩ := tlOk_of_free hls htl
    exact tlOk_free (hl.trans hls) (hfilt.trans hfl) (hop.trans hopen)
  | held a =>
    unfold tlOk at htl ⊢
    rw [hls] at htl
    rw [hl, hls]
    obtain ⟨f, hf, ha, hft, hopen⟩ := htl
    have hfmem := List.mem_filter.1 (hf ▸ List.mem_singleton_self f)
    have hne : a ≠ s.cur := fun he => absurd hfmem.2 (by simp [hn f hfmem.1 (ha.trans he)])
    exact ⟨f, hfilt.trans hf, ha, (htop a hne).trans hft, hop ▸ hopen⟩

theorem LocksOk.become {s : State} (a : Agent) (h : LocksOk s) : LocksOk { s with cur := a } := h

/-! ## Operations run to their end give TL and the mutexes back -/

section
variable {s t : State}

/-- LINE_RESET takes TL, and leaves it free and the channel open. -/
theorem LocksOk.lineReset (hs : LocksOk s) (h : execLineReset s = .next t) (hn : NoTL s) : LocksOk t := by
  unfold execLineReset performLineReset at h
  split_ifs at h with hl <;> cases h
  · obtain ⟨hfl, -⟩ := tlOk_of_free (tlFree_iff.1 hl) hs.1
    refine ⟨tlOk_free rfl ?_ ?_, ?_⟩
    · simpa [lineReopen, lineClose, State.uartClose, State.uartOpen, State.setDirection, State.pinWrite, State.wait] using hfl
    · simp [lineReopen, lineClose, State.uartClose, State.uartOpen, State.setDirection, State.pinWrite, State.wait]
    · have hm := hs.2
      unfold mutexesFree at hm ⊢
      simpa [lineReopen, lineClose, State.uartClose, State.uartOpen, State.setDirection, State.pinWrite, State.wait] using hm
  · exact hs.stay hn (stay_block _)

theorem stay_busReset {id : Int} (h : execBusReset id s = .next t) : Stays s t := by
  unfold execBusReset at h
  rcases hf : resetFirst id s with ⟨u, v⟩ | ⟨u, e⟩ | _ <;> rw [hf] at h
  · obtain ⟨f, -, hl, rfl, -⟩ := performWrite_done hf
    have hdelay : Stays s ((resetDelay (sendFrame f s)).elapse (sendFrame f s).cfg.tClientReset) :=
      ((stay_send hl).emit _).elapse _
    obtain ⟨u, v, hp, rfl⟩ | ⟨u, e, hp, rfl⟩ | ⟨-, rfl⟩ := conclude_cases h
    · obtain ⟨g, -, hl', rfl, -⟩ := performWrite_done hp
      exact (hdelay.trans (stay_send hl')).emit _
    · obtain ⟨-, rfl⟩ := performWrite_raised hp
      exact hdelay.emit _
    · exact stay_block _
  · obtain ⟨-, rfl⟩ := performWrite_raised hf
    cases h
    exact (Stays.refl _).emit _
  · cases h
    exact stay_block _

theorem stay_setPosition {c w d : Int} (h : execPwmSetPosition c w d s = .next t) : Stays s t := by
  unfold execPwmSetPosition at h
  split at h
  · cases h
    exact (Stays.refl s).emit _
  · split_ifs at h <;> cases h
    · exact (stay_imm _ _ _).emit _
    · exact (Stays.refl s).push rfl
    · exact (stay_timed _ _ _ _).emit _
    · exact stay_block _

theorem stay_resumeSplit (c w d : Int) (c0 : Rat) : Stays s (resumePwmSplit c w d c0 s) := by
  unfold resumePwmSplit
  split
  · split_ifs
    · exact (stay_timed _ _ _ _).emit _
    · exact (Stays.refl s).push rfl
  · exact (Stays.refl s).emit _

theorem stay_pwmTick {c : Nat} (h : execPwmTick c s = .next t) : Stays s t := by
  unfold execPwmTick at h
  split_ifs at h
  split at h <;> cases h
  split_ifs
  · exact stay_tick _ _
  · exact .refl s

theorem stay_setDeviation {c dv : Int} (h : execPwmSetDeviation c dv s = .next t) : Stays s t := by
  unfold execPwmSetDeviation State.acquireCL State.releaseCL at h
  simp only [modifyChannel_twice] at h
  split at h
  · cases h
    exact (Stays.refl s).emit _
  · split_ifs at h <;> cases h
    · exact (stay_mod _ _ fun _ _ => rfl).emit _
    · exact stay_block _
    · exact (Stays.refl s).emit _

theorem stay_getDeviation {c : Int} (h : execPwmGetDeviation c s = .next t) : Stays s t := by
  unfold execPwmGetDeviation State.acquireCL State.releaseCL at h
  simp only [modifyChannel_twice] at h
  split at h
  · cases h
    exact (Stays.refl s).emit _
  · split_ifs at h <;> cases h
    · exact (stay_mod _ _ fun _ _ => rfl).emit _
    · exact stay_block _

theorem stay_storeRead (path : Path) : Stays s (s.storeRead path).2 := by
  obtain ⟨l, d, e, h, -⟩ := storeRead_parts s path
  rw [h]
  exact .same rfl rfl rfl rfl id

theorem stay_seqLoad {path : Path} {reps : Int} {locks : List (Int × Int)} (h : execSeqLoad path reps locks s = .next t) :
    Stays s t := by
  unfold execSeqLoad at h
  obtain ⟨e, he⟩ | ⟨e, he⟩ | ⟨a, he⟩ := performLoad_cases (s := s) (path := path) (reps := reps) (locks := locks) <;>
    rw [he] at h <;> cases h
  · exact (Stays.refl s).emit _
  · exact (stay_storeRead path).emit _
  · exact (stay_storeRead path).emit _

theorem stay_loadAll (reqs : List (Path × Int × List (Int × Int))) : Stays s (loadAll reqs s).1 := by
  induction reqs generalizing s with
  | nil => exact .refl s
  | cons q rest ih =>
    obtain ⟨path, reps, locks⟩ := q
    obtain ⟨e, he⟩ | ⟨e, he⟩ | ⟨a, he⟩ := performLoad_cases (s := s) (path := path) (reps := reps) (locks := locks) <;>
      simp only [loadAll, he]
    · exact (Stays.refl s).emit _
    · exact (stay_storeRead path).emit _
    · exact ((stay_storeRead path).emit _).trans ih

theorem stay_seqPlay {sets : List ActionSet} {bl : Bool} {cb : Option Nat} (h : execSeqPlay sets bl cb s = .next t) :
    Stays s t := by
  unfold execSeqPlay at h
  split_ifs at h <;> cases h
  · exact (stay_start sets cb).trans (stay_run _ _)
  · exact .same rfl rfl rfl rfl id

theorem stay_seqPlayPaths {reqs : List (Path × Int × List (Int × Int))} {bl : Bool} {cb : Option Nat}
    (h : seqPlayPaths reqs bl cb s = .next t) : Stays s t := by
  unfold seqPlayPaths at h
  dsimp only at h
  split at h
  · exact (stay_loadAll reqs).trans (stay_seqPlay h)
  · cases h
    exact stay_loadAll reqs

/-- The instructions that stay away from TL whatever state they are issued in: all but LINE_RESET, which opens the
channel. -/
theorem exec_stays {i : Instr} (hi : i ≠ .lineReset) (h : exec i s = .next t) : Stays s t := by
  cases i
  case lineReset => exact absurd rfl hi
  case encode => cases h; split <;> exact (Stays.refl s).emit _
  case decode => cases h; exact (Stays.refl s).emit _
  case busReset => exact stay_busReset h
  case pwmSetPosition => exact stay_setPosition h
  case pwmTick => exact stay_pwmTick h
  case pwmSetDeviation => exact stay_setDeviation h
  case pwmGetDeviation => exact stay_getDeviation h
  case seqLoad => exact stay_seqLoad h
  case seqPlay => exact stay_seqPlay h
  case seqIssue =>
    obtain ⟨J, -, -, hs⟩ := internalStep_next h
    split at hs <;> cases hs
    exact stay_issue J _
  case seqSleep =>
    obtain ⟨J, -, -, hs⟩ := internalStep_next h
    split at hs <;> cases hs
    exact stay_suspend J (.refl s)
  case seqWake =>
    obtain ⟨J, -, -, hs⟩ := internalStep_next h
    split at hs <;> cases hs
    split
    · exact stay_wake J
    · exact .refl s
  case seqFinish =>
    obtain ⟨J, -, -, hs⟩ := internalStep_next h
    split at hs <;> cases hs
    exact stay_finish J _
  case tread | moveTimeRead | idRead | angleOffsetRead | angleLimitRead | vinLimitRead | tempMaxLimitRead | tempRead
      | vinRead | posRead | loadOrUnloadRead | busGetId | busGetDeviation | busGetAngleLimit | busGetVinLimit
      | busGetTempLimit | busGetPosition | busGetTemp | busGetVin | busGetLoadState => exact stay_read h
  all_goals exact stay_write h

theorem LocksOk.exec {i : Instr} (hs : LocksOk s) (hn : NoTL s) (h : exec i s = .next t) : LocksOk t := by
  by_cases hi : i = .lineReset
  · subst hi
    exact hs.lineReset h hn
  · exact hs.stay hn (exec_stays hi h)

/-! ## Operations that stop with TL held -/

theorem LocksOk.beginRead {op : HostOp} {i : Instr} {id cmd b : Int} {ps : List Int} (hs : LocksOk s) (hn : NoTL s)
    (h : beginRead op i id cmd ps b s = .next t) : LocksOk t := by
  unfold Machine.beginRead at h
  split at h
  · cases h
    exact hs.stay hn ((Stays.refl s).emit _)
  next req _ =>
  split_ifs at h with hb hl
  · cases h
    exact hs.stay hn ((Stays.refl s).emit _)
  · have hl := tlFree_iff.1 hl
    obtain ⟨hfl, hopen⟩ := tlOk_of_free hl hs.1
    split at h <;> cases h
    · exact hs.stay hn ((stay_cycle hl (.refl _)).emit _)
    · next n _ =>
      obtain ⟨hcur, htl, hop, hfl', hch⟩ := lineOnly_send s.acquireTL req
      have hcur : (attemptSend req s.acquireTL).cur = s.cur := hcur
      have hop : (attemptSend req s.acquireTL).T.isOpen = s.T.isOpen := hop
      refine ⟨tlOk_push htl (by rw [State.pushFlight, hcur, hfl']; rfl) rfl hfl ?_, ?_⟩
      · simp [State.pushFlight, FlightPhase.lineShut, hop, hopen]
      · exact fun ch hc => hs.2 ch (hch ▸ hc)
  · cases h
    exact hs.stay hn (stay_block _)

theorem LocksOk.beginLineReset (hs : LocksOk s) (hn : NoTL s) (h : beginLineReset s = .next t) : LocksOk t := by
  unfold Machine.beginLineReset at h
  split_ifs at h with hl <;> cases h
  · obtain ⟨hfl, -⟩ := tlOk_of_free (tlFree_iff.1 hl) hs.1
    exact ⟨tlOk_push (a := s.cur) rfl rfl rfl hfl (by simp [FlightPhase.lineShut]; rfl), hs.2⟩
  · exact hs.stay hn (stay_block _)

theorem stay_beginBusReset {id : Int} (h : beginBusReset id s = .next t) : Stays s t := by
  unfold beginBusReset at h
  rcases hf : resetFirst id s with ⟨u, v⟩ | ⟨u, e⟩ | _ <;> rw [hf] at h <;> cases h
  · obtain ⟨f, -, hl, rfl, -⟩ := performWrite_done hf
    exact (stay_send hl).push rfl
  · obtain ⟨-, rfl⟩ := performWrite_raised hf
    exact (Stays.refl _).emit _
  · exact stay_block _

theorem LocksOk.begin {i : Instr} (hs : LocksOk s) (hn : NoTL s) (h : begin i s = .next t) : LocksOk t := by
  unfold Machine.begin at h
  split at h
  · exact hs.beginRead hn h
  · split at h
    · exact hs.beginLineReset hn h
    · exact hs.stay hn (stay_beginBusReset h)
    · cases h
      exact hs.stay hn (stay_start _ _)
    · exact hs.exec hn h

/-! ## Going on inside an exchange or a line reset -/

/-- The state in which the agent that has TL goes on, its operation taken out of the flights: no operation holds TL. -/
structure Inside (a : Agent) (shut : Bool) (s : State) : Prop where
  cur : s.cur = a
  tl : s.T.tl = .held a
  alone : s.flights.filter (fun f => f.phase.holdsTL) = []
  isOpen : s.T.isOpen = !shut
  mutexes : mutexesFree s

theorem filter_pop {a : Agent} {f : Flight} (htop : s.topFlight a = some f)
    (hfl : s.flights.filter (fun f => f.phase.holdsTL) = [f]) (hph : f.phase.holdsTL = true) :
    (s.popFlight a).flights.filter (fun f => f.phase.holdsTL) = [] := by
  unfold State.topFlight at htop
  simp only [State.popFlight]
  generalize s.flights = l at htop hfl
  induction l with
  | nil => cases htop
  | cons g l ih =>
    by_cases hg : (g.agent == a) = true
    · rw [List.find?_cons_of_pos (by exact hg)] at htop
      cases htop
      rw [List.filter_cons_of_pos (by exact hph)] at hfl
      rw [List.eraseP_cons_of_pos (by exact hg)]
      exact (List.cons.inj hfl).2
    · rw [List.find?_cons_of_neg (by exact hg)] at htop
      rw [List.eraseP_cons_of_neg (by exact hg)]
      by_cases hgp : g.phase.holdsTL = true
      · rw [List.filter_cons_of_pos (by exact hgp)] at hfl
        obtain ⟨rfl, -⟩ := List.cons.inj hfl
        exact absurd (by simpa using List.find?_some htop) hg
      · rw [List.filter_cons_of_neg (by exact hgp)] at hfl ⊢
        exact ih htop hfl

theorem LocksOk.inside {a : Agent} {f : Flight} (hs : LocksOk s) (htop : s.topFlight a = some f)
    (hph : f.phase.holdsTL = true) : Inside a f.phase.lineShut (({ s with cur := a } : State).popFlight a) := by
  obtain ⟨hl, hfl, -, hopen⟩ := tlOk_holder hs.1 (mem_of_topFlight htop) hph
  rw [agent_of_topFlight htop] at hl
  refine ⟨rfl, hl, filter_pop (s := { s with cur := a }) htop hfl hph, ?_, hs.2⟩
  change s.T.isOpen = _
  cases hshut : f.phase.lineShut
  · simpa [hshut] using hopen
  · exact hopen.2 hshut

theorem Inside.lineOnly {a : Agent} {shut : Bool} (h : Inside a shut s) (hl : LineOnly s t) : Inside a shut t :=
  ⟨hl.cur.trans h.cur, hl.tl.trans h.tl, by rw [hl.fl]; exact h.alone, hl.op.trans h.isOpen,
    fun ch hc => h.mutexes ch (hl.ch ▸ hc)⟩

/-- It stops again, TL held. -/
theorem Inside.push {a : Agent} {ph : FlightPhase} (h : Inside a ph.lineShut s) (hph : ph.holdsTL = true) (r : Rat) :
    LocksOk (s.pushFlight ph r) := by
  refine ⟨tlOk_push (a := a) h.tl (by rw [State.pushFlight, h.cur]) hph h.alone ?_, h.mutexes⟩
  rw [State.pushFlight_line, h.isOpen]
  simp

/-- It ends, and TL is free. -/
theorem Inside.release {a : Agent} (h : Inside a false s) (op : HostOp) (v : Result) :
    LocksOk (s.releaseTL.answer op v) := ⟨tlOk_free rfl h.alone h.isOpen, h.mutexes⟩

theorem Inside.resumeInspect {a : Agent} (h : Inside a false s) (x : Exchange) : LocksOk (resumeInspect x s) := by
  have hl := h.lineOnly (lineOnly_inspect s x.cmd)
  unfold Machine.resumeInspect
  rcases he : attemptInspect x.cmd s with ⟨u, _ | v⟩ <;> rw [he] at hl
  · dsimp only
    split
    · exact hl.release _ _
    · exact (hl.lineOnly (lineOnly_send u x.req)).push (ph := .readReq _) rfl _
  · exact hl.release _ _

theorem Inside.resumeLineClosed {a : Agent} (h : Inside a true s) : LocksOk (resumeLineClosed s) := by
  have hopened : Inside a false s.uartOpen := ⟨h.cur, h.tl, h.alone, rfl, h.mutexes⟩
  have hreopened : Inside a false (lineReopen s) :=
    hopened.lineOnly ((lineOnly_turn _ .tx).trans (lineOnly_emit _ _))
  exact hreopened.push (ph := .lineOpened) rfl _

/-! ## Every move keeps the discipline -/

theorem stay_resumeResetWaited (id : Int) : Stays s (resumeResetWaited id s) := by
  unfold resumeResetWaited
  rcases hf : resetSecond id s with ⟨u, v⟩ | ⟨u, e⟩ | _
  · obtain ⟨f, -, hl, rfl, -⟩ := performWrite_done hf
    exact (stay_send hl).emit _
  · obtain ⟨-, rfl⟩ := performWrite_raised hf
    exact (Stays.refl _).emit _
  · exact (Stays.refl s).push rfl

theorem stay_resumePlaying (j : Nat) : Stays s (resumePlaying j s) := by
  unfold resumePlaying
  split
  · exact .refl s
  next J _ =>
  split
  · split
    · exact stay_wake J
    · exact .refl s
  · exact .refl s
  · have hp := stay_playStep (s := s) j
    rcases hm : playStep j s with t | t | t <;> rw [hm] at hp <;> exact hp

theorem stay_resumeCallback (j : Nat) (o : JobOutcome) : Stays s (resumeCallback j o s) := by
  unfold resumeCallback
  split
  · exact .refl s
  next J _ =>
  have hend := stay_endJob J (Stays.refl s)
  have hcur : (endJob J s).cur = s.cur := by unfold endJob; split <;> rfl
  split
  · exact hend
  · rw [← hcur]
    exact hend.pop.emit _

/-- An agent goes on: inside TL by the rules of `Inside`, elsewhere away from TL. -/
theorem LocksOk.resumePhase {a : Agent} {f : Flight} (hs : LocksOk s) (htop : s.topFlight a = some f)
    (h : resumePhase f.phase { s with cur := a } = .next t) : LocksOk t := by
  by_cases hph : f.phase.holdsTL = true
  · have hin := hs.inside htop hph
    rcases hp : f.phase with i | x | x | _ | _ | id | id | ⟨c, w, d, c0⟩ | j | ⟨j, o⟩ <;> rw [hp] at h hph hin
    case readReq => cases h; exact (hin.lineOnly (lineOnly_aturn _)).push (ph := .readSettle x) rfl _
    case readSettle => cases h; exact hin.resumeInspect x
    case lineClosed => cases h; exact hin.resumeLineClosed
    case lineOpened => cases h; exact hin.release _ _
    all_goals cases hph
  · have hn : NoTL { s with cur := a } := noTL_of_top hs.1 fun g hg => by
      cases htop.symm.trans hg
      exact Bool.not_eq_true _ ▸ hph
    have hpop : Stays { s with cur := a } (({ s with cur := a } : State).popFlight a) := (Stays.refl _).pop
    have hs' := (hs.become a).stay hn hpop
    have hn' := (hpop hn).n
    rcases hp : f.phase with i | x | x | _ | _ | id | id | ⟨c, w, d, c0⟩ | j | ⟨j, o⟩ <;> rw [hp] at h hph
    case waiting => exact hs'.begin hn' h
    case resetWrote => cases h; exact hs'.stay hn' (((Stays.refl _).emit _).push rfl)
    case resetWaited => cases h; exact hs'.stay hn' (stay_resumeResetWaited id)
    case pwmSplit => cases h; exact hs'.stay hn' (stay_resumeSplit c w d c0)
    case playing => cases h; exact (hs.become a).stay hn (stay_resumePlaying j)
    case callback => cases h; exact hs'.stay hn' (stay_resumeCallback j o)
    all_goals exact absurd rfl hph

theorem LocksOk.resumeAgent {a : Agent} (hs : LocksOk s) (h : resumeAgent a s = .next t) : LocksOk t := by
  unfold Machine.resumeAgent at h
  split at h
  · cases h
  next f hf =>
  split at h
  · exact hs.resumePhase hf h
  · cases h
    exact hs

theorem stay_schedStep {j : Nat} (h : schedStep j s = .next t) : Stays s t := by
  unfold schedStep at h
  split at h
  · cases h
  next J _ =>
  split at h
  · cases h
    unfold settle
    split
    · exact stay_issue J _
    · split
      · exact stay_suspend _ (stay_issue J _)
      · exact stay_issue J _
      · exact stay_issue J _
  · cases h
    split
    · exact stay_wake J
    · exact .refl s
  · cases h

/-- A step of SCHED, which stands in no operation, stays away from TL. -/
theorem LocksOk.schedMove {j : Nat} (hs : LocksOk s) (h : schedMove j s = .next t) : LocksOk t := by
  unfold Machine.schedMove at h
  split at h
  · cases h
    exact hs
  split at h
  · cases h
  next htop =>
  have hn : NoTL { s with cur := .sched } := noTL_of_top hs.1 fun f hf => by cases htop.symm.trans hf
  split at h
  · exact (hs.become .sched).stay hn (stay_schedStep h)
  split at h
  · cases h
  split at h
  · cases h
  split at h
  · exact (hs.become .sched).stay hn
      ((Stays.same (s := { s with cur := .sched }) (t := State.setRunning (some j) { s with cur := .sched }) rfl rfl rfl rfl
        id).trans (stay_schedStep h))
  · cases h
    exact hs

theorem LocksOk.runMove {m : Move} (hs : LocksOk s) (h : runMove m s = .next t) : LocksOk t := by
  cases m with
  | call a i =>
    obtain ⟨-, hm, h⟩ := issueBy_next h
    exact (hs.become a).exec (noTL_of_mayIssue hs.1 hm) h
  | begin a i =>
    obtain ⟨-, hm, h⟩ := issueBy_next h
    exact (hs.become a).begin (noTL_of_mayIssue hs.1 hm) h
  | frame a bytes =>
    simp only [Machine.runMove] at h
    split at h
    · obtain ⟨-, hm, h⟩ := issueBy_next h
      exact (hs.become a).exec (noTL_of_mayIssue hs.1 hm) h
    · cases h
  | resume a => exact hs.resumeAgent h
  | tick c =>
    obtain ⟨htop, h⟩ := timerMove_next h
    exact (hs.become (.tick c)).exec (noTL_of_top hs.1 fun f hf => by cases htop.symm.trans hf) h
  | sched j => exact hs.schedMove h
  | pass us =>
    cases h
    unfold passTime
    split <;> exact hs
  | request a r => cases h
  | playPaths a reqs bl cb =>
    simp only [Machine.runMove] at h
    split at h
    · next hm => exact (hs.become a).stay (noTL_of_mayIssue hs.1 hm) (stay_seqPlayPaths h)
    · cases h

theorem LocksOk.nextMove (hs : LocksOk s) : LocksOk (nextMove s).2 := by
  unfold Machine.nextMove
  split <;> exact hs

end
end Machine

open Machine

/-- Settles O23: every move keeps the discipline, and taking the move off the script touches no lock. -/
theorem lockInvariantKept : Obligations.LockInvariantKept := by
  unfold Obligations.LockInvariantKept
  intro s s' htl hm hstep
  exact LocksOk.runMove (LocksOk.nextMove ⟨htl, hm⟩) hstep

end Sys2Proof
end

/-! # While TL is held, every other move is quiet (R75, R147) -/

section
namespace Sys2Proof
namespace Machine
open Claims

section
variable {s t : State} {a : Agent}

theorem answer_quiet (op : HostOp) (v : Result) (s : State) : Evolves Effect.quiet s (s.answer op v) :=
  (Evolves.refl s).emit _ rfl

theorem push_quiet (ph : FlightPhase) (r : Rat) (s : State) : Evolves Effect.quiet s (s.pushFlight ph r) :=
  (Evolves.refl s).push _ _ trivial

theorem performWrite_quiet {op : HostOp} {i : Instr} {id cmd : Int} {ps : List Int} (hl : s.T.tl = .held a)
    (h : (performWrite id cmd ps s).conclude op i s = .next t) : Evolves Effect.quiet s t := by
  cases he : encodeFrame s.cfg id cmd ps with
  | error e => rw [performWrite_error he] at h; cases h; exact answer_quiet _ _ s
  | ok f => rw [performWrite_held he hl] at h; cases h; exact push_quiet _ _ s

theorem performRead_quiet {op : HostOp} {i : Instr} {id cmd b : Int} {ps : List Int} (hl : s.T.tl = .held a)
    (h : (performRead id cmd ps b s).conclude op i s = .next t) : Evolves Effect.quiet s t := by
  cases he : encodeFrame s.cfg id cmd ps with
  | error e => rw [performRead_error b he] at h; cases h; exact answer_quiet _ _ s
  | ok f =>
    rcases lt_or_ge b 0 with hb | hb
    · rw [performRead_budget he hb] at h; cases h; exact answer_quiet _ _ s
    · rw [performRead_held he hb hl] at h; cases h; exact push_quiet _ _ s

theorem execLineReset_quiet (hl : s.T.tl = .held a) (h : execLineReset s = .next t) : Evolves Effect.quiet s t := by
  unfold execLineReset performLineReset at h
  rw [tlFree_eq_false hl] at h
  cases h
  exact push_quiet _ _ s

theorem execBusReset_quiet {id : Int} (hl : s.T.tl = .held a) (h : execBusReset id s = .next t) :
    Evolves Effect.quiet s t := by
  unfold execBusReset at h
  rcases hf : resetFirst id s with ⟨u, v⟩ | ⟨u, e⟩ | _ <;> rw [hf] at h
  · obtain ⟨f, -, hfree, -⟩ := performWrite_done hf
    cases hfree.symm.trans hl
  · obtain ⟨-, rfl⟩ := performWrite_raised hf
    cases h
    exact answer_quiet _ _ _
  · cases h
    exact push_quiet _ _ s

/-- The step of a job whose command finds TL held sends nothing. -/
theorem issueJob_quiet (hl : s.T.tl = .held a) (J : Job) (p : Nat) : Evolves Effect.quiet s ((issueJob J p s).after s) := by
  have hm := issueJob_cases J p s
  generalize issueJob J p s = m at hm
  cases hm with
  | finished o => exact finishJob_quiet J o
  | waits => exact .refl s
  | sleeps => exact ((Evolves.refl (P := Effect.quiet) s).emit (.sleep _ _) rfl).setJob _ trivial
  | sends _ _ _ hfree => cases hfree.symm.trans hl
  | jumps => exact (setPosImmediate_quiet _ _ _).setJob _ trivial
  | reads => exact (Evolves.refl s).setJob _ trivial
  | plans => exact (setPosTimed_quiet _ _ _ _).setJob _ trivial

theorem playStep_quiet (hl : s.T.tl = .held a) (j : Nat) : Evolves Effect.quiet s (playStep j s).state := by
  unfold playStep
  split
  · exact .refl s
  next J _ =>
  split
  · next p _ =>
    have h := issueJob_quiet hl J p
    rcases hm : issueJob J p s with t | ⟨t, o⟩ | t | _ <;> rw [hm] at h
    · exact h
    · exact (h.pop _ trivial).emit _ rfl
    · exact h
    · exact .refl s
  · exact wakeJob_quiet J
  · exact .refl s

theorem Evolves.held {t : State} (h : Evolves Effect.quiet s t) (hl : s.T.tl = .held a) : t.T.tl = .held a := by
  rw [h.quiet_keeps.1, hl]

theorem runBlocking_quiet (hl : s.T.tl = .held a) (j n : Nat) : Evolves Effect.quiet s (runBlocking j n s) := by
  induction n generalizing s with
  | zero => exact .refl s
  | succ n ih =>
    have hsleep := sleepThrough_quiet (s := s) j
    have h := hsleep.trans (playStep_quiet (hsleep.held hl) j)
    unfold runBlocking
    rcases hm : playStep j (sleepThrough j s) with t | t | t <;> rw [hm] at h
    · exact h.trans (ih (h.held hl))
    · exact h
    · exact h

theorem execSeqPlay_quiet {sets : List ActionSet} {bl : Bool} {cb : Option Nat} (hl : s.T.tl = .held a)
    (h : execSeqPlay sets bl cb s = .next t) : Evolves Effect.quiet s t := by
  unfold execSeqPlay at h
  split_ifs at h <;> cases h
  · exact (startBlocking_quiet sets cb).trans (runBlocking_quiet ((startBlocking_quiet sets cb).held hl) _ _)
  · exact (Evolves.step (.addHandle _) (Evolves.one (.addJob sets .onSched cb) trivial) trivial).emit _ rfl

/-- Whatever is issued while TL is held is quiet: an operation that needs TL ends with an error or waits. -/
theorem exec_quiet_of_held {i : Instr} (hl : s.T.tl = .held a) (h : exec i s = .next t) : Evolves Effect.quiet s t := by
  cases i
  case lineReset => exact execLineReset_quiet hl h
  case encode => cases h; split <;> exact answer_quiet _ _ s
  case decode => cases h; exact answer_quiet _ _ s
  case busReset => exact execBusReset_quiet hl h
  case pwmSetPosition => exact execPwmSetPosition_quiet h
  case pwmTick => exact execPwmTick_quiet h
  case pwmSetDeviation => exact execPwmSetDeviation_quiet h
  case pwmGetDeviation => exact execPwmGetDeviation_quiet h
  case seqLoad => exact execSeqLoad_quiet h
  case seqPlay => exact execSeqPlay_quiet hl h
  case seqIssue =>
    obtain ⟨J, -, -, hs⟩ := internalStep_next h
    split at hs <;> cases hs
    exact issueJob_quiet hl J _
  case seqSleep => exact execSeqSleep_quiet h
  case seqWake => exact execSeqWake_quiet h
  case seqFinish => exact execSeqFinish_quiet h
  case tread | moveTimeRead | idRead | angleOffsetRead | angleLimitRead | vinLimitRead | tempMaxLimitRead | tempRead
      | vinRead | posRead | loadOrUnloadRead | busGetId | busGetDeviation | busGetAngleLimit | busGetVinLimit
      | busGetTempLimit | busGetPosition | busGetTemp | busGetVin | busGetLoadState => exact performRead_quiet hl h
  all_goals exact performWrite_quiet hl h

/-- While TL is held an operation that would stop at a wait does not get there: begun is as called. -/
theorem begin_quiet_of_held {i : Instr} (hl : s.T.tl = .held a) (h : begin i s = .next t) : Evolves Effect.quiet s t := by
  have hf := tlFree_eq_false hl
  unfold begin at h
  split at h
  · unfold beginRead at h
    simp only [hf, Bool.false_eq_true, if_false] at h
    split at h
    · cases h
      exact answer_quiet _ _ s
    · split_ifs at h <;> cases h
      · exact answer_quiet _ _ s
      · exact push_quiet _ _ s
  · split at h
    · unfold beginLineReset at h
      rw [hf] at h
      cases h
      exact push_quiet _ _ s
    · unfold beginBusReset at h
      rcases hr : resetFirst _ s with ⟨u, v⟩ | ⟨u, e⟩ | _ <;> rw [hr] at h <;> cases h
      · obtain ⟨f, -, hfree, -⟩ := performWrite_done hr
        cases hfree.symm.trans hl
      · obtain ⟨-, rfl⟩ := performWrite_raised hr
        exact answer_quiet _ _ _
      · exact push_quiet _ _ s
    · cases h
      exact startBlocking_quiet _ _
    · exact exec_quiet_of_held hl h

theorem resumeResetWaited_quiet (hl : s.T.tl = .held a) (id : Int) : Evolves Effect.quiet s (resumeResetWaited id s) := by
  unfold resumeResetWaited
  rcases hr : resetSecond id s with ⟨u, v⟩ | ⟨u, e⟩ | _
  · obtain ⟨f, -, hfree, -⟩ := performWrite_done hr
    cases hfree.symm.trans hl
  · obtain ⟨-, rfl⟩ := performWrite_raised hr
    exact answer_quiet _ _ _
  · exact push_quiet _ _ s

theorem resumePlaying_quiet (hl : s.T.tl = .held a) (j : Nat) : Evolves Effect.quiet s (resumePlaying j s) := by
  unfold resumePlaying
  split
  · exact .refl s
  next J _ =>
  split
  · split
    · exact wakeJob_quiet J
    · exact .refl s
  · exact .refl s
  · have h := playStep_quiet hl j
    rcases hm : playStep j s with t | t | t <;> rw [hm] at h <;> exact h

/-- An agent outside the exchange goes on without touching the line. -/
theorem resumePhase_quiet {ph : FlightPhase} (hl : s.T.tl = .held a) (hph : ph.holdsTL = false)
    (h : resumePhase ph s = .next t) : Evolves Effect.quiet s t := by
  have h0 : Evolves Effect.quiet s (s.popFlight s.cur) := (Evolves.refl s).pop _ trivial
  have hl0 := h0.held hl
  cases ph with
  | waiting i => exact h0.trans (begin_quiet_of_held hl0 h)
  | readReq _ | readSettle _ | lineClosed | lineOpened => cases hph
  | resetWrote id => cases h; exact (h0.emit (.wait _ _) rfl).push _ _ trivial
  | resetWaited id => cases h; exact h0.trans (resumeResetWaited_quiet hl0 id)
  | pwmSplit c w d c0 => cases h; exact h0.trans (resumePwmSplit_quiet c w d c0)
  | playing j => cases h; exact resumePlaying_quiet hl j
  | callback j o => cases h; exact h0.trans (resumeCallback_quiet j o)

theorem schedStep_quiet (hl : s.T.tl = .held a) {j : Nat} (h : schedStep j s = .next t) : Evolves Effect.quiet s t := by
  unfold schedStep at h
  split at h
  · cases h
  next J _ =>
  split at h
  · cases h
    exact (issueJob_quiet hl J _).trans (settle_quiet j)
  · cases h
    split
    · exact wakeJob_quiet J
    · exact .refl s
  · cases h

theorem schedMove_quiet (hl : s.T.tl = .held a) {j : Nat} (h : schedMove j s = .next t) : Evolves Effect.quiet s t := by
  have hb : Evolves Effect.quiet s { s with cur := .sched } := Evolves.one (.become .sched) trivial
  unfold schedMove at h
  split at h
  · cases h
    exact .refl s
  split at h
  · cases h
  split at h
  · exact hb.trans (schedStep_quiet hl h)
  split at h
  · cases h
  split at h
  · cases h
  split at h
  · exact (Evolves.step (.setRunning (some j)) hb trivial).trans (schedStep_quiet hl h)
  · cases h
    exact .refl s

theorem seqPlayPaths_quiet {reqs : List (Path × Int × List (Int × Int))} {bl : Bool} {cb : Option Nat}
    (hl : s.T.tl = .held a) (h : seqPlayPaths reqs bl cb s = .next t) : Evolves Effect.quiet s t := by
  have hload := loadAll_quiet (s := s) reqs
  unfold seqPlayPaths at h
  dsimp only at h
  split at h
  · exact hload.trans (execSeqPlay_quiet (hload.held hl) h)
  · cases h
    exact hload

/-- Every move but the going on of the agent that has TL is quiet. -/
theorem runMove_quiet {m : Move} (htl : tlOk s) (hl : s.T.tl = .held a) (hm : m ≠ .resume a)
    (h : runMove m s = .next t) : Evolves Effect.quiet s t := by
  have hb (b : Agent) : Evolves Effect.quiet s { s with cur := b } := Evolves.one (.become b) trivial
  cases m with
  | call b i => exact (hb b).trans (exec_quiet_of_held hl (issueBy_next h).2.2)
  | begin b i => exact (hb b).trans (begin_quiet_of_held hl (issueBy_next h).2.2)
  | frame b bytes =>
    simp only [runMove] at h
    split at h
    · exact (hb b).trans (exec_quiet_of_held hl (issueBy_next h).2.2)
    · cases h
  | resume b =>
    simp only [runMove, resumeAgent] at h
    split at h
    · cases h
    next f hf =>
    split at h
    · refine (hb b).trans (resumePhase_quiet (a := a) hl ?_ h)
      by_contra hph
      have hholder := (tlOk_holder htl (mem_of_topFlight hf) (Bool.not_eq_false _ ▸ hph)).1
      rw [hl, agent_of_topFlight hf] at hholder
      exact hm (by cases hholder; rfl)
    · cases h
      exact .refl s
  | tick c => exact (hb (.tick c)).trans (exec_quiet_of_held hl (timerMove_next h).2)
  | sched j => exact schedMove_quiet hl h
  | pass us =>
    cases h
    unfold passTime
    split
    · exact Evolves.one (.clock _) trivial
    · exact .refl s
  | request b r => cases h
  | playPaths b reqs bl cb =>
    simp only [runMove] at h
    split at h
    · exact (hb b).trans (seqPlayPaths_quiet hl h)
    · cases h

end

/-- The claims' events of the line are the model's. -/
theorem isLine_eq_onLine (e : Event) : isLine e = e.onLine := by cases e <;> rfl

end Machine

open Machine

/-- Settles O24: every other move is quiet, and quiet moves leave the line and append no event of it. -/
theorem exchangeIsIsolated : Obligations.ExchangeIsIsolated := by
  unfold Obligations.ExchangeIsIsolated
  intro m s s' a htl hl hm h
  simp only [isLine_eq_onLine]
  exact (runMove_quiet htl hl hm h).quiet_keeps

end Sys2Proof
end

/-! # The steps of a job (R113 to R119) -/

section
namespace Sys2Proof
namespace Machine
open Claims

/-! ## The internal steps, for the agent of the job -/

theorem mine_iff {J : Job} {s : State} : mine J s ↔ ownsJob J s = true := owns_iff.symm

section
variable {s : State} {j p d : Nat} {J : Job}

theorem exec_seqIssue (hJ : s.job? j = some J) (hm : mine J s) (hp : J.phase = .issue p) :
    exec (.seqIssue j) s = .next ((issueJob J p s).after s) := by
  rw [exec, execSeqIssue, internalStep_eq hJ (mine_iff.1 hm), hp]

theorem exec_seqFinish (hJ : s.job? j = some J) (hm : mine J s) (hp : J.phase = .issue p) (o : JobOutcome) :
    exec (.seqFinish j o) s = .next ((finishJob J o s).after s) := by
  rw [exec, execSeqFinish, internalStep_eq hJ (mine_iff.1 hm), hp]

theorem exec_seqSleep (hJ : s.job? j = some J) (hm : mine J s) (hp : J.phase = .sleep d) :
    exec (.seqSleep j) s = .next (suspendJob J s) := by
  rw [exec, execSeqSleep, internalStep_eq hJ (mine_iff.1 hm), hp]

theorem exec_seqWake (hJ : s.job? j = some J) (hm : mine J s) (hp : J.phase = .sleep d) :
    exec (.seqWake j) s = .next (if s.sleepOver J d then wakeJob J s else s) := by
  rw [exec, execSeqWake, internalStep_eq hJ (mine_iff.1 hm), hp]

theorem internalStep_not_mine {i : Instr} {step : Job → Option State} (hJ : s.job? j = some J) (hm : ¬ mine J s) :
    internalStep i j s step = .refused (.internalStep i) := by
  unfold internalStep
  rw [hJ]
  exact if_pos (mine_iff.not.1 hm)

end

theorem State.elapse_setJob (s : State) (ms : Rat) (K : Job) : (s.elapse ms).setJob K = (s.setJob K).elapse ms := by
  cases h : s.cfg.timed <;> simp [State.elapse, State.setJob, h]

/-! ## SEQ_ISSUE by what the job stands before (R114) -/

section
variable {s : State} {p : Nat} {J : Job} {c : Cmd}

theorem issueJob_last (h : rounds J.sets ≤ J.k) : issueJob J p s = finishJob J .ok s := if_pos h

theorem issueJob_cmd (hk : J.k < rounds J.sets) (hc : (cmds J.sets J.k)[p]? = some c) :
    issueJob J p s = issueCmd J p c s := by
  rw [issueJob, if_neg (Nat.not_le.2 hk), hc]

theorem issueJob_sleep (hk : J.k < rounds J.sets) (hp : (cmds J.sets J.k).length ≤ p) :
    issueJob J p s = .moved ((s.emit (.sleep J.id (sleepLen J.sets J.k))).setJob
      { J with phase := .sleep (sleepLen J.sets J.k), sleptAt := s.now }) := by
  rw [issueJob, if_neg (Nat.not_le.2 hk), List.getElem?_eq_none hp]

theorem issueCmd_serial_free {f : Frame} (hkind : channelKind s.cfg c.col = .serial)
    (hf : moveFrame s.cfg c.col c.pos c.dur = .ok f) (hl : s.T.tl = .free) :
    issueCmd J p c s = .moved ((sendFrame f s).setJob { J with phase := .issue (p + 1) }) := by
  have hperf : performSetPosition c.col c.pos c.dur s = .done (sendFrame f s) .done := performWrite_free hf hl
  simp only [issueCmd, hkind, hperf]

theorem issueCmd_serial_held {f : Frame} {a : Agent} (hkind : channelKind s.cfg c.col = .serial)
    (hf : moveFrame s.cfg c.col c.pos c.dur = .ok f) (hl : s.T.tl = .held a) : issueCmd J p c s = .blocked := by
  have hperf : performSetPosition c.col c.pos c.dur s = .blocked := performWrite_held hf hl
  simp only [issueCmd, hkind, hperf]

theorem issueCmd_serial_error {e : Err} (hkind : channelKind s.cfg c.col = .serial)
    (he : moveFrame s.cfg c.col c.pos c.dur = .error e) : issueCmd J p c s = finishJob J (.fail e) s := by
  have hperf : performSetPosition c.col c.pos c.dur s = .raised s e := performWrite_error he
  simp only [issueCmd, hkind, hperf]

theorem issueCmd_pwm_error {e : Err} (hkind : channelKind s.cfg c.col = .pwm)
    (he : pwmCheck c.col c.pos c.dur s = .error e) : issueCmd J p c s = finishJob J (.fail e) s := by
  simp only [issueCmd, hkind, he]

section
variable {ch : Channel} (hkind : channelKind s.cfg c.col = .pwm) (hok : pwmCheck c.col c.pos c.dur s = .ok ch)
include hkind hok

theorem issueCmd_pwm_locked (hm : ch.mutex ≠ .free) : issueCmd J p c s = .blocked := by
  simp only [issueCmd, hkind, hok, unlocked_eq_false hm]
  rfl

theorem issueCmd_pwm_jump (hm : ch.mutex = .free) (hd : c.dur = 0) : issueCmd J p c s
    = .moved ((setPosImmediate c.col c.pos ch.dev s).setJob { J with phase := .issue (p + 1) }) := by
  simp only [issueCmd, hkind, hok, unlocked_eq_true hm, not_true_eq_false, if_false]
  rw [if_pos hd]

theorem issueCmd_pwm_read (hm : ch.mutex = .free) (hd : c.dur ≠ 0) (hs : s.cfg.setposSplitRead = true)
    (hJ : J.split = none) : issueCmd J p c s = .moved (s.setJob { J with split := some ch.cur }) := by
  simp [issueCmd, hkind, hok, unlocked_eq_true hm, hd, hs, hJ]

theorem issueCmd_pwm_plan (hm : ch.mutex = .free) (hd : c.dur ≠ 0)
    (hs : ¬ (s.cfg.setposSplitRead = true ∧ J.split = none)) : issueCmd J p c s
    = .moved ((setPosTimed c.col c.pos c.dur (J.split.getD ch.cur) s).setJob
        { J with phase := .issue (p + 1), split := none }) := by
  simp only [issueCmd, hkind, hok, unlocked_eq_true hm, hd, hs, not_true_eq_false, if_false]

end
end

end Machine

open Machine Claims

/-- Settles O41: the command is one write of the clamped values, waits for TL, or fails for its column. -/
theorem seqIssueSerialCommand : Obligations.SeqIssueSerialCommand := by
  unfold Obligations.SeqIssueSerialCommand
  intro s j p J c hJ hm hp hk hc hkind hclamps
  rw [exec_seqIssue hJ hm hp, issueJob_cmd hk hc]
  refine ⟨fun hcol => ?_, fun hcol => ?_⟩
  · obtain ⟨f, hf⟩ := moveFrame_ok hclamps (c.col : Int) c.pos c.dur (by omega) (by omega)
    have hf : moveFrame s.cfg c.col c.pos c.dur = .ok f := hf
    refine ⟨f, hf, fun hl => ?_, fun a hl => ?_⟩
    · rw [issueCmd_serial_free hkind hf hl, sendFrame_eq, State.elapse_setJob]
      rfl
    · rw [issueCmd_serial_held hkind hf hl]
      rfl
  · have hbad : idOk (c.col : Int) = false := by
      rw [← Bool.not_eq_true, idOk_iff]
      omega
    rw [issueCmd_serial_error hkind (encode_bad_id hbad), exec_seqFinish hJ hm hp]

/-- Settles O42: one clause for each check and each form of PWM_SET_POSITION. -/
theorem seqIssuePwmCommand : Obligations.SeqIssuePwmCommand := by
  unfold Obligations.SeqIssuePwmCommand
  intro s j p J c hJ hm hp hk hc hkind
  rw [exec_seqIssue hJ hm hp, issueJob_cmd hk hc]
  refine ⟨fun hch => ?_, fun ch hch => ⟨fun hw => ?_, fun hlo hhi hmutex => ?_, fun hlo hhi hmutex => ?_⟩⟩
  · rw [issueCmd_pwm_error hkind (pwmCheck_no_channel hch), exec_seqFinish hJ hm hp]
  · rw [issueCmd_pwm_error hkind (pwmCheck_bad_width hch hw), exec_seqFinish hJ hm hp]
  · rw [issueCmd_pwm_locked hkind (pwmCheck_eq_ok hch hlo hhi (Int.natCast_nonneg _)) hmutex]
    rfl
  · have hok := pwmCheck_eq_ok hch hlo hhi (Int.natCast_nonneg c.dur)
    refine ⟨fun hd => ?_, fun hd hs => ?_, fun hd hs hnone => ?_⟩
    · rw [issueCmd_pwm_jump hkind hok hmutex hd, setPosImmediate_eq _ hch hmutex]
      rfl
    · rw [issueCmd_pwm_plan hkind hok hmutex hd.ne' (by rcases hs with ⟨hs, -⟩ | hs <;> simp [hs]),
        setPosTimed_eq _ hch hmutex]
      rfl
    · rw [issueCmd_pwm_read hkind hok hmutex hd.ne' hs hnone]
      rfl

/-- Settles O43: after the last round SEQ_ISSUE finishes the job, after the last command of a round it sleeps. -/
theorem seqIssueEndsRound : Obligations.SeqIssueEndsRound := by
  unfold Obligations.SeqIssueEndsRound
  intro s j p J hJ hm hp
  rw [exec_seqIssue hJ hm hp]
  refine ⟨fun hk => ?_, fun hk hlen => ?_⟩
  · rw [issueJob_last hk, exec_seqFinish hJ hm hp]
  · rw [issueJob_sleep hk hlen, job_id hJ]
    rfl

/-! ## SEQ_SLEEP, SEQ_WAKE and SEQ_FINISH (R115 to R117) -/

namespace Machine

section
variable {s : State} {J : Job} {o : JobOutcome}

theorem suspendJob_sched (h : J.ctx = .onSched) : suspendJob J s = s.setRunning none := by rw [suspendJob, h]

theorem suspendJob_blocking (h : J.ctx ≠ .onSched) : suspendJob J s = s := by
  unfold suspendJob
  split
  · next hc => exact absurd hc h
  · rfl

theorem callbackDue_sched {cfg : Config} (h : J.ctx = .onSched) : callbackDue cfg J = J.cb.isSome := by
  simp [callbackDue, h]

theorem callbackDue_blocking {cfg : Config} (h : J.ctx ≠ .onSched) :
    callbackDue cfg J = (J.cb.isSome && cfg.blockingCallback) := by
  simp [callbackDue, h]

theorem finishJob_sched (h : J.ctx = .onSched) : finishJob J o s =
    if J.cb.isSome then .inBody ((((s.emit (.complete J.id o)).resolveHandle J.id o).setJob
      { J with phase := .done }).pushFlight (.callback J.id o) s.now)
    else .finished (endJob J ((s.emit (.complete J.id o)).resolveHandle J.id o)) o := by
  simp only [finishJob, callbackDue_sched h, h]

theorem finishJob_blocking (h : J.ctx ≠ .onSched) : finishJob J o s =
    if J.cb.isSome && s.cfg.blockingCallback then
      .inBody (((s.emit (.complete J.id o)).setJob { J with phase := .done }).pushFlight (.callback J.id o) s.now)
    else .finished (endJob J (s.emit (.complete J.id o))) o := by
  cases hctx : J.ctx with
  | onSched => exact absurd hctx h
  | onCaller a => simp only [finishJob, callbackDue_blocking h, hctx]

theorem endJob_sched (h : J.ctx = .onSched) : endJob J s = (s.setRunning none).removeJob J.id := by rw [endJob, h]

theorem endJob_blocking (h : J.ctx ≠ .onSched) : endJob J s = s.removeJob J.id := by
  unfold endJob
  split
  · next hc => exact absurd hc h
  · rfl

/-- No onComplete body is due for a blocking job without a callback or without BLOCKING_CALLBACK. -/
theorem not_callbackDue {cfg : Config} (h : J.cb = none ∨ cfg.blockingCallback = false) :
    (J.cb.isSome && cfg.blockingCallback) = false := by
  rcases h with h | h <;> simp [h]

end
end Machine

/-- Settles O44: suspending a job of SCHED lets it go, suspending a blocking one is nothing. -/
theorem seqSleepSuspends : Obligations.SeqSleepSuspends := by
  unfold Obligations.SeqSleepSuspends
  intro s j d J hJ hm hp
  rw [exec_seqSleep hJ hm hp]
  exact ⟨fun h => by rw [suspendJob_sched h]; rfl, fun h => by rw [suspendJob_blocking h]⟩

/-- Settles O45: a due wake begins the next round, any other changes nothing. -/
theorem seqWakeStartsNextRound : Obligations.SeqWakeStartsNextRound := by
  unfold Obligations.SeqWakeStartsNextRound
  intro s j d J hJ hm hp
  rw [exec_seqWake hJ hm hp]
  refine ⟨fun hdue => ?_, fun ht hnow => ?_⟩
  · rw [if_pos (sleepOver_iff.2 hdue)]
    simp only [wakeJob, job_id hJ]
    rfl
  · rw [if_neg fun h => absurd (sleepOver_iff.1 h ht) (not_le.2 hnow)]

/-- Settles O46: a job of SCHED or a blocking one, with an onComplete body to run or without. -/
theorem seqFinishCompletes : Obligations.SeqFinishCompletes := by
  unfold Obligations.SeqFinishCompletes
  intro s j p J o hJ hm hp
  have hid := job_id hJ
  rw [exec_seqFinish hJ hm hp]
  refine ⟨fun h hcb => ?_, fun h hcb => ?_, fun h hcb => ?_, fun h hcb hbl => ?_⟩
  · rw [finishJob_sched h, hcb, endJob_sched h, hid]
    rfl
  · rw [finishJob_sched h, if_pos (Option.isSome_iff_ne_none.2 hcb), hid]
    rfl
  · rw [finishJob_blocking h, not_callbackDue hcb, endJob_blocking h, hid]
    rfl
  · rw [finishJob_blocking h, Option.isSome_iff_ne_none.2 hcb, hbl, hid]
    rfl

/-! ## Starting a playback, and the end of an onComplete body (R113, R117, R118) -/

/-- Settles O38: the job and its handle are added, and SEQ_PLAY answers. -/
theorem playNonBlockingReturnsAtOnce : Obligations.PlayNonBlockingReturnsAtOnce := by
  unfold Obligations.PlayNonBlockingReturnsAtOnce
  intro sets cb s
  refine ⟨fun h => ?_, fun h => ?_⟩
  · rw [exec, execSeqPlay, if_neg Bool.false_ne_true, if_pos h]
    rfl
  · rw [exec, execSeqPlay, if_neg Bool.false_ne_true, if_neg (by simp [h])]

namespace Machine

/-- An agent whose wait is over goes on with the operation it stands in. -/
theorem resumeAgent_eq {s : State} {a : Agent} {f : Flight} (hf : s.topFlight a = some f)
    (hr : s.reached f.readyAt = true) : resumeAgent a s = resumePhase f.phase { s with cur := a } := by
  simp only [resumeAgent, hf, hr, if_true]

theorem resumeAgent_waits {s : State} {a : Agent} {f : Flight} (hf : s.topFlight a = some f)
    (hr : s.reached f.readyAt = false) : resumeAgent a s = .next s := by
  simp [resumeAgent, hf, hr]

/-- What a blocking playback returns, as the claims write it. -/
theorem outcomeResult_eq (o : JobOutcome) : outcomeResult o = match o with
    | .ok     => .done
    | .fail e => .raised e := by
  cases o <;> rfl

end Machine

/-- Settles O47: the body's return ends the job, and for a blocking playback SEQ_PLAY with it. -/
theorem callbackReturnEndsJob : Obligations.CallbackReturnEndsJob := by
  unfold Obligations.CallbackReturnEndsJob
  intro s a j J o f hf hp hr hJ
  have hJ' (b : Agent) : (({ s with cur := b } : State).popFlight b).job? j = some J := hJ
  refine ⟨fun ha hctx => ?_, fun hctx => ?_⟩
  · subst ha
    rw [resumeAgent_eq hf hr, hp]
    simp only [resumePhase, resumeCallback, hJ', hctx, endJob, job_id hJ]
    rfl
  · rw [resumeAgent_eq hf hr, hp]
    simp only [resumePhase, resumeCallback, hJ', hctx, endJob, job_id hJ, outcomeResult_eq]
    cases o <;> rfl

namespace Machine

/-- A caller that plays a job in phase ISSUE makes its step. -/
theorem resumePlaying_issue {s : State} {j p : Nat} {J : Job} (hJ : s.job? j = some J) (hp : J.phase = .issue p) :
    resumePlaying j s = (playStep j s).state := by
  simp only [resumePlaying, hJ, hp]
  cases playStep j s <;> rfl

section
variable {s t : State} {j p : Nat} {J : Job} (hJ : s.job? j = some J) (hp : J.phase = .issue p)
include hJ hp

theorem playStep_moved (hm : issueJob J p s = .moved t) : playStep j s = .on t := by
  simp only [playStep, hJ, hp, hm]

theorem playStep_finished {o : JobOutcome} (hm : issueJob J p s = .finished t o) :
    playStep j s = .over ((t.popFlight t.cur).answer .seqPlay (outcomeResult o)) := by
  simp only [playStep, hJ, hp, hm]

theorem playStep_inBody (hm : issueJob J p s = .inBody t) : playStep j s = .stand t := by
  simp only [playStep, hJ, hp, hm]

theorem playStep_blocked (hm : issueJob J p s = .blocked) : playStep j s = .stand s := by
  simp only [playStep, hJ, hp, hm]

end

end Machine

/-- Settles O40: the command's error finishes the job, and with it the playback. -/
theorem playBlockingRaises : Obligations.PlayBlockingRaises := by
  unfold Obligations.PlayBlockingRaises
  intro s a j p J c e f hf hph hr hJ hctx hp hc hk hcb herr
  set u : State := { s with cur := a } with hu
  have hJu : u.job? j = some J := hJ
  have hne : J.ctx ≠ .onSched := by simp [hctx]
  have hissue : issueJob J p u = .finished (endJob J (u.emit (.complete J.id (.fail e)))) (.fail e) := by
    rw [issueJob_cmd hk hc]
    have hfin : issueCmd J p c u = finishJob J (.fail e) u := by
      rcases herr with ⟨hkind, he⟩ | ⟨hkind, he⟩
      · exact issueCmd_serial_error hkind he
      · exact issueCmd_pwm_error hkind he
    rw [hfin, finishJob_blocking hne, show (J.cb.isSome && u.cfg.blockingCallback) = false from not_callbackDue hcb]
    rfl
  rw [resumeAgent_eq hf hr, hph, resumePhase, resumePlaying_issue hJu hp, playStep_finished hJu hp hissue,
    endJob_blocking hne, job_id hJ]
  simp [PlayMove.state, State.removeJob, State.popFlight, State.answer, State.emit, outcomeResult, hu]

end Sys2Proof
end

/-! # SCHED: which job it steps, and that it steps one (R31, R119, R133) -/

section
namespace Sys2Proof
namespace Machine
open Claims

/-! ## What a step of a job leaves of it and of the others -/

/-- Every job with another id stands in both states or in neither. -/
def OthersKept (r : Nat) (s t : State) : Prop := ∀ K : Job, K.id ≠ r → (K ∈ t.sq.jobs ↔ K ∈ s.sq.jobs)

theorem OthersKept.refl (r : Nat) (s : State) : OthersKept r s s := fun _ _ => Iff.rfl

theorem OthersKept.trans {r : Nat} {s t u : State} (h : OthersKept r s t) (k : OthersKept r t u) : OthersKept r s u :=
  fun K hK => (k K hK).trans (h K hK)

theorem OthersKept.of_eq {r : Nat} {s t : State} (h : t.sq.jobs = s.sq.jobs) : OthersKept r s t := fun _ _ => by rw [h]

theorem othersKept_setJob (K : Job) (s : State) : OthersKept K.id s (s.setJob K) := by
  intro A hA
  simp only [State.setJob, List.mem_map]
  constructor
  · rintro ⟨B, hB, rfl⟩
    split_ifs at hA ⊢ with he
    · exact absurd rfl hA
    · exact hB
  · exact fun h => ⟨A, h, if_neg hA⟩

theorem othersKept_removeJob (j : Nat) (s : State) : OthersKept j s (s.removeJob j) := by
  intro A hA
  simp [State.removeJob, hA]

/-- A step that ends or changes one job of `s`: what it leaves of the job and of SCHED, and that it leaves the others. -/
structure JobStep (j : Nat) (J : Job) (s t : State) : Prop where
  cur : t.cur = s.cur
  others : OthersKept j s t
  job : ∀ K, t.job? j = some K → K.id = j ∧ K.ctx = J.ctx ∧ t.sq.running = s.sq.running

section
variable {s t : State} {j : Nat} {J : Job}

/-- Writing the job back after an effect that touches neither jobs nor agents. -/
theorem jobStep_writeBack {K : Job} (hJ : s.job? j = some J) (hcur : t.cur = s.cur) (hsq : t.sq = s.sq)
    (hid : K.id = J.id) (hctx : K.ctx = J.ctx) : JobStep j J s (t.setJob K) := by
  have hKj : K.id = j := hid.trans (job_id hJ)
  have ht : t.job? j = some J := (job?_congr (congrArg Sequencer.jobs hsq) j).trans hJ
  refine ⟨hcur, ?_, fun A hA => ?_⟩
  · refine OthersKept.trans (.of_eq (congrArg Sequencer.jobs hsq)) ?_
    rw [← hKj]
    exact othersKept_setJob K t
  · rw [job?_setJob ht hKj] at hA
    cases hA
    exact ⟨hKj, hctx, (congrArg Sequencer.running hsq : t.sq.running = s.sq.running)⟩

theorem jobStep_removed (hcur : t.cur = s.cur) (hjobs : t.sq.jobs = (s.removeJob j).sq.jobs) : JobStep j J s t := by
  refine ⟨hcur, (OthersKept.trans (othersKept_removeJob j s) (.of_eq hjobs)), fun K hK => ?_⟩
  rw [job?_congr hjobs, job?_removeJob] at hK
  cases hK

theorem jobStep_finish (hJ : s.job? j = some J) (o : JobOutcome) : JobStep j J s ((finishJob J o s).after s) := by
  have hid := job_id hJ
  by_cases hctx : J.ctx = .onSched
  · rw [finishJob_sched hctx]
    split_ifs
    · have hw := jobStep_writeBack (t := (s.emit (.complete J.id o)).resolveHandle J.id o)
        (K := { J with phase := .done }) hJ rfl rfl rfl rfl
      exact ⟨hw.cur, hw.others, hw.job⟩
    · rw [endJob_sched hctx, hid]
      exact jobStep_removed rfl rfl
  · rw [finishJob_blocking hctx]
    split_ifs
    · have hw := jobStep_writeBack (t := s.emit (.complete J.id o)) (K := { J with phase := .done }) hJ rfl rfl rfl rfl
      exact ⟨hw.cur, hw.others, hw.job⟩
    · rw [endJob_blocking hctx, hid]
      exact jobStep_removed rfl rfl

theorem jobStep_issue (hJ : s.job? j = some J) (p : Nat) : JobStep j J s ((issueJob J p s).after s) := by
  have hm := issueJob_cases J p s
  generalize issueJob J p s = m at hm
  cases hm with
  | finished o => exact jobStep_finish hJ o
  | waits =>
    refine ⟨rfl, .refl j s, fun K hK => ?_⟩
    cases hJ.symm.trans hK
    exact ⟨job_id hJ, rfl, rfl⟩
  | sleeps => exact jobStep_writeBack (t := s.emit _) hJ rfl rfl rfl rfl
  | sends c f =>
    rw [sendFrame_eq]
    exact jobStep_writeBack hJ (State.elapse_cur _ _) (State.elapse_sq _ _) rfl rfl
  | jumps => exact jobStep_writeBack (t := setPosImmediate _ _ _ s) hJ rfl rfl rfl rfl
  | reads => exact jobStep_writeBack (t := s) hJ rfl rfl rfl rfl
  | plans => exact jobStep_writeBack (t := setPosTimed _ _ _ _ s) hJ rfl rfl rfl rfl

end

/-! ## A step of SCHED -/

theorem settle_awake {s : State} {j : Nat} (h : ∀ K d, s.job? j = some K → K.phase ≠ .sleep d) : settle j s = s := by
  unfold settle
  split
  · rfl
  next K hK =>
  split
  · next d hd => exact absurd hd (h K d hK)
  · rfl
  · rfl

theorem settle_asleep {s : State} {j d : Nat} {K : Job} (hK : s.job? j = some K) (hd : K.phase = .sleep d) :
    settle j s = suspendJob K s := by
  simp only [settle, hK, hd]

section
variable {s : State} {j : Nat} {J : Job}

/-- SCHED, running an issuing job of its own, makes its SEQ_ISSUE, and SEQ_SLEEP where that has put it to sleep. -/
theorem schedStep_issue {p : Nat} (hJ : s.job? j = some J) (hctx : J.ctx = .onSched) (hcur : s.cur = .sched)
    (hrun : s.sq.running = some j) (hp : J.phase = .issue p) : ∃ t, exec (.seqIssue j) s = .next t
      ∧ ((∀ K d, t.job? j = some K → K.phase ≠ .sleep d) → schedStep j s = .next t)
      ∧ (∀ K d, t.job? j = some K → K.phase = .sleep d → schedStep j s = exec (.seqSleep j) t
        ∧ exec (.seqSleep j) t = .next { t with sq := { t.sq with running := none } }) := by
  have hmine : mine J s := .inr ⟨hctx, hcur, by rw [hrun, job_id hJ]⟩
  have hstep : schedStep j s = .next (settle j ((issueJob J p s).after s)) := by
    simp only [schedStep, hJ, hp]
  refine ⟨_, exec_seqIssue hJ hmine hp, fun hawake => ?_, fun K d hK hd => ?_⟩
  · rw [hstep, settle_awake hawake]
  · obtain ⟨hcur', -, hjob⟩ := jobStep_issue hJ p
    obtain ⟨hid, hKctx, hrun'⟩ := hjob K hK
    have hKmine : mine K ((issueJob J p s).after s) :=
      .inr ⟨hKctx.trans hctx, hcur'.trans hcur, by rw [hrun', hrun, hid]⟩
    rw [hstep, settle_asleep hK hd, exec_seqSleep hK hKmine hd, suspendJob_sched (hKctx.trans hctx)]
    exact ⟨rfl, rfl⟩

/-- SCHED, running a sleeping job of its own, makes its SEQ_WAKE. -/
theorem schedStep_sleep {d : Nat} (hJ : s.job? j = some J) (hctx : J.ctx = .onSched) (hcur : s.cur = .sched)
    (hrun : s.sq.running = some j) (hp : J.phase = .sleep d) : schedStep j s = exec (.seqWake j) s := by
  have hmine : mine J s := .inr ⟨hctx, hcur, by rw [hrun, job_id hJ]⟩
  rw [exec_seqWake hJ hmine hp]
  simp only [schedStep, hJ, hp]

variable (hstart : s.sq.started = true) (htop : s.topFlight .sched = none)
include hstart htop

theorem schedMove_running {r : Nat} (hrun : s.sq.running = some r) (i : Nat) :
    schedMove i s = schedStep r { s with cur := .sched } := by
  simp only [schedMove, hstart, htop, hrun, not_true_eq_false, if_false]

variable (hrun : s.sq.running = none) (hJ : s.job? j = some J) (hctx : J.ctx = .onSched)
include hrun hJ hctx

theorem schedMove_ready (hready : jobReady J s = true) :
    schedMove j s = schedStep j ({ s with cur := .sched }.setRunning (some j)) := by
  simp [schedMove, hstart, htop, hrun, hJ, hctx, hready]

theorem schedMove_not_ready (hready : jobReady J s = false) : schedMove j s = .next s := by
  simp [schedMove, hstart, htop, hrun, hJ, hctx, hready]

end

theorem jobReady_issue {s : State} {J : Job} {p : Nat} (h : J.phase = .issue p) : jobReady J s = true := by
  simp only [jobReady, h]

theorem jobReady_sleep {s : State} {J : Job} {d : Nat} (h : J.phase = .sleep d) : jobReady J s = s.sleepOver J d := by
  simp only [jobReady, h]

end Machine

open Machine Claims

/-- Settles O48: the ready job is chosen, and then its step is made as of one that runs. -/
theorem schedStartsReadyJob : Obligations.SchedStartsReadyJob := by
  unfold Obligations.SchedStartsReadyJob
  intro s j J hstart htop hrun hJ hctx s1
  have hJ1 : s1.job? j = some J := hJ
  refine ⟨fun d hd hdue => ?_, fun d hd ht hnow => ?_, fun p hp => ?_⟩
  · rw [schedMove_ready hstart htop hrun hJ hctx (by rw [jobReady_sleep hd]; exact sleepOver_iff.2 hdue)]
    exact schedStep_sleep hJ1 hctx rfl rfl hd
  · refine schedMove_not_ready hstart htop hrun hJ hctx ?_
    rw [jobReady_sleep hd, ← Bool.not_eq_true, sleepOver_iff]
    exact fun h => absurd (h ht) (not_le.2 hnow)
  · obtain ⟨t, hexec, hawake, hasleep⟩ := schedStep_issue hJ1 hctx rfl rfl hp
    rw [schedMove_ready hstart htop hrun hJ hctx (jobReady_issue hp)]
    exact ⟨t, hexec, hawake, fun K d hK hd => (hasleep K d hK hd).1⟩

namespace Machine

/-- A step of SCHED leaves the other jobs as they are. -/
theorem schedStep_others {j : Nat} {s t : State} (h : schedStep j s = .next t) : OthersKept j s t := by
  unfold schedStep at h
  split at h
  · cases h
  next J hJ =>
  split at h
  · next p _ =>
    cases h
    refine (jobStep_issue hJ p).others.trans (.of_eq ?_)
    unfold settle suspendJob
    split
    · rfl
    · split
      · split <;> rfl
      · rfl
      · rfl
  · cases h
    split
    · exact (jobStep_writeBack (t := s.emit (.wake J.id)) (K := { J with k := J.k + 1, phase := .issue 0 }) hJ rfl rfl
        rfl rfl).others
    · exact .refl j s
  · cases h

end Machine

/-- Settles O49: while SCHED runs a job, the one asked for does not matter, and the step is that of the running job. -/
theorem schedRunsOneJob : Obligations.SchedRunsOneJob := by
  unfold Obligations.SchedRunsOneJob
  intro s r hrun
  refine ⟨fun j i t h => ?_, fun j J hstart htop hJ hctx => ⟨fun p hp => ?_, fun d hd => ?_⟩⟩
  · cases hstart : s.sq.started with
    | false =>
      have hstay (k : Nat) : schedMove k s = .next s := by simp [schedMove, hstart]
      cases (hstay j).symm.trans h
      exact ⟨hstay i, fun _ hJ _ => hJ, fun _ hJ _ => hJ⟩
    | true =>
      cases htop : s.topFlight .sched with
      | some f => simp [schedMove, hstart, htop] at h
      | none =>
        rw [schedMove_running hstart htop hrun] at h ⊢
        have hothers := schedStep_others h
        exact ⟨h, fun K hK hne => (hothers K hne).2 hK, fun K hK hne => (hothers K hne).1 hK⟩
  · rw [schedMove_running hstart htop hrun]
    exact schedStep_issue (s := { s with cur := .sched }) hJ hctx rfl hrun hp
  · rw [schedMove_running hstart htop hrun]
    exact schedStep_sleep (s := { s with cur := .sched }) hJ hctx rfl hrun hd

/-! ## What is no operation of a caller (R61, R120, R133) -/

/-- Settles O57: a call of an internal step is refused before anything runs, and a step by another agent by its own check. -/
theorem nonOperationsRefused : Obligations.NonOperationsRefused := by
  unfold Obligations.NonOperationsRefused
  intro s a
  refine ⟨fun r => rfl, fun c => ⟨rfl, rfl⟩, fun j => ⟨rfl, rfl, rfl, rfl, rfl, rfl⟩, fun j o => ⟨rfl, rfl⟩,
    fun c hc => if_pos hc, fun j J hJ hm => ?_⟩
  exact ⟨internalStep_not_mine hJ hm, internalStep_not_mine hJ hm, internalStep_not_mine hJ hm,
    fun o => internalStep_not_mine hJ hm⟩

/-! # What a playback transmits (R121) -/

namespace Machine

/-- What a playback may append: no event of a read or of a line reset, and only clamped move frames. -/
def PlaybackEvent (cfg : Config) (e : Event) : Prop :=
  (∀ f, e = .tx f → ∃ id p d : Int, cfg.posMin ≤ p ∧ p ≤ cfg.posMax ∧ cfg.sdurMin ≤ d ∧ d ≤ cfg.sdurMax
      ∧ encodeFrame cfg id 0x01 [p, d] = .ok f)
    ∧ (∀ b, e ≠ .rxflush b) ∧ (∀ n, e ≠ .rxavail n) ∧ (∀ b, e ≠ .rxread b) ∧ e ≠ .uclose ∧ e ≠ .uopen

theorem playbackEvent_of_quiet {cfg : Config} {e : Event} (h : e.onLine = false) : PlaybackEvent cfg e := by
  cases e <;> simp_all [PlaybackEvent, Event.onLine]

theorem playbackEvent_pin (cfg : Config) (p : Pin) (l : PinLevel) : PlaybackEvent cfg (.pin p l) := by
  simp [PlaybackEvent]

theorem playbackEvent_move {cfg : Config} (hc : cfg.clampsOk = true) {id pos dur : Int} {f : Frame}
    (hf : encodeFrame cfg id 0x01 [servoPosition cfg pos, servoDuration cfg dur] = .ok f) : PlaybackEvent cfg (.tx f) := by
  simp only [Config.clampsOk, Bool.and_eq_true, decide_eq_true_eq] at hc
  refine ⟨fun g hg => ⟨id, servoPosition cfg pos, servoDuration cfg dur, ?_, ?_, ?_, ?_, ?_⟩, by simp, by simp, by simp,
    by simp, by simp⟩
  · rw [servoPosition, clamp]; omega
  · rw [servoPosition, clamp]; omega
  · rw [servoDuration, clamp]; omega
  · rw [servoDuration, clamp]; omega
  · cases hg
    exact hf

theorem run_playbackEvents {cfg : Config} (hc : cfg.clampsOk = true) (e : Effect) (s : State) (he : e.playback cfg) :
    ∃ evs, (e.run s).trace = s.trace ++ evs ∧ ∀ e ∈ evs, PlaybackEvent cfg e := by
  have quiet (hq : e.quiet) : ∃ evs, (e.run s).trace = s.trace ++ evs ∧ ∀ e ∈ evs, PlaybackEvent cfg e := by
    obtain ⟨-, evs, htrace, hevs⟩ := run_quiet hq s
    exact ⟨evs, htrace, fun e he => playbackEvent_of_quiet (hevs e he)⟩
  cases e with
  | emit e =>
    refine ⟨[e], rfl, fun e' he' => ?_⟩
    rw [List.mem_singleton.1 he']
    cases e with
    | tx f =>
      obtain ⟨id, pos, dur, hf⟩ := he
      exact playbackEvent_move hc hf
    | _ => exact playbackEvent_of_quiet he
  | turn d =>
    cases he
    refine ⟨[.pin .rxEn .deasserted, .pin .txEn .asserted], by
      simp [Effect.run, State.setDirection, State.pinWrite, State.emit], fun e he => ?_⟩
    simp only [List.mem_cons, List.not_mem_nil, or_false] at he
    rcases he with rfl | rfl <;> exact playbackEvent_pin ..
  | lock | unlock => exact ⟨[], (List.append_nil _).symm, by simp⟩
  | _ => exact quiet he

end Machine

/-- Settles O50: every way of running a playback is made of effects that append only such events. -/
theorem playbackSendsOnlyMoves : Obligations.PlaybackSendsOnlyMoves := by
  unfold Obligations.PlaybackSendsOnlyMoves
  intro s t j sets cb hc h
  have hev : Evolves (Effect.playback s.cfg) s t := by
    rcases h with h | h | h | ⟨a, f, hf, hp, h⟩
    · exact execSeqIssue_playback h
    · exact schedMove_playback h
    · exact execSeqPlay_playback h
    · cases hr : s.reached f.readyAt with
      | false =>
        rw [resumeAgent_waits hf hr] at h
        cases h
        exact .refl s
      | true =>
        rw [resumeAgent_eq hf hr, hp] at h
        cases h
        exact Evolves.trans (Evolves.one (.become a) trivial) (resumePlaying_playback (s := { s with cur := a }) j)
  exact events_evolves (PlaybackEvent s.cfg) (run_playbackEvents hc) hev

end Sys2Proof
end

/-! # Loading action sets, and the rounds of a batch (R63, R109 to R112) -/

section
namespace Sys2Proof
namespace Machine
open Claims

/-! ## SEQ_LOAD (R109) -/

theorem lockedSet_eq_loadedSet (path : Path) (reps : Nat) (locks : List (Int × Int)) (rows : List ActionRow) :
    lockedSet path reps locks rows = loadedSet path reps locks rows := rfl

section
variable {path : Path} {reps : Int} {locks : List (Int × Int)} {s : State}

theorem performLoad_bad_repeat (h : reps < 0) : performLoad path reps locks s = .raised s (.repeatRange reps) := if_pos h

theorem performLoad_missing (h : 0 ≤ reps) (hr : (s.storeRead path).1 = none) :
    performLoad path reps locks s = .raised (s.storeRead path).2 (.resourceNotFound path) := by
  rw [performLoad, if_neg (not_lt.2 h)]
  simp only [hr]

theorem performLoad_found {rows : List ActionRow} (h : 0 ≤ reps) (hr : (s.storeRead path).1 = some rows) :
    performLoad path reps locks s = .done (s.storeRead path).2 (.actionSet (loadedSet path reps.toNat locks rows)) := by
  rw [performLoad, if_neg (not_lt.2 h)]
  simp only [hr]

theorem storeRead_cons {r : Option (List ActionRow)} {rest : List (Option (List ActionRow))} (h : s.storeIn = r :: rest) :
    s.storeRead path = (r, { s with storeIn := rest, trace := s.trace ++ [.store path r] }) := by
  simp only [State.storeRead, h]
  rfl

theorem storeRead_nil (h : s.storeIn = []) : s.storeRead path = (Config.freeStoreAnswer s.draws,
    { s with draws := s.draws + 1, trace := s.trace ++ [.store path (Config.freeStoreAnswer s.draws)] }) := by
  simp only [State.storeRead, h]
  rfl

theorem exec_seqLoad_raised {t : State} {e : Err} (h : performLoad path reps locks s = .raised t e) :
    exec (.seqLoad path reps locks) s = .next (t.raise .seqLoad e) := by
  rw [exec, execSeqLoad, h]
  rfl

theorem exec_seqLoad_done {t : State} {v : Result} (h : performLoad path reps locks s = .done t v) :
    exec (.seqLoad path reps locks) s = .next (t.answer .seqLoad v) := by
  rw [exec, execSeqLoad, h]
  rfl

end
end Machine

open Machine Claims

/-- Settles O35: the repeat check, then the store's answer, listed or free. -/
theorem seqLoadReadsTheStore : Obligations.SeqLoadReadsTheStore := by
  unfold Obligations.SeqLoadReadsTheStore
  intro path reps locks s
  simp only [lockedSet_eq_loadedSet]
  refine ⟨fun h => exec_seqLoad_raised (performLoad_bad_repeat h), fun h => ⟨fun rest hs => ?_, fun rows rest hs => ?_,
    fun hs => ?_⟩⟩
  · have hr := storeRead_cons (path := path) hs
    rw [exec_seqLoad_raised (performLoad_missing h (by rw [hr])), hr]
    simp [State.raise, State.answer, State.emit]
  · have hr := storeRead_cons (path := path) hs
    rw [exec_seqLoad_done (performLoad_found h (by rw [hr])), hr]
    simp [State.answer, State.emit]
  · have hr := storeRead_nil (path := path) hs
    cases hfree : Config.freeStoreAnswer s.draws with
    | none =>
      rw [hfree] at hr
      refine ⟨none, .raised (.resourceNotFound path), ?_, fun _ => rfl, by simp⟩
      rw [exec_seqLoad_raised (performLoad_missing h (by rw [hr])), hr]
      simp [State.raise, State.answer, State.emit]
    | some rows =>
      rw [hfree] at hr
      refine ⟨some rows, .actionSet (loadedSet path reps.toNat locks rows), ?_, by simp, fun rows' he => by cases he; rfl⟩
      rw [exec_seqLoad_done (performLoad_found h (by rw [hr])), hr]
      simp [State.answer, State.emit]

/-! ## The locks (R110) -/

namespace Machine

/-- In a map that names each column once, an entry is the one found. -/
theorem lookup_of_mem {l : List (Int × Int)} {k v : Int} (hn : (l.map Prod.fst).Nodup) (h : (k, v) ∈ l) :
    l.lookup k = some v := by
  induction l with
  | nil => cases h
  | cons x l ih =>
    obtain ⟨i, w⟩ := x
    rw [List.map_cons, List.nodup_cons] at hn
    rcases List.mem_cons.1 h with he | hmem
    · cases he
      simp
    · have hne : (k == i) = false := by
        rw [beq_eq_false_iff_ne]
        rintro rfl
        exact hn.1 (List.mem_map.2 ⟨(k, v), hmem, rfl⟩)
      rw [List.lookup_cons, hne]
      exact ih hn.2 hmem

theorem lookup_of_not_mem {l : List (Int × Int)} {k : Int} (h : ∀ v, (k, v) ∉ l) : l.lookup k = none := by
  rw [List.lookup_eq_none_iff]
  intro x hx
  rw [bne_iff_ne]
  rintro rfl
  exact h x.2 hx

/-- Column `k` of a row under the locks (R109). -/
theorem lockRow_pos (locks : List (Int × Int)) (r : ActionRow) {k : Nat} (hk : 1 ≤ k) :
    (lockRow locks r).pos[k - 1]? = r.pos[k - 1]?.map fun p => (locks.lookup (k : Int)).getD p := by
  have hk' : (1 + ((k : Int) - 1)) = k := by omega
  simp only [lockRow, List.getElem?_map, List.getElem?_zipIdx, Option.map_map]
  congr 1
  funext p
  simp only [Function.comp]
  rw [show 1 + (k - 1) = k by omega]

end Machine

/-- Settles O36: the rows are the stored ones under the locks, column by column. -/
theorem lockOverride : Obligations.LockOverride := by
  unfold Obligations.LockOverride
  intro path reps locks rows hlocks
  refine ⟨rfl, rfl, rfl, by simp [loadedSet], fun n r q hr hq => ?_⟩
  have hq' : q = lockRow locks r := by simpa [loadedSet, hr] using hq.symm
  subst hq'
  refine ⟨rfl, by simp [lockRow], fun k h1 hlen => ⟨fun v hv => ?_, fun hno => ?_⟩⟩
  · rw [lockRow_pos locks r h1, lookup_of_mem (of_decide_eq_true hlocks) hv, List.getElem?_eq_getElem (by omega)]
    rfl
  · rw [lockRow_pos locks r h1, lookup_of_not_mem hno]
    simp

/-! ## The rounds of a batch (R111, R112) -/

namespace Machine

theorem lt_foldr_max_iff (l : List Nat) (k : Nat) : k < l.foldr max 0 ↔ ∃ x ∈ l, k < x := by
  induction l with
  | nil => simp
  | cons a l ih => simp [ih]

/-- The largest of some numbers is one of them. -/
theorem foldr_max_mem {l : List Nat} (h : l ≠ []) : l.foldr max 0 ∈ l := by
  induction l with
  | nil => exact absurd rfl h
  | cons a l ih =>
    cases l with
    | nil => simp
    | cons b l =>
      rw [List.foldr_cons]
      rcases max_choice a ((b :: l).foldr max 0) with he | he <;> rw [he]
      · exact List.mem_cons_self
      · exact List.mem_cons_of_mem _ (ih (by simp))

theorem rowAt_of_lt {a : ActionSet} {k : Nat} (h : k < stepCount a) : ∃ r, a.rows[k % a.rows.length]? = some r
    ∧ rowAt a k = some r := by
  have hpos : 0 < a.rows.length := Nat.pos_of_ne_zero fun h0 => by rw [stepCount, h0] at h; omega
  have hmod := Nat.mod_lt k hpos
  exact ⟨_, List.getElem?_eq_getElem hmod, by rw [rowAt, if_pos h, List.getElem?_eq_getElem hmod]⟩

theorem rowAt_of_le {a : ActionSet} {k : Nat} (h : stepCount a ≤ k) : rowAt a k = none := if_neg (Nat.not_lt.2 h)

theorem lt_rounds_iff (S : List ActionSet) (k : Nat) : k < rounds S ↔ ∃ a ∈ S, k < stepCount a := by
  simp [rounds, lt_foldr_max_iff]

theorem activeRows_ne_nil {S : List ActionSet} {k : Nat} (h : k < rounds S) : activeRows S k ≠ [] := by
  obtain ⟨a, ha, hk⟩ := (lt_rounds_iff S k).1 h
  obtain ⟨r, -, hr⟩ := rowAt_of_lt hk
  exact List.ne_nil_of_mem (List.mem_filterMap.2 ⟨a, ha, hr⟩)

end Machine

/-- Settles O37: what a set plays in a round, how batches join, the commands of a row, and the longest of the round. -/
theorem roundsOfABatch : Obligations.RoundsOfABatch := by
  unfold Obligations.RoundsOfABatch
  refine ⟨fun a k => ⟨fun hk => ?_, fun hk => ?_⟩, fun S T k => ?_, fun a k r h => ?_,
    fun S k => ⟨?_, fun r hr => ?_, fun hk => ?_⟩⟩
  · obtain ⟨r, hr, hrow⟩ := rowAt_of_lt hk
    exact ⟨r, hr, by simp [activeRows, hrow]⟩
  · have hnone : activeRows [a] k = [] := by simp [activeRows, rowAt_of_le hk]
    exact ⟨hnone, by rw [cmds, hnone]; rfl⟩
  · have happ : activeRows (S ++ T) k = activeRows S k ++ activeRows T k := List.filterMap_append
    exact ⟨happ, by rw [cmds, happ, List.flatMap_append]; rfl⟩
  · have hcmds : cmds [a] k = rowCmds r := by rw [cmds, h, List.flatMap_singleton]
    rw [hcmds]
    refine ⟨by simp [rowCmds], fun n c hc => ?_⟩
    simp only [rowCmds, List.getElem?_map, List.getElem?_zipIdx, Option.map_map, Option.map_eq_some_iff, Function.comp] at hc
    obtain ⟨p, hp, rfl⟩ := hc
    exact ⟨Nat.add_comm 1 n, hp.symm, rfl⟩
  · exact lt_rounds_iff S k
  · by_contra hlt
    have hmem : r.dur ∈ (activeRows S k).map ActionRow.dur := List.mem_map_of_mem hr
    exact absurd ((lt_foldr_max_iff _ _).2 ⟨r.dur, hmem, Nat.not_le.1 hlt⟩) (lt_irrefl _)
  · have hne : (activeRows S k).map ActionRow.dur ≠ [] := by simpa using activeRows_ne_nil hk
    obtain ⟨r, hr, hdur⟩ := List.mem_map.1 (foldr_max_mem hne)
    exact ⟨r, hr, hdur⟩

/-! ## SEQ_PLAY_PATHS (R63) -/

namespace Machine

section
variable {path : Path} {reps : Int} {locks : List (Int × Int)} {s t : State}
    (reqs : List (Path × Int × List (Int × Int))) (bl : Bool) (cb : Option Nat)

theorem seqPlayPaths_load_raises {e : Err} (h : performLoad path reps locks s = .raised t e) :
    seqPlayPaths ((path, reps, locks) :: reqs) bl cb s = .next (t.raise .seqLoad e) := by
  simp only [seqPlayPaths, loadAll, h]

theorem seqPlayPaths_load_done {a : ActionSet} (h : performLoad path reps locks s = .done t (.actionSet a)) :
    (∀ u, loadAll reqs (t.answer .seqLoad (.actionSet a)) = (u, none) →
      seqPlayPaths ((path, reps, locks) :: reqs) bl cb s = .next u)
    ∧ ∀ u as, loadAll reqs (t.answer .seqLoad (.actionSet a)) = (u, some as) →
      seqPlayPaths ((path, reps, locks) :: reqs) bl cb s = execSeqPlay (a :: as) bl cb u := by
  refine ⟨fun u hu => ?_, fun u as hu => ?_⟩ <;> simp only [seqPlayPaths, loadAll, h, hu, Option.map_none, Option.map_some]

end

/-- The last event of a trace, written in two ways. -/
theorem last_event_eq {l l' : List Event} {x y : Event} (h : l ++ [x] = l' ++ [y]) : x = y :=
  List.singleton_inj.1 (List.append_inj_right' h rfl)

end Machine

/-- Settles O51: the first load raises or gives its set, and its RESULT says which. -/
theorem playPathsLoadsThenPlays : Obligations.PlayPathsLoadsThenPlays := by
  unfold Obligations.PlayPathsLoadsThenPlays
  refine ⟨fun bl cb s => rfl, fun reqs path reps locks bl cb s t evs h => ?_⟩
  have raises {u : State} {e : Err} (hp : performLoad path reps locks s = .raised u e) :
      (∀ e, t.trace = s.trace ++ evs ++ [.result s.cur .seqLoad (.raised e)] →
        seqPlayPaths ((path, reps, locks) :: reqs) bl cb s = .next t)
      ∧ ∀ a, t.trace ≠ s.trace ++ evs ++ [.result s.cur .seqLoad (.actionSet a)] := by
    rw [exec_seqLoad_raised hp] at h
    cases h
    exact ⟨fun _ _ => seqPlayPaths_load_raises reqs bl cb hp, fun a htrace => absurd (last_event_eq htrace) (by simp)⟩
  obtain ⟨e, hp⟩ | ⟨e, hp⟩ | ⟨a, hp⟩ := performLoad_cases (s := s) (path := path) (reps := reps) (locks := locks)
  · obtain ⟨h1, hno⟩ := raises hp
    exact ⟨h1, fun a ha => absurd ha (hno a), fun a ha => absurd ha (hno a)⟩
  · obtain ⟨h1, hno⟩ := raises hp
    exact ⟨h1, fun a ha => absurd ha (hno a), fun a ha => absurd ha (hno a)⟩
  · rw [exec_seqLoad_done hp] at h
    cases h
    obtain ⟨hnone, hsome⟩ := seqPlayPaths_load_done reqs bl cb hp
    refine ⟨fun e htrace => absurd (last_event_eq htrace) (by simp), fun _ _ => hnone, fun b htrace u as hu => ?_⟩
    injection last_event_eq htrace with _ _ hv
    injection hv with hab
    exact hab ▸ hsome u as hu

end Sys2Proof
end

/-! # Moves, the end of a run, and the length of waits (R7, R144, R154, D40) -/

section
namespace Sys2Proof
namespace Machine
open Claims

/-! ## A step is the next move (R7) -/

section
variable {s : State} {a : Agent}

/-- With a move listed the step is that move, from the state without it. -/
theorem step_cons {m : Move} {rest : List Move} (h : s.script = m :: rest) :
    step s = runMove m { s with script := rest } := by
  simp only [step, nextMove, h]

theorem step_nil (h : s.script = []) : step s = runMove (freeMove s.draws) { s with draws := s.draws + 1 } := by
  simp only [step, nextMove, h]

theorem issueBy_allowed {i : Instr} {run : Instr → State → Host.Outcome State Fault Refusal} (hi : isInternal i = false)
    (hm : mayIssue a s = true) : issueBy a i run s = run i { s with cur := a } := by
  simp [issueBy, hi, hm]

/-- The decoder never gives an internal step: those have no binary form (R61). -/
theorem decode_not_internal {cfg : Config} {b : Frame} {i : Instr} (h : decode cfg b = .ok i) : isInternal i = false := by
  unfold decode at h
  split at h
  · cases h
  split at h
  · cases h
  next c _ =>
  revert h
  cases c <;> simp only [decodeCommand, noParam, byteParam, oneParam, twoParams] <;> intro h <;> (repeat' split at h) <;>
    cases h <;> rfl

end
end Machine

open Machine Claims

/-- Settles O56: the step is the listed move, and each kind of move is what the claim says. -/
theorem stepRunsIssuedInstr : Obligations.StepRunsIssuedInstr := by
  unfold Obligations.StepRunsIssuedInstr
  intro s rest u
  refine ⟨fun a hm => ⟨fun bytes i hs hdec => ?_, fun i hs hi => ?_, fun i hs hi => ?_, fun reqs bl cb hs => ?_⟩,
    fun a bytes e hs hdec => ?_, fun c hs htop => ?_, fun a hs => step_cons hs, fun j hs => step_cons hs,
    fun us hs => ?_, fun a r hs => step_cons hs, fun hs => step_nil hs⟩
  · have hdec' : decode u.cfg bytes = .ok i := hdec
    rw [step_cons hs, runMove, hdec']
    exact issueBy_allowed (decode_not_internal hdec) hm
  · rw [step_cons hs]
    exact issueBy_allowed hi hm
  · rw [step_cons hs]
    exact issueBy_allowed hi hm
  · rw [step_cons hs]
    exact if_pos hm
  · have hdec' : decode u.cfg bytes = .error e := hdec
    rw [step_cons hs, runMove, hdec']
  · have htop' : u.topFlight (.tick c) = none := htop
    rw [step_cons hs, runMove, timerMove, htop']
  · rw [step_cons hs]
    rfl

/-! ## The end of a run (R144) -/

namespace Machine

theorem runEnded_topFlight {s : State} (h : runEnded s) (a : Agent) : s.topFlight a = none := by
  rw [State.topFlight, h.1]
  rfl

theorem runEnded_job? {s : State} (h : runEnded s) (j : Nat) : s.job? j = none := by
  rw [State.job?, h.2.1]
  rfl

/-- With no job every step of SCHED is one of a job that does not exist. -/
theorem schedMove_ended {s : State} (h : runEnded s) (hstart : s.sq.started = true) (j : Nat) :
    ∃ k, schedMove j s = .refused (.noSuchStep (.seqIssue k)) := by
  have htop := runEnded_topFlight h .sched
  cases hrun : s.sq.running with
  | some r =>
    have hjob : ({ s with cur := .sched } : State).job? r = none := runEnded_job? h r
    exact ⟨r, by rw [schedMove_running hstart htop hrun, schedStep, hjob]⟩
  | none => exact ⟨j, by simp [schedMove, hstart, htop, hrun, runEnded_job? h]⟩

theorem timerMove_eq {s : State} {c : Nat} (h : s.topFlight (.tick c) = none) :
    timerMove c s = exec (.pwmTick c) { s with cur := .tick c } := by
  rw [timerMove, h]

theorem withChannel_self {s : State} {c : Int} {ch : Channel} (h : s.channel? c = some ch) :
    withChannel c ch s = s.channels := by
  obtain ⟨-, hlt, rfl⟩ := channel?_some h
  exact List.set_getElem_self hlt

end Machine

/-- Settles O59: nothing stands anywhere, so only the timers of the idle channels have a step. -/
theorem endedRunOnlyTicks : Obligations.EndedRunOnlyTicks := by
  unfold Obligations.EndedRunOnlyTicks
  intro s hend hidle
  refine ⟨fun a => ?_, fun j => ⟨fun hstart => schedMove_ended hend hstart j, fun hstop => by simp [schedMove, hstop]⟩,
    fun c ch hch => ?_⟩
  · rw [resumeAgent, runEnded_topFlight hend]
  have htop := runEnded_topFlight hend (.tick c)
  obtain ⟨-, -, -, hchannels⟩ := hend
  obtain ⟨hm, hrem⟩ := hchannels ch (channel?_mem hch)
  have hmove : runMove (.tick c) s = exec (.pwmTick c) { s with cur := .tick c } :=
    timerMove_eq htop
  have hch' : ({ s with cur := .tick c } : State).channel? c = some ch := hch
  have hfire := (tickChannel_eq hch' hm).1 (by omega)
  rw [hmove]
  refine ⟨fun ht => ?_, fun ht hnow => execPwmTick_waits rfl hch' (.inr ?_), fun ht hdue => ?_⟩
  · rw [execPwmTick_steps rfl hch' hm (tickDue_iff.2 fun h => by cases ht.symm.trans h), hfire, armedAfter]
    simp only [ht, Bool.false_eq_true, if_false]
    rw [withChannel_self hch']
  · rw [← Bool.not_eq_true, tickDue_iff]
    exact fun h => absurd (h ht) (not_le.2 hnow)
  · rw [execPwmTick_steps rfl hch' hm (tickDue_iff.2 fun _ => hdue), hfire, armedAfter]
    simp only [ht, if_true]
    rfl

/-! ## Waits take their length (D40) -/

namespace Machine

theorem elapse_now_le {s : State} (ht : s.cfg.timed = true) (ms : Rat) : s.now + ms ≤ (s.elapse ms).now := by
  have hfree : (0 : Rat) ≤ (Config.freeDelay s.draws : Rat) / 1000 := by positivity
  simp only [State.elapse, ht, if_true]
  linarith

theorem elapse_clock_only (s : State) (ms : Rat) : { s.elapse ms with now := s.now, draws := s.draws } = s := by
  obtain ⟨l, d, h⟩ := elapse_parts s ms
  rw [h]

/-! ### What an operation without a wait leaves of the flights -/

/-- Flights of `t` are those of `s`, or one more of the current agent, which does not hold TL. -/
def PushesOne (s t : State) : Prop :=
  t.flights = s.flights
    ∨ ∃ ph r, ph.holdsTL = false ∧ t.flights = { agent := s.cur, phase := ph, readyAt := r } :: s.flights

section
variable {s t : State}

theorem pushesOne_finish (J : Job) (o : JobOutcome) : PushesOne s ((finishJob J o s).after s) := by
  by_cases hctx : J.ctx = .onSched
  · rw [finishJob_sched hctx, endJob_sched hctx]
    split_ifs
    · exact .inr ⟨_, _, rfl, rfl⟩
    · exact .inl rfl
  · rw [finishJob_blocking hctx, endJob_blocking hctx]
    split_ifs
    · exact .inr ⟨_, _, rfl, rfl⟩
    · exact .inl rfl

theorem pushesOne_issue (J : Job) (p : Nat) : PushesOne s ((issueJob J p s).after s) := by
  have hm := issueJob_cases J p s
  generalize issueJob J p s = m at hm
  cases hm with
  | finished o => exact pushesOne_finish J o
  | sends c f =>
    rw [sendFrame_eq]
    exact .inl (State.elapse_flights _ _)
  | _ => exact .inl rfl

theorem pushesOne_write {op : HostOp} {i : Instr} {id cmd : Int} {ps : List Int}
    (h : (performWrite id cmd ps s).conclude op i s = .next t) : PushesOne s t := by
  obtain ⟨u, v, hp, rfl⟩ | ⟨u, e, hp, rfl⟩ | ⟨-, rfl⟩ := conclude_cases h
  · obtain ⟨f, -, -, rfl, -⟩ := performWrite_done hp
    rw [sendFrame_eq]
    exact .inl (State.elapse_flights _ _)
  · obtain ⟨-, rfl⟩ := performWrite_raised hp
    exact .inl rfl
  · exact .inr ⟨_, _, rfl, rfl⟩

theorem pushesOne_setPosition {c w d : Int} (h : execPwmSetPosition c w d s = .next t) : PushesOne s t := by
  unfold execPwmSetPosition at h
  split at h
  · cases h
    exact .inl rfl
  · split_ifs at h <;> cases h
    · exact .inl rfl
    · exact .inr ⟨_, _, rfl, rfl⟩
    · exact .inl rfl
    · exact .inr ⟨_, _, rfl, rfl⟩

theorem tickChannel_flights (c : Nat) (ch : Channel) (s : State) : (tickChannel c ch s).flights = s.flights := by
  simp only [tickChannel, rearm]
  split_ifs <;> rfl

theorem pushesOne_tick {c : Nat} (h : execPwmTick c s = .next t) : PushesOne s t := by
  unfold execPwmTick at h
  split_ifs at h
  split at h <;> cases h
  split_ifs
  · exact .inl (tickChannel_flights c _ s)
  · exact .inl rfl

theorem pushesOne_setDeviation {c dv : Int} (h : execPwmSetDeviation c dv s = .next t) : PushesOne s t := by
  unfold execPwmSetDeviation at h
  split at h
  · cases h
    exact .inl rfl
  · split_ifs at h <;> cases h
    · exact .inl rfl
    · exact .inr ⟨_, _, rfl, rfl⟩
    · exact .inl rfl

theorem pushesOne_getDeviation {c : Int} (h : execPwmGetDeviation c s = .next t) : PushesOne s t := by
  unfold execPwmGetDeviation at h
  split at h
  · cases h
    exact .inl rfl
  · split_ifs at h <;> cases h
    · exact .inl rfl
    · exact .inr ⟨_, _, rfl, rfl⟩

theorem pushesOne_seqLoad {path : Path} {reps : Int} {locks : List (Int × Int)}
    (h : execSeqLoad path reps locks s = .next t) : PushesOne s t := by
  obtain ⟨_, _, _, hr, -⟩ := storeRead_parts s path
  unfold execSeqLoad at h
  obtain ⟨e, he⟩ | ⟨e, he⟩ | ⟨a, he⟩ := performLoad_cases (s := s) (path := path) (reps := reps) (locks := locks) <;>
    rw [he] at h <;> cases h
  · exact .inl rfl
  · rw [hr]
    exact .inl rfl
  · rw [hr]
    exact .inl rfl

/-- An operation without a wait pushes at most one flight, and none that holds TL. -/
theorem exec_pushesOne {i : Instr} (hi : hasWait i = false) (h : exec i s = .next t) : PushesOne s t := by
  cases i
  case encode => cases h; split <;> exact .inl rfl
  case decode => cases h; exact .inl rfl
  case pwmSetPosition => exact pushesOne_setPosition h
  case pwmTick => exact pushesOne_tick h
  case pwmSetDeviation => exact pushesOne_setDeviation h
  case pwmGetDeviation => exact pushesOne_getDeviation h
  case seqLoad => exact pushesOne_seqLoad h
  case seqPlay sets bl cb =>
    cases bl
    · simp only [exec, execSeqPlay, Bool.false_eq_true, if_false] at h
      split_ifs at h
      cases h
      exact .inl rfl
    · cases hi
  case seqIssue =>
    obtain ⟨J, -, -, hs⟩ := internalStep_next h
    split at hs <;> cases hs
    exact pushesOne_issue J _
  case seqSleep =>
    obtain ⟨J, -, -, hs⟩ := internalStep_next h
    split at hs <;> cases hs
    unfold suspendJob
    split <;> exact .inl rfl
  case seqWake =>
    obtain ⟨J, -, -, hs⟩ := internalStep_next h
    split at hs <;> cases hs
    split <;> exact .inl rfl
  case seqFinish =>
    obtain ⟨J, -, -, hs⟩ := internalStep_next h
    split at hs <;> cases hs
    exact pushesOne_finish J _
  case moveTimeWrite | moveStop | idWrite | angleOffsetAdjust | angleOffsetWrite | angleLimitWrite | vinLimitWrite
      | tempMaxLimitWrite | loadOrUnloadWrite | twrite | busSetId | busSetPosition | busStop | busSetDeviation
      | busSaveDeviation | busSetAngleLimit | busSetVinLimit | busSetTempLimit | busUnload => exact pushesOne_write h
  all_goals cases hi

/-- The operations with a wait: the exchanges, the two resets and the blocking playback. -/
theorem hasWait_cases {i : Instr} (cfg : Config) (hi : hasWait i = true) :
    (∃ r, readCall? cfg i = some r) ∨ i = .lineReset ∨ (∃ id, i = .busReset id) ∨ ∃ sets cb, i = .seqPlay sets true cb := by
  cases i
  case lineReset => exact .inr (.inl rfl)
  case busReset id => exact .inr (.inr (.inl ⟨id, rfl⟩))
  case seqPlay sets bl cb =>
    cases bl
    · cases hi
    · exact .inr (.inr (.inr ⟨sets, cb, rfl⟩))
  case tread | moveTimeRead | idRead | angleOffsetRead | angleLimitRead | vinLimitRead | tempMaxLimitRead | tempRead | vinRead
      | posRead | loadOrUnloadRead | busGetId | busGetDeviation | busGetAngleLimit | busGetVinLimit | busGetTempLimit
      | busGetPosition | busGetTemp | busGetVin | busGetLoadState => exact .inl ⟨_, rfl⟩
  all_goals cases hi

theorem begin_read {i : Instr} {r : ReadCall} (hr : readCall? s.cfg i = some r) :
    begin i s = beginRead r.op i r.id r.cmd r.ps r.budget s := by
  simp only [begin, hr]

/-- An operation that has no wait is not cut: begun it is as called. -/
theorem begin_eq_exec {i : Instr} (hi : hasWait i = false) (s : State) : begin i s = exec i s := by
  have hread : readCall? s.cfg i = none := by
    cases i <;> simp only [hasWait, Bool.true_eq_false] at hi <;> rfl
  simp only [begin, hread]
  split
  · cases hi
  · cases hi
  · cases hi
  · rfl

end

/-! ### Where operations stop, and until when -/

/-- The flight `f` stands in Wait(REQ) or on the closed side of a line reset until the wait's length after `t`'s clock. -/
def WaitsFrom (t : State) (f : Flight) : Prop :=
  (∀ x, f.phase = .readReq x → f.readyAt = t.now + t.cfg.tReq)
    ∧ (f.phase = .lineClosed → f.readyAt = t.now + (t.cfg.tLineReset : Rat))

section
variable {s t : State} {f : Flight}

/-- A flight that does not hold TL stands in neither. -/
theorem waitsFrom_of_not_holdsTL (hf : f.phase.holdsTL = false) : WaitsFrom t f :=
  ⟨fun x hx => (by rw [hx] at hf; cases hf), fun hx => (by rw [hx] at hf; cases hf)⟩

theorem waitsFrom_of_pushesOne (h : PushesOne s t) (hf : t.flights = f :: s.flights) : WaitsFrom t f := by
  rcases h with he | ⟨ph, r, hph, he⟩
  · have := congrArg List.length (hf.symm.trans he)
    simp at this
  · rw [(List.cons.inj (hf.symm.trans he)).1]
    exact waitsFrom_of_not_holdsTL hph

theorem waitsFrom_beginRead {op : HostOp} {i : Instr} {id cmd b : Int} {ps : List Int}
    (h : beginRead op i id cmd ps b s = .next t) (hf : t.flights = f :: s.flights) : WaitsFrom t f := by
  unfold beginRead at h
  split at h
  · cases h
    exact waitsFrom_of_pushesOne (.inl rfl) hf
  next req _ =>
  split_ifs at h
  · cases h
    exact waitsFrom_of_pushesOne (.inl rfl) hf
  · split at h <;> cases h
    · exact waitsFrom_of_pushesOne (.inl rfl) hf
    · rw [State.pushFlight, (lineOnly_send s.acquireTL req).fl] at hf
      rw [← (List.cons.inj hf).1]
      exact ⟨fun _ _ => rfl, fun hx => (by cases hx)⟩
  · cases h
    exact waitsFrom_of_pushesOne (.inr ⟨_, _, rfl, rfl⟩) hf

theorem waitsFrom_beginLineReset (h : beginLineReset s = .next t) (hf : t.flights = f :: s.flights) : WaitsFrom t f := by
  unfold beginLineReset at h
  split_ifs at h <;> cases h
  · rw [← (List.cons.inj hf).1]
    exact ⟨fun x hx => (by cases hx), fun _ => rfl⟩
  · exact waitsFrom_of_pushesOne (.inr ⟨_, _, rfl, rfl⟩) hf

theorem waitsFrom_beginBusReset {id : Int} (h : beginBusReset id s = .next t) (hf : t.flights = f :: s.flights) :
    WaitsFrom t f := by
  refine waitsFrom_of_pushesOne ?_ hf
  unfold beginBusReset at h
  rcases hr : resetFirst id s with ⟨u, v⟩ | ⟨u, e⟩ | _ <;> rw [hr] at h <;> cases h
  · obtain ⟨g, -, -, rfl, -⟩ := performWrite_done hr
    refine .inr ⟨.resetWrote id, (sendFrame g s).now, rfl, ?_⟩
    rw [sendFrame_eq, State.pushFlight, State.elapse_flights, State.elapse_cur]
  · obtain ⟨-, rfl⟩ := performWrite_raised hr
    exact .inl rfl
  · exact .inr ⟨_, _, rfl, rfl⟩

/-- Where an operation begun stops, its flight holds the clock at the wait's begin and the wait's length. -/
theorem waitsFrom_begin {i : Instr} (h : begin i s = .next t) (hf : t.flights = f :: s.flights) : WaitsFrom t f := by
  cases hi : hasWait i with
  | false => exact waitsFrom_of_pushesOne (exec_pushesOne hi (begin_eq_exec hi s ▸ h)) hf
  | true =>
    obtain ⟨r, hr⟩ | rfl | ⟨id, rfl⟩ | ⟨sets, cb, rfl⟩ := hasWait_cases s.cfg hi
    · exact waitsFrom_beginRead (begin_read hr ▸ h) hf
    · exact waitsFrom_beginLineReset h hf
    · exact waitsFrom_beginBusReset h hf
    · cases h
      exact waitsFrom_of_pushesOne (s := s) (.inr ⟨.playing _, _, rfl, rfl⟩) hf

end

/-! ### Going on -/

section
variable {s : State} {a : Agent} {f : Flight}

theorem reached_eq_false (ht : s.cfg.timed = true) {r : Rat} (h : s.now < r) : s.reached r = false := by
  simp [State.reached, ht, h]

theorem resumeTurn_flights (x : Exchange) (s : State) : (resumeTurn x s).flights =
    { agent := s.cur, phase := .readSettle x, readyAt := (resumeTurn x s).now + s.cfg.tSettle } :: s.flights := rfl

/-- After Wait(SETTLE) the exchange is over and TL free, or it stands in the Wait(REQ) of its next attempt. -/
theorem resumeInspect_cases (x : Exchange) (s : State) :
    ((resumeInspect x s).T.tl = .free ∧ (resumeInspect x s).flights = s.flights)
    ∨ ∃ n, x.left = n + 1 ∧ (resumeInspect x s).flights =
      { agent := s.cur, phase := .readReq { x with left := n }, readyAt := (resumeInspect x s).now + s.cfg.tReq }
        :: s.flights := by
  have hline := lineOnly_inspect s x.cmd
  have hcfg := (attemptInspect_evolves (s := s) x.cmd).cfg
  unfold resumeInspect
  rcases hi : attemptInspect x.cmd s with ⟨t, _ | v⟩ <;> rw [hi] at hline hcfg
  · rcases x.left with _ | n
    · exact .inl ⟨rfl, hline.fl⟩
    · have hall : LineOnly s (attemptSend x.req t) := hline.trans (lineOnly_send t x.req)
      have hcfg' : (attemptSend x.req t).cfg = s.cfg := (attemptSend_evolves x.req).cfg.trans hcfg
      refine .inr ⟨n, rfl, ?_⟩
      simp only [State.pushFlight, hall.fl, hall.cur, hcfg']
  · exact .inl ⟨rfl, hline.fl⟩

end

end Machine

/-- Settles O60: time only ever passes by a length named, and each wait begun is due its length later. -/
theorem waitsTakeTheirLength : Obligations.WaitsTakeTheirLength := by
  unfold Obligations.WaitsTakeTheirLength
  intro s
  refine ⟨fun ms => ⟨fun ht => elapse_now_le ht ms, fun ht => State.elapse_untimed s ms ht, elapse_clock_only s ms⟩,
    fun i t f h hf => ?_, fun a f hf => ⟨fun ht hnow => resumeAgent_waits hf (reached_eq_false ht hnow), fun hr => ?_⟩⟩
  · have hcfg : t.cfg = s.cfg := (begin_any h).cfg
    rw [← hcfg]
    exact waitsFrom_begin h hf
  · intro left
    simp only [resumeAgent_eq hf hr]
    refine ⟨fun x hx => ⟨_, by rw [hx]; rfl, resumeTurn_flights x _⟩, fun x hx => ⟨_, by rw [hx]; rfl, ?_⟩,
      fun hx => ⟨_, by rw [hx]; rfl, rfl⟩, fun id hx => ⟨_, by rw [hx]; rfl, rfl⟩⟩
    rcases resumeInspect_cases x (({ s with cur := a } : State).popFlight a) with ⟨-, h⟩ | ⟨n, -, h⟩
    · exact .inl h
    · exact .inr ⟨{ x with left := n }, h⟩

end Sys2Proof
end

/-! # Operations cut at their waits: the lock waits (R48) and the way on to what exec gives (R9, R132) -/

section
namespace Sys2Proof
namespace Machine
open Claims

/-! ## An operation begun while TL is held -/

section
variable {s : State} {i : Instr} {b : Agent}

/-- A reading operation is one TREAD of its call. -/
theorem exec_read {r : ReadCall} (hr : readCall? s.cfg i = some r) :
    exec i s = (performRead r.id r.cmd r.ps r.budget s).conclude r.op i s := by
  cases i <;> cases hr <;> rfl

theorem beginRead_held (op : HostOp) (i : Instr) (id cmd : Int) (ps : List Int) (budget : Int) (hl : s.T.tl = .held b) :
    beginRead op i id cmd ps budget s = (performRead id cmd ps budget s).conclude op i s := by
  simp only [beginRead, performRead, tlFree_eq_false hl, Bool.false_eq_true, if_false]
  split
  · rfl
  · split_ifs <;> rfl

theorem beginLineReset_held (hl : s.T.tl = .held b) : beginLineReset s = execLineReset s := by
  simp [beginLineReset, execLineReset, performLineReset, tlFree_eq_false hl]

theorem beginBusReset_held (id : Int) (hl : s.T.tl = .held b) : beginBusReset id s = execBusReset id s := by
  rcases hr : resetFirst id s with ⟨u, v⟩ | ⟨u, e⟩ | _
  · obtain ⟨g, -, hfree, -, -⟩ := performWrite_done hr
    rw [hfree] at hl
    cases hl
  · simp only [beginBusReset, execBusReset, hr]
  · simp only [beginBusReset, execBusReset, hr]

/-- While TL is held an operation begun is as called: nothing but a blocking playback gets past the lock. -/
theorem begin_eq_exec_of_held (hl : s.T.tl = .held b) (hi : ∀ sets cb, i ≠ .seqPlay sets true cb) :
    begin i s = exec i s := by
  cases hw : hasWait i with
  | false => exact begin_eq_exec hw s
  | true =>
    obtain ⟨r, hr⟩ | rfl | ⟨id, rfl⟩ | ⟨sets, cb, rfl⟩ := hasWait_cases s.cfg hw
    · rw [begin_read hr, exec_read hr, beginRead_held _ _ _ _ _ _ hl]
    · exact beginLineReset_held hl
    · exact beginBusReset_held id hl
    · exact absurd rfl (hi sets cb)

end

/-! ## Going on at a lock -/

section
variable {s : State} {id : Int}

theorem resumeResetWaited_bad_id (hid : ¬ (0 ≤ id ∧ id ≤ 254)) :
    resumeResetWaited id s = ended .busReset (.raised (.encodeRange .deviceId)) s := by
  have hbad : idOk id = false := by rwa [← idOk_iff, Bool.not_eq_true] at hid
  have hsecond : resetSecond id s = .raised s (.encodeRange .deviceId) := performWrite_error (encode_bad_id hbad)
  rw [resumeResetWaited, hsecond]
  rfl

theorem resumeResetWaited_free {g : Frame} (hg : encodeFrame s.cfg id (s.cfg.cmdInt .moveTimeWrite) [500, 1000] = .ok g)
    (hl : s.T.tl = .free) : resumeResetWaited id s = sent .busReset g s := by
  have hsecond : resetSecond id s = .done (sendFrame g s) .done := performWrite_free hg hl
  rw [resumeResetWaited, hsecond, ← sendFrame_answer]

theorem resumeResetWaited_held {g : Frame} {b : Agent}
    (hg : encodeFrame s.cfg id (s.cfg.cmdInt .moveTimeWrite) [500, 1000] = .ok g) (hl : s.T.tl = .held b) :
    resumeResetWaited id s = s.pushFlight (.resetWaited id) s.now := by
  have hsecond : resetSecond id s = .blocked := performWrite_held hg hl
  rw [resumeResetWaited, hsecond]

/-- A playable command whose lock is held is blocked. -/
theorem issueCmd_blocked {J : Job} {p : Nat} {c : Cmd} (hplay : playable s c) (hclamps : s.cfg.clampsOk = true)
    (hlock : (channelKind s.cfg c.col = .serial ∧ ∃ b, s.T.tl = .held b)
      ∨ (channelKind s.cfg c.col = .pwm ∧ ∃ ch, s.channel? c.col = some ch ∧ ch.mutex ≠ .free)) :
    issueCmd J p c s = .blocked := by
  rcases hlock with ⟨hkind, b, hl⟩ | ⟨hkind, ch, hch, hm⟩
  · simp only [playable, hkind] at hplay
    obtain ⟨f, hf⟩ := moveFrame_ok hclamps (c.col : Int) c.pos c.dur (by omega) (by omega)
    exact issueCmd_serial_held hkind hf hl
  · simp only [playable, hkind, hch] at hplay
    obtain ⟨_, ⟨⟩, hlo, hhi⟩ := hplay
    exact issueCmd_pwm_locked hkind (pwmCheck_eq_ok hch hlo hhi (Int.natCast_nonneg _)) hm

end
end Machine

open Machine Claims

/-- Settles O16: each place an agent waits for a lock in, with the lock free and with it held. -/
theorem lockWaitsEnd : Obligations.LockWaitsEnd := by
  unfold Obligations.LockWaitsEnd
  intro s a f hf hr u
  rw [resumeAgent_eq hf hr]
  refine ⟨fun i hp => ?_, fun id hp => ?_, fun c w d c0 hp => ?_, fun j p J c hp hJ hph hk hc hplay hclamps hlock => ?_⟩
  · have hbegin : resumePhase f.phase { s with cur := a } = begin i u := by rw [hp]; rfl
    exact ⟨hbegin, fun b hl hi => hbegin.trans (begin_eq_exec_of_held (s := u) hl hi)⟩
  · have hresume : resumePhase f.phase { s with cur := a } = .next (resumeResetWaited id u) := by rw [hp]; rfl
    rw [hresume]
    refine ⟨fun hid => congrArg _ (resumeResetWaited_bad_id hid), fun h0 h1 => ?_⟩
    have hg := resetSecond_frame s.cfg ((idOk_iff id).2 ⟨h0, h1⟩)
    exact ⟨_, hg, fun hl => congrArg _ (resumeResetWaited_free (s := u) hg hl),
      fun b hl => congrArg _ (resumeResetWaited_held (s := u) hg hl)⟩
  · have hresume : resumePhase f.phase { s with cur := a } = .next (resumePwmSplit c w d c0 u) := by rw [hp]; rfl
    rw [hresume]
    refine ⟨fun hch => congrArg _ (resumePwmSplit_no_channel (s := u) c0 hch), fun ch hch => ⟨fun hm => ?_, fun hm =>
      congrArg _ (resumePwmSplit_locked (s := u) c0 hch hm)⟩⟩
    rw [resumePwmSplit_free (s := u) c0 hch hm, setPosTimed_eq (s := u) c0 hch hm]
    rfl
  · have hblocked : issueJob J p { s with cur := a } = .blocked := by
      rw [issueJob_cmd hk hc]
      exact issueCmd_blocked (s := { s with cur := a }) hplay hclamps hlock
    have hJ' : ({ s with cur := a } : State).job? j = some J := hJ
    rw [hp, resumePhase, resumePlaying_issue hJ' hph, playStep_blocked hJ' hph hblocked]
    rfl

end Sys2Proof
end

/-! # An operation cut at its waits comes to what exec gives (R9, R132) -/

section
namespace Sys2Proof
namespace Machine
open Claims

/-! ## Going on from a flight just pushed -/

section
variable {s : State} {ph : FlightPhase} {r : Rat}

theorem topFlight_pushFlight (s : State) (ph : FlightPhase) (r : Rat) :
    (s.pushFlight ph r).topFlight s.cur = some { agent := s.cur, phase := ph, readyAt := r } := by
  simp [State.topFlight, State.pushFlight]

theorem popFlight_pushFlight (s : State) (ph : FlightPhase) (r : Rat) : (s.pushFlight ph r).popFlight s.cur = s := by
  simp [State.popFlight, State.pushFlight]

theorem reached_untimed (ht : s.cfg.timed = false) : s.reached r = true := by simp [State.reached, ht]

/-- The current agent goes on from the phase it has just entered. -/
theorem resumeAgent_pushFlight (ht : s.cfg.timed = false) :
    resumeAgent s.cur (s.pushFlight ph r) = resumePhase ph (s.pushFlight ph r) :=
  resumeAgent_eq (topFlight_pushFlight s ph r) (reached_untimed (s := s.pushFlight ph r) ht)

/-- One step of `goOn` from the phase just entered, whose going on only looks at the state without its flight. -/
theorem goOn_pushFlight {t : State} (n : Nat) (ht : s.cfg.timed = false)
    (h : ∀ u : State, u.popFlight u.cur = s → resumePhase ph u = .next t) :
    goOn s.cur (n + 1) (.next (s.pushFlight ph r)) = goOn s.cur n (.next t) := by
  rw [goOn, resumeAgent_pushFlight ht, h _ (popFlight_pushFlight s ph r)]

end

/-! ## The attempts of a read -/

section
variable {s : State}

theorem attempt_untimed (cmd : Int) (req : Frame) (ht : s.cfg.timed = false) :
    attempt cmd req s = attemptInspect cmd (attemptTurn (attemptSend req s)) := by
  have hsend : (attemptSend req s).cfg.timed = false := by rw [(attemptSend_evolves req).cfg, ht]
  have hturn : (attemptTurn (attemptSend req s)).cfg.timed = false := by rw [attemptTurn_evolves.cfg, hsend]
  rw [attempt, State.elapse_untimed _ _ hsend, State.elapse_untimed _ _ hturn]

/-- An attempt begun goes on to its inspection in two steps. -/
theorem goOn_attempt (x : Exchange) (r : Rat) (n : Nat) (ht : s.cfg.timed = false) :
    goOn s.cur (n + 2) (.next ((attemptSend x.req s).pushFlight (.readReq x) r)) =
      goOn s.cur n (.next (resumeInspect x (attemptTurn (attemptSend x.req s)))) := by
  have hcur : (attemptSend x.req s).cur = s.cur := (lineOnly_send s x.req).cur
  have hcur' : (attemptTurn (attemptSend x.req s)).cur = s.cur := (lineOnly_aturn _).cur.trans hcur
  have hsend : (attemptSend x.req s).cfg.timed = false := by rw [(attemptSend_evolves x.req).cfg, ht]
  have hturn : (attemptTurn (attemptSend x.req s)).cfg.timed = false := by rw [attemptTurn_evolves.cfg, hsend]
  calc goOn s.cur (n + 2) (.next ((attemptSend x.req s).pushFlight (.readReq x) r))
      = goOn s.cur (n + 1) (.next (resumeTurn x (attemptSend x.req s))) := by
        rw [← hcur]
        exact goOn_pushFlight (n + 1) hsend fun u hu => hu ▸ rfl
    _ = goOn s.cur n (.next (resumeInspect x (attemptTurn (attemptSend x.req s)))) := by
        rw [← hcur']
        exact goOn_pushFlight n hturn fun u hu => hu ▸ rfl

/-- From Wait(REQ) of an attempt with `n` left, the agent going on comes to what the whole loop gives. -/
theorem goOn_attempts (op : HostOp) (cmd : Int) (req : Frame) (n : Nat) (r : Rat) (ht : s.cfg.timed = false) :
    ∃ k, goOn s.cur k (.next ((attemptSend req s).pushFlight (.readReq { op := op, cmd := cmd, req := req, left := n }) r))
      = .next ((readLoop cmd req (n + 1) s).1.releaseTL.answer op (readLoop cmd req (n + 1) s).2) := by
  induction n generalizing s r with
  | zero =>
    refine ⟨2, ?_⟩
    rw [goOn_attempt _ r 0 ht, goOn, resumeInspect, readLoop, attempt_untimed cmd req ht]
    rcases attemptInspect cmd (attemptTurn (attemptSend req s)) with ⟨t, _ | v⟩ <;> rfl
  | succ n ih =>
    have hline := lineOnly_attempt s cmd req
    have hcfg := (attempt_evolves (s := s) cmd req).cfg
    rw [readLoop]
    rcases ha : attempt cmd req s with ⟨t, _ | v⟩ <;> rw [ha] at hline hcfg <;> rw [attempt_untimed cmd req ht] at ha
    · have ht' : t.cfg.timed = false := by rw [hcfg, ht]
      obtain ⟨k, hk⟩ := ih (s := t) _ ht'
      refine ⟨k + 2, ?_⟩
      rw [goOn_attempt _ r k ht, resumeInspect, ha, ← hline.cur]
      exact hk
    · refine ⟨2, ?_⟩
      rw [goOn_attempt _ r 0 ht, goOn, resumeInspect, ha]

/-- A read begun with TL free goes on to what the read gives. -/
theorem goOn_beginRead (op : HostOp) (i : Instr) (id cmd : Int) (ps : List Int) (budget : Int) (ht : s.cfg.timed = false)
    (hl : s.T.tl = .free) :
    ∃ n, goOn s.cur n (beginRead op i id cmd ps budget s) = (performRead id cmd ps budget s).conclude op i s := by
  unfold beginRead performRead
  split
  · exact ⟨0, rfl⟩
  next req hreq =>
  by_cases hb : budget < 0
  · exact ⟨0, by simp only [goOn, hb, if_true]⟩
  simp only [hb, tlFree_eq_true hl, if_true, if_false]
  rcases budget.toNat with _ | n
  · exact ⟨0, rfl⟩
  · exact goOn_attempts (s := s.acquireTL) op cmd req n _ ht

/-! ## The two resets -/

theorem goOn_beginLineReset (ht : s.cfg.timed = false) (hl : s.T.tl = .free) :
    goOn s.cur 2 (beginLineReset s) = execLineReset s := by
  have hreopen : goOn s.cur 1 (.next (resumeLineClosed (lineClose s)))
      = goOn s.cur 0 (.next (resumeLineOpened (lineReopen (lineClose s)))) :=
    goOn_pushFlight (s := lineReopen (lineClose s)) 0 ht fun u hu => hu ▸ rfl
  rw [beginLineReset, if_pos (tlFree_eq_true hl)]
  calc goOn s.cur 2 (.next ((lineClose s).pushFlight .lineClosed _))
      = goOn s.cur 1 (.next (resumeLineClosed (lineClose s))) :=
        goOn_pushFlight (s := lineClose s) 1 ht fun u hu => hu ▸ rfl
    _ = execLineReset s := by
        rw [hreopen, execLineReset, performLineReset, if_pos (tlFree_eq_true hl),
          State.elapse_untimed (lineClose s) _ ht, State.elapse_untimed (lineReopen (lineClose s)) _ ht]
        rfl

theorem performWrite_ne_blocked {id cmd : Int} {ps : List Int} (hl : s.T.tl = .free) : performWrite id cmd ps s ≠ .blocked := by
  unfold performWrite
  split
  · simp
  · simp [tlFree_eq_true hl]

/-- With TL free the second write of BUS_RESET resumed is as performed. -/
theorem resumeResetWaited_eq_conclude (id : Int) (i : Instr) (u : State) (hl : s.T.tl = .free) :
    Host.Outcome.next (resumeResetWaited id s) = (resetSecond id s).conclude .busReset i u := by
  rcases hr : resetSecond id s with ⟨t, v⟩ | ⟨t, e⟩ | _
  · rw [resumeResetWaited, hr]
    rfl
  · rw [resumeResetWaited, hr]
    rfl
  · exact absurd hr (performWrite_ne_blocked hl)

theorem goOn_beginBusReset (id : Int) (ht : s.cfg.timed = false) :
    ∃ n, goOn s.cur n (beginBusReset id s) = execBusReset id s := by
  rcases hr : resetFirst id s with ⟨t, v⟩ | ⟨t, e⟩ | _
  · obtain ⟨f, -, -, rfl, -⟩ := performWrite_done hr
    have hsent : (sendFrame f s).cur = s.cur ∧ (sendFrame f s).cfg = s.cfg ∧ (sendFrame f s).T.tl = .free := by
      simp [sendFrame_eq]
    obtain ⟨hcur, hcfg, hfree⟩ := hsent
    have ht' : (sendFrame f s).cfg.timed = false := by rw [hcfg, ht]
    have hdelay : goOn s.cur 1 (.next (resumeResetWrote id (sendFrame f s)))
        = goOn s.cur 0 (.next (resumeResetWaited id (resetDelay (sendFrame f s)))) := by
      rw [← hcur]
      exact goOn_pushFlight (s := resetDelay (sendFrame f s)) 0 ht' fun u hu => hu ▸ rfl
    refine ⟨2, ?_⟩
    simp only [beginBusReset, execBusReset, hr]
    calc goOn s.cur 2 (.next ((sendFrame f s).pushFlight (.resetWrote id) (sendFrame f s).now))
        = goOn s.cur 1 (.next (resumeResetWrote id (sendFrame f s))) := by
          rw [← hcur]
          exact goOn_pushFlight 1 ht' fun u hu => hu ▸ rfl
      _ = _ := by
          rw [hdelay, goOn, State.elapse_untimed (resetDelay (sendFrame f s)) _ ht']
          exact resumeResetWaited_eq_conclude id _ s hfree
  · exact ⟨0, by simp only [goOn, beginBusReset, execBusReset, hr]⟩
  · exact ⟨0, by simp only [goOn, beginBusReset, execBusReset, hr]⟩

/-! ## A blocking playback -/

theorem finishJob_ne_moved (J : Job) (o : JobOutcome) (s t : State) : finishJob J o s ≠ .moved t := by
  simp only [finishJob]
  split <;> simp

/-- A step of a job that goes on changes neither the flights nor the agent nor the parameters. -/
theorem issueJob_moved {J : Job} {p : Nat} {t : State} (h : issueJob J p s = .moved t) :
    t.flights = s.flights ∧ t.cur = s.cur ∧ t.cfg = s.cfg := by
  have hm := issueJob_cases J p s
  rw [h] at hm
  generalize hg : JobMove.moved t = m at hm
  cases hm with
  | finished o => exact absurd hg.symm (finishJob_ne_moved J o s t)
  | waits => cases hg
  | sends c f =>
    cases hg
    simp [sendFrame_eq]
  | _ =>
    cases hg
    exact ⟨rfl, rfl, rfl⟩

/-- A step of a blocking playback that goes on leaves its caller where it stood. -/
theorem playStep_on_keeps {j : Nat} {t : State} (h : playStep j s = .on t) :
    t.flights = s.flights ∧ t.cur = s.cur ∧ t.cfg = s.cfg := by
  unfold playStep at h
  split at h
  · cases h
  split at h
  · split at h <;> cases h
    next hm => exact issueJob_moved hm
  · cases h
    exact ⟨rfl, rfl, rfl⟩
  · cases h

/-- Without TIMED a playing caller goes on by one step of its playback. -/
theorem resumePlaying_untimed (j : Nat) (ht : s.cfg.timed = false) : resumePlaying j s = (playStep j s).state := by
  cases hJ : s.job? j with
  | none => simp only [resumePlaying, playStep, hJ, PlayMove.state]
  | some J =>
    cases hp : J.phase with
    | issue p => exact resumePlaying_issue hJ hp
    | sleep d =>
      have hover : s.sleepOver J d = true := reached_untimed ht
      simp only [resumePlaying, playStep, hJ, hp, hover, if_true, PlayMove.state]
    | done => simp only [resumePlaying, playStep, hJ, hp, PlayMove.state]

theorem sleepThrough_untimed (j : Nat) (ht : s.cfg.timed = false) : sleepThrough j s = s := by
  unfold sleepThrough
  split
  · rfl
  · split
    · exact State.elapse_untimed _ _ ht
    · rfl
    · rfl

/-- A caller that stands in its playback goes on to what the playback run without interruption gives. -/
theorem goOn_playing {f : Flight} {j : Nat} (n : Nat) (ht : s.cfg.timed = false) (hf : s.topFlight s.cur = some f)
    (hph : f.phase = .playing j) : ∃ k, goOn s.cur k (.next s) = .next (runBlocking j n s) := by
  induction n generalizing s with
  | zero => exact ⟨0, rfl⟩
  | succ n ih =>
    have hresume : resumeAgent s.cur s = .next (playStep j s).state := by
      rw [resumeAgent_eq hf (reached_untimed ht), hph, ← resumePlaying_untimed j ht]
      rfl
    rw [runBlocking, sleepThrough_untimed j ht]
    rcases hstep : playStep j s with t | t | t
    · obtain ⟨hfl, hcur, hcfg⟩ := playStep_on_keeps hstep
      obtain ⟨k, hk⟩ := ih (s := t) (by rw [hcfg, ht]) (by rw [State.topFlight, hfl, hcur]; exact hf)
      refine ⟨k + 1, ?_⟩
      rw [goOn, hresume, hstep, ← hcur]
      exact hk
    · exact ⟨1, by rw [goOn, hresume, hstep]; rfl⟩
    · exact ⟨1, by rw [goOn, hresume, hstep]; rfl⟩

/-- Without TIMED, an operation begun whose agent goes on comes to what exec gives. -/
theorem goOn_begin (i : Instr) (ht : s.cfg.timed = false) : ∃ n, goOn s.cur n (begin i s) = exec i s := by
  cases hw : hasWait i with
  | false => exact ⟨0, begin_eq_exec hw s⟩
  | true =>
    obtain ⟨r, hr⟩ | rfl | ⟨id, rfl⟩ | ⟨sets, cb, rfl⟩ := hasWait_cases s.cfg hw
    · rw [begin_read hr, exec_read hr]
      cases hl : s.T.tl with
      | free => exact goOn_beginRead _ _ _ _ _ _ ht hl
      | held b => exact ⟨0, beginRead_held _ _ _ _ _ _ hl⟩
    · cases hl : s.T.tl with
      | free => exact ⟨2, goOn_beginLineReset ht hl⟩
      | held b => exact ⟨0, beginLineReset_held hl⟩
    · exact goOn_beginBusReset id ht
    · exact goOn_playing (s := startBlocking sets cb s) (jobSteps sets) ht
        (topFlight_pushFlight (s.addJob sets (.onCaller s.cur) cb) _ _) rfl

end

/-! ## Where the operations stop -/

section
variable {s : State}

/-- TREAD with TL free and an attempt to make stops in its first Wait(REQ). -/
theorem begin_tread {id cmd : Int} {ps : List Int} {req : Frame} (n : Nat) (hl : s.T.tl = .free)
    (hreq : encodeFrame s.cfg id cmd ps = .ok req) : begin (.tread id cmd ps ((n + 1 : Nat) : Int)) s = .next
      ((attemptSend req s.acquireTL).pushFlight (.readReq { op := .tread, cmd := cmd, req := req, left := n })
        ((attemptSend req s.acquireTL).now + (attemptSend req s.acquireTL).cfg.tReq)) := by
  have hb : ¬ ((n + 1 : Nat) : Int) < 0 := by omega
  rw [begin_read rfl, beginRead]
  simp only [hreq, hb, tlFree_eq_true hl, Int.toNat_natCast, if_true, if_false]

theorem begin_busReset {id : Int} {f : Frame} (hl : s.T.tl = .free)
    (hf : encodeFrame s.cfg id (s.cfg.cmdInt .angleOffsetAdjust) [0] = .ok f) :
    begin (.busReset id) s = .next ((sendFrame f s).pushFlight (.resetWrote id) (sendFrame f s).now) := by
  have hfirst : resetFirst id s = .done (sendFrame f s) .done := performWrite_free hf hl
  change beginBusReset id s = _
  rw [beginBusReset, hfirst]

section
variable {j p : Nat} {J : Job} {t : State}

/-- A step of a job that goes on keeps the job. -/
theorem issueJob_moved_job (hJ : s.job? j = some J) (h : issueJob J p s = .moved t) : t.job? j ≠ none := by
  have hm := issueJob_cases J p s
  rw [h] at hm
  have hkeep {u : State} {K : Job} (hu : u.sq.jobs = s.sq.jobs) (hK : K.id = J.id) : (u.setJob K).job? j ≠ none := by
    rw [job?_setJob ((job?_congr hu j).trans hJ) (hK.trans (job_id hJ))]
    exact Option.some_ne_none K
  generalize hg : JobMove.moved t = m at hm
  cases hm with
  | finished o => exact absurd hg.symm (finishJob_ne_moved J o s t)
  | waits => cases hg
  | sends c f =>
    cases hg
    exact hkeep (by rw [sendFrame_eq, State.elapse_sq]) rfl
  | _ =>
    cases hg
    exact hkeep rfl rfl

/-- A job of a caller that completes is removed, after its COMPLETE. -/
theorem issueJob_finished {o : JobOutcome} (hctx : J.ctx ≠ .onSched) (h : issueJob J p s = .finished t o) :
    t = (s.emit (.complete J.id o)).removeJob J.id := by
  have hm := issueJob_cases J p s
  rw [h] at hm
  generalize hg : JobMove.finished t o = m at hm
  cases hm with
  | finished o' =>
    rw [finishJob_blocking hctx] at hg
    split_ifs at hg
    cases hg
    exact endJob_blocking hctx
  | _ => cases hg

/-- Inside the onComplete body of a job of a caller the job is still there. -/
theorem issueJob_inBody (hJ : s.job? j = some J) (hctx : J.ctx ≠ .onSched) (h : issueJob J p s = .inBody t) :
    t.job? j ≠ none := by
  have hm := issueJob_cases J p s
  rw [h] at hm
  generalize hg : JobMove.inBody t = m at hm
  cases hm with
  | finished o =>
    rw [finishJob_blocking hctx] at hg
    split_ifs at hg
    cases hg
    have hJ' : (s.emit (.complete J.id o)).job? j = some J := hJ
    have hdone : ((s.emit (.complete J.id o)).setJob { J with phase := .done }).job? j = some { J with phase := .done } :=
      job?_setJob hJ' (show J.id = j from job_id hJ)
    exact fun hnone => Option.some_ne_none _ (hdone.symm.trans hnone)
  | _ => cases hg

/-- Where a playing caller's job issues, its going on is SEQ_ISSUE; where the job is then gone, SEQ_PLAY has returned. -/
theorem playStep_issues (hJ : s.job? j = some J) (hctx : J.ctx ≠ .onSched) (hp : J.phase = .issue p)
    (ht : (issueJob J p s).after s = t) :
    (t.job? j ≠ none → (playStep j s).state = t)
    ∧ (t.job? j = none → ∃ o, t.trace = s.trace ++ [.complete j o]
      ∧ (playStep j s).state = { t with
          flights := s.flights.eraseP fun g => g.agent == s.cur,
          trace := t.trace ++ [.result s.cur .seqPlay (outcomeResult o)] }) := by
  rcases hres : issueJob J p s with u | ⟨u, o⟩ | u | _ <;> rw [hres] at ht <;> cases ht
  · exact ⟨fun _ => by rw [playStep_moved hJ hp hres]; rfl, fun h => absurd h (issueJob_moved_job hJ hres)⟩
  · have hu := issueJob_finished hctx hres
    rw [job_id hJ] at hu
    refine ⟨fun h => absurd (hu ▸ job?_removeJob _ j) h, fun _ => ⟨o, by rw [hu]; rfl, ?_⟩⟩
    rw [playStep_finished hJ hp hres, hu]
    rfl
  · exact ⟨fun _ => by rw [playStep_inBody hJ hp hres]; rfl, fun h => absurd h (issueJob_inBody hJ hctx hres)⟩
  · rw [JobMove.after]
    exact ⟨fun _ => by rw [playStep_blocked hJ hp hres]; rfl, fun h => absurd (hJ.symm.trans h) (Option.some_ne_none J)⟩

end

end
end Machine

open Machine Claims

/-- Settles O20: the way on, the operations without a wait, where each stops, and a playing caller's step. -/
theorem cutOperationsAgree : Obligations.CutOperationsAgree := by
  unfold Obligations.CutOperationsAgree
  refine ⟨fun i s ht => goOn_begin i ht, fun i s hw => begin_eq_exec hw s, fun s hl => ⟨fun id cmd ps n req hreq => ?_, ?_,
    fun id f hf => ?_⟩, fun s sets cb => rfl, fun s a j J f hf hph hr hJ hctx => ?_⟩
  · rw [begin_tread n hl hreq]
    cases ht : s.cfg.timed <;>
      simp [attemptSend, State.acquireTL, State.rxFlush, State.setDirection, State.pinWrite, State.uartWrite,
        State.wait, State.emit, State.elapse, State.pushFlight, sentEvents, ht]
  · change beginLineReset s = _
    rw [beginLineReset, if_pos (tlFree_eq_true hl)]
    simp [lineClose, State.pushFlight, State.wait, State.uartClose, State.acquireTL, State.emit]
  · rw [begin_busReset hl hf]
    simp only [sendFrame_eq, State.pushFlight, State.elapse_cur, State.elapse_flights]
    rfl
  · intro u
    have hJu : u.job? j = some J := hJ
    have hne : J.ctx ≠ .onSched := by simp [hctx]
    have hmine : mine J u := .inl hctx
    have hresume : resumeAgent a s = .next (resumePlaying j u) := by
      rw [resumeAgent_eq hf hr, hph]
      rfl
    rw [hresume]
    refine ⟨fun d hp => ?_, fun p hp => ⟨_, exec_seqIssue hJu hmine hp, ?_⟩⟩
    · simp only [exec_seqWake hJu hmine hp, resumePlaying, hJu, hp]
    · obtain ⟨hstays, hgone⟩ := playStep_issues (s := u) hJu hne hp rfl
      rw [resumePlaying_issue hJu hp]
      refine ⟨fun h => congrArg _ (hstays h), fun h => ?_⟩
      obtain ⟨o, htrace, hstate⟩ := hgone h
      refine ⟨o, htrace, ?_⟩
      rw [hstate]
      cases o <;> rfl

end Sys2Proof
end

/-! # A ValidationError leaves everything but its RESULT unchanged (R124) -/

section
namespace Sys2Proof
namespace Machine
open Claims

/-- `x` is a RESULT that raises a ValidationError. -/
def RaisesValidation (x : Event) : Prop := ∃ a op e, x = .result a op (.raised e) ∧ Err.isValidation e = true

/-- From `s` to `t` either an error alone is raised, or nothing is said, or the last thing said is no ValidationError. -/
inductive ErrorsAlone (s : State) : State → Prop
  | raised (op : HostOp) (e : Err) : ErrorsAlone s (s.raise op e)
  | silent {t : State} : t.trace = s.trace → ErrorsAlone s t
  | last {t : State} {l : List Event} {x : Event} : t.trace = l ++ [x] → ¬ RaisesValidation x → ErrorsAlone s t

section
variable {s t : State}

theorem ErrorsAlone.ended {evs : List Event} {op : HostOp} {e : Err} (h : ErrorsAlone s t)
    (ht : t.trace = s.trace ++ evs ++ [.result s.cur op (.raised e)]) (he : Err.isValidation e = true) :
    t = ended op (.raised e) s := by
  cases h with
  | raised op' e' =>
    cases last_event_eq ht
    rfl
  | silent hsame =>
    have hlen := congrArg List.length (hsame.symm.trans ht)
    simp at hlen
  | last hlast hx => exact absurd ⟨_, _, _, last_event_eq (hlast.symm.trans ht), he⟩ hx

theorem not_raisesValidation_result {a : Agent} {op : HostOp} {v : Result} (h : ∀ e, v = .raised e → Err.isValidation e = false) :
    ¬ RaisesValidation (.result a op v) := by
  rintro ⟨_, _, e, hx, he⟩
  cases hx
  exact Bool.false_ne_true ((h e rfl).symm.trans he)

/-- Of a performance it is enough that it never returns an error, and that a ValidationError is raised before it does anything. -/
theorem errorsAlone_conclude {p : Perform} {op : HostOp} {i : Instr} (hdone : ∀ u v e, p = .done u v → v ≠ .raised e)
    (hraised : ∀ u e, p = .raised u e → u = s ∨ Err.isValidation e = false) (h : p.conclude op i s = .next t) :
    ErrorsAlone s t := by
  obtain ⟨u, v, hp, rfl⟩ | ⟨u, e, hp, rfl⟩ | ⟨-, rfl⟩ := conclude_cases h
  · exact .last rfl (not_raisesValidation_result fun e he => absurd he (hdone u v e hp))
  · rcases hraised u e hp with rfl | he
    · exact .raised op e
    · exact .last rfl (not_raisesValidation_result fun _ h => by cases h; exact he)
  · exact .silent rfl

/-! ## The serial operations -/

theorem errorsAlone_write {op : HostOp} {i : Instr} {id cmd : Int} {ps : List Int}
    (h : (performWrite id cmd ps s).conclude op i s = .next t) : ErrorsAlone s t := by
  refine errorsAlone_conclude (fun u v e hp => ?_) (fun u e hp => .inl (performWrite_raised hp).2) h
  obtain ⟨-, -, -, -, rfl⟩ := performWrite_done hp
  simp

theorem attemptInspect_ne_raised (cmd : Int) (s : State) (e : Err) : (attemptInspect cmd s).2 ≠ some (.raised e) := by
  simp only [attemptInspect]
  split
  · simp
  · split
    · simp
    · next hdec => exact fun h => decode_ne_raised _ _ _ e (Option.some.inj h)

theorem readLoop_ne_raised (cmd : Int) (req : Frame) (n : Nat) (s : State) (e : Err) : (readLoop cmd req n s).2 ≠ .raised e := by
  induction n generalizing s with
  | zero => simp [readLoop]
  | succ n ih =>
    have hne := attemptInspect_ne_raised cmd ((attemptTurn ((attemptSend req s).elapse s.cfg.tReq)).elapse s.cfg.tSettle) e
    rw [readLoop, attempt]
    split
    · next hv =>
      rw [hv] at hne
      simpa using hne
    · exact ih _

theorem errorsAlone_read {op : HostOp} {i : Instr} {id cmd budget : Int} {ps : List Int}
    (h : (performRead id cmd ps budget s).conclude op i s = .next t) : ErrorsAlone s t := by
  refine errorsAlone_conclude (fun u v e hp => ?_) (fun u e hp => .inl (performRead_raised hp)) h
  obtain ⟨req, -, -, -, -, rfl⟩ := performRead_done hp
  exact readLoop_ne_raised _ _ _ _ e

theorem errorsAlone_lineReset (h : execLineReset s = .next t) : ErrorsAlone s t := by
  refine errorsAlone_conclude (fun u v e hp => ?_) (fun u e hp => ?_) h <;> unfold performLineReset at hp <;>
    split at hp <;> cases hp
  simp

/-- The second frame of BUS_RESET exists for every id that the first one does. -/
theorem resetSecond_ne_raised {id : Int} {t v : State} {r : Result} (hfirst : resetFirst id s = .done t r) (u : State) (e : Err) :
    resetSecond id u ≠ .raised v e := by
  intro hsecond
  obtain ⟨f, hf, -⟩ := performWrite_done hfirst
  obtain ⟨hid, -⟩ := encode_ok hf
  have hg := resetSecond_frame u.cfg hid
  cases hg.symm.trans (performWrite_raised hsecond).1

theorem errorsAlone_busReset {id : Int} (h : execBusReset id s = .next t) : ErrorsAlone s t := by
  unfold execBusReset at h
  rcases hfirst : resetFirst id s with ⟨u, v⟩ | ⟨u, e⟩ | _ <;> rw [hfirst] at h
  · refine errorsAlone_conclude (fun w r e hp => ?_) (fun w e hp => absurd hp (resetSecond_ne_raised hfirst _ e)) h
    obtain ⟨-, -, -, -, rfl⟩ := performWrite_done hp
    simp
  · refine errorsAlone_conclude (fun _ _ _ hp => by cases hp) (fun w e hp => ?_) h
    cases hp
    exact .inl (performWrite_raised hfirst).2
  · exact errorsAlone_conclude (fun _ _ _ hp => by cases hp) (fun _ _ hp => by cases hp) h

/-! ## The PWM operations and SEQ_LOAD -/

theorem errorsAlone_answer {u : State} {op : HostOp} {v : Result} (h : ∀ e, v ≠ .raised e) : ErrorsAlone s (u.answer op v) :=
  .last rfl (not_raisesValidation_result fun e he => absurd he (h e))

theorem errorsAlone_setPosition {c w d : Int} (h : execPwmSetPosition c w d s = .next t) : ErrorsAlone s t := by
  unfold execPwmSetPosition at h
  split at h
  · cases h
    exact .raised _ _
  · split_ifs at h <;> cases h
    · exact errorsAlone_answer (by simp)
    · exact .silent rfl
    · exact errorsAlone_answer (by simp)
    · exact .silent rfl

theorem errorsAlone_setDeviation {c dv : Int} (h : execPwmSetDeviation c dv s = .next t) : ErrorsAlone s t := by
  unfold execPwmSetDeviation at h
  split at h
  · cases h
    exact .raised _ _
  · split_ifs at h <;> cases h
    · exact errorsAlone_answer (by simp)
    · exact .silent rfl
    · exact .raised _ _

theorem errorsAlone_getDeviation {c : Int} (h : execPwmGetDeviation c s = .next t) : ErrorsAlone s t := by
  unfold execPwmGetDeviation at h
  split at h
  · cases h
    exact .raised _ _
  · split_ifs at h <;> cases h
    · exact errorsAlone_answer (by simp)
    · exact .silent rfl

theorem rearm_trace (c : Int) (s : State) : (rearm c s).trace = s.trace := by
  unfold rearm
  split <;> rfl

/-- A firing that steps ends with a hardware write, or with the firing itself. -/
theorem tickChannel_trace (c : Nat) (ch : Channel) (s : State) :
    (tickChannel c ch s).trace = s.trace ++ [.tickfire c]
      ∨ ∃ w, (tickChannel c ch s).trace = s.trace ++ [.tickfire c] ++ [.pwm c w] := by
  simp only [tickChannel, rearm_trace]
  split_ifs
  · exact .inl rfl
  · exact .inr ⟨_, rfl⟩
  · exact .inr ⟨_, rfl⟩
  · exact .inl rfl

theorem errorsAlone_tick {c : Nat} (h : execPwmTick c s = .next t) : ErrorsAlone s t := by
  unfold execPwmTick at h
  split_ifs at h
  split at h <;> cases h
  split_ifs
  · obtain ht | ⟨w, ht⟩ := tickChannel_trace c _ s
    · exact .last ht fun ⟨_, _, _, hx, _⟩ => by cases hx
    · exact .last ht fun ⟨_, _, _, hx, _⟩ => by cases hx
  · exact .silent rfl

theorem errorsAlone_seqLoad {path : Path} {reps : Int} {locks : List (Int × Int)}
    (h : execSeqLoad path reps locks s = .next t) : ErrorsAlone s t := by
  refine errorsAlone_conclude (p := performLoad path reps locks s) (fun u v e hp => ?_) (fun u e hp => ?_) h
  · obtain ⟨_, he⟩ | ⟨_, he⟩ | ⟨a, he⟩ := performLoad_cases (s := s) (path := path) (reps := reps) (locks := locks) <;>
      cases he.symm.trans hp
    simp
  · by_cases hreps : reps < 0
    · cases (performLoad_bad_repeat hreps).symm.trans hp
      exact .inl rfl
    · cases hr : (s.storeRead path).1 with
      | none =>
        cases (performLoad_missing (not_lt.1 hreps) hr).symm.trans hp
        exact .inr rfl
      | some rows => cases (performLoad_found (not_lt.1 hreps) hr).symm.trans hp

/-! ## The steps of a job -/

theorem finishJob_trace (J : Job) (o : JobOutcome) (s : State) :
    ((finishJob J o s).after s).trace = s.trace ++ [.complete J.id o] := by
  by_cases hctx : J.ctx = .onSched
  · rw [finishJob_sched hctx, endJob_sched hctx]
    split_ifs <;> rfl
  · rw [finishJob_blocking hctx, endJob_blocking hctx]
    split_ifs <;> rfl

theorem errorsAlone_finish (J : Job) (o : JobOutcome) : ErrorsAlone s ((finishJob J o s).after s) :=
  .last (finishJob_trace J o s) fun ⟨_, _, _, hx, _⟩ => by cases hx

theorem errorsAlone_issue (J : Job) (p : Nat) : ErrorsAlone s ((issueJob J p s).after s) := by
  have hm := issueJob_cases J p s
  generalize issueJob J p s = m at hm
  cases hm with
  | finished o => exact errorsAlone_finish J o
  | waits => exact .silent rfl
  | sleeps => exact .last rfl fun ⟨_, _, _, hx, _⟩ => by cases hx
  | sends c f =>
    have hsent : (sendFrame f s).trace = s.trace ++ [.pin .rxEn .deasserted, .pin .txEn .asserted] ++ [.tx f] := by
      simp [sendFrame_eq]
    exact .last hsent fun ⟨_, _, _, hx, _⟩ => by cases hx
  | jumps => exact .last rfl fun ⟨_, _, _, hx, _⟩ => by cases hx
  | reads => exact .silent rfl
  | plans => exact .silent rfl

/-- Every operation but SEQ_PLAY raises its ValidationErrors alone. -/
theorem exec_errorsAlone {i : Instr} (hi : ∀ sets bl cb, i ≠ .seqPlay sets bl cb) (h : exec i s = .next t) :
    ErrorsAlone s t := by
  cases i
  case encode =>
    cases h
    split
    · exact errorsAlone_answer (by simp)
    · exact .raised _ _
  case decode =>
    cases h
    exact errorsAlone_answer fun e => decode_ne_raised _ _ _ e
  case tread | moveTimeRead | idRead | angleOffsetRead | angleLimitRead | vinLimitRead | tempMaxLimitRead | tempRead | vinRead
      | posRead | loadOrUnloadRead | busGetId | busGetDeviation | busGetAngleLimit | busGetVinLimit | busGetTempLimit
      | busGetPosition | busGetTemp | busGetVin | busGetLoadState => exact errorsAlone_read h
  case lineReset => exact errorsAlone_lineReset h
  case busReset => exact errorsAlone_busReset h
  case pwmSetPosition => exact errorsAlone_setPosition h
  case pwmTick => exact errorsAlone_tick h
  case pwmSetDeviation => exact errorsAlone_setDeviation h
  case pwmGetDeviation => exact errorsAlone_getDeviation h
  case seqLoad => exact errorsAlone_seqLoad h
  case seqPlay sets bl cb => exact absurd rfl (hi sets bl cb)
  case seqIssue =>
    obtain ⟨J, -, -, hs⟩ := internalStep_next h
    split at hs <;> cases hs
    exact errorsAlone_issue J _
  case seqSleep =>
    obtain ⟨J, -, -, hs⟩ := internalStep_next h
    split at hs <;> cases hs
    unfold suspendJob
    split <;> exact .silent rfl
  case seqWake =>
    obtain ⟨J, -, -, hs⟩ := internalStep_next h
    split at hs <;> cases hs
    split
    · exact .last rfl fun ⟨_, _, _, hx, _⟩ => by cases hx
    · exact .silent rfl
  case seqFinish =>
    obtain ⟨J, -, -, hs⟩ := internalStep_next h
    split at hs <;> cases hs
    exact errorsAlone_finish J _
  all_goals exact errorsAlone_write h

end
end Machine

open Machine

/-- Settles O21: an operation that raises a ValidationError has done nothing before. -/
theorem validationErrorsChangeNothing : Obligations.ValidationErrorsChangeNothing := by
  unfold Obligations.ValidationErrorsChangeNothing
  intro i s t evs op e hi h ht he
  exact (exec_errorsAlone hi h).ended ht he

end Sys2Proof
end

/-! # A blocking playback whose commands are all accepted plays every round (R111, R113 to R118) -/

section
namespace Sys2Proof
namespace Machine
open Claims

/-! ## What a playback keeps of the channels -/

/-- What PWM_SET_POSITION reads of a channel and never writes. -/
def Channel.limits (ch : Channel) : Int × Int × Int := (ch.lo, ch.hi, ch.dev)

/-- The channels of `u` are those of `s` up to their motion. -/
def SameLimits (s u : State) : Prop := u.channels.map Channel.limits = s.channels.map Channel.limits

section
variable {s u v : State}

theorem SameLimits.channel? {c : Int} {ch : Channel} (h : SameLimits s u) (hch : s.channel? c = some ch) :
    ∃ ch', u.channel? c = some ch' ∧ ch'.lo = ch.lo ∧ ch'.hi = ch.hi ∧ ch'.dev = ch.dev := by
  have hc : 1 ≤ c := (channel?_some hch).1
  have hget : s.channels[c.toNat - 1]? = some ch := by rwa [State.channel?, if_pos hc] at hch
  have hmap : (u.channels.map Channel.limits)[c.toNat - 1]? = some ch.limits := by
    rw [h, List.getElem?_map, hget]
    rfl
  rw [List.getElem?_map, Option.map_eq_some_iff] at hmap
  obtain ⟨ch', hget', hlim⟩ := hmap
  simp only [Channel.limits, Prod.mk.injEq] at hlim
  exact ⟨ch', by rwa [State.channel?, if_pos hc], hlim⟩

/-- A write of a channel that keeps its limits keeps those of all. -/
theorem SameLimits.set {c : Int} {ch x : Channel} (h : SameLimits s u) (hch : u.channel? c = some ch)
    (hx : x.limits = ch.limits) (hv : v.channels = u.channels.set (c.toNat - 1) x) : SameLimits s v := by
  obtain ⟨-, hlt, rfl⟩ := channel?_some hch
  have hsame : (u.channels.map Channel.limits).set (c.toNat - 1) x.limits = u.channels.map Channel.limits := by
    rw [hx, ← List.getElem_map Channel.limits (h := by simpa using hlt)]
    exact List.set_getElem_self _
  rw [SameLimits, hv, List.map_set, hsame, h]

theorem mutexesFree_set {n : Nat} {x : Channel} (h : mutexesFree u) (hx : x.mutex = .free)
    (hv : v.channels = u.channels.set n x) : mutexesFree v := by
  intro ch hmem
  rw [hv] at hmem
  obtain hmem | rfl := List.mem_or_eq_of_mem_set hmem
  · exact h ch hmem
  · exact hx

end

/-! ## The states of a playback -/

/-- In `u` the current agent of `s` plays job `J`, the fresh job of `s`, and nothing else has changed but line and motion. -/
structure Playing (s : State) (J : Job) (u : State) : Prop where
  cfg : u.cfg = s.cfg
  cur : u.cur = s.cur
  handles : u.handles = s.handles
  line : u.T.tl = .free
  flights : u.flights = { agent := s.cur, phase := .playing s.sq.nextId, readyAt := s.now } :: s.flights
  sq : u.sq = { s.sq with jobs := s.sq.jobs ++ [J], nextId := s.sq.nextId + 1 }
  mutexes : mutexesFree u
  limits : SameLimits s u
  id : J.id = s.sq.nextId
  ctx : J.ctx = .onCaller s.cur

section
variable {s u v : State} {J K : Job}

/-- A fresh id names none of the jobs there are. -/
def FreshId (s : State) : Prop := ∀ L ∈ s.sq.jobs, L.id ≠ s.sq.nextId

theorem Playing.job? (hfresh : FreshId s) (h : Playing s J u) : u.job? s.sq.nextId = some J := by
  have hnone : s.sq.jobs.find? (fun L => L.id == s.sq.nextId) = none :=
    List.find?_eq_none.2 fun L hL => by simpa using hfresh L hL
  rw [State.job?, h.sq]
  simp [List.find?_append, hnone, h.id]

/-- The job is written back. -/
theorem Playing.setJob (hfresh : FreshId s) (h : Playing s J u) (hid : K.id = J.id) (hctx : K.ctx = J.ctx) :
    Playing s K (u.setJob K) := by
  have hK : K.id = s.sq.nextId := hid.trans h.id
  have hold : s.sq.jobs.map (fun L => if L.id = K.id then K else L) = s.sq.jobs := by
    refine (List.map_congr_left fun L hL => ?_).trans (List.map_id _)
    exact if_neg (hK ▸ hfresh L hL)
  have hsq : (u.setJob K).sq = { s.sq with jobs := s.sq.jobs ++ [K], nextId := s.sq.nextId + 1 } := by
    simp only [State.setJob_sq, h.sq, List.map_append, hold, List.map_cons, List.map_nil, if_pos hid.symm]
  exact { h with sq := hsq, id := hK, ctx := hctx.trans h.ctx }

/-- Time passes. -/
theorem Playing.elapse (h : Playing s J u) (ms : Rat) : Playing s J (u.elapse ms) := by
  obtain ⟨l, d, he⟩ := elapse_parts u ms
  rw [he]
  exact { h with }

theorem Playing.emit (h : Playing s J u) (e : Event) : Playing s J (u.emit e) := { h with }

theorem Playing.sendFrame (h : Playing s J u) (f : Frame) : Playing s J (sendFrame f u) := by
  rw [sendFrame_eq]
  refine Playing.elapse ?_ _
  exact { h with line := rfl }

/-- A channel is written, its limits kept and its mutex free; something may be said. -/
theorem Playing.setChannel {c : Int} {ch x : Channel} (h : Playing s J u) (hch : u.channel? c = some ch)
    (hx : x.limits = ch.limits) (hm : x.mutex = .free) (evs : List Event) :
    Playing s J { u with channels := u.channels.set (c.toNat - 1) x, trace := evs } :=
  { h with mutexes := mutexesFree_set h.mutexes hm rfl, limits := h.limits.set hch hx rfl }

/-! ## Steps of a playback -/

/-- From `u` to `t` the playback of `j` makes at most `m` steps. -/
def Runs (j m : Nat) (u t : State) : Prop := ∃ k ≤ m, ∀ n, runBlocking j (k + n) u = runBlocking j n t

theorem Runs.refl (j : Nat) (u : State) : Runs j 0 u u := ⟨0, le_rfl, fun n => by rw [Nat.zero_add]⟩

theorem Runs.mono {j m n : Nat} (h : Runs j m u v) (hmn : m ≤ n) : Runs j n u v := by
  obtain ⟨k, hk, hrun⟩ := h
  exact ⟨k, hk.trans hmn, hrun⟩

theorem Runs.trans {j m n : Nat} {w : State} (h : Runs j m u v) (h' : Runs j n v w) : Runs j (m + n) u w := by
  obtain ⟨k, hk, hrun⟩ := h
  obtain ⟨k', hk', hrun'⟩ := h'
  exact ⟨k + k', Nat.add_le_add hk hk', fun n => by rw [Nat.add_assoc, hrun, hrun']⟩

theorem Runs.step {j : Nat} (h : playStep j (sleepThrough j u) = .on v) : Runs j 1 u v :=
  ⟨1, le_rfl, fun n => by rw [Nat.add_comm, runBlocking, h]⟩

/-- A playback that returns after the steps run returns within its bound. -/
theorem Runs.returns {j m n : Nat} {w : State} (h : Runs j m u v) (hv : playStep j (sleepThrough j v) = .over w)
    (hn : m + 1 ≤ n) : runBlocking j n u = w := by
  obtain ⟨k, hk, hrun⟩ := h
  obtain ⟨l, rfl⟩ : ∃ l, n = k + (l + 1) := ⟨n - k - 1, by omega⟩
  rw [hrun, runBlocking, hv]

variable (hfresh : FreshId s)
include hfresh

/-- A job that issues does not sleep. -/
theorem Playing.awake {p : Nat} (h : Playing s J u) (hp : J.phase = .issue p) : sleepThrough s.sq.nextId u = u := by
  simp only [sleepThrough, h.job? hfresh, hp]

theorem Playing.runs_moved {p : Nat} (h : Playing s J u) (hp : J.phase = .issue p) (hm : issueJob J p u = .moved v) :
    Runs s.sq.nextId 1 u v := by
  refine Runs.step ?_
  rw [h.awake hfresh hp, playStep_moved (h.job? hfresh) hp hm]

/-- A timed command on a PWM column whose width need not be read, or has been, is planned in one step. -/
theorem Playing.plan {p : Nat} {c : Cmd} {ch : Channel} (h : Playing s J u) (hp : J.phase = .issue p)
    (hk : J.k < rounds J.sets) (hc : (cmds J.sets J.k)[p]? = some c) (hkind : channelKind u.cfg c.col = .pwm)
    (hok : pwmCheck c.col c.pos c.dur u = .ok ch) (hd : c.dur ≠ 0) (hs : ¬ (u.cfg.setposSplitRead = true ∧ J.split = none)) :
    ∃ v, Runs s.sq.nextId 1 u v ∧ Playing s { J with phase := .issue (p + 1), split := none } v ∧ v.trace = u.trace := by
  have hch := (pwmCheck_ok hok).1
  have hm : ch.mutex = .free := h.mutexes ch (channel?_mem hch)
  have hstep := issueJob_cmd (s := u) hk hc
  rw [issueCmd_pwm_plan hkind hok hm hd hs, setPosTimed_eq _ hch hm] at hstep
  refine ⟨_, h.runs_moved hfresh hp hstep, Playing.setJob hfresh (J := J) ?_ rfl rfl, rfl⟩
  refine h.setChannel hch ?_ ?_ _
  · rfl
  · exact hm

/-- A playable command is issued, in two steps where the width is read apart. -/
theorem Playing.command {p : Nat} {c : Cmd} (h : Playing s J u) (hclamps : s.cfg.clampsOk = true) (hp : J.phase = .issue p)
    (hk : J.k < rounds J.sets) (hc : (cmds J.sets J.k)[p]? = some c) (hplay : playable s c) (hsplit : J.split = none) :
    ∃ v, Runs s.sq.nextId 2 u v ∧ Playing s { J with phase := .issue (p + 1), split := none } v
      ∧ v.trace = u.trace ++ cmdEvents s c := by
  have hstep := issueJob_cmd (s := u) hk hc
  cases hkind : channelKind s.cfg c.col with
  | serial =>
    simp only [playable, hkind] at hplay
    obtain ⟨f, hf⟩ := moveFrame_ok hclamps (c.col : Int) c.pos c.dur (by omega) (by omega)
    have hf : moveFrame s.cfg c.col c.pos c.dur = .ok f := hf
    rw [issueCmd_serial_free (h.cfg ▸ hkind) (h.cfg ▸ hf) h.line] at hstep
    refine ⟨_, (h.runs_moved hfresh hp hstep).mono (by omega), ?_, ?_⟩
    · rw [← hsplit]
      exact (h.sendFrame f).setJob hfresh rfl rfl
    · simp only [cmdEvents, hkind, hf, State.setJob_trace, sendFrame_eq, State.elapse_trace]
      rfl
  | pwm =>
    simp only [playable, hkind] at hplay
    obtain ⟨ch₀, hch₀, hlo, hhi⟩ := hplay
    obtain ⟨ch, hch, hlo', hhi', hdev⟩ := h.limits.channel? hch₀
    have hm : ch.mutex = .free := h.mutexes ch (channel?_mem hch)
    have hok : pwmCheck c.col c.pos c.dur u = .ok ch :=
      pwmCheck_eq_ok hch (hlo' ▸ hlo) (hhi' ▸ hhi) (Int.natCast_nonneg _)
    have hkind' : channelKind u.cfg c.col = .pwm := h.cfg ▸ hkind
    simp only [cmdEvents, hkind, hch₀]
    by_cases hd : c.dur = 0
    · rw [issueCmd_pwm_jump hkind' hok hm hd, setPosImmediate_eq ch.dev hch hm] at hstep
      refine ⟨_, (h.runs_moved hfresh hp hstep).mono (by omega), ?_, ?_⟩
      · rw [← hsplit]
        refine Playing.setJob hfresh (J := J) ?_ rfl rfl
        refine h.setChannel hch ?_ ?_ _
        · rfl
        · exact hm
      · rw [if_pos hd, ← hdev]
        rfl
    · rw [if_neg hd, List.append_nil]
      by_cases hread : u.cfg.setposSplitRead = true
      · rw [issueCmd_pwm_read hkind' hok hm hd hread hsplit] at hstep
        have hsome : ({ J with split := some ch.cur } : Job).split ≠ none := Option.some_ne_none _
        obtain ⟨v, hrun, hv, htrace⟩ := (h.setJob (K := { J with split := some ch.cur }) hfresh rfl rfl).plan hfresh hp hk hc
          hkind' hok hd fun hs => hsome hs.2
        exact ⟨v, (h.runs_moved hfresh hp hstep).trans hrun, hv, htrace⟩
      · obtain ⟨v, hrun, hv, htrace⟩ := h.plan hfresh hp hk hc hkind' hok hd fun hs => hread hs.1
        exact ⟨v, hrun.mono (by omega), hv, htrace⟩

omit hfresh

/-! ## Rounds of a playback -/

/-- In `u` the playback of `sets` stands before command `p` of round `k`. -/
def PlayingAt (s : State) (sets : List ActionSet) (cb : Option Nat) (k p : Nat) (u : State) : Prop :=
  ∃ J, Playing s J u ∧ J.sets = sets ∧ J.cb = cb ∧ J.k = k ∧ J.phase = .issue p ∧ J.split = none

variable {sets : List ActionSet} {cb : Option Nat} {k p : Nat}
include hfresh

theorem PlayingAt.command {c : Cmd} (h : PlayingAt s sets cb k p u) (hclamps : s.cfg.clampsOk = true)
    (hk : k < rounds sets) (hc : (cmds sets k)[p]? = some c) (hplay : playable s c) :
    ∃ v, Runs s.sq.nextId 2 u v ∧ PlayingAt s sets cb k (p + 1) v ∧ v.trace = u.trace ++ cmdEvents s c := by
  obtain ⟨J, h, rfl, rfl, rfl, hp, hsplit⟩ := h
  obtain ⟨v, hrun, hv, htrace⟩ := h.command hfresh hclamps hp hk hc hplay hsplit
  exact ⟨v, hrun, ⟨_, hv, rfl, rfl, rfl, rfl, rfl⟩, htrace⟩

/-- The commands left of a round, in order. -/
theorem PlayingAt.commands {cs : List Cmd} (h : PlayingAt s sets cb k p u) (hclamps : s.cfg.clampsOk = true)
    (hk : k < rounds sets) (hcs : (cmds sets k).drop p = cs) (hplay : ∀ c ∈ cmds sets k, playable s c) :
    ∃ v q, Runs s.sq.nextId (2 * cs.length) u v ∧ PlayingAt s sets cb k q v ∧ (cmds sets k).length ≤ q
      ∧ v.trace = u.trace ++ cs.flatMap (cmdEvents s) := by
  induction cs generalizing p u with
  | nil => exact ⟨u, p, Runs.refl _ u, h, List.drop_eq_nil_iff.1 hcs, by simp⟩
  | cons c cs ih =>
    have hc : (cmds sets k)[p]? = some c := by rw [← Nat.add_zero p, ← List.getElem?_drop, hcs]; rfl
    have hcs' : (cmds sets k).drop (p + 1) = cs := by rw [← List.tail_drop, hcs]; rfl
    obtain ⟨v, hrun, hv, htrace⟩ := h.command hfresh hclamps hk hc (hplay c (List.mem_of_getElem? hc))
    obtain ⟨w, q, hrun', hw, hq, htrace'⟩ := ih hv hcs'
    refine ⟨w, q, (hrun.trans hrun').mono (by rw [List.length_cons]; omega), hw, hq, ?_⟩
    rw [htrace', htrace, List.flatMap_cons, List.append_assoc]

/-- After the last command of a round the job sleeps and wakes. -/
theorem PlayingAt.sleeps (h : PlayingAt s sets cb k p u) (hk : k < rounds sets) (hp : (cmds sets k).length ≤ p) :
    ∃ v, Runs s.sq.nextId 2 u v ∧ PlayingAt s sets cb (k + 1) 0 v
      ∧ v.trace = u.trace ++ [.sleep s.sq.nextId (sleepLen sets k), .wake s.sq.nextId] := by
  obtain ⟨J, h, rfl, rfl, rfl, hphase, hsplit⟩ := h
  set K : Job := { J with phase := .sleep (sleepLen J.sets J.k), sleptAt := u.now } with hK
  set t := (u.emit (.sleep J.id (sleepLen J.sets J.k))).setJob K with ht
  have hplaying : Playing s K t := (h.emit _).setJob hfresh rfl rfl
  have hsleep := h.runs_moved hfresh hphase (issueJob_sleep hk hp)
  have helapsed := hplaying.elapse (sleepLen J.sets J.k : Rat)
  have hthrough : sleepThrough s.sq.nextId t = t.elapse (sleepLen J.sets J.k : Rat) := by
    simp only [sleepThrough, hplaying.job? hfresh, hK]
  have hwake : playStep s.sq.nextId (sleepThrough s.sq.nextId t) = .on (wakeJob K (t.elapse (sleepLen J.sets J.k : Rat))) := by
    rw [hthrough]
    simp only [playStep, helapsed.job? hfresh, hK]
  refine ⟨_, hsleep.trans (Runs.step hwake), ⟨_, (helapsed.emit _).setJob hfresh rfl rfl, rfl, rfl, rfl, rfl, hsplit⟩, ?_⟩
  rw [← h.id]
  simp [wakeJob, hK, ht]

/-- One round. -/
theorem PlayingAt.round (h : PlayingAt s sets cb k 0 u) (hclamps : s.cfg.clampsOk = true) (hk : k < rounds sets)
    (hplay : ∀ c ∈ cmds sets k, playable s c) :
    ∃ v, Runs s.sq.nextId (2 * (cmds sets k).length + 2) u v ∧ PlayingAt s sets cb (k + 1) 0 v
      ∧ v.trace = u.trace ++ roundEvents s s.sq.nextId sets k := by
  obtain ⟨v, q, hrun, hv, hq, htrace⟩ := h.commands hfresh hclamps hk (List.drop_zero) hplay
  obtain ⟨w, hrun', hw, htrace'⟩ := hv.sleeps hfresh hk hq
  refine ⟨w, hrun.trans hrun', hw, ?_⟩
  rw [htrace', htrace, roundEvents, List.append_assoc]

/-- The rounds from `k` on, `n` of them. -/
theorem PlayingAt.rounds {n : Nat} (h : PlayingAt s sets cb k 0 u) (hclamps : s.cfg.clampsOk = true)
    (hn : k + n ≤ rounds sets) (hplay : ∀ k < Machine.rounds sets, ∀ c ∈ cmds sets k, playable s c) :
    ∃ v, Runs s.sq.nextId ((List.range' k n).map fun k => 2 * (cmds sets k).length + 2).sum u v
      ∧ PlayingAt s sets cb (k + n) 0 v
      ∧ v.trace = u.trace ++ (List.range' k n).flatMap (roundEvents s s.sq.nextId sets) := by
  induction n generalizing k u with
  | zero => exact ⟨u, Runs.refl _ u, h, by simp⟩
  | succ n ih =>
    obtain ⟨v, hrun, hv, htrace⟩ := h.round hfresh hclamps (by omega) (hplay k (by omega))
    obtain ⟨w, hrun', hw, htrace'⟩ := ih hv (by omega)
    rw [Nat.add_right_comm] at hw
    refine ⟨w, ?_, hw, ?_⟩
    · rw [List.range'_succ, List.map_cons, List.sum_cons]
      exact hrun.trans hrun'
    · rw [htrace', htrace, List.range'_succ, List.flatMap_cons, List.append_assoc]

/-- After its last round the playback returns, its job gone. -/
theorem PlayingAt.returns (h : PlayingAt s sets cb k p u) (hk : Machine.rounds sets ≤ k)
    (hcb : cb = none ∨ s.cfg.blockingCallback = false) :
    ∃ t, playStep s.sq.nextId (sleepThrough s.sq.nextId u) = .over t
      ∧ t.trace = u.trace ++ [.complete s.sq.nextId .ok, .result s.cur .seqPlay .done]
      ∧ t.sq = { s.sq with nextId := s.sq.nextId + 1 } ∧ t.flights = s.flights ∧ t.handles = s.handles ∧ t.T.tl = .free
      ∧ t.cfg = s.cfg := by
  obtain ⟨J, h, rfl, rfl, rfl, hphase, -⟩ := h
  have hne : J.ctx ≠ .onSched := by simp [h.ctx]
  have hissue : issueJob J p u = .finished ((u.emit (.complete J.id .ok)).removeJob J.id) .ok := by
    rw [issueJob_last hk, finishJob_blocking hne, not_callbackDue (h.cfg ▸ hcb), endJob_blocking hne]
    rfl
  have hjobs : (s.sq.jobs ++ [J]).filter (fun L => L.id ≠ s.sq.nextId) = s.sq.jobs := by
    rw [List.filter_append, List.filter_eq_self.2 fun L hL => decide_eq_true (hfresh L hL)]
    simp [h.id]
  have hover := playStep_finished (h.job? hfresh) hphase hissue
  rw [h.awake hfresh hphase]
  refine ⟨_, hover, ?_, ?_, ?_, h.handles, h.line, h.cfg⟩
  · simp [State.removeJob, State.emit, State.popFlight, State.answer, h.id, h.cur, outcomeResult]
  · simp only [State.answer_sq, State.popFlight_sq, State.removeJob, State.emit_sq, h.id, h.sq, hjobs]
  · simp [State.removeJob, State.emit, State.popFlight, State.answer, h.flights, h.cur]

end

end Machine

open Machine

/-- Settles O39: every command, sleep and wake is a step or two, and the bound of SEQ_PLAY counts them. -/
theorem playBlockingCompletes : Obligations.PlayBlockingCompletes := by
  unfold Obligations.PlayBlockingCompletes
  intro sets cb s hjobs hl hm hclamps hcb hplay
  have hfresh : FreshId s := fun L hL => (hjobs.fresh L hL).ne
  have hstart : PlayingAt s sets cb 0 0 (startBlocking sets cb s) :=
    ⟨_, ⟨rfl, rfl, rfl, hl, rfl, rfl, hm, rfl, rfl, rfl⟩, rfl, rfl, rfl, rfl, rfl⟩
  obtain ⟨v, hrun, hv, htrace⟩ := hstart.rounds hfresh hclamps (Nat.zero_add _).le hplay
  obtain ⟨t, hover, htrace', hsq, hfl, hh, hl', hcfg⟩ := hv.returns hfresh (Nat.zero_add _).ge hcb
  refine ⟨t, ?_, ?_, hsq, hfl, hh, hl', hcfg⟩
  · rw [exec, execSeqPlay, if_pos rfl, hrun.returns hover (by rw [jobSteps, List.range_eq_range'])]
  · rw [htrace', htrace, List.range_eq_range']
    rfl

end Sys2Proof
end

/-! # What a move leaves of the operations other agents stand in, and what a resumption makes of its own -/

section
namespace Sys2Proof
namespace Machine
open Claims

/-! ## The flights of one agent -/

section
variable {s t : State} {a : Agent} {f : Flight}

theorem topFlight_congr (h : t.flights = s.flights) (a : Agent) : t.topFlight a = s.topFlight a := by
  rw [State.topFlight, State.topFlight, h]

theorem topFlight_push_ne {ph : FlightPhase} {r : Rat} {b : Agent}
    (h : t.flights = { agent := b, phase := ph, readyAt := r } :: s.flights) (ha : a ≠ b) :
    t.topFlight a = s.topFlight a := by
  rw [State.topFlight, h, List.find?_cons_of_neg (by simpa using ha.symm)]
  rfl

theorem topFlight_push {ph : FlightPhase} {r : Rat} (h : t.flights = { agent := a, phase := ph, readyAt := r } :: s.flights) :
    t.topFlight a = some { agent := a, phase := ph, readyAt := r } := by
  rw [State.topFlight, h, List.find?_cons_of_pos (by simp)]

theorem topFlight_pop_ne {b : Agent} (ha : a ≠ b) : (s.popFlight b).topFlight a = s.topFlight a :=
  find_eraseP _ _ _ fun f hf => by
    simp only [beq_iff_eq] at hf
    simpa [hf] using ha.symm

theorem standsIn_congr (h : t.flights = s.flights) (a : Agent) : t.standsIn a = s.standsIn a := by
  rw [State.standsIn, State.standsIn, h]

theorem standsIn_push {ph : FlightPhase} {r : Rat} (h : t.flights = { agent := a, phase := ph, readyAt := r } :: s.flights) :
    t.standsIn a = ph :: s.standsIn a := by
  rw [State.standsIn, h, List.filter_cons_of_pos (by simp)]
  rfl

/-- An agent stands in its latest operation, and in those below it. -/
theorem standsIn_eq_cons (h : s.topFlight a = some f) : s.standsIn a = f.phase :: (s.popFlight a).standsIn a := by
  unfold State.topFlight at h
  simp only [State.standsIn, State.popFlight]
  generalize s.flights = l at h
  induction l with
  | nil => cases h
  | cons g l ih =>
    by_cases hg : (g.agent == a) = true
    · rw [List.find?_cons_of_pos (by exact hg)] at h
      cases h
      rw [List.filter_cons_of_pos (by exact hg), List.eraseP_cons_of_pos (by exact hg), List.map_cons]
    · rw [List.find?_cons_of_neg (by exact hg)] at h
      rw [List.filter_cons_of_neg (by exact hg), List.eraseP_cons_of_neg (by exact hg),
        List.filter_cons_of_neg (by exact hg)]
      exact ih h

/-- Where TL is free no agent stands in an operation that holds it. -/
theorem not_holdsTL_of_free (hs : LocksOk s) (hl : s.T.tl = .free) (hf : s.topFlight a = some f) :
    f.phase.holdsTL = false := by
  by_contra hph
  have hheld := (tlOk_holder hs.1 (mem_of_topFlight hf) (by simpa using hph)).1
  rw [hl] at hheld
  cases hheld

end

/-! ## An operation begun: it gets past its lock, or waits -/

/-- The current agent stands where it stood, or in one more operation, which is no wait to issue one. -/
def MovesOn (s t : State) : Prop :=
  t.flights = s.flights
    ∨ ∃ ph r, (∀ i, ph ≠ .waiting i) ∧ t.flights = { agent := s.cur, phase := ph, readyAt := r } :: s.flights

/-- What issuing `i` comes to: it moves on, or `i` waits because TL is held. -/
inductive Issued (i : Instr) (s : State) : Host.Outcome State Fault Refusal → Prop
  | movesOn {t : State} : MovesOn s t → Issued i s (.next t)
  | waits : s.T.tl ≠ .free → Issued i s (.next (s.block i))

section
variable {s : State} {i : Instr}

theorem movesOn_push {u : State} (ph : FlightPhase) (r : Rat) (hfl : u.flights = s.flights) (hcur : u.cur = s.cur)
    (hph : ∀ i, ph ≠ .waiting i) : MovesOn s (u.pushFlight ph r) :=
  .inr ⟨ph, r, hph, by rw [State.pushFlight, hfl, hcur]⟩

theorem issued_same {t : State} (h : t.flights = s.flights) : Issued i s (.next t) := .movesOn (.inl h)

theorem issued_conclude {p : Perform} {op : HostOp} (hdone : ∀ u v, p = .done u v → u.flights = s.flights)
    (hraised : ∀ u e, p = .raised u e → u.flights = s.flights) (hblocked : p = .blocked → s.T.tl ≠ .free) :
    Issued i s (p.conclude op i s) := by
  cases p with
  | done u v => exact issued_same (hdone u v rfl)
  | raised u e => exact issued_same (hraised u e rfl)
  | blocked => exact .waits (hblocked rfl)

theorem issued_write (op : HostOp) (i : Instr) (id cmd : Int) (ps : List Int) (s : State) :
    Issued i s ((performWrite id cmd ps s).conclude op i s) := by
  refine issued_conclude (fun u v hp => ?_) (fun u e hp => ?_) fun hp hl => performWrite_ne_blocked hl hp
  · obtain ⟨f, -, -, rfl, -⟩ := performWrite_done hp
    rw [sendFrame_eq, State.elapse_flights]
  · rw [(performWrite_raised hp).2]

theorem issued_beginRead (op : HostOp) (i : Instr) (id cmd : Int) (ps : List Int) (budget : Int) (s : State) :
    Issued i s (beginRead op i id cmd ps budget s) := by
  unfold beginRead
  split
  · exact issued_same rfl
  next req _ =>
  split_ifs with hb hl
  · exact issued_same rfl
  · split
    · exact issued_same rfl
    · have hline := lineOnly_send s.acquireTL req
      exact .movesOn (movesOn_push _ _ hline.fl hline.cur (by simp))
  · exact .waits fun hfree => hl (tlFree_eq_true hfree)

theorem issued_beginLineReset (s : State) : Issued .lineReset s (beginLineReset s) := by
  unfold beginLineReset
  split_ifs with hl
  · exact .movesOn (movesOn_push .lineClosed _ rfl rfl (by simp))
  · exact .waits fun hfree => hl (tlFree_eq_true hfree)

theorem issued_beginBusReset (id : Int) (s : State) : Issued (.busReset id) s (beginBusReset id s) := by
  unfold beginBusReset
  rcases hr : resetFirst id s with ⟨u, v⟩ | ⟨u, e⟩ | _
  · obtain ⟨f, -, -, rfl, -⟩ := performWrite_done hr
    have hsame : (sendFrame f s).flights = s.flights ∧ (sendFrame f s).cur = s.cur := by simp [sendFrame_eq]
    exact .movesOn (movesOn_push _ _ hsame.1 hsame.2 (by simp))
  · exact issued_same (by rw [(performWrite_raised hr).2]; rfl)
  · exact .waits fun hl => performWrite_ne_blocked hl hr

theorem issued_seqLoad (path : Path) (reps : Int) (locks : List (Int × Int)) :
    Issued (.seqLoad path reps locks) s (execSeqLoad path reps locks s) := by
  obtain ⟨_, _, _, hread, -⟩ := storeRead_parts s path
  have hfl : (s.storeRead path).2.flights = s.flights := by rw [hread]
  unfold execSeqLoad
  obtain ⟨e, he⟩ | ⟨e, he⟩ | ⟨a, he⟩ := performLoad_cases (s := s) (path := path) (reps := reps) (locks := locks) <;> rw [he]
  · exact issued_same rfl
  · exact issued_same hfl
  · exact issued_same hfl

section
variable (hm : mutexesFree s)
include hm

theorem unlocked_of_mutexesFree {c : Int} {ch : Channel} (hch : s.channel? c = some ch) : ch.unlocked = true :=
  unlocked_eq_true (hm ch (channel?_mem hch))

theorem issued_setPosition (c w d : Int) : Issued i s (execPwmSetPosition c w d s) := by
  unfold execPwmSetPosition
  split
  · exact issued_same rfl
  next ch hok =>
  rw [if_neg (not_not.2 (unlocked_of_mutexesFree hm (pwmCheck_ok hok).1))]
  split_ifs
  · exact issued_same rfl
  · exact .movesOn (movesOn_push _ _ rfl rfl (by simp))
  · exact issued_same rfl

theorem issued_setDeviation (c dv : Int) : Issued i s (execPwmSetDeviation c dv s) := by
  unfold execPwmSetDeviation
  split
  · exact issued_same rfl
  next ch hch =>
  rw [if_neg (not_not.2 (unlocked_of_mutexesFree hm hch))]
  split_ifs <;> exact issued_same rfl

theorem issued_getDeviation (c : Int) : Issued i s (execPwmGetDeviation c s) := by
  unfold execPwmGetDeviation
  split
  · exact issued_same rfl
  next ch hch =>
  rw [if_neg (not_not.2 (unlocked_of_mutexesFree hm hch))]
  exact issued_same rfl

/-- An operation without a wait, called with the mutexes free. -/
theorem exec_issued (hi : isInternal i = false) (hw : hasWait i = false) (hstart : s.sq.started = true) :
    Issued i s (exec i s) := by
  cases i
  case encode => rw [exec, execEncode]; split <;> exact issued_same rfl
  case decode => exact issued_same rfl
  case pwmSetPosition => exact issued_setPosition hm _ _ _
  case pwmSetDeviation => exact issued_setDeviation hm _ _
  case pwmGetDeviation => exact issued_getDeviation hm _
  case seqLoad => exact issued_seqLoad _ _ _
  case seqPlay sets bl cb =>
    cases bl
    · rw [exec, execSeqPlay, if_neg Bool.false_ne_true, if_pos hstart]
      exact issued_same rfl
    · cases hw
  case moveTimeWrite | moveStop | idWrite | angleOffsetAdjust | angleOffsetWrite | angleLimitWrite | vinLimitWrite
      | tempMaxLimitWrite | loadOrUnloadWrite | twrite | busSetId | busSetPosition | busStop | busSetDeviation
      | busSaveDeviation | busSetAngleLimit | busSetVinLimit | busSetTempLimit | busUnload => exact issued_write _ _ _ _ _ _
  case pwmTick | seqIssue | seqSleep | seqWake | seqFinish => cases hi
  all_goals cases hw

/-- An operation begun with the mutexes free moves on, or waits for TL. -/
theorem begin_issued (hi : isInternal i = false) (hstart : s.sq.started = true) : Issued i s (begin i s) := by
  cases hw : hasWait i with
  | false =>
    rw [begin_eq_exec hw]
    exact exec_issued hm hi hw hstart
  | true =>
    obtain ⟨r, hr⟩ | rfl | ⟨id, rfl⟩ | ⟨sets, cb, rfl⟩ := hasWait_cases s.cfg hw
    · rw [begin_read hr]
      exact issued_beginRead _ _ _ _ _ _ _
    · exact issued_beginLineReset s
    · exact issued_beginBusReset id s
    · exact .movesOn (movesOn_push (u := s.addJob sets (.onCaller s.cur) cb) _ _ rfl rfl (by simp))

end
end

/-! ## What a move leaves of another agent's operations -/

section
variable {s t : State} {a : Agent}

theorem MovesOn.top (h : MovesOn s t) (ha : a ≠ s.cur) : t.topFlight a = s.topFlight a := by
  rcases h with h | ⟨ph, r, -, h⟩
  · exact topFlight_congr h a
  · exact topFlight_push_ne h ha

theorem Issued.top {i : Instr} (h : Issued i s (.next t)) (ha : a ≠ s.cur) : t.topFlight a = s.topFlight a := by
  cases h with
  | movesOn h => exact h.top ha
  | waits _ => exact topFlight_push_ne rfl ha

theorem execLineReset_top (h : execLineReset s = .next t) (ha : a ≠ s.cur) : t.topFlight a = s.topFlight a := by
  unfold execLineReset performLineReset at h
  split_ifs at h <;> cases h
  · exact topFlight_congr (by simp [lineReopen, lineClose, State.uartClose, State.uartOpen, State.setDirection,
      State.pinWrite, State.wait]) a
  · exact topFlight_push_ne rfl ha

theorem exec_top {i : Instr} (hn : NoTL s) (h : exec i s = .next t) (ha : a ≠ s.cur) : t.topFlight a = s.topFlight a := by
  by_cases hi : i = .lineReset
  · subst hi
    exact execLineReset_top h ha
  · exact (exec_stays hi h hn).top a ha

/-- An agent that goes on inside TL touches only its own operation. -/
theorem resumeHolder_top {ph : FlightPhase} (hph : ph.holdsTL = true) (h : resumePhase ph s = .next t) (ha : a ≠ s.cur) :
    t.topFlight a = s.topFlight a := by
  have hpop : MovesOn (s.popFlight s.cur) t := by
    cases ph <;> simp only [FlightPhase.holdsTL, Bool.false_eq_true] at hph <;> cases h
    case readReq x => exact movesOn_push _ _ (lineOnly_aturn _).fl (lineOnly_aturn _).cur (by simp)
    case readSettle x =>
      rcases resumeInspect_cases x (s.popFlight s.cur) with ⟨-, h⟩ | ⟨n, -, h⟩
      · exact .inl h
      · exact .inr ⟨_, _, by simp, h⟩
    case lineClosed => exact .inr ⟨.lineOpened, _, by simp, rfl⟩
    case lineOpened => exact .inl rfl
  exact (hpop.top ha).trans (topFlight_pop_ne ha)

theorem hasWait_of_isInternal {i : Instr} (hi : isInternal i = true) : hasWait i = false := by
  cases i
  case pwmTick | seqIssue | seqSleep | seqWake | seqFinish => rfl
  all_goals cases hi

theorem resumePhase_top {ph : FlightPhase} (hm : mutexesFree s) (hstart : s.sq.started = true)
    (hn : ph.holdsTL = false → NoTL s) (h : resumePhase ph s = .next t) (ha : a ≠ s.cur) : t.topFlight a = s.topFlight a := by
  by_cases hph : ph.holdsTL = true
  · exact resumeHolder_top hph h ha
  replace hn := hn (by simpa using hph)
  have hpop : Stays s (s.popFlight s.cur) := (Stays.refl s).pop
  cases ph
  case waiting i =>
    have hb : begin i (s.popFlight s.cur) = .next t := h
    refine Eq.trans ?_ (topFlight_pop_ne ha)
    cases hi : isInternal i with
    | false => exact Issued.top (hb ▸ begin_issued (s := s.popFlight s.cur) hm hi hstart) ha
    | true => exact exec_top (hpop hn).n (begin_eq_exec (hasWait_of_isInternal hi) _ ▸ hb) ha
  case resetWrote => cases h; exact (hpop.trans (((Stays.refl _).emit _).push rfl) hn).top a ha
  case resetWaited id => cases h; exact (hpop.trans (stay_resumeResetWaited id) hn).top a ha
  case pwmSplit c w d c0 => cases h; exact (hpop.trans (stay_resumeSplit c w d c0) hn).top a ha
  case playing j => cases h; exact (stay_resumePlaying j hn).top a ha
  case callback j o => cases h; exact (hpop.trans (stay_resumeCallback j o) hn).top a ha
  all_goals exact absurd rfl hph

theorem ne_of_mayIssue {b : Agent} {f : Flight} (hf : s.topFlight a = some f) (hcb : f.phase.isCallback = false)
    (hb : mayIssue b s = true) : a ≠ b := by
  rintro rfl
  exact Bool.false_ne_true (hcb.symm.trans (isCallback_of_mayIssue hf hb))

/-- A move of SCHED does nothing, or SCHED stands in no operation and stays away from TL. -/
theorem schedMove_stays {j : Nat} (h : schedMove j s = .next t) :
    t = s ∨ s.topFlight .sched = none ∧ Stays { s with cur := .sched } t := by
  unfold schedMove at h
  split at h
  · cases h
    exact .inl rfl
  split at h
  · cases h
  next htop =>
  split at h
  · exact .inr ⟨htop, stay_schedStep h⟩
  split at h
  · cases h
  split at h
  · cases h
  split at h
  · have hrun : Stays { s with cur := .sched } (({ s with cur := .sched } : State).setRunning (some j)) :=
      .same rfl rfl rfl rfl id
    exact .inr ⟨htop, hrun.trans (stay_schedStep h)⟩
  · cases h
    exact .inl rfl

/-- An agent that stands in an operation outside its onComplete bodies stands there until it goes on itself. -/
theorem runMove_top {m : Move} {f : Flight} (hs : LocksOk s) (hstart : s.sq.started = true) (h : runMove m s = .next t)
    (hf : s.topFlight a = some f) (hcb : f.phase.isCallback = false) :
    t.topFlight a = some f
      ∨ m = .resume a ∧ s.reached f.readyAt = true ∧ resumePhase f.phase { s with cur := a } = .next t := by
  cases m with
  | call b i =>
    obtain ⟨-, hb, h⟩ := issueBy_next h
    exact .inl ((exec_top (noTL_of_mayIssue hs.1 hb) h (ne_of_mayIssue hf hcb hb)).trans hf)
  | begin b i =>
    obtain ⟨hi, hb, h⟩ := issueBy_next h
    have hissued : Issued i { s with cur := b } (.next t) := h ▸ begin_issued (s := { s with cur := b }) hs.2 hi hstart
    exact .inl ((hissued.top (ne_of_mayIssue hf hcb hb)).trans hf)
  | frame b bytes =>
    simp only [runMove] at h
    split at h
    · obtain ⟨-, hb, h⟩ := issueBy_next h
      exact .inl ((exec_top (noTL_of_mayIssue hs.1 hb) h (ne_of_mayIssue hf hcb hb)).trans hf)
    · cases h
  | resume b =>
    simp only [runMove, resumeAgent] at h
    split at h
    · cases h
    next g hg =>
    split at h
    · next hr =>
      by_cases ha : a = b
      · subst ha
        cases hf.symm.trans hg
        exact .inr ⟨rfl, hr, h⟩
      · have hn (hph : g.phase.holdsTL = false) : NoTL { s with cur := b } := noTL_of_top hs.1 fun g' hg' => by
          cases hg.symm.trans hg'
          exact hph
        exact .inl ((resumePhase_top (s := { s with cur := b }) hs.2 hstart hn h ha).trans hf)
    · cases h
      exact .inl hf
  | tick c =>
    obtain ⟨htop, h⟩ := timerMove_next h
    have ha : a ≠ .tick c := by
      rintro rfl
      cases htop.symm.trans hf
    have hn : NoTL { s with cur := .tick c } := noTL_of_top hs.1 fun g hg => by cases htop.symm.trans hg
    exact .inl ((exec_top hn h ha).trans hf)
  | sched j =>
    obtain rfl | ⟨htop, hst⟩ := schedMove_stays h
    · exact .inl hf
    · have ha : a ≠ .sched := by
        rintro rfl
        cases htop.symm.trans hf
      have hn : NoTL { s with cur := .sched } := noTL_of_top hs.1 fun g hg => by cases htop.symm.trans hg
      exact .inl (((hst hn).top a ha).trans hf)
  | pass us =>
    cases h
    unfold passTime
    split <;> exact .inl hf
  | request b r => cases h
  | playPaths b reqs bl cb =>
    simp only [runMove] at h
    split at h
    · next hb =>
      exact .inl (((stay_seqPlayPaths h (noTL_of_mayIssue hs.1 hb)).top a (ne_of_mayIssue hf hcb hb)).trans hf)
    · cases h

end

/-! ## What a resumption makes of its own operation -/

section
variable {s t : State} {a : Agent} {f : Flight}

/-- How many times an agent inside TL goes on before it gives TL back, at most. -/
def FlightPhase.toGo : FlightPhase → Nat
  | .readReq x => 2 * x.left + 2
  | .readSettle x => 2 * x.left + 1
  | .lineClosed => 2
  | .lineOpened => 1
  | _ => 0

/-- An agent inside TL goes on to the next place of its operation, or frees TL. -/
theorem resumeHolder_progress {ph : FlightPhase} (hph : ph.holdsTL = true) :
    ∃ t, resumePhase ph s = .next t
      ∧ (t.T.tl = .free ∨ ∃ g, t.topFlight s.cur = some g ∧ g.phase.holdsTL = true ∧ g.phase.toGo < ph.toGo) := by
  cases ph <;> simp only [FlightPhase.holdsTL, Bool.false_eq_true] at hph <;> refine ⟨_, rfl, ?_⟩
  case readReq x =>
    refine .inr ⟨_, topFlight_push (resumeTurn_flights x (s.popFlight s.cur)), rfl, ?_⟩
    simp [FlightPhase.toGo]
  case readSettle x =>
    rcases resumeInspect_cases x (s.popFlight s.cur) with ⟨h, -⟩ | ⟨n, hn, h⟩
    · exact .inl h
    · refine .inr ⟨_, topFlight_push h, rfl, ?_⟩
      simp only [FlightPhase.toGo, hn]
      omega
  case lineClosed => exact .inr ⟨_, topFlight_push (s := s.popFlight s.cur) rfl, rfl, by simp [FlightPhase.toGo]⟩
  case lineOpened => exact .inl rfl

/-- An agent that goes on to `t` has left the place it stood in, or waits there still because TL is held. -/
def LeavesOrWaits (s t : State) : Prop :=
  t.standsIn s.cur ≠ s.standsIn s.cur
    ∨ s.T.tl ≠ .free ∧ t.trace = s.trace ∧ t.sq = s.sq ∧ ∃ g, t.topFlight s.cur = some g ∧ g.readyAt = t.now

/-- An operation that is over is stood in no more. -/
theorem leaves_of_same (hf : s.topFlight s.cur = some f) (h : t.flights = (s.popFlight s.cur).flights) : LeavesOrWaits s t := by
  refine .inl fun heq => ?_
  have hlen := congrArg List.length (heq.trans (standsIn_eq_cons hf))
  rw [standsIn_congr h, List.length_cons] at hlen
  omega

/-- An operation that goes on in another phase has left its place. -/
theorem leaves_of_push {ph : FlightPhase} {r : Rat} (hf : s.topFlight s.cur = some f) (hph : ph ≠ f.phase)
    (h : t.flights = { agent := s.cur, phase := ph, readyAt := r } :: (s.popFlight s.cur).flights) : LeavesOrWaits s t := by
  refine .inl fun heq => hph ?_
  rw [standsIn_push h, standsIn_eq_cons hf] at heq
  exact (List.cons.inj heq).1

/-- An operation put back where it was, at the clock's time, waits. -/
theorem waits_of_push {ph : FlightPhase} (hl : s.T.tl ≠ .free) :
    LeavesOrWaits s ((s.popFlight s.cur).pushFlight ph (s.popFlight s.cur).now) :=
  .inr ⟨hl, rfl, rfl, _, topFlight_push (s := s.popFlight s.cur) rfl, rfl⟩

theorem resumeResetWaited_progress {id : Int} (hf : s.topFlight s.cur = some f) :
    LeavesOrWaits s (resumeResetWaited id (s.popFlight s.cur)) := by
  unfold resumeResetWaited
  rcases hr : resetSecond id (s.popFlight s.cur) with ⟨u, v⟩ | ⟨u, e⟩ | _
  · obtain ⟨g, -, -, rfl, -⟩ := performWrite_done hr
    refine leaves_of_same hf ?_
    rw [sendFrame_eq, State.answer_flights, State.elapse_flights]
  · refine leaves_of_same hf ?_
    rw [(performWrite_raised hr).2]
    rfl
  · exact waits_of_push fun hl => performWrite_ne_blocked (s := s.popFlight s.cur) hl hr

theorem resumePwmSplit_progress {c w d : Int} {c0 : Rat} (hm : mutexesFree s) (hf : s.topFlight s.cur = some f) :
    LeavesOrWaits s (resumePwmSplit c w d c0 (s.popFlight s.cur)) := by
  refine leaves_of_same hf ?_
  cases hch : (s.popFlight s.cur).channel? c with
  | none => rw [resumePwmSplit_no_channel c0 hch]; rfl
  | some ch => rw [resumePwmSplit_free c0 hch (hm ch (channel?_mem hch))]; rfl

theorem begin_progress {i : Instr} (hm : mutexesFree s) (hstart : s.sq.started = true) (hf : s.topFlight s.cur = some f)
    (hph : f.phase = .waiting i) (hi : isInternal i = false) :
    ∃ t, begin i (s.popFlight s.cur) = .next t ∧ LeavesOrWaits s t := by
  have h := begin_issued (s := s.popFlight s.cur) hm hi hstart
  generalize begin i (s.popFlight s.cur) = o at h
  cases h with
  | movesOn h =>
    refine ⟨_, rfl, ?_⟩
    rcases h with h | ⟨ph, r, hne, h⟩
    · exact leaves_of_same hf h
    · exact leaves_of_push hf (hph ▸ hne i) h
  | waits hl => exact ⟨_, rfl, waits_of_push hl⟩

/-- A wait outside TL, playbacks and bodies, for a lock or for a time, of an operation a caller may issue. -/
structure FlightPhase.Waits (ph : FlightPhase) : Prop where
  noTL : ph.holdsTL = false
  issued : ∀ i, ph = .waiting i → isInternal i = false
  notPlaying : ∀ j, ph ≠ .playing j
  noBody : ∀ j o, ph ≠ .callback j o

theorem FlightPhase.Waits.isCallback {ph : FlightPhase} (h : ph.Waits) : ph.isCallback = false := by
  cases ph
  case callback j o => exact absurd rfl (h.noBody j o)
  all_goals rfl

/-- An agent that waits so and goes on leaves the place it stands in, or waits there still because TL is held. -/
theorem resumeWaiter_progress (hm : mutexesFree s) (hstart : s.sq.started = true) (hf : s.topFlight s.cur = some f)
    (hw : f.phase.Waits) : ∃ t, resumePhase f.phase s = .next t ∧ LeavesOrWaits s t := by
  obtain ⟨hph, hi, hplay, hcb⟩ := hw
  rcases hp : f.phase with i | x | x | _ | _ | id | id | ⟨c, w, d, c0⟩ | j | ⟨j, o⟩ <;> rw [hp] at hph
  case waiting => exact begin_progress hm hstart hf hp (hi i hp)
  case resetWrote => exact ⟨_, rfl, leaves_of_push (ph := .resetWaited id) hf (by simp [hp]) rfl⟩
  case resetWaited => exact ⟨_, rfl, resumeResetWaited_progress hf⟩
  case pwmSplit => exact ⟨_, rfl, resumePwmSplit_progress hm hf⟩
  case playing => exact absurd hp (hplay j)
  case callback => exact absurd hp (hcb j o)
  all_goals cases hph

end

end Machine
end Sys2Proof
end

/-! # In a fair run every wait ends (R139, D39) -/

section
namespace Sys2Proof
namespace Machine
open Claims

/-! ## A job that issues with the locks free makes a step (R119) -/

section
variable {s t : State} {j p : Nat} {J : Job}

theorem finishJob_ne_blocked (J : Job) (o : JobOutcome) (s : State) : finishJob J o s ≠ .blocked := by
  simp only [finishJob]
  split <;> simp

theorem issueCmd_ne_blocked {c : Cmd} (hl : s.T.tl = .free) (hm : mutexesFree s) : issueCmd J p c s ≠ .blocked := by
  unfold issueCmd
  split
  · split
    · simp
    · exact finishJob_ne_blocked _ _ _
    · next hb => exact absurd hb (performWrite_ne_blocked hl)
  · split
    · exact finishJob_ne_blocked _ _ _
    · next ch hok =>
      rw [if_neg (not_not.2 (unlocked_of_mutexesFree hm (pwmCheck_ok hok).1))]
      split_ifs <;> simp

/-- With the locks free a job that issues is not blocked. -/
theorem issueJob_ne_blocked (hl : s.T.tl = .free) (hm : mutexesFree s) : issueJob J p s ≠ .blocked := by
  unfold issueJob
  split
  · exact finishJob_ne_blocked _ _ _
  · split
    · exact issueCmd_ne_blocked hl hm
    · simp

/-- Something is said, or the job changes. -/
def JobChanges (j : Nat) (s t : State) : Prop := t.trace ≠ s.trace ∨ t.job? j ≠ s.job? j

theorem jobChanges_of_trace {e : List Event} (h : t.trace = s.trace ++ e) (he : e ≠ []) : JobChanges j s t :=
  .inl fun heq => he (List.append_right_eq_self.1 (h.symm.trans heq))

theorem jobChanges_setJob {u : State} {K : Job} (hJ : s.job? j = some J) (hu : u.sq.jobs = s.sq.jobs) (hid : K.id = J.id)
    (hne : K ≠ J) : JobChanges j s (u.setJob K) := by
  refine .inr fun heq => hne ?_
  rw [job?_setJob ((job?_congr hu j).trans hJ) (hid.trans (job_id hJ)), hJ] at heq
  exact Option.some.inj heq

/-- A step of a job that issues with the locks free says something or changes the job. -/
theorem issueJob_changes (hl : s.T.tl = .free) (hm : mutexesFree s) (hJ : s.job? j = some J) (hp : J.phase = .issue p) :
    JobChanges j s ((issueJob J p s).after s) := by
  have hcase := issueJob_cases J p s
  have hne := issueJob_ne_blocked (J := J) (p := p) hl hm
  generalize issueJob J p s = m at hcase hne
  cases hcase with
  | finished o => exact jobChanges_of_trace (finishJob_trace J o s) (List.cons_ne_nil _ _)
  | waits => exact absurd rfl hne
  | sleeps => exact jobChanges_of_trace rfl (List.cons_ne_nil _ _)
  | sends c f =>
    have hsent : (sendFrame f s).trace = s.trace ++ [.pin .rxEn .deasserted, .pin .txEn .asserted, .tx f] := by
      simp [sendFrame_eq]
    exact jobChanges_of_trace hsent (List.cons_ne_nil _ _)
  | jumps => exact jobChanges_of_trace rfl (List.cons_ne_nil _ _)
  | reads c ch _ _ _ _ hsplit =>
    refine jobChanges_setJob hJ rfl rfl fun h => ?_
    have hsome : some ch.cur = J.split := congrArg Job.split h
    rw [hsplit] at hsome
    cases hsome
  | plans =>
    refine jobChanges_setJob hJ rfl rfl fun h => ?_
    have hnext : JobPhase.issue (p + 1) = J.phase := congrArg Job.phase h
    rw [hp] at hnext
    exact absurd (JobPhase.issue.inj hnext) (Nat.succ_ne_self p)

theorem wakeJob_changes (J : Job) (s : State) : JobChanges j s (wakeJob J s) :=
  jobChanges_of_trace (e := [.wake J.id]) rfl (List.cons_ne_nil _ _)

/-- What counts as a step of an agent. -/
theorem JobChanges.steps (h : JobChanges j s t) : t.trace ≠ s.trace ∨ t.sq ≠ s.sq :=
  h.imp_right fun hne heq => hne (job?_congr (congrArg Sequencer.jobs heq) j)

theorem settle_job? (j k : Nat) (s : State) : (settle j s).job? k = s.job? k := by
  unfold settle
  split
  · rfl
  next K _ =>
  split
  · unfold suspendJob
    split <;> rfl
  · rfl
  · rfl

theorem settle_trace (j : Nat) (s : State) : (settle j s).trace = s.trace := by
  unfold settle
  split
  · rfl
  next K _ =>
  split
  · unfold suspendJob
    split <;> rfl
  · rfl
  · rfl

/-- With the locks free SCHED makes a step of a ready job. -/
theorem schedStep_changes (hl : s.T.tl = .free) (hm : mutexesFree s) (hJ : s.job? j = some J) (hready : jobReady J s = true) :
    ∃ t, schedStep j s = .next t ∧ JobChanges j s t := by
  unfold schedStep
  rw [hJ]
  unfold jobReady at hready
  split at hready
  · next p hp =>
    simp only [hp]
    refine ⟨_, rfl, ?_⟩
    rw [JobChanges, settle_job?, settle_trace]
    exact issueJob_changes hl hm hJ hp
  · next d hp =>
    simp only [hp, hready, if_true]
    exact ⟨_, rfl, wakeJob_changes J s⟩
  · cases hready

theorem ready_iff {J : Job} {s : State} : ready J s ↔ jobReady J s = true := by
  unfold ready
  cases hp : J.phase with
  | issue p => simp [jobReady_issue hp]
  | sleep d => simp [jobReady_sleep hp, sleepOver_iff]
  | done => simp [jobReady, hp]

end

/-! ## Who has an enabled step -/

section
variable {s t : State} {a : Agent} {j : Nat} {J : Job} {f : Flight}

theorem enabled_resume (h : resumeAgent a s = .next t) (hc : t.trace ≠ s.trace ∨ t.sq ≠ s.sq ∨ t.standsIn a ≠ s.standsIn a) :
    enabled a s := ⟨.resume a, rfl, rfl, t, h, hc⟩

/-- SCHED has one where TL is free and the job it runs, or any of its own where it runs none, is ready. -/
theorem enabled_sched (hs : LocksOk s) (hstart : s.sq.started = true) (hl : s.T.tl = .free) (hJ : s.job? j = some J)
    (hready : ready J s) (hrun : s.sq.running = some j ∨ s.sq.running = none) (htop : s.topFlight .sched = none)
    (hctx : J.ctx = .onSched) : enabled .sched s := by
  have hready := ready_iff.1 hready
  rcases hrun with hrun | hrun
  · obtain ⟨t, ht, hc⟩ := schedStep_changes (s := { s with cur := .sched }) hl hs.2 hJ hready
    exact ⟨.sched j, rfl, rfl, t, (schedMove_running hstart htop hrun j).trans ht, hc.steps.imp_right .inl⟩
  · obtain ⟨t, ht, hc⟩ := schedStep_changes (s := ({ s with cur := .sched } : State).setRunning (some j)) hl hs.2 hJ hready
    refine ⟨.sched j, rfl, rfl, t, (schedMove_ready hstart htop hrun hJ hctx hready).trans ht, ?_⟩
    have hc' : JobChanges j s t := hc
    exact hc'.steps.imp_right .inl

/-- A playing caller goes on with a job that is ready. -/
theorem resumePlaying_changes (hl : s.T.tl = .free) (hm : mutexesFree s) (hJ : s.job? j = some J) (hctx : J.ctx ≠ .onSched)
    (hready : jobReady J s = true) : JobChanges j s (resumePlaying j s) := by
  cases hp : J.phase with
  | issue p =>
    rw [resumePlaying_issue hJ hp]
    obtain ⟨hstays, hgone⟩ := playStep_issues hJ hctx hp rfl
    by_cases hnone : ((issueJob J p s).after s).job? j = none
    · obtain ⟨o, htrace, hstate⟩ := hgone hnone
      rw [hstate]
      exact jobChanges_of_trace (e := [.complete j o] ++ [.result s.cur .seqPlay (outcomeResult o)])
        (by rw [htrace, List.append_assoc]) (List.cons_ne_nil _ _)
    · rw [hstays hnone]
      exact issueJob_changes hl hm hJ hp
  | sleep d =>
    rw [jobReady_sleep hp] at hready
    simp only [resumePlaying, hJ, hp, hready, if_true]
    exact wakeJob_changes J s
  | done => simp [jobReady, hp] at hready

theorem enabled_player (hs : LocksOk s) (hl : s.T.tl = .free) (hJ : s.job? j = some J) (hready : ready J s)
    (hf : s.topFlight a = some f) (hph : f.phase = .playing j) (hr : s.reached f.readyAt = true)
    (hctx : J.ctx = .onCaller a) : enabled a s := by
  have hne : J.ctx ≠ .onSched := by simp [hctx]
  have hc : JobChanges j s (resumePlaying j { s with cur := a }) :=
    resumePlaying_changes (s := { s with cur := a }) hl hs.2 hJ hne (ready_iff.1 hready)
  exact enabled_resume (by rw [resumeAgent_eq hf hr, hph]; rfl) (hc.steps.imp_right .inl)

/-- A step of an agent that stands in an operation outside its bodies is that operation going on. -/
theorem takesStep_resumes {m : Move} (hstart : s.sq.started = true) (hf : s.topFlight a = some f)
    (hcb : f.phase.isCallback = false) (h : takesStep a m s) :
    ∃ t, runMove m s = .next t ∧ resumePhase f.phase { s with cur := a } = .next t
      ∧ (t.trace ≠ s.trace ∨ t.sq ≠ s.sq ∨ t.standsIn a ≠ s.standsIn a) := by
  obtain ⟨hagent, t, h, hc⟩ := h
  have hbusy (hb : mayIssue a s = true) : False := ne_of_mayIssue hf hcb hb rfl
  refine ⟨t, h, ?_, hc⟩
  cases m <;> simp only [Move.agent?, Option.some.injEq, reduceCtorEq] at hagent <;> subst hagent
  case call i => exact (hbusy (issueBy_next h).2.1).elim
  case begin i => exact (hbusy (issueBy_next h).2.1).elim
  case frame bytes =>
    simp only [runMove] at h
    split at h
    · exact (hbusy (issueBy_next h).2.1).elim
    · cases h
  case resume =>
    simp only [runMove, resumeAgent, hf] at h
    split at h
    · exact h
    · cases h
      simp at hc
  case tick c => cases hf.symm.trans (timerMove_next h).1
  case sched j =>
    obtain rfl | ⟨htop, -⟩ := schedMove_stays h
    · simp at hc
    · cases hf.symm.trans htop
  case playPaths reqs bl cb =>
    simp only [runMove] at h
    split at h
    · next hb => exact (hbusy hb).elim
    · cases h

theorem standsIn_head {ph : FlightPhase} {l : List FlightPhase} (h : s.standsIn a = ph :: l) :
    ∃ g, s.topFlight a = some g ∧ g.phase = ph := by
  cases hf : s.topFlight a with
  | none =>
    have hnil : s.flights.filter (fun f => f.agent == a) = [] := List.filter_eq_nil_iff.2 (List.find?_eq_none.1 hf)
    simp [State.standsIn, hnil] at h
  | some g =>
    rw [standsIn_eq_cons hf] at h
    exact ⟨g, rfl, (List.cons.inj h).1⟩

end

section
variable {s : State} {a : Agent} {f : Flight}

/-- The agent inside TL has one, once its wait is over. -/
theorem enabled_holder (hs : LocksOk s) (hf : s.topFlight a = some f) (hph : f.phase.holdsTL = true)
    (hr : s.reached f.readyAt = true) : enabled a s := by
  obtain ⟨t, ht, hprogress⟩ := resumeHolder_progress (s := { s with cur := a }) hph
  have hresume : resumeAgent a s = .next t := (resumeAgent_eq hf hr).trans ht
  refine enabled_resume hresume (.inr (.inr fun heq => ?_))
  obtain ⟨g, hg, hphase⟩ := standsIn_head (heq.trans (standsIn_eq_cons hf))
  rcases hprogress with hfree | ⟨g', hg', -, hlt⟩
  · have hnot := not_holdsTL_of_free (hs.resumeAgent hresume) hfree hg
    rw [hphase, hph] at hnot
    cases hnot
  · cases hg.symm.trans hg'
    exact absurd hlt (by rw [hphase]; exact lt_irrefl _)

/-- So has, with TL free, an agent that waits anywhere else but in a playback or a body. -/
theorem enabled_waiter (hs : LocksOk s) (hstart : s.sq.started = true) (hl : s.T.tl = .free) (hf : s.topFlight a = some f)
    (hw : f.phase.Waits) (hr : s.reached f.readyAt = true) : enabled a s := by
  obtain ⟨t, ht, hleaves⟩ := resumeWaiter_progress (s := { s with cur := a }) hs.2 hstart hf hw
  refine enabled_resume ((resumeAgent_eq hf hr).trans ht) (.inr (.inr ?_))
  rcases hleaves with hleaves | ⟨hheld, -⟩
  · exact hleaves
  · exact absurd hl hheld

end

/-! ## The states of a run -/

section
variable {m : Nat → Move} {s : Nat → State} (hrun : isRun m s)
include hrun

/-- A state of a run is what the move before led to, the script and the draws apart. -/
theorem isRun.next (n : Nat) : ∃ t l d, leadsTo (m n) (s n) t ∧ s (n + 1) = { t with script := l, draws := d } := by
  obtain ⟨t, ht, h⟩ := hrun n
  rcases h with h | h
  · exact ⟨t, t.script, t.draws, ht, h⟩
  · have hs := congrArg Prod.snd h
    simp only [nextMove] at hs
    split at hs
    · exact ⟨t, _, _, ht, hs⟩
    · exact ⟨t, _, _, ht, hs⟩

theorem isRun.keeps (hs : LocksOk (s 0)) (hstart : (s 0).sq.started = true) (n : Nat) :
    LocksOk (s n) ∧ (s n).sq.started = true ∧ (s n).cfg = (s 0).cfg := by
  induction n with
  | zero => exact ⟨hs, hstart, rfl⟩
  | succ n ih =>
    obtain ⟨hlocks, hst, hcfg⟩ := ih
    obtain ⟨t, l, d, ht, h⟩ := hrun.next n
    rw [h]
    rcases ht with ht | ⟨-, rfl⟩
    · have hany := runMove_any ht
      have hkept : LocksOk t := hlocks.runMove ht
      exact ⟨hkept, hany.bounds_started.1.trans hst, hany.cfg.trans hcfg⟩
    · exact ⟨hlocks, hst, hcfg⟩

section
variable (hs : LocksOk (s 0)) (hstart : (s 0).sq.started = true) {a : Agent} {f : Flight}
include hs hstart

/-- From a state of a run to the next one an agent stands where it stood, or has gone on. -/
theorem isRun.top {n : Nat} (hf : (s n).topFlight a = some f) (hcb : f.phase.isCallback = false) :
    (s (n + 1)).topFlight a = some f
      ∨ ∃ t l d, resumePhase f.phase { s n with cur := a } = .next t ∧ s (n + 1) = { t with script := l, draws := d } := by
  obtain ⟨hlocks, hst, -⟩ := hrun.keeps hs hstart n
  obtain ⟨t, l, d, ht, h⟩ := hrun.next n
  rcases ht with ht | ⟨-, rfl⟩
  · rcases runMove_top hlocks hst ht hf hcb with htop | ⟨-, -, hresume⟩
    · exact .inl (by rw [h]; exact htop)
    · exact .inr ⟨t, l, d, hresume, h⟩
  · exact .inl (by rw [h]; exact hf)

/-- Where an agent takes a step in a run, it has gone on. -/
theorem isRun.takes {n : Nat} (hf : (s n).topFlight a = some f) (hcb : f.phase.isCallback = false)
    (h : takesStep a (m n) (s n)) :
    ∃ t l d, resumePhase f.phase { s n with cur := a } = .next t ∧ s (n + 1) = { t with script := l, draws := d }
      ∧ (t.trace ≠ (s n).trace ∨ t.sq ≠ (s n).sq ∨ t.standsIn a ≠ (s n).standsIn a) := by
  obtain ⟨-, hst, -⟩ := hrun.keeps hs hstart n
  obtain ⟨t, ht, hresume, hc⟩ := takesStep_resumes hst hf hcb h
  obtain ⟨u, l, d, hu, hnext⟩ := hrun.next n
  rcases hu with hu | ⟨⟨q, hq⟩, -⟩
  · cases ht.symm.trans hu
    exact ⟨t, l, d, hresume, hnext, hc⟩
  · cases ht.symm.trans hq

/-- A waiting agent that goes on and stands where it stood waits again: nothing changes but when it may go on. -/
theorem isRun.waits_again {n : Nat} {t : State} {l : List Move} {d : Nat} (hf : (s n).topFlight a = some f)
    (hw : f.phase.Waits) (ht : resumePhase f.phase { s n with cur := a } = .next t)
    (hnext : s (n + 1) = { t with script := l, draws := d }) (hsame : (s (n + 1)).standsIn a = (s n).standsIn a) :
    t.trace = (s n).trace ∧ t.sq = (s n).sq ∧ t.standsIn a = (s n).standsIn a
      ∧ ∃ g, (s (n + 1)).topFlight a = some g ∧ g.readyAt = (s (n + 1)).now := by
  obtain ⟨hlocks, hst, -⟩ := hrun.keeps hs hstart n
  obtain ⟨u, hu, hleaves⟩ := resumeWaiter_progress (s := { s n with cur := a }) hlocks.2 hst hf hw
  cases ht.symm.trans hu
  have hstands : t.standsIn a = (s n).standsIn a := by rwa [hnext] at hsame
  rcases hleaves with hleaves | ⟨-, htrace, hsq, g, hg, hready⟩
  · exact absurd hstands hleaves
  · exact ⟨htrace, hsq, hstands, g, by rw [hnext]; exact hg, by rw [hnext]; exact hready⟩

variable (hfair : weaklyFair m s)
include hfair

theorem isRun.reached_succ {r : Rat} {n : Nat} (h : (s n).reached r = true) : (s (n + 1)).reached r = true := by
  cases ht : (s 0).cfg.timed with
  | false => exact reached_untimed (by rw [(hrun.keeps hs hstart (n + 1)).2.2, ht])
  | true =>
    have hnow := (hfair.time ht).1 n
    simp only [State.reached, (hrun.keeps hs hstart _).2.2, ht, Bool.not_true, Bool.false_or, decide_eq_true_eq] at h ⊢
    exact h.trans hnow

/-- Every time comes, and stays past. -/
theorem isRun.reaches (r : Rat) (n : Nat) : ∃ k, n ≤ k ∧ ∀ i, k ≤ i → (s i).reached r = true := by
  cases ht : (s 0).cfg.timed with
  | false => exact ⟨n, le_rfl, fun i _ => reached_untimed (by rw [(hrun.keeps hs hstart i).2.2, ht])⟩
  | true =>
    obtain ⟨hmono, hpast⟩ := hfair.time ht
    obtain ⟨k, hk⟩ := hpast r
    refine ⟨max n k, le_max_left _ _, fun i hi => ?_⟩
    have hnow : (s k).now ≤ (s i).now := monotone_nat_of_le_succ (f := fun n => (s n).now) hmono (le_of_max_le_right hi)
    simp [State.reached, hk.trans hnow]

/-- The operation that holds TL gives it back. -/
theorem isRun.frees {n : Nat} (hf : (s n).topFlight a = some f) (hph : f.phase.holdsTL = true) :
    ∃ k, n ≤ k ∧ (s k).T.tl = .free := by
  induction hN : f.phase.toGo using Nat.strong_induction_on generalizing n f with
  | _ N ih =>
  by_contra hno
  push Not at hno
  have hcb : f.phase.isCallback = false := by
    by_contra h
    rw [holdsTL_of_isCallback (by simpa using h)] at hph
    cases hph
  have hresume (k : Nat) (hk : n ≤ k) {t : State} {l : List Move} {d : Nat}
      (ht : resumePhase f.phase { s k with cur := a } = .next t) (hnext : s (k + 1) = { t with script := l, draws := d }) :
      False := by
    obtain ⟨u, hu, hfree | ⟨g, hg, hgph, hlt⟩⟩ := resumeHolder_progress (s := { s k with cur := a }) hph
    · cases ht.symm.trans hu
      exact hno (k + 1) (by omega) (by rw [hnext]; exact hfree)
    · cases ht.symm.trans hu
      obtain ⟨i, hi, hfree⟩ := ih _ (hN ▸ hlt) (n := k + 1) (f := g) (by rw [hnext]; exact hg) hgph rfl
      exact hno i (by omega) hfree
  have hstands (k : Nat) (hk : n ≤ k) : (s k).topFlight a = some f := by
    induction k, hk using Nat.le_induction with
    | base => exact hf
    | succ k hk ihk =>
      rcases hrun.top hs hstart ihk hcb with h | ⟨t, l, d, ht, hnext⟩
      · exact h
      · exact (hresume k hk ht hnext).elim
  obtain ⟨k, hk, hreach⟩ := hrun.reaches hs hstart hfair f.readyAt n
  have henabled := enabled_holder (hrun.keeps hs hstart k).1 (hstands k hk) hph (hreach k le_rfl)
  obtain ⟨i, hi, hstep⟩ := hfair.steps a k henabled
  obtain ⟨t, l, d, ht, hnext, -⟩ := hrun.takes hs hstart (hstands i (hk.trans hi)) hcb hstep
  exact hresume i (hk.trans hi) ht hnext

/-- TL is free again and again. -/
theorem isRun.free_again (n : Nat) : ∃ k, n ≤ k ∧ (s k).T.tl = .free := by
  cases hl : (s n).T.tl with
  | free => exact ⟨n, le_rfl, hl⟩
  | held a =>
    have htl := (hrun.keeps hs hstart n).1.1
    unfold tlOk at htl
    rw [hl] at htl
    obtain ⟨f, hfilter, -, htop, -⟩ := htl
    have hmem : f ∈ (s n).flights.filter (fun f => f.phase.holdsTL) := by rw [hfilter]; exact List.mem_singleton_self f
    exact hrun.frees hs hstart hfair htop (List.mem_filter.1 hmem).2

/-- An agent that waits outside TL, a playback and a body leaves the place it waits in. -/
theorem isRun.leaves {n : Nat} (hf : (s n).topFlight a = some f) (hw : f.phase.Waits) :
    ∃ k, n ≤ k ∧ (s k).standsIn a ≠ (s n).standsIn a := by
  by_contra hno
  push Not at hno
  have hsame {k : Nat} (hk : n ≤ k) : (s (k + 1)).standsIn a = (s k).standsIn a :=
    (hno (k + 1) (by omega)).trans (hno k hk).symm
  have hwaits {k : Nat} (hk : n ≤ k) {g : Flight} (hg : (s k).topFlight a = some g) : g.phase.Waits := by
    have heq := hno k hk
    rw [standsIn_eq_cons hf, standsIn_eq_cons hg] at heq
    rw [(List.cons.inj heq).1]
    exact hw
  have hstands (k : Nat) (hk : n ≤ k) :
      ∃ g, (s k).topFlight a = some g ∧ (g.readyAt = f.readyAt ∨ (s k).reached g.readyAt = true) := by
    induction k, hk using Nat.le_induction with
    | base => exact ⟨f, hf, .inl rfl⟩
    | succ k hk ih =>
      obtain ⟨g, hg, hready⟩ := ih
      rcases hrun.top hs hstart hg (hwaits hk hg).isCallback with h | ⟨t, l, d, ht, hnext⟩
      · exact ⟨g, h, hready.imp_right (hrun.reached_succ hs hstart hfair)⟩
      · obtain ⟨-, -, -, g', hg', hnow⟩ := hrun.waits_again hs hstart hg (hwaits hk hg) ht hnext (hsame hk)
        exact ⟨g', hg', .inr (by simp [State.reached, hnow])⟩
  obtain ⟨k₀, hk₀, hreach⟩ := hrun.reaches hs hstart hfair f.readyAt n
  obtain ⟨k, hk, hl⟩ := hrun.free_again hs hstart hfair k₀
  obtain ⟨g, hg, hready⟩ := hstands k (hk₀.trans hk)
  have hr : (s k).reached g.readyAt = true := by
    rcases hready with h | h
    · rw [h]
      exact hreach k hk
    · exact h
  obtain ⟨hlocks, hst, -⟩ := hrun.keeps hs hstart k
  obtain ⟨i, hi, hstep⟩ := hfair.steps a k (enabled_waiter hlocks hst hl hg (hwaits (hk₀.trans hk) hg) hr)
  have hni : n ≤ i := hk₀.trans (hk.trans hi)
  obtain ⟨g', hg', -⟩ := hstands i hni
  obtain ⟨t, l, d, ht, hnext, hc⟩ := hrun.takes hs hstart hg' (hwaits hni hg').isCallback hstep
  obtain ⟨htrace, hsq, hstand, -⟩ := hrun.waits_again hs hstart hg' (hwaits hni hg') ht hnext (hsame hni)
  rcases hc with hc | hc | hc
  · exact hc htrace
  · exact hc hsq
  · exact hc hstand

end
end

end Machine

open Machine

/-- Settles O18: TL is given back, and then whoever waits for it or plays a ready job has an enabled step. -/
theorem fairRunEndsWaits : Obligations.FairRunEndsWaits := by
  unfold Obligations.FairRunEndsWaits
  intro m s hrun hfair htl hm hstart n
  have hs : LocksOk (s 0) := ⟨htl, hm⟩
  obtain ⟨hlocks, hst, -⟩ := hrun.keeps hs hstart n
  have hfree := hrun.free_again hs hstart hfair
  refine ⟨hfree n, fun a f hf hi hplay hcb => ?_, fun hl j J hJ hready => ⟨fun hrunning htop hctx => ?_,
    fun a f hf hph hr hctx => ?_⟩⟩
  · by_cases hph : f.phase.holdsTL = true
    · obtain ⟨k, hk, hlk⟩ := hfree n
      refine ⟨k, hk, fun heq => ?_⟩
      obtain ⟨g, hg, hphase⟩ := standsIn_head (heq.trans (standsIn_eq_cons hf))
      have hnot := not_holdsTL_of_free (hrun.keeps hs hstart k).1 hlk hg
      rw [hphase, hph] at hnot
      cases hnot
    · exact hrun.leaves hs hstart hfair hf ⟨by simpa using hph, hi, hplay, hcb⟩
  · exact hfair.steps .sched n (enabled_sched hlocks hst hl hJ hready hrunning htop hctx)
  · exact hfair.steps a n (enabled_player hlocks hl hJ hready hf hph hr hctx)

end Sys2Proof
end
